-- ==== Sys2Proof/Word.lean ====
section
/-! DEFINITION. The word types: the byte of every buffer (00_scope R11) and the 64-bit host word of the register block
(10_state R33). Lengths, positions and addresses are naturals: their arithmetic is exact (R12, R46). -/
namespace Sys2Proof

/-- A byte is 8 bits (R11). -/
abbrev Byte := BitVec 8

/-- Every host register is 64 bits wide (R33). -/
abbrev Word := BitVec 64

end Sys2Proof
end

