-- ==== Sys2Proof/Config.lean ====
section
/-! DEFINITION. The parameters of R8: the constants the spec fixes, the build parameters it leaves OPEN (arguments of the model,
held by State; log entries 1 and 2) and the free values, which are opaque (log entries 5, 6, 8, 11). -/
namespace Sys2Proof
namespace Config

/-- `HT_ENTRIES` (R8): hash table slots. -/
abbrev htEntries : Nat := 65536
/-- `MIN_MATCH` (R8): the shortest match. -/
abbrev minMatch : Nat := 4
/-- `MAX_OFFSET` (R8): the largest match offset. -/
abbrev maxOffset : Nat := 65535
/-- `MIN_MATCH_INPUT` (R8, R149): the smallest input on which matching runs. -/
abbrev minMatchInput : Nat := 13
/-- `EXT_WINDOW` (R8, R157): the extender's window in bytes; not architectural (R10). -/
abbrev extWindow : Nat := 16
/-- `COPY_WORD` (R8, R230): the wide copy's width in bytes; not architectural (R10). -/
abbrev copyWord : Nat := 8
/-- `BOUND_SLACK` (R8, R188): the constant term of the worst-case bound. -/
abbrev boundSlack : Nat := 16
/-- `HASH_MULT` (R8, R141). -/
def hashMult : BitVec 32 := 0x9E3779B1#32
/-- `MFLIMIT` (R8, R171). -/
abbrev mfLimit : Nat := 12
/-- `LASTLITERALS` (R8, R174). -/
abbrev lastLiterals : Nat := 5

end Config

/-- `EXACT_OVERRUN_ERROR` (R8, R126). -/
inductive OverrunError where
  | outputTooSmall
  | invalidData
  deriving DecidableEq, Repr

/-- `COMPRESSOR` (R8, R129). -/
inductive CompressorKind where
  | reference
  | anyValid
  deriving DecidableEq, Repr

/-- The policy of a host-layer check the spec leaves OPEN: go on, or fail (D34, D40). -/
inductive Policy where
  | ignore
  | reject
  deriving DecidableEq, Repr

/-- The OPEN values of R8 and of the host layer (92 D2 to D43): arguments of the model, fixed for a machine. -/
structure Params where
  /-- `ADDR_W` (R8): width of a host byte address. -/
  addrW : Nat
  /-- `SIZE_W` (R8): width of every length, capacity, position and hash-table entry. -/
  sizeW : Nat
  /-- `REG_BASE` (R8, R33): host address of the register block. -/
  regBase : Nat
  /-- The platform's other devices, each its first address and its length in bytes (R80; log entry 14). -/
  devices : List (Nat × Nat)
  /-- `EXACT_OVERRUN_ERROR` (R126). -/
  exactOverrun : OverrunError
  /-- `BUS_ERROR_POSSIBLE` (R81). -/
  busErrorPossible : Bool
  /-- `COMPRESSOR` (R129). -/
  compressor : CompressorKind
  /-- `FRAME_RESERVED_POLICY` (R243, R244): undescribed FLG and BD bits. -/
  frameReserved : Policy
  /-- `HC_VERIFY` (R246). -/
  hcVerify : Bool
  /-- `CONTENT_SIZE_CHECK` (R258). -/
  contentSizeCheck : Bool
  /-- `OVERSIZE_BLOCK_POLICY` (R258). -/
  oversizeBlock : Policy
  /-- `TRAILING_BYTES_POLICY` (R258). -/
  trailingBytes : Policy
  /-- `STREAM_CHECKSUM_VERIFY` (R264). -/
  streamChecksumVerify : Bool
  /-- `STREAM_EMPTY_FLUSH` (R261): whether a flush of an empty buffer writes a record. -/
  streamEmptyFlush : Bool
  /-- `STREAM_FINISH_HEADER` (R261): whether a finish before any write writes the header. -/
  streamFinishHeader : Bool
  /-- `OPT_CHECKSUM` (R252). -/
  optChecksum : Bool
  /-- `OPT_CONTENT_SIZE` (R252). -/
  optContentSize : Bool
  /-- `OPT_BLOCK_CLASS` (R252), 4 to 7. -/
  optBlockClass : BitVec 3
  /-- `OPT_INDEPENDENT` (R252): recorded in FLG bit 5 only. -/
  optIndependent : Bool
  /-- `HOST_BLOCK_CAP` (R255). -/
  hostBlockCap : Nat
  /-- `HOST_INITIAL_CAP` (R256). -/
  hostInitialCap : Nat
  deriving DecidableEq, Repr

namespace Params

/-- The number of host addresses, 2^ADDR_W (R70). -/
def addrSpace (c : Params) : Nat := 2 ^ c.addrW

/-- `MAX_SIZE` = 2^SIZE_W − 1 (R9). -/
def maxSize (c : Params) : Nat := 2 ^ c.sizeW - 1

/-- Parameters a machine can be built with: the 64-bit registers and ID's fields hold the widths (R33, R41), the register block is
naturally aligned and inside the address space (R33), and the block class is one the spec sizes (R244). R8 gives the widths no lower
bound: that a length has at least one bit is the model's choice (DESIGN CHOICE, log entry 1); an address has the eight bits the
register block needs. -/
def wf (c : Params) : Bool :=
  1 ≤ c.sizeW && c.sizeW ≤ 64 && c.addrW ≤ 64 && c.regBase % 8 == 0 && c.regBase + 256 ≤ 2 ^ c.addrW
    && 4 ≤ c.optBlockClass.toNat

/-- The defaults of R8; where the spec gives no default, log entry 2's choice (DESIGN CHOICE, unsafe). -/
def default : Params where
  addrW := 64
  sizeW := 32
  regBase := 0xF0000000
  devices := []
  exactOverrun := .outputTooSmall
  busErrorPossible := true
  compressor := .reference
  frameReserved := .reject
  hcVerify := true
  contentSizeCheck := true
  oversizeBlock := .reject
  trailingBytes := .reject
  streamChecksumVerify := true
  streamEmptyFlush := false
  streamFinishHeader := true
  optChecksum := false
  optContentSize := false
  optBlockClass := 4#3
  optIndependent := true
  hostBlockCap := 65536
  hostInitialCap := 65536

end Params

namespace Config

/-- A free destination byte: draw number and address (R231, R322; log entry 5). -/
opaque freeByte : Nat → Nat → Byte

/-- A free working-register value: draw number and register (R45; log entry 6). -/
opaque freeNat : Nat → Nat → Nat

/-- Free hash-table contents as (slot, position) pairs (R51; log entry 6). -/
opaque freeTable : Nat → List (Nat × Nat)

/-- The block an `AnyValid` compressor proposes (R129; log entry 11). -/
opaque freeBlock : Nat → List Byte

/-- `CHECKSUM32` (R249): a function from byte strings that the spec does not name. -/
opaque checksum32 : List Byte → BitVec 32

end Config
end Sys2Proof
end

