-- ==== Sys2Proof/Syntax.lean ====
section
/-! DEFINITION. The instructions: one constructor for every mnemonic of spec/opcode_table.json, with the operands the spec gives
it. Command words carry no operand (R90); block elements carry their decoded fields (R92); internal operations carry the
arguments their rules name; host frame elements carry their field values (R241). -/
namespace Sys2Proof

inductive Instr where
  /-- COMPRESS: CMD opcode 0x1 (R123). -/
  | compress
  /-- DECOMPRESS: CMD opcode 0x2 (R124). -/
  | decompress
  /-- DECOMPRESS_EXACT: CMD opcode 0x3 (R125). -/
  | decompressExact
  /-- BOUND: CMD opcode 0x4 (R127). -/
  | bound
  /-- RESERVED: CMD opcodes 0x0 and 0x5 to 0xF (R128), one constructor for the table's twelve rows. -/
  | reserved (op : BitVec 4)
  /-- TOKEN: the L and M nibbles (R93). -/
  | token (l m : BitVec 4)
  /-- EXT_CONT: an extension byte 0xFF (R94). -/
  | extCont
  /-- EXT_TERM: a terminal extension byte 0 to 254 (R94). -/
  | extTerm (t : Byte)
  /-- LITERAL: one literal byte (R95). -/
  | literal (b : Byte)
  /-- OFFSET16: a little-endian match offset (R97). -/
  | offset16 (o : BitVec 16)
  /-- SEQ: a `match_seq` with its literals, offset and match length (R92, R103). -/
  | seq (lits : List Byte) (offset : BitVec 16) (len : Nat)
  /-- LAST: a `final_seq` with its literals (R92, R103). -/
  | last (lits : List Byte)
  /-- FIND(p) (R140). -/
  | find (p : Nat)
  /-- EXTEND(a, b, max) (R155). -/
  | extend (a b max : Nat)
  /-- COMPRESS_BLOCK (R170). -/
  | compressBlock
  /-- EMIT_SEQ(s, Ll, O, Lm) (R176). -/
  | emitSeq (s ll : Nat) (o : BitVec 16) (lm : Nat)
  /-- WRITE_EXT(v) (R178). -/
  | writeExt (v : Nat)
  /-- EMIT_LAST(s, Ll) (R184). -/
  | emitLast (s ll : Nat)
  /-- DECOMPRESS_BLOCK (R195). -/
  | decompressBlock
  /-- READ_LEN(nib) (R199). -/
  | readLen (nib : BitVec 4)
  /-- COPY_LITERALS(s, L) (R225). -/
  | copyLiterals (s l : Nat)
  /-- COPY_LITERALS_DEC(L) (R226). -/
  | copyLiteralsDec (l : Nat)
  /-- COPY_MATCH(offset, L) (R228). -/
  | copyMatch (o : BitVec 16) (l : Nat)
  /-- FRAME_MAGIC: 0x184D2204 (R242). -/
  | frameMagic
  /-- FRAME_FLG (R243). -/
  | frameFlg (b : Byte)
  /-- FRAME_BD (R244). -/
  | frameBd (b : Byte)
  /-- FRAME_CONTENT_SIZE (R245). -/
  | frameContentSize (v : BitVec 64)
  /-- FRAME_HC (R246). -/
  | frameHc (b : Byte)
  /-- BLOCK_COMPRESSED: a length word with bit 31 clear, nonzero (R247). -/
  | blockCompressed (len : BitVec 31)
  /-- BLOCK_STORED: a length word with bit 31 set (R247). -/
  | blockStored (len : BitVec 31)
  /-- END_MARK: a zero length word (R248). -/
  | endMark
  /-- CONTENT_CHECKSUM (R249). -/
  | contentChecksum (v : BitVec 32)
  deriving DecidableEq, Repr

end Sys2Proof
end

