-- ==== Sys2Proof/WellFormed.lean ====
section
/-! DEFINITION. Which terms of `Instr` are instructions: the checks the encodings of 30_encoding.md and 47 make on operands. -/
namespace Sys2Proof

/-- The reserved CMD opcodes 0x0 and 0x5 to 0xF (R90). -/
def reservedOp (op : BitVec 4) : Bool := op == 0#4 || 5#4 ≤ op

/-- A match has offset 1 to 65,535 (R97; 0 is encodable but is no legal offset) and length at least 4 (R96). Offsets are checked
where the rule takes a legal match as operand (R176, R228), lengths wherever the encoding cannot spell them (R103). -/
def Instr.wf : Instr → Bool
  | .compress => true
  | .decompress => true
  | .decompressExact => true
  | .bound => true
  | .reserved op => reservedOp op
  | .token _ _ => true
  | .extCont => true
  | .extTerm t => t != 0xFF#8
  | .literal _ => true
  | .offset16 _ => true
  | .seq _ _ len => Config.minMatch ≤ len
  | .last _ => true
  | .find _ => true
  | .extend _ _ _ => true
  | .compressBlock => true
  | .emitSeq _ _ o lm => o != 0#16 && Config.minMatch ≤ lm
  | .writeExt _ => true
  | .emitLast _ _ => true
  | .decompressBlock => true
  | .readLen _ => true
  | .copyLiterals _ _ => true
  | .copyLiteralsDec _ => true
  | .copyMatch o l => o != 0#16 && Config.minMatch ≤ l
  | .frameMagic => true
  | .frameFlg _ => true
  | .frameBd _ => true
  | .frameContentSize _ => true
  | .frameHc _ => true
  | .blockCompressed len => len != 0#31
  | .blockStored _ => true
  | .endMark => true
  | .contentChecksum _ => true

end Sys2Proof
end

