-- ==== Sys2Proof/Decode.lean ====
section
/-! DEFINITION. The decoder and, after it, the encoder of the three encodings: the command word (R90), the block format
(R91 to R103) and the host frame elements (R241 to R249). Which encoding applies is told by position only (R92, R241), so the
decoder takes the position as a `Context`. -/
namespace Sys2Proof

/-- Where in its stream the decoder stands. -/
inductive Context where
  /-- a word written to CMD (R90), eight bytes little-endian -/
  | command
  /-- a token boundary of a block (R93) -/
  | token
  /-- inside a `lit_ext` or `match_ext` (R94) -/
  | ext
  /-- inside a literal run (R95) -/
  | literal
  /-- after the literals of a `match_seq` (R97) -/
  | offset
  /-- a token boundary, reading a whole `match_seq` or `final_seq` of a block that ends where the bytes end (R92) -/
  | element
  /-- the start of a frame (R242) -/
  | frameMagic
  /-- after the magic (R243) -/
  | frameFlg
  /-- after FLG (R244) -/
  | frameBd
  /-- after BD with FLG bit 3 set (R245) -/
  | frameSize
  /-- at the header checksum (R246) -/
  | frameHc
  /-- at a block record or the end marker (R247, R248) -/
  | blockWord
  /-- after the end marker with FLG bit 2 set (R249) -/
  | checksum
  deriving DecidableEq, Repr

/-- Why the decoder gives no instruction. -/
inductive Reject where
  /-- the stream ends inside the element (R199, R200, R205, R257) -/
  | truncated
  /-- the first four bytes of a frame are not the magic (R242) -/
  | notMagic
  deriving DecidableEq, Repr

inductive Decoded where
  | instr (i : Instr) (rest : List Byte)
  | rejected (r : Reject)
  deriving DecidableEq, Repr

/-! ### Byte order (R75, R77): every multi-byte field is little-endian. -/

/-- The `k` low bytes of `v`, least significant first. -/
def leBytes : Nat → Nat → List Byte
  | 0, _ => []
  | k + 1, v => BitVec.ofNat 8 v :: leBytes k (v / 256)

/-- The number a little-endian byte string spells. -/
def leVal : List Byte → Nat
  | [] => 0
  | b :: t => b.toNat + 256 * leVal t

/-! ### Fields -/

/-- `token[7:4]`, the literal nibble (R93). -/
def tokenLit (t : Byte) : BitVec 4 := t.extractLsb' 4 4

/-- `token[3:0]`, the match nibble (R93). -/
def tokenMatch (t : Byte) : BitVec 4 := t.extractLsb' 0 4

/-- The token byte of two nibbles (R93). -/
def tokenByte (l m : BitVec 4) : Byte := l ++ m

/-- The opcode `w[3:0]` of a command word; the other bits are ignored (R90). -/
def commandOp (w : Word) : BitVec 4 := w.extractLsb' 0 4

/-! ### Decoding -/

/-- The instruction of a word written to CMD: every word has one (R90, R128). -/
def decodeCommand (w : Word) : Instr :=
  let op := commandOp w
  if op = 1#4 then .compress
  else if op = 2#4 then .decompress
  else if op = 3#4 then .decompressExact
  else if op = 4#4 then .bound
  else .reserved op

/-- The value of the extension bytes at the head of a stream added to `v`, and the bytes after them (R94). -/
def parseExt : List Byte → Nat → Option (Nat × List Byte)
  | [], _ => none
  | b :: t, v => if b = 0xFF#8 then parseExt t (v + 255) else some (v + b.toNat, t)

/-- A length from its nibble and, when that is 15, its extension (R95, R96). -/
def parseLen (nib : BitVec 4) (bs : List Byte) : Option (Nat × List Byte) :=
  if nib = 15#4 then parseExt bs 15 else some (nib.toNat, bs)

/-- One element of a block that ends where the bytes end (R92): a `final_seq` exactly when no byte is left after the literals. -/
def decodeElement : List Byte → Decoded
  | [] => .rejected .truncated
  | t :: r =>
    match parseLen (tokenLit t) r with
    | none => .rejected .truncated
    | some (ll, r1) =>
      if r1.length < ll then .rejected .truncated
      else
        match r1.drop ll with
        | [] => .instr (.last (r1.take ll)) []
        | [_] => .rejected .truncated
        | lo :: hi :: r3 =>
          match parseLen (tokenMatch t) r3 with
          | none => .rejected .truncated
          | some (m, r4) => .instr (.seq (r1.take ll) (BitVec.ofNat 16 (leVal [lo, hi])) (Config.minMatch + m)) r4

/-- A block record's length word or the end marker (R247, R248). -/
def decodeBlockWord (w : BitVec 32) : Instr :=
  if w = 0#32 then .endMark
  else if w.getLsbD 31 then .blockStored (w.extractLsb' 0 31)
  else .blockCompressed (w.extractLsb' 0 31)

/-- The fixed-size field at the head of a stream: its `k` bytes as a little-endian number, and the rest. -/
def takeField (k : Nat) (bs : List Byte) : Option (Nat × List Byte) :=
  if bs.length < k then none else some (leVal (bs.take k), bs.drop k)

/-- Frame magic 0x184D2204 (R242). -/
def frameMagicValue : Nat := 0x184D2204

/-- A fixed-size field of `k` bytes read as the instruction `f` makes of it. -/
def decodeField (k : Nat) (bs : List Byte) (f : Nat → Instr) : Decoded :=
  match takeField k bs with
  | none => .rejected .truncated
  | some (v, rest) => .instr (f v) rest

/-- The decoder: total on any bytes, rejecting by name. -/
def decode (x : Context) (bs : List Byte) : Decoded :=
  match x with
  | .command => decodeField 8 bs fun v => decodeCommand (BitVec.ofNat 64 v)
  | .token => decodeField 1 bs fun v => .token (tokenLit (BitVec.ofNat 8 v)) (tokenMatch (BitVec.ofNat 8 v))
  | .ext => decodeField 1 bs fun v => if v = 255 then .extCont else .extTerm (BitVec.ofNat 8 v)
  | .literal => decodeField 1 bs fun v => .literal (BitVec.ofNat 8 v)
  | .offset => decodeField 2 bs fun v => .offset16 (BitVec.ofNat 16 v)
  | .element => decodeElement bs
  | .frameMagic =>
    match takeField 4 bs with
    | none => .rejected .truncated
    | some (v, rest) => if v = frameMagicValue then .instr .frameMagic rest else .rejected .notMagic
  | .frameFlg => decodeField 1 bs fun v => .frameFlg (BitVec.ofNat 8 v)
  | .frameBd => decodeField 1 bs fun v => .frameBd (BitVec.ofNat 8 v)
  | .frameSize => decodeField 8 bs fun v => .frameContentSize (BitVec.ofNat 64 v)
  | .frameHc => decodeField 1 bs fun v => .frameHc (BitVec.ofNat 8 v)
  | .blockWord => decodeField 4 bs fun v => decodeBlockWord (BitVec.ofNat 32 v)
  | .checksum => decodeField 4 bs fun v => .contentChecksum (BitVec.ofNat 32 v)

/-- The elements of a whole block, in order (R92); `fuel` bounds their number, and a block of `k` bytes has at most `k`. -/
def parseElements : Nat → List Byte → Option (List Instr)
  | _, [] => some []
  | 0, _ :: _ => none
  | fuel + 1, bs@(_ :: _) =>
    match decodeElement bs with
    | .rejected _ => none
    | .instr i rest => (parseElements fuel rest).map (i :: ·)

/-- A block's elements, or none when it is not of the grammar of R92. -/
def parseBlock (bs : List Byte) : Option (List Instr) := parseElements bs.length bs

/-! ### Encoding -/

/-- The nibble of a length (R98). -/
def lenNibble (v : Nat) : BitVec 4 := BitVec.ofNat 4 (min v 15)

/-- The extension bytes that spell `v` (R94, R178): `v / 255` bytes 0xFF and the terminal byte. -/
def extBytes (v : Nat) : List Byte := List.replicate (v / 255) 0xFF#8 ++ [BitVec.ofNat 8 (v % 255)]

/-- The extension a length carries: none below 15 (R98). -/
def lenExt (v : Nat) : List Byte := if 15 ≤ v then extBytes (v - 15) else []

/-- `e(v)`, the number of extension bytes of a length (R99). -/
def extLength (v : Nat) : Nat := if v < 15 then 0 else (v - 15) / 255 + 1

/-- `SEQ lits, off=O, len=M` (R103). -/
def encodeSeq (lits : List Byte) (offset : BitVec 16) (len : Nat) : List Byte :=
  tokenByte (lenNibble lits.length) (lenNibble (len - Config.minMatch)) :: lenExt lits.length ++ lits
    ++ leBytes 2 offset.toNat ++ lenExt (len - Config.minMatch)

/-- `LAST lits` (R103), the M nibble written 0 (R100). -/
def encodeLast (lits : List Byte) : List Byte :=
  tokenByte (lenNibble lits.length) 0#4 :: lenExt lits.length ++ lits

/-- The bytes of an instruction; internal operations have no encoding. -/
def encode : Instr → Option (List Byte)
  | .compress => some (leBytes 8 1)
  | .decompress => some (leBytes 8 2)
  | .decompressExact => some (leBytes 8 3)
  | .bound => some (leBytes 8 4)
  | .reserved op => some (leBytes 8 op.toNat)
  | .token l m => some [tokenByte l m]
  | .extCont => some [0xFF#8]
  | .extTerm t => some [t]
  | .literal b => some [b]
  | .offset16 o => some (leBytes 2 o.toNat)
  | .seq lits offset len => some (encodeSeq lits offset len)
  | .last lits => some (encodeLast lits)
  | .find _ => none
  | .extend _ _ _ => none
  | .compressBlock => none
  | .emitSeq _ _ _ _ => none
  | .writeExt _ => none
  | .emitLast _ _ => none
  | .decompressBlock => none
  | .readLen _ => none
  | .copyLiterals _ _ => none
  | .copyLiteralsDec _ => none
  | .copyMatch _ _ => none
  | .frameMagic => some (leBytes 4 frameMagicValue)
  | .frameFlg b => some [b]
  | .frameBd b => some [b]
  | .frameContentSize v => some (leBytes 8 v.toNat)
  | .frameHc b => some [b]
  | .blockCompressed len => some (leBytes 4 len.toNat)
  | .blockStored len => some (leBytes 4 (2 ^ 31 + len.toNat))
  | .endMark => some (leBytes 4 0)
  | .contentChecksum v => some (leBytes 4 v.toNat)

/-- The position at which an instruction's bytes are read. -/
def contextOf : Instr → Option Context
  | .compress | .decompress | .decompressExact | .bound | .reserved _ => some .command
  | .token _ _ => some .token
  | .extCont | .extTerm _ => some .ext
  | .literal _ => some .literal
  | .offset16 _ => some .offset
  | .seq _ _ _ | .last _ => some .element
  | .find _ | .extend _ _ _ | .compressBlock | .emitSeq _ _ _ _ | .writeExt _ | .emitLast _ _ => none
  | .decompressBlock | .readLen _ | .copyLiterals _ _ | .copyLiteralsDec _ | .copyMatch _ _ => none
  | .frameMagic => some .frameMagic
  | .frameFlg _ => some .frameFlg
  | .frameBd _ => some .frameBd
  | .frameContentSize _ => some .frameSize
  | .frameHc _ => some .frameHc
  | .blockCompressed _ | .blockStored _ | .endMark => some .blockWord
  | .contentChecksum _ => some .checksum

/-- The bytes of a list of elements, in order (R92). -/
def encodeElements : List Instr → List Byte
  | [] => []
  | i :: t => (encode i).getD [] ++ encodeElements t

/-! ### The opcode table's words -/

/-- The context of a table word. Several rows share bit patterns and only their position tells them apart; log entry 13 says
which position each word is read at. -/
def tableContext (nbits w : Nat) : Option Context :=
  if nbits = 8 then
    if w < 16 then some .command
    else if w = 255 then some .ext
    else if w / 64 = 1 then some .frameFlg
    else some .token
  else if nbits = 16 then some .offset
  else if nbits = 32 then (if w = frameMagicValue then some .frameMagic else some .blockWord)
  else if nbits = 64 then some .command
  else none

/-- How many bytes an instruction of this context has at most, operand bytes that the table gives no bits included. -/
def contextBytes : Context → Nat
  | .command => 8
  | .token => 1
  | .ext => 1
  | .literal => 1
  | .offset => 2
  | .element => 1
  | .frameMagic => 4
  | .frameFlg => 1
  | .frameBd => 1
  | .frameSize => 8
  | .frameHc => 1
  | .blockWord => 4
  | .checksum => 4

/-- The instruction the decoder reads from a table word, laid out little-endian with zeros above it. -/
def decodeTableWord (nbits w : Nat) : Option Instr :=
  match tableContext nbits w with
  | none => none
  | some x =>
    match decode x (leBytes (contextBytes x) w) with
    | .instr i _ => some i
    | .rejected _ => none

end Sys2Proof
end

