-- ==== Sys2Proof/Machine/State.lean ====
section
/-! DEFINITION. The machine's state as plain data: the register block, the working registers, the hash table, the phase, host
memory, the inputs the platform and the scheduler supply, and the host side (10_state.md; INVENTORY.md lists every piece). -/
namespace Sys2Proof
namespace Machine

/-- The commands of R90. -/
inductive Command where
  | compress
  | decompress
  | decompressExact
  | bound
  deriving DecidableEq, Repr

/-- Which length an extension belongs to: `lit_ext` or `match_ext` (R92). -/
inductive LenKind where
  | lit
  | mat
  deriving DecidableEq, Repr

/-- The line of the running command's pseudocode the engine has reached (log entry 9). -/
inductive Point where
  /-- accepted; the checks of R123 to R127 come next -/
  | start
  /-- the head of the scan loop (R170) -/
  | scan
  /-- FIND accepted; EXTEND comes next (R174) -/
  | encode
  /-- the match is measured; EMIT_SEQ comes next (R174) -/
  | emit
  /-- the scan is over; EMIT_LAST comes next (R170) -/
  | last
  /-- the head of the decode loop (R195) -/
  | token
  /-- inside `read_len` (R199) -/
  | ext (k : LenKind)
  /-- inside a literal run (R226) -/
  | literal
  /-- after the literals of a `match_seq` (R205) -/
  | offset
  /-- the match is read; COPY_MATCH comes next (R209) -/
  | copy
  /-- the block is done; `finish` comes next (R123 to R125) -/
  | finish
  deriving DecidableEq, Repr

/-- The engine phase (R32); BUSY says what is running. -/
inductive Phase where
  | idle
  | busy (c : Command) (p : Point)
  deriving DecidableEq, Repr

/-- The fields of the register block that hold state (R33); CMD holds none (R34), BUSY is the phase (R35), ID is a constant (R41). -/
structure Regs where
  /-- STATUS[1] (R35) -/
  done : Bool
  /-- STATUS[2] (R35) -/
  err : Bool
  /-- ERROR[7:0] (R36) -/
  errCode : Byte
  /-- SRC_ADDR (R37) -/
  srcAddr : Word
  /-- SRC_LEN (R37) -/
  srcLen : Word
  /-- DST_ADDR (R37) -/
  dstAddr : Word
  /-- DST_CAP (R37) -/
  dstCap : Word
  /-- RESULT_LEN (R38) -/
  resultLen : Word
  /-- ERR_IN_POS (R39) -/
  errInPos : Word
  /-- ERR_OUT_POS (R39) -/
  errOutPos : Word
  /-- IRQ_EN[0] (R40) -/
  irqEn : Bool
  deriving DecidableEq, Repr

/-- The working registers (R45), as naturals where their arithmetic is exact (R46, R203; log entry 18); `accept`, `ret` and `idx`
latch what a unit hands on (log entry 19). -/
structure Work where
  sa : Nat
  n : Nat
  da : Nat
  cap : Nat
  ip : Nat
  op : Nat
  anchor : Nat
  ref : Nat
  h : BitVec 16
  seq4 : BitVec 32
  token : Byte
  litLen : Nat
  matchLen : Nat
  offset : BitVec 16
  accept : Bool
  ret : Nat
  idx : Nat
  deriving DecidableEq, Repr

/-- A stretch of host memory `lo … hi − 1` whose bytes became unspecified at a draw (R231, R322; log entry 5). -/
structure Span where
  lo : Nat
  hi : Nat
  draw : Nat
  deriving DecidableEq, Repr

/-- Host memory (R70): the listed bytes, addresses strictly rising, and the unspecified spans. -/
structure Memory where
  cells : List Host.Cell
  spans : List Span
  deriving DecidableEq, Repr

/-- The hash table (R48): the nonzero slots, slot numbers strictly rising. -/
abbrev Table := List (Nat × Nat)

/-- The agents of R30. -/
inductive Agent where
  | engine
  | host
  deriving DecidableEq, Repr

/-- How much of a command one engine step does (93 I21; log entry 9). -/
inductive Pace where
  /-- one step runs the whole block -/
  | whole
  /-- one step runs one internal operation or one element of the stream -/
  | piecewise
  deriving DecidableEq, Repr

/-- The kinds of error the host layer returns (R253 to R258, R266). -/
inductive HostError where
  | invalidData
  | unexpectedEof
  | outputTooSmall
  | outputTooLarge
  | checksumMismatch
  /-- a code of the engine with no kind of its own in the host layer (R290) -/
  | engine (code : Byte)
  deriving DecidableEq, Repr

/-- Where the frame decompressor stands in the frame (R254). -/
inductive FramePoint where
  | off
  | magic
  | flg
  | bd
  | size
  | hc
  | word
  | checksum
  | ended
  deriving DecidableEq, Repr

/-- The frame decompressor of R254 to R258: `len` frame bytes at `src`, `cur` of them read, output at `out`. -/
structure FrameDec where
  point : FramePoint
  src : Nat
  len : Nat
  cur : Nat
  flg : Byte
  bd : Byte
  /-- the XOR of the header bytes read since the magic (R246) -/
  hcAcc : Byte
  /-- the content size, when FLG says one is present (R245) -/
  size : Option Nat
  out : Nat
  outLen : Nat
  /-- the size the output buffer has grown to (R256) -/
  bufCap : Nat
  /-- `max_output_size` (R254) -/
  maxOut : Option Nat
  error : Option HostError
  deriving DecidableEq, Repr

/-- Where the frame compressor stands (R250). -/
inductive FrameOutPoint where
  | off
  | header
  | chunk
  | trailer
  | ended
  deriving DecidableEq, Repr

/-- The frame compressor of R250 to R253: `len` input bytes at `src`, `cur` of them framed, `outLen` bytes written at `dst`. -/
structure FrameComp where
  point : FrameOutPoint
  src : Nat
  len : Nat
  cur : Nat
  dst : Nat
  cap : Nat
  outLen : Nat
  scratch : Nat
  scratchCap : Nat
  error : Option HostError
  deriving DecidableEq, Repr

/-- The streaming compressor's states (R259). -/
inductive StreamOutPoint where
  | headerNotWritten
  | accumulating
  | finished
  deriving DecidableEq, Repr

/-- The streaming compressor (R259 to R261): its two buffers, the bytes pending in the first, every byte written so far (for the
content checksum) and what it has put into its sink. -/
structure StreamComp where
  point : StreamOutPoint
  accAddr : Nat
  scratch : Nat
  scratchCap : Nat
  acc : List Byte
  seen : List Byte
  sink : List Byte
  error : Option HostError
  deriving DecidableEq, Repr

/-- The streaming decompressor's states (R262). -/
inductive StreamInPoint where
  | headerNotRead
  | readingBlocks
  | finished
  deriving DecidableEq, Repr

/-- The streaming decompressor (R262 to R264): `len` source bytes at `src`, `cur` of them read; its raw-input read buffer at `raw` and
its decompressed-block buffer at `block`, both in host memory, and the bytes from the block buffer's read cursor on (log entry 38). -/
structure StreamDec where
  point : StreamInPoint
  src : Nat
  len : Nat
  cur : Nat
  flg : Byte
  bd : Byte
  raw : Nat
  block : Nat
  pending : List Byte
  seen : List Byte
  error : Option HostError
  deriving DecidableEq, Repr

/-- What the host may do (R104, R320, R250 to R264). -/
inductive HostAct where
  /-- a host write of `size` bytes (R33, R104 `WR`) -/
  | wr (addr size : Nat) (v : Word)
  /-- a host read of `size` bytes (R33, R104 `RD`) -/
  | rd (addr size : Nat)
  /-- bytes placed in host memory (R104 `MEM`) -/
  | mem (addr : Nat) (bytes : List Byte)
  /-- bytes read from host memory (R327) -/
  | ld (addr len : Nat)
  /-- `RD STATUS` repeated until BUSY is 0 (R104 `RUN`) -/
  | poll
  /-- waiting for the interrupt line (R300, R301, R327) -/
  | waitIrq
  /-- the platform's reset of the engine (R320) -/
  | reset
  /-- frame compress (R250) -/
  | frameCompress (src len dst cap scratch scratchCap : Nat)
  /-- frame compress by the allocating wrapper, which sizes the destination itself (R253) -/
  | frameCompressAlloc (src len dst scratch scratchCap : Nat)
  /-- frame decompress (R254) -/
  | frameDecompress (src len out : Nat) (maxOut : Option Nat)
  /-- a new streaming compressor over its two buffers (R259) -/
  | openCompressor (acc scratch scratchCap : Nat)
  /-- the streaming compressor dropped without `finish()` (R265) -/
  | dropCompressor
  /-- `write(bytes)` (R260) -/
  | streamWrite (bytes : List Byte)
  /-- `flush()` (R261) -/
  | streamFlush
  /-- `finish()` (R261) -/
  | streamFinish
  /-- a new streaming decompressor over its source, its raw-input buffer and its block buffer (R262) -/
  | openDecompressor (src len raw block : Nat)
  /-- `read(buffer)` of `k` bytes (R264) -/
  | streamRead (k : Nat)
  deriving DecidableEq, Repr

/-- The host side: what it still has to do, what it has read, and the host layer's own state (47). One object of each kind at a time
is the model's choice (DESIGN CHOICE, log entry 39). -/
structure HostSide where
  queue : List HostAct
  /-- values the host's reads and calls returned, newest first (log entry 28) -/
  reads : List Word
  /-- bytes returned to the host, oldest first (log entry 28) -/
  got : List Byte
  fdec : FrameDec
  fcomp : FrameComp
  scomp : StreamComp
  sdec : StreamDec
  /-- what the streaming compressors before this one have left in their sinks, newest first (R265) -/
  frames : List (List Byte)
  deriving DecidableEq, Repr

/-- The two regions of a command: `n` bytes at `sa` and `cap` bytes at `da` (R71). -/
structure Window where
  sa : Nat
  n : Nat
  da : Nat
  cap : Nat
  deriving DecidableEq, Repr

structure State where
  /-- the build parameters (R8); no step changes them (log entry 1) -/
  cfg : Params
  regs : Regs
  phase : Phase
  work : Work
  ht : Table
  mem : Memory
  /-- the platform's answers to the engine's next accesses, true for a bus error (R81; log entry 3) -/
  bus : List Bool
  /-- how many free values have been drawn (log entry 8) -/
  draws : Nat
  /-- who moves next (log entry 10) -/
  turns : List Agent
  pace : Pace
  /-- the regions of the commands the host has offered and not yet seen the end of (R332; log entry 15) -/
  unseen : List Window
  host : HostSide
  deriving DecidableEq, Repr

/-- Why the machine stops. -/
inductive Fault where
  /-- Raised by an access to a host address of 2^ADDR_W or above, which names no byte (R70). Safe: nothing follows it. -/
  | noSuchAddress
  /-- Raised by an internal operation whose operands ask for an access outside the command's two regions, or for a destination
  byte not yet written, which R72 says never happens. Safe: nothing follows it (log entry 17). -/
  | regionBreach
  deriving DecidableEq, Repr

/-- Why the model gives no meaning. -/
inductive Refusal where
  /-- An instruction of the table with no meaning yet; raised by `exec`'s arms only. Safe. -/
  | notModelled (mnemonic : String)
  /-- A register access that is not a naturally aligned 8-byte access, which R42 has a model refuse. Safe. -/
  | registerAccess
  /-- A region of a command that covers a device, the register block included, which R80 has a model refuse. Safe. -/
  | deviceRegion
  /-- A host access to another device of the platform, whose behaviour the spec does not give (log entry 14). Safe. -/
  | deviceAccess
  /-- A host write to the source or destination region of a command whose end it has not seen, which R85 and R332 have a model
  refuse. Safe. -/
  | hostRace
  deriving DecidableEq, Repr

/-- The register block at reset (R33, R320). -/
def Regs.reset : Regs :=
  { done := false, err := false, errCode := 0, srcAddr := 0, srcLen := 0, dstAddr := 0, dstCap := 0, resultLen := 0,
    errInPos := 0, errOutPos := 0, irqEn := false }

/-- The working registers at reset: the spec gives no value, DESIGN CHOICE zero (log entry 7). -/
def Work.reset : Work :=
  { sa := 0, n := 0, da := 0, cap := 0, ip := 0, op := 0, anchor := 0, ref := 0, h := 0, seq4 := 0, token := 0, litLen := 0,
    matchLen := 0, offset := 0, accept := false, ret := 0, idx := 0 }

/-- No frame is being read. -/
def FrameDec.off : FrameDec :=
  { point := .off, src := 0, len := 0, cur := 0, flg := 0, bd := 0, hcAcc := 0, size := none, out := 0, outLen := 0, bufCap := 0,
    maxOut := none, error := none }

/-- No frame is being written. -/
def FrameComp.off : FrameComp :=
  { point := .off, src := 0, len := 0, cur := 0, dst := 0, cap := 0, outLen := 0, scratch := 0, scratchCap := 0, error := none }

/-- A streaming compressor over its buffers, header not written (R259). -/
def StreamComp.fresh (acc scratch scratchCap : Nat) : StreamComp :=
  { point := .headerNotWritten, accAddr := acc, scratch := scratch, scratchCap := scratchCap, acc := [], seen := [], sink := [],
    error := none }

/-- A streaming decompressor over its source, header not read (R262). -/
def StreamDec.fresh (src len raw block : Nat) : StreamDec :=
  { point := .headerNotRead, src := src, len := len, cur := 0, flg := 0, bd := 0, raw := raw, block := block, pending := [], seen := [],
    error := none }

/-- A host with nothing to do. The spec gives no state of the host's objects before they are opened: a compressor and a decompressor over
buffers at address 0 and an empty source are the model's choice (DESIGN CHOICE, log entry 42). -/
def HostSide.reset : HostSide :=
  { queue := [], reads := [], got := [], fdec := .off, fcomp := .off, scomp := .fresh 0 0 0, sdec := .fresh 0 0 0 0,
    frames := [] }

/-- The machine right after reset (R320), with the default parameters of R8 and no host program. -/
def State.reset : State :=
  { cfg := .default, regs := .reset, phase := .idle, work := .reset, ht := [], mem := { cells := [], spans := [] }, bus := [],
    draws := 0, turns := [], pace := .whole, unseen := [], host := .reset }

end Machine
end Sys2Proof
end

