-- ==== Sys2Proof/Machine/Flags.lean ====
section
/-! DEFINITION. Every flag computation of the spec: STATUS and its write-1-to-clear bits (R35), the error code (R290), the
interrupt line (R300). There are no arithmetic flags (R43). -/
namespace Sys2Proof
namespace Machine

/-- The engine's error kinds (R290). -/
inductive ErrCode where
  | invalidData
  | unexpectedEof
  | outputTooSmall
  | invalidArgument
  | invalidCommand
  | busError
  deriving DecidableEq, Repr

/-- ERROR.CODE of an error (R290). -/
def ErrCode.code : ErrCode → Byte
  | .invalidData => 1
  | .unexpectedEof => 2
  | .outputTooSmall => 3
  | .invalidArgument => 4
  | .invalidCommand => 5
  | .busError => 6

/-- The phase is BUSY (R32). -/
def Phase.isBusy : Phase → Bool
  | .idle => false
  | .busy _ _ => true

/-- STATUS as the host reads it (R33, R35): BUSY, DONE, ERR in bits 0, 1, 2, the rest 0. -/
def statusWord (p : Phase) (r : Regs) : Word :=
  BitVec.ofNat 64 (p.isBusy.toNat + 2 * r.done.toNat + 4 * r.err.toNat)

/-- A host write to STATUS while IDLE: bit 1 clears DONE, bit 2 clears ERR (R35). -/
def Regs.clearStatus (r : Regs) (v : Word) : Regs :=
  { r with done := r.done && !v.getLsbD 1, err := r.err && !v.getLsbD 2 }

/-- What acceptance clears (R120). -/
def Regs.accepted (r : Regs) : Regs :=
  { r with done := false, err := false, errCode := 0, resultLen := 0, errInPos := 0, errOutPos := 0 }

/-- What a successful end writes (R121). -/
def Regs.finished (r : Regs) (len : Nat) : Regs :=
  { r with resultLen := BitVec.ofNat 64 len, done := true }

/-- What an error end writes (R296). -/
def Regs.raised (r : Regs) (code : Byte) (ip op : Nat) : Regs :=
  { r with errCode := code, errInPos := BitVec.ofNat 64 ip, errOutPos := BitVec.ofNat 64 op, resultLen := 0, err := true }

/-- What a reserved opcode writes (R128). -/
def Regs.invalidCommand (r : Regs) : Regs :=
  { r with done := false, err := true, errCode := ErrCode.code .invalidCommand, resultLen := 0, errInPos := 0, errOutPos := 0 }

/-- The interrupt line (R300). -/
def Regs.irq (r : Regs) : Bool := r.irqEn && (r.done || r.err)

/-- The interrupt output of the engine (R300). -/
def State.irq (s : State) : Bool := s.regs.irq

/-- The engine is BUSY (R32). -/
def State.busy (s : State) : Bool := s.phase.isBusy

end Machine
end Sys2Proof
end

