-- ==== Sys2Proof/Machine/Operands.lean ====
section
/-! DEFINITION. The operand forms: how a register write is truncated (R33), the regions a command's operands name (R71, R74, R80),
and the worst-case bound computed from a length (R188). -/
namespace Sys2Proof
namespace Machine

/-- The low `w` bits of a written value: bits above read 0 and ignore writes (R33). -/
def truncTo (w : Nat) (v : Word) : Word := BitVec.ofNat 64 (v.toNat % 2 ^ w)

/-- The operands latched at acceptance, both cursors 0 (R120). -/
def Work.latch (w : Work) (r : Regs) : Work :=
  { w with sa := r.srcAddr.toNat, n := r.srcLen.toNat, da := r.dstAddr.toNat, cap := r.dstCap.toNat, ip := 0, op := 0 }

/-- No region wraps the top of the address space (R74, first check). -/
def regionsFit (c : Params) (w : Work) : Bool := w.sa + w.n ≤ c.addrSpace && w.da + w.cap ≤ c.addrSpace

/-- The regions do not overlap; an empty region overlaps nothing (R74, second check). -/
def regionsDisjoint (w : Work) : Bool := w.n == 0 || w.cap == 0 || w.sa + w.n ≤ w.da || w.da + w.cap ≤ w.sa

/-- `len` bytes at `addr` share a byte with the register block (R33, R80). -/
def coversRegs (c : Params) (addr len : Nat) : Bool :=
  decide (0 < len) && decide (addr < c.regBase + 256) && decide (c.regBase < addr + len)

/-- `addr` lies in the `len` bytes at `base`. -/
def inRegion (base len addr : Nat) : Bool := decide (base ≤ addr) && decide (addr < base + len)

/-- `len` bytes at `addr` share a byte with the `rlen` bytes at `base`. -/
def meetsRegion (base rlen addr len : Nat) : Bool :=
  decide (0 < len) && decide (0 < rlen) && decide (addr < base + rlen) && decide (base < addr + len)

/-- `len` bytes at `addr` share a byte with a device, the engine's own register block included (R80). -/
def coversDevice (c : Params) (addr len : Nat) : Bool :=
  coversRegs c addr len || c.devices.any fun d => meetsRegion d.1 d.2 addr len

/-- `bound_exact(n)`, unsaturated (R188). -/
def boundExact (n : Nat) : Nat := n + n / 255 + Config.boundSlack

/-- `maxCompressedSize(n)`, saturated at MAX_SIZE (R188). -/
def maxCompressedSize (c : Params) (n : Nat) : Nat := min (boundExact n) c.maxSize

/-- The four bytes of a window as one little-endian value (R76). -/
def window4 (b0 b1 b2 b3 : Byte) : BitVec 32 := b3 ++ b2 ++ b1 ++ b0

/-- `hash(v)`: the top 16 bits of the 32-bit product (R141). -/
def hash4 (v : BitVec 32) : BitVec 16 := (v * Config.hashMult).extractLsb' 16 16

end Machine
end Sys2Proof
end

