-- ==== Sys2Proof/Machine/Ops.lean ====
section
/-! DEFINITION. The shared operations: sorted tables, host memory and its unspecified spans, the engine's byte accesses with the
platform's answers, acceptance of a command (R120), its successful end (R121), and TAKING AN ERROR as one operation (R296); the
return from one is acceptance or the host's clearing write (R297). -/
namespace Sys2Proof
namespace Machine

/-! ### Sorted tables: keys strictly rising, no entry holding the default -/

/-- The value listed at a key. -/
def Assoc.find {α : Type} : List (Nat × α) → Nat → Option α
  | [], _ => none
  | e :: t, k => if e.1 = k then some e.2 else Assoc.find t k

/-- Put a value at a key; the default value is not listed. -/
def Assoc.set {α : Type} [DecidableEq α] (d : α) : List (Nat × α) → Nat → α → List (Nat × α)
  | [], k, v => if v = d then [] else [(k, v)]
  | e :: t, k, v =>
    if k < e.1 then (if v = d then e :: t else (k, v) :: e :: t)
    else if e.1 = k then (if v = d then t else (k, v) :: t)
    else e :: Assoc.set d t k v

/-- The canonical form: keys strictly rising, no entry equal to the default. -/
abbrev Assoc.wf {α : Type} (d : α) (l : List (Nat × α)) : Prop :=
  l.Pairwise (fun a b => a.1 < b.1) ∧ ∀ e ∈ l, e.2 ≠ d

/-- HT[h]; an unlisted slot holds 0, which is "empty" (R49). -/
def Table.get (t : Table) (h : BitVec 16) : Nat := (Assoc.find t h.toNat).getD 0

/-- HT[h] <- p (R142). -/
def Table.set (t : Table) (h : BitVec 16) (p : Nat) : Table := Assoc.set 0 t h.toNat p

/-! ### Host memory (R70) and its unspecified spans (R231, R322) -/

/-- What an unlisted byte outside the unspecified spans reads as: DESIGN CHOICE zero (log entry 4). -/
def Memory.blank : Byte := 0

/-- The span covers an address. -/
def Span.covers (a : Nat) (sp : Span) : Bool := decide (sp.lo ≤ a) && decide (a < sp.hi)

/-- What an address not listed reads as: a free byte inside an unspecified span (log entry 5), else `Memory.blank`. -/
def Memory.unlisted (spans : List Span) (a : Nat) : Byte :=
  match spans.find? (Span.covers a) with
  | some sp => Config.freeByte sp.draw a
  | none => Memory.blank

/-- The byte at an address. -/
def Memory.read (m : Memory) (a : Nat) : Byte :=
  match Assoc.find m.cells a with
  | some b => b
  | none => Memory.unlisted m.spans a

/-- Take the addresses `lo … hi − 1` out of the spans. -/
def Span.cut (lo hi : Nat) : List Span → List Span
  | [] => []
  | sp :: t =>
    (if sp.lo < min sp.hi lo then [{ sp with hi := min sp.hi lo }] else [])
      ++ (if max sp.lo hi < sp.hi then [{ sp with lo := max sp.lo hi }] else []) ++ Span.cut lo hi t

/-- Store a byte (R13, `MemWrite` of one byte). -/
def Memory.write (m : Memory) (a : Nat) (b : Byte) : Memory :=
  { cells := Assoc.set Memory.blank m.cells a b, spans := Span.cut a (a + 1) m.spans }

/-- Store consecutive bytes. -/
def Memory.writeList : Memory → Nat → List Byte → Memory
  | m, _, [] => m
  | m, a, b :: t => (m.write a b).writeList (a + 1) t

/-- The `len` bytes at an address. -/
def Memory.readList (m : Memory) (a len : Nat) : List Byte := (List.range' a len).map m.read

/-- The bytes at `lo … hi − 1` become unspecified at draw `k`. -/
def Memory.havoc (m : Memory) (lo hi k : Nat) : Memory :=
  if lo < hi then
    { cells := m.cells.filter fun c => c.1 < lo || hi ≤ c.1
      spans := (Span.cut lo hi m.spans).filter (fun sp => sp.hi ≤ lo) ++ { lo := lo, hi := hi, draw := k }
        :: (Span.cut lo hi m.spans).filter (fun sp => hi ≤ sp.lo) }
  else m

/-- The canonical form of memory: cells strictly rising and none blank; spans nonempty, rising and disjoint; no cell in a span. -/
abbrev Memory.wf (m : Memory) : Prop :=
  Assoc.wf Memory.blank m.cells
    ∧ (m.spans.Pairwise (fun a b => a.hi ≤ b.lo) ∧ ∀ sp ∈ m.spans, sp.lo < sp.hi)
    ∧ ∀ sp ∈ m.spans, ∀ c ∈ m.cells, Span.covers c.1 sp = false

/-! ### Field updates -/

def State.setMem (s : State) (m : Memory) : State := { s with mem := m }
def State.setBus (s : State) (b : List Bool) : State := { s with bus := b }
def State.setWork (s : State) (w : Work) : State := { s with work := w }
def State.setHt (s : State) (t : Table) : State := { s with ht := t }
def State.setRegs (s : State) (r : Regs) : State := { s with regs := r }
def State.setPhase (s : State) (p : Phase) : State := { s with phase := p }
def State.setHost (s : State) (h : HostSide) : State := { s with host := h }
def State.setDraws (s : State) (k : Nat) : State := { s with draws := k }
def State.setTurns (s : State) (l : List Agent) : State := { s with turns := l }
def State.setUnseen (s : State) (l : List Window) : State := { s with unseen := l }

/-- ip <- v. -/
def State.setIp (s : State) (v : Nat) : State := s.setWork { s.work with ip := v }
/-- op <- v. -/
def State.setOp (s : State) (v : Nat) : State := s.setWork { s.work with op := v }
/-- The value a unit operation returns (log entry 19). -/
def State.setRet (s : State) (v : Nat) : State := s.setWork { s.work with ret := v }

/-- The running command goes on at line `p`; an IDLE engine stays IDLE (log entry 20). -/
def State.setPoint (s : State) (p : Point) : State :=
  match s.phase with
  | .idle => s
  | .busy c _ => s.setPhase (.busy c p)

/-! ### Results of engine operations -/

/-- What an engine operation ends in: a value and the state, a `raise` at the state it stands in (R296), or a stop. -/
inductive Res (α : Type) where
  | ok (a : α) (s : State)
  | raise (e : ErrCode) (s : State)
  | fault (f : Fault)
  | refuse (r : Refusal)
  deriving DecidableEq, Repr

/-- Statements run in the order written; nothing after a `raise` executes (R14, R292). -/
def Res.bind {α β : Type} (r : Res α) (k : α → State → Res β) : Res β :=
  match r with
  | .ok a s => k a s
  | .raise e s => .raise e s
  | .fault f => .fault f
  | .refuse q => .refuse q

/-! ### The engine's byte accesses (R13, R72, R79, R81) -/

/-- The platform answers one access (R81): with an error only if `BUS_ERROR_POSSIBLE`, and then as the input list says; an
exhausted list answers without error (log entry 3). -/
def busAnswer (s : State) : Res Unit :=
  if s.cfg.busErrorPossible then
    match s.bus with
    | [] => .ok () s
    | false :: t => .ok () (s.setBus t)
    | true :: t => .raise .busError (s.setBus t)
  else .ok () s

/-- `MemRead(a, 1)`. -/
def memRead (a : Nat) (s : State) : Res Byte :=
  if a < s.cfg.addrSpace then (busAnswer s).bind fun _ s => .ok (s.mem.read a) s
  else .fault .noSuchAddress

/-- `MemWrite(a, 1, b)`. -/
def memWrite (a : Nat) (b : Byte) (s : State) : Res Unit :=
  if a < s.cfg.addrSpace then (busAnswer s).bind fun _ s => .ok () (s.setMem (s.mem.write a b))
  else .fault .noSuchAddress

/-- `src[i]`, which exists for i < n (R71, R72). -/
def srcByte (i : Nat) (s : State) : Res Byte :=
  if i < s.work.n then memRead (s.work.sa + i) s else .fault .regionBreach

/-- `dst[j]` read by the match copy, which may read only bytes already written, j < `written` (R72). -/
def dstByte (written j : Nat) (s : State) : Res Byte :=
  if j < written ∧ j < s.work.cap then memRead (s.work.da + j) s else .fault .regionBreach

/-- `dst[j] <- b`, which exists for j < cap (R71, R72). -/
def dstWrite (j : Nat) (b : Byte) (s : State) : Res Unit :=
  if j < s.work.cap then memWrite (s.work.da + j) b s else .fault .regionBreach

/-- `put(b)` (R176). -/
def put (b : Byte) (s : State) : Res Unit :=
  (dstWrite s.work.op b s).bind fun _ s => .ok () (s.setOp (s.work.op + 1))

/-- `put` of each byte in order. -/
def putList : List Byte → State → Res Unit
  | [], s => .ok () s
  | b :: t, s => (put b s).bind fun _ s => putList t s

/-- `src[pos .. pos+k)`, read in order. -/
def srcList : Nat → Nat → State → Res (List Byte)
  | _, 0, s => .ok [] s
  | pos, k + 1, s => (srcByte pos s).bind fun b s => (srcList (pos + 1) k s).bind fun t s => .ok (b :: t) s

/-- `MemRead(sa + p, 4)`, little-endian, as four byte reads (R76, R79). -/
def srcWindow (p : Nat) (s : State) : Res (BitVec 32) :=
  (srcByte p s).bind fun b0 s => (srcByte (p + 1) s).bind fun b1 s => (srcByte (p + 2) s).bind fun b2 s =>
    (srcByte (p + 3) s).bind fun b3 s => .ok (window4 b0 b1 b2 b3) s

/-! ### Acceptance and end of a command -/

/-- A working register of `w` bits at an unspecified value (log entry 6). -/
def freeReg (k i w : Nat) : Nat := Config.freeNat k i % 2 ^ w

/-- The working registers at unspecified values (R45; log entry 6). -/
def Work.free (c : Params) (k : Nat) : Work :=
  { sa := freeReg k 0 c.addrW, n := freeReg k 1 c.sizeW, da := freeReg k 2 c.addrW, cap := freeReg k 3 c.sizeW
    ip := freeReg k 4 c.sizeW, op := freeReg k 5 c.sizeW, anchor := freeReg k 6 c.sizeW, ref := freeReg k 7 c.sizeW
    h := BitVec.ofNat 16 (Config.freeNat k 8), seq4 := BitVec.ofNat 32 (Config.freeNat k 9)
    token := BitVec.ofNat 8 (Config.freeNat k 10), litLen := freeReg k 11 (c.sizeW + 8), matchLen := freeReg k 12 (c.sizeW + 8)
    offset := BitVec.ofNat 16 (Config.freeNat k 13), accept := freeReg k 14 1 == 1, ret := freeReg k 15 (c.sizeW + 8)
    idx := freeReg k 16 c.sizeW }

/-- The hash table at unspecified contents (R51; log entry 6). -/
def Table.free (c : Params) (k : Nat) : Table :=
  (Config.freeTable k).foldl (fun t e => Table.set t (BitVec.ofNat 16 e.1) (e.2 % 2 ^ c.sizeW)) []

/-- One past the last destination byte; only addresses that exist hold bytes (R70). -/
def State.destEnd (s : State) : Nat := min (s.work.da + s.work.cap) s.cfg.addrSpace

/-- Every destination byte from position `j` on becomes unspecified (R231, R292; log entry 21). -/
def State.freeDest (s : State) (j : Nat) : Memory := s.mem.havoc (s.work.da + j) s.destEnd s.draws

/-- A command abandoned by a reset leaves its destination unspecified and its source as it was (R322; log entry 21). -/
def State.abandonDest (s : State) : Memory :=
  (s.mem.havoc s.work.da (min s.destEnd s.work.sa) s.draws).havoc (max s.work.da (s.work.sa + s.work.n)) s.destEnd s.draws

/-- Destination bytes at a command's end: BOUND has touched none (R73). -/
def State.endMem (s : State) (j : Nat) : Memory :=
  match s.phase with
  | .busy .bound _ => s.mem
  | _ => s.freeDest j

/-- Memory after a reset: a command that was running is abandoned (R322); BOUND has touched no byte (R73). -/
def State.resetMem (s : State) : Memory :=
  match s.phase with
  | .idle => s.mem
  | .busy .bound _ => s.mem
  | .busy _ _ => s.abandonDest

/-- The hash table at a command's end: only COMPRESS has touched it (R51). -/
def State.endTable (s : State) : Table :=
  match s.phase with
  | .busy .compress _ => Table.free s.cfg s.draws
  | _ => s.ht

/-- A command ends with register block `r`: the phase is IDLE, destination bytes from `j` on, the working registers and the hash
table are unspecified (R45, R51, R231). -/
def State.settle (s : State) (j : Nat) (r : Regs) : State :=
  { s with regs := r, phase := .idle, work := Work.free s.cfg s.draws, ht := s.endTable, mem := s.endMem j, draws := s.draws + 1 }

/-- `finish(len)` (R121). -/
def State.finish (s : State) (len : Nat) : State := s.settle len (s.regs.finished len)

/-- The code an error is reported with: an overrun in DECOMPRESS_EXACT as `EXACT_OVERRUN_ERROR` (R126). -/
def State.reportCode (s : State) (e : ErrCode) : Byte :=
  match s.phase, e with
  | .busy .decompressExact _, .outputTooSmall =>
    match s.cfg.exactOverrun with
    | .outputTooSmall => ErrCode.code .outputTooSmall
    | .invalidData => ErrCode.code .invalidData
  | _, e => e.code

/-- TAKING AN ERROR: `raise E(ip, op)` ends the current command in one step (R296), with the cursors as they stand (R291). -/
def State.raiseEnd (s : State) (e : ErrCode) : State :=
  s.settle 0 (s.regs.raised (s.reportCode e) s.work.ip s.work.op)

/-- Acceptance of a command (R120). -/
def State.accept (s : State) (c : Command) : State :=
  { s with regs := s.regs.accepted, work := s.work.latch s.regs, phase := .busy c .start }

/-- The region checks of R74, in order. -/
def checkRegions (s : State) : Res Unit :=
  if regionsFit s.cfg s.work = false then .raise .invalidArgument s
  else if regionsDisjoint s.work = false then .raise .invalidArgument s
  else .ok () s

/-- A command whose regions cover a device, the register block included, is outside the contract and refused, before its first
access (R80; log entry 14). -/
def checkDevices (s : State) : Res Unit :=
  if coversDevice s.cfg s.work.sa s.work.n || coversDevice s.cfg s.work.da s.work.cap then .refuse .deviceRegion else .ok () s

/-- The engine's reset (R320, R322): register block and phase at reset, working registers and hash table unspecified, and, if a
command was running, its destination unspecified. The host side and the build parameters stay (log entry 30). -/
def State.resetEngine (s : State) : State :=
  { s with
    regs := .reset, phase := .idle, work := Work.free s.cfg s.draws, ht := Table.free s.cfg s.draws
    mem := s.resetMem, draws := s.draws + 1 }

/-- A result as the outcome of a step: a `raise` is the error end (R296), which is a next state. -/
def Res.outcome {α : Type} (r : Res α) : Host.Outcome State Fault Refusal :=
  match r with
  | .ok _ s => .next s
  | .raise e s => .next (s.raiseEnd e)
  | .fault f => .fault f
  | .refuse q => .refused q

end Machine
end Sys2Proof
end

