-- ==== Sys2Proof/Machine/Copy.lean ====
section
/-! DEFINITION. The copy engine (45_copy_engine.md): COPY_LITERALS, COPY_LITERALS_DEC and COPY_MATCH, and the match copy's wide
datapath (R230), which no result depends on (R233). -/
namespace Sys2Proof
namespace Machine

/-- `for i: MemWrite(da + dst + i, 1, src[pos + i])`, `k` times (R225, R226). -/
def copySrc : Nat → Nat → Nat → State → Res Unit
  | _, _, 0, s => .ok () s
  | pos, dst, k + 1, s =>
    (srcByte pos s).bind fun b s => (dstWrite dst b s).bind fun _ s => copySrc (pos + 1) (dst + 1) k s

/-- `for i: MemWrite(da + dst + i, 1, MemRead(da + frm + i, 1))`, `k` times; each read sees the writes before it (R228). -/
def copyDst : Nat → Nat → Nat → State → Res Unit
  | _, _, 0, s => .ok () s
  | frm, dst, k + 1, s =>
    (dstByte dst frm s).bind fun b s => (dstWrite dst b s).bind fun _ s => copyDst (frm + 1) (dst + 1) k s

/-- copy_literals(s, L) (R225). -/
def copyLiteralsR (pos l : Nat) (s : State) : Res Unit :=
  (copySrc pos s.work.op l s).bind fun _ s => .ok () (s.setOp (s.work.op + l))

/-- copy_literals_dec(L) (R226). -/
def copyLiteralsDecR (l : Nat) (s : State) : Res Unit :=
  (copySrc s.work.ip s.work.op l s).bind fun _ s =>
    .ok () (s.setWork { s.work with ip := s.work.ip + l, op := s.work.op + l })

/-- copy_match(offset, L) (R228); its operands have 1 ≤ offset ≤ op. -/
def copyMatchR (o : BitVec 16) (l : Nat) (s : State) : Res Unit :=
  if o.toNat ≤ s.work.op then
    (copyDst (s.work.op - o.toNat) s.work.op l s).bind fun _ s => .ok () (s.setOp (s.work.op + l))
  else .fault .regionBreach

/-- COPY_LITERALS (R225). -/
def execCopyLiterals (pos l : Nat) (s : State) : Host.Outcome State Fault Refusal := (copyLiteralsR pos l s).outcome

/-- COPY_LITERALS_DEC (R226). -/
def execCopyLiteralsDec (l : Nat) (s : State) : Host.Outcome State Fault Refusal := (copyLiteralsDecR l s).outcome

/-- COPY_MATCH (R228). -/
def execCopyMatch (o : BitVec 16) (l : Nat) (s : State) : Host.Outcome State Fault Refusal := (copyMatchR o l s).outcome

/-! ### The datapath of the match copy (R230) on a memory -/

/-- The byte path: `k` bytes from `frm` to `dst`, forward. -/
def Memory.copyBytes : Memory → Nat → Nat → Nat → Memory
  | m, _, _, 0 => m
  | m, frm, dst, k + 1 => (m.write dst (m.read frm)).copyBytes (frm + 1) (dst + 1) k

/-- The wide path: whole words of `COPY_WORD` bytes, each read before it is written, then the remainder bytewise (R230, R232). -/
def Memory.copyWords : Memory → Nat → Nat → Nat → Nat → Memory
  | m, frm, dst, 0, r => m.copyBytes frm dst r
  | m, frm, dst, w + 1, r =>
    (m.writeList dst (m.readList frm Config.copyWord)).copyWords (frm + Config.copyWord) (dst + Config.copyWord) w r

/-- The datapath: wide when the offset is at least `COPY_WORD`, else bytewise (R230). -/
def Memory.copyDatapath (m : Memory) (dst offset l : Nat) : Memory :=
  if Config.copyWord ≤ offset then m.copyWords (dst - offset) dst (l / Config.copyWord) (l % Config.copyWord)
  else m.copyBytes (dst - offset) dst l

end Machine
end Sys2Proof
end

