-- ==== Sys2Proof/Machine/Decompress.lean ====
section
/-! DEFINITION. The block decompressor and token decoder (44_block_decompressor.md): the whole decode loop (DECOMPRESS_BLOCK,
READ_LEN) and the same loop one stream element at a time (TOKEN, EXT_CONT, EXT_TERM, LITERAL, OFFSET16, SEQ, LAST). -/
namespace Sys2Proof
namespace Machine

/-! ### The whole loop (R195) -/

/-- The extension loop of read_len (R199); `r` is the number of block bytes left. -/
def readExt : Nat → Nat → State → Res Nat
  | 0, _, s => .raise .unexpectedEof s
  | r + 1, v, s =>
    (srcByte s.work.ip s).bind fun b s =>
      let s := s.setIp (s.work.ip + 1)
      if b = 0xFF#8 then readExt r (v + b.toNat) s else .ok (v + b.toNat) s

/-- read_len(nib) (R199). -/
def readLen (nib : BitVec 4) (s : State) : Res Nat :=
  if nib = 15#4 then readExt (s.work.n - s.work.ip) 15 s else .ok nib.toNat s

/-- The literal part of one iteration: token, length, checks and copy (R197 to R202). -/
def literalPart (s : State) : Res Unit :=
  (srcByte s.work.ip s).bind fun t s =>
    (readLen (tokenLit t) (s.setWork { s.work with token := t, ip := s.work.ip + 1 })).bind fun ll s =>
      let s := s.setWork { s.work with litLen := ll }
      if s.work.n - s.work.ip < ll then .raise .unexpectedEof s
      else if s.work.cap - s.work.op < ll then .raise .outputTooSmall s
      else copyLiteralsDecR ll s

/-- The match part of one iteration: offset, checks, length and copy (R205 to R209). -/
def matchPart (s : State) : Res Unit :=
  if s.work.n - s.work.ip < 2 then .raise .unexpectedEof s
  else
    (srcByte s.work.ip s).bind fun lo s => (srcByte (s.work.ip + 1) s).bind fun hi s =>
      let o := BitVec.ofNat 16 (leVal [lo, hi])
      let s := s.setWork { s.work with offset := o, ip := s.work.ip + 2 }
      if o = 0#16 then .raise .invalidData s
      else if s.work.op < o.toNat then .raise .invalidData s
      else
        (readLen (tokenMatch s.work.token) s).bind fun m s =>
          let s := s.setWork { s.work with matchLen := Config.minMatch + m }
          if s.work.cap - s.work.op < Config.minMatch + m then .raise .outputTooSmall s
          else copyMatchR o (Config.minMatch + m) s

/-- The decode loop; every iteration consumes a byte, so `n` iterations are enough (R196). -/
def decodeLoop : Nat → State → Res Unit
  | 0, s => .ok () s
  | fuel + 1, s =>
    if s.work.ip < s.work.n then
      (literalPart s).bind fun _ s =>
        if s.work.ip = s.work.n then .ok () s
        else (matchPart s).bind fun _ s => decodeLoop fuel s
    else .ok () s

/-- decompress_block() (R195). -/
def decompressBlockR (s : State) : Res Unit :=
  decodeLoop s.work.n (s.setWork { s.work with ip := 0, op := 0 })

/-- DECOMPRESS_BLOCK (R195). -/
def execDecompressBlock (s : State) : Host.Outcome State Fault Refusal := (decompressBlockR s).outcome

/-- READ_LEN (R199); the returned length is latched in `ret` (log entry 19). -/
def execReadLen (nib : BitVec 4) (s : State) : Host.Outcome State Fault Refusal :=
  ((readLen nib s).bind fun v s => .ok () (s.setRet v)).outcome

/-! ### The loop one element at a time -/

/-- After a literal run: the end of the block, or an offset (R204, R205). -/
def afterLiterals (s : State) : State := s.setPoint (if s.work.ip = s.work.n then .finish else .offset)

/-- The literal length is known: its two checks, then the run (R200 to R202). -/
def beginLiterals (ll : Nat) (s : State) : Res Unit :=
  let s := s.setWork { s.work with litLen := ll, idx := 0 }
  if s.work.n - s.work.ip < ll then .raise .unexpectedEof s
  else if s.work.cap - s.work.op < ll then .raise .outputTooSmall s
  else .ok () (if ll = 0 then afterLiterals s else s.setPoint .literal)

/-- The match nibble's part of the length is known (R208). -/
def beginMatch (m : Nat) (s : State) : Res Unit :=
  .ok () ((s.setWork { s.work with matchLen := Config.minMatch + m }).setPoint .copy)

/-- The token is read (R197, R198). -/
def tokenR (l m : BitVec 4) (s : State) : Res Unit :=
  let s := s.setWork { s.work with token := tokenByte l m, ip := s.work.ip + 1, ret := l.toNat }
  if l = 15#4 then .ok () (s.setPoint (.ext .lit)) else beginLiterals l.toNat s

/-- An extension byte 0xFF adds 255 and continues (R94, R199). -/
def extContR (s : State) : Res Unit :=
  .ok () (s.setWork { s.work with ret := s.work.ret + 255, ip := s.work.ip + 1 })

/-- A terminal extension byte adds its value and ends the length being read (R94, R199). -/
def extTermR (t : Byte) (s : State) : Res Unit :=
  let s := s.setWork { s.work with ret := s.work.ret + t.toNat, ip := s.work.ip + 1 }
  match s.phase with
  | .busy _ (.ext .lit) => beginLiterals s.work.ret s
  | .busy _ (.ext .mat) => beginMatch s.work.ret s
  | _ => .ok () s

/-- One literal byte of the run is copied; the cursors move when the run is complete (R226). -/
def literalR (b : Byte) (s : State) : Res Unit :=
  (dstWrite (s.work.op + s.work.idx) b s).bind fun _ s =>
    if s.work.idx + 1 < s.work.litLen then .ok () (s.setWork { s.work with idx := s.work.idx + 1 })
    else
      .ok () (afterLiterals
        (s.setWork { s.work with ip := s.work.ip + (s.work.idx + 1), op := s.work.op + (s.work.idx + 1), idx := 0 }))

/-- The offset is read and checked, then the match length begun (R205 to R208). -/
def offset16R (o : BitVec 16) (s : State) : Res Unit :=
  let s := s.setWork { s.work with offset := o, ip := s.work.ip + 2, ret := (tokenMatch s.work.token).toNat }
  if o = 0#16 then .raise .invalidData s
  else if s.work.op < o.toNat then .raise .invalidData s
  else if tokenMatch s.work.token = 15#4 then .ok () (s.setPoint (.ext .mat))
  else beginMatch (tokenMatch s.work.token).toNat s

/-- The capacity check of a match (R209) and its copy. -/
def copyStepR (s : State) : Res Unit :=
  if s.work.cap - s.work.op < s.work.matchLen then .raise .outputTooSmall s
  else (copyMatchR s.work.offset s.work.matchLen s).bind fun _ s => .ok () (s.setPoint .token)

/-- Literal bytes one after another. -/
def literalsR : List Byte → State → Res Unit
  | [], s => .ok () s
  | b :: t, s => (literalR b s).bind fun _ s => literalsR t s

/-- `k` continuation bytes. -/
def extContsR : Nat → State → Res Unit
  | 0, s => .ok () s
  | k + 1, s => (extContR s).bind fun _ s => extContsR k s

/-- The extension of a length that carries one (R98). -/
def lenExtR (v : Nat) (s : State) : Res Unit :=
  if 15 ≤ v then
    (extContsR ((v - 15) / 255) s).bind fun _ s => extTermR (BitVec.ofNat 8 ((v - 15) % 255)) s
  else .ok () s

/-- A whole `match_seq`: its elements in the order of R92, then the copy (R195). -/
def seqR (lits : List Byte) (o : BitVec 16) (len : Nat) (s : State) : Res Unit :=
  (tokenR (lenNibble lits.length) (lenNibble (len - Config.minMatch)) s).bind fun _ s =>
    (lenExtR lits.length s).bind fun _ s =>
      (literalsR lits s).bind fun _ s =>
        (offset16R o s).bind fun _ s =>
          (lenExtR (len - Config.minMatch) s).bind fun _ s => copyStepR s

/-- A whole `final_seq`: token, extension and literals; its M nibble is not read (R100, R204). -/
def lastR (lits : List Byte) (s : State) : Res Unit :=
  (tokenR (lenNibble lits.length) 0#4 s).bind fun _ s =>
    (lenExtR lits.length s).bind fun _ s => literalsR lits s

/-- TOKEN (R93, R197). -/
def execToken (l m : BitVec 4) (s : State) : Host.Outcome State Fault Refusal := (tokenR l m s).outcome

/-- EXT_CONT (R94, R199). -/
def execExtCont (s : State) : Host.Outcome State Fault Refusal := (extContR s).outcome

/-- EXT_TERM (R94, R199). -/
def execExtTerm (t : Byte) (s : State) : Host.Outcome State Fault Refusal := (extTermR t s).outcome

/-- LITERAL (R95, R226). -/
def execLiteral (b : Byte) (s : State) : Host.Outcome State Fault Refusal := (literalR b s).outcome

/-- OFFSET16 (R97, R205). -/
def execOffset16 (o : BitVec 16) (s : State) : Host.Outcome State Fault Refusal := (offset16R o s).outcome

/-- SEQ (R92, R195). -/
def execSeq (lits : List Byte) (o : BitVec 16) (len : Nat) (s : State) : Host.Outcome State Fault Refusal :=
  (seqR lits o len s).outcome

/-- LAST (R92, R204). -/
def execLast (lits : List Byte) (s : State) : Host.Outcome State Fault Refusal := (lastR lits s).outcome

end Machine
end Sys2Proof
end

