-- ==== Sys2Proof/Machine/Encoder.lean ====
section
/-! DEFINITION. The token encoder (43_block_compressor.md section 2): WRITE_EXT, EMIT_SEQ, EMIT_LAST. -/
namespace Sys2Proof
namespace Machine

/-- write_ext(v) (R178): `v / 255` bytes 0xFF, then the terminal byte. -/
def writeExtR (v : Nat) (s : State) : Res Unit := putList (extBytes v) s

/-- The extension of a length that carries one (R176, R181). -/
def writeLenExt (v : Nat) (s : State) : Res Unit := if 15 ≤ v then writeExtR (v - 15) s else .ok () s

/-- emit_seq(s, Ll, O, Lm) (R176). -/
def emitSeqR (pos ll : Nat) (o : BitVec 16) (lm : Nat) (s : State) : Res Unit :=
  let t := tokenByte (lenNibble ll) (lenNibble (lm - Config.minMatch))
  (put t (s.setWork { s.work with token := t })).bind fun _ s =>
    (writeLenExt ll s).bind fun _ s =>
      (copyLiteralsR pos ll s).bind fun _ s =>
        (putList (leBytes 2 o.toNat) s).bind fun _ s => writeLenExt (lm - Config.minMatch) s

/-- emit_last(s, Ll) (R184). -/
def emitLastR (pos ll : Nat) (s : State) : Res Unit :=
  let t := tokenByte (lenNibble ll) 0#4
  (put t (s.setWork { s.work with token := t })).bind fun _ s =>
    (writeLenExt ll s).bind fun _ s => copyLiteralsR pos ll s

/-- WRITE_EXT (R178). -/
def execWriteExt (v : Nat) (s : State) : Host.Outcome State Fault Refusal := (writeExtR v s).outcome

/-- EMIT_SEQ (R176). -/
def execEmitSeq (pos ll : Nat) (o : BitVec 16) (lm : Nat) (s : State) : Host.Outcome State Fault Refusal :=
  (emitSeqR pos ll o lm s).outcome

/-- EMIT_LAST (R184). -/
def execEmitLast (pos ll : Nat) (s : State) : Host.Outcome State Fault Refusal := (emitLastR pos ll s).outcome

end Machine
end Sys2Proof
end

