-- ==== Sys2Proof/Machine/Find.lean ====
section
/-! DEFINITION. The hash match finder (41_match_finder.md) and the match extender (42_match_extender.md): FIND and EXTEND, and the
extender's wide datapath (R155, R159), which no result depends on (R162). -/
namespace Sys2Proof
namespace Machine

/-- FIND(p) (R140): the old slot is read, then overwritten, then the candidate tested left to right (R142, R143). -/
def findR (p : Nat) (s : State) : Res Unit :=
  (srcWindow p s).bind fun v s =>
    let h := hash4 v
    let ref := s.ht.get h
    let s := (s.setHt (s.ht.set h p)).setWork { s.work with seq4 := v, h := h, ref := ref, accept := false }
    if ref = 0 ∨ Config.maxOffset < p - ref then .ok () s
    else (srcWindow ref s).bind fun v' s => .ok () (s.setWork { s.work with accept := v' == v })

/-- The common prefix of `src[a + k ..)` and `src[b + k ..)` in at most `r` more bytes, added to `k` (R162, R163). -/
def commonPrefix (a b : Nat) : Nat → Nat → State → Res Nat
  | 0, k, s => .ok k s
  | r + 1, k, s =>
    (srcByte (a + k) s).bind fun x s => (srcByte (b + k) s).bind fun y s =>
      if x = y then commonPrefix a b r (k + 1) s else .ok k s

/-- The ceiling: the requested maximum and both slice lengths (R156). -/
def extendLimit (n a b max : Nat) : Nat := min max (min (n - a) (n - b))

/-- EXTEND(a, b, max) (R155); the returned length is latched in `ret` (log entry 19). -/
def extendR (a b max : Nat) (s : State) : Res Unit :=
  (commonPrefix a b (extendLimit s.work.n a b max) 0 s).bind fun k s => .ok () (s.setRet k)

/-- FIND (R140). -/
def execFind (p : Nat) (s : State) : Host.Outcome State Fault Refusal := (findR p s).outcome

/-- EXTEND (R155). -/
def execExtend (a b max : Nat) (s : State) : Host.Outcome State Fault Refusal := (extendR a b max s).outcome

/-! ### The extender's datapath on a byte string (R155, R157 to R159) -/

/-- The number of trailing zero bits, 16 for 0 (R12). -/
def ctz16 (m : BitVec 16) : Nat := ((List.range 16).find? m.getLsbD).getD 16

/-- The equality mask of two windows: bit i is lane i (R159). -/
def laneMask (f : Nat → Byte) (x y : Nat) : BitVec 16 :=
  BitVec.ofNat 16 (((List.range 16).map fun i => if f (x + i) = f (y + i) then 2 ^ i else 0).sum)

/-- The tail below one window, a byte at a time (R158). -/
def tailPrefix (f : Nat → Byte) (a b : Nat) : Nat → Nat → Nat
  | 0, k => k
  | r + 1, k => if f (a + k) = f (b + k) then tailPrefix f a b r (k + 1) else k

/-- The wide loop: `w` full windows left, then a tail of `t` bytes (R155, R157). -/
def wideExtend (f : Nat → Byte) (a b : Nat) : Nat → Nat → Nat → Nat
  | 0, t, k => tailPrefix f a b t k
  | w + 1, t, k =>
    if laneMask f (a + k) (b + k) = 0xFFFF#16 then wideExtend f a b w t (k + Config.extWindow)
    else k + ctz16 (~~~ laneMask f (a + k) (b + k))

/-- The datapath of EXTEND below a ceiling (R155). -/
def extendDatapath (f : Nat → Byte) (a b limit : Nat) : Nat :=
  wideExtend f a b (limit / Config.extWindow) (limit % Config.extWindow) 0

end Machine
end Sys2Proof
end

