-- ==== Sys2Proof/Machine/Compress.lean ====
section
/-! DEFINITION. The block compressor (43_block_compressor.md section 1): COMPRESS_BLOCK, as the reference scan (R170) or as any
valid block when `COMPRESSOR = AnyValid` (R129). -/
namespace Sys2Proof
namespace Machine

/-- The block begins: the table is cleared and the cursors are 0 (R50, R170). -/
def blockStart (s : State) : State :=
  (s.setHt []).setWork { s.work with ip := 0, anchor := 0, op := 0 }

/-- The scan goes on at `ip` (R170, R171). -/
def scanGoesOn (s : State) : Bool :=
  decide (Config.minMatchInput ≤ s.work.n) && decide (s.work.ip + Config.mfLimit ≤ s.work.n)

/-- The most EXTEND is asked for at a match: it must end at n − LASTLITERALS (R174). -/
def extendMax (s : State) : Nat := s.work.n - Config.lastLiterals - (s.work.ip + 4)

/-- After EXTEND: match length, offset and literal length of the match (R174). -/
def measured (s : State) : State :=
  s.setWork { s.work with
    matchLen := 4 + s.work.ret, offset := BitVec.ofNat 16 (s.work.ip - s.work.ref), litLen := s.work.ip - s.work.anchor }

/-- After EMIT_SEQ: the scan resumes at the match's end (R174, R175). -/
def afterMatch (s : State) : State :=
  s.setWork { s.work with ip := s.work.ip + s.work.matchLen, anchor := s.work.ip + s.work.matchLen }

/-- encode_match() (R174). -/
def encodeMatchR (s : State) : Res Unit :=
  (extendR (s.work.ip + 4) (s.work.ref + 4) (extendMax s) s).bind fun _ s =>
    let s := measured s
    (emitSeqR s.work.anchor s.work.litLen s.work.offset s.work.matchLen s).bind fun _ s => .ok () (afterMatch s)

/-- The scan loop (R170); every iteration advances `ip`, so `n` iterations are enough (R122). -/
def scanLoop : Nat → State → Res Unit
  | 0, s => .ok () s
  | fuel + 1, s =>
    if scanGoesOn s then
      (findR s.work.ip s).bind fun _ s =>
        if s.work.accept then (encodeMatchR s).bind fun _ s => scanLoop fuel s
        else scanLoop fuel (s.setIp (s.work.ip + 1))
    else .ok () s

/-- compress_block() of the reference compressor (R170). -/
def compressRefR (s : State) : Res Unit :=
  (scanLoop s.work.n (blockStart s)).bind fun _ s => emitLastR s.work.anchor (s.work.n - s.work.anchor) s

/-! ### The block as a function of its input, for the obligations of R129 -/

/-- A machine of its own with only `src` in memory at 0 and a destination of `cap` bytes behind it, on which no access fails. -/
def labState (src : List Byte) (cap : Nat) : State :=
  { State.reset with
    cfg := { Params.default with busErrorPossible := false, addrW := src.length + cap + 64 }
    work := { Work.reset with n := src.length, da := src.length, cap := cap }
    mem := Memory.writeList { cells := [], spans := [] } 0 src }

/-- The bytes an engine operation left at `dst[0 .. op)`. -/
def blockOf (r : Res Unit) : Option (List Byte) :=
  match r with
  | .ok _ s => some (s.mem.readList s.work.da s.work.op)
  | _ => none

/-- The reference block of an input (R129). -/
def refBlock (src : List Byte) : List Byte :=
  (blockOf (compressRefR (labState src (boundExact src.length)))).getD []

/-- What DECOMPRESS with capacity `cap` makes of a block (R129 (b)). -/
def blockMeaning (b : List Byte) (cap : Nat) : Option (List Byte) := blockOf (decompressBlockR (labState b cap))

/-- Every element but the last is a match with a legal offset and length, and the last is a `final_seq` (R129 (c), (d)). -/
def elementsShape : List Instr → Bool
  | [] => false
  | [.last _] => true
  | .seq _ o len :: t => o != 0#16 && Config.minMatch ≤ len && elementsShape t
  | _ => false

/-- A block COMPRESS may write for `src` under AnyValid: R129 (a) to (d). -/
def validBlock (c : Params) (src b : List Byte) : Bool :=
  b.length ≤ maxCompressedSize c src.length && blockMeaning b src.length == some src
    && ((parseBlock b).map elementsShape).getD false

/-- The block an AnyValid compressor writes: the free proposal of this draw where it is valid, else the reference block, so that
every valid block and nothing else can come (log entry 11). -/
def chosenBlock (c : Params) (k : Nat) (src : List Byte) : List Byte :=
  if validBlock c src (Config.freeBlock k) then Config.freeBlock k else refBlock src

/-- compress_block() under `COMPRESSOR = AnyValid` (R129). -/
def compressAnyR (s : State) : Res Unit :=
  (srcList 0 s.work.n (blockStart s)).bind fun src s =>
    putList (chosenBlock s.cfg s.draws src) (s.setDraws (s.draws + 1))

/-- compress_block() (R129, R170). -/
def compressBlockR (s : State) : Res Unit :=
  match s.cfg.compressor with
  | .reference => compressRefR s
  | .anyValid => compressAnyR s

/-- COMPRESS_BLOCK (R170). -/
def execCompressBlock (s : State) : Host.Outcome State Fault Refusal := (compressBlockR s).outcome

end Machine
end Sys2Proof
end

