-- ==== Sys2Proof/Machine/Commands.lean ====
section
/-! DEFINITION. The commands (40_commands.md): a write to CMD accepts one (R120), records a reserved opcode (R128) or is ignored
while BUSY (R331); then the checks a command makes first, its end, and a whole command as the host waits for it (R104 `RUN`). -/
namespace Sys2Proof
namespace Machine

/-- A write of a defined opcode to CMD: acceptance while IDLE (R120), ignored while BUSY (R331). The engine then performs the
command in steps of its own (R122). -/
def offerCommand (c : Command) (s : State) : State := if s.busy then s else s.accept c

/-- COMPRESS (R120, R123). -/
def execCompress (s : State) : Host.Outcome State Fault Refusal := .next (offerCommand .compress s)

/-- DECOMPRESS (R120, R124). -/
def execDecompress (s : State) : Host.Outcome State Fault Refusal := .next (offerCommand .decompress s)

/-- DECOMPRESS_EXACT (R120, R125). -/
def execDecompressExact (s : State) : Host.Outcome State Fault Refusal := .next (offerCommand .decompressExact s)

/-- BOUND (R120, R127). -/
def execBound (s : State) : Host.Outcome State Fault Refusal := .next (offerCommand .bound s)

/-- A reserved opcode: recorded while IDLE without entering BUSY (R128), ignored while BUSY (R331). -/
def execReserved (_op : BitVec 4) (s : State) : Host.Outcome State Fault Refusal :=
  .next (if s.busy then s else s.setRegs s.regs.invalidCommand)

/-- The checks a command makes before its block, in the order of R293: regions (R74), COMPRESS's bound (R123), then the devices
the model refuses (R80). BOUND makes none (R127). -/
def firstChecks (c : Command) (s : State) : Res Unit :=
  match c with
  | .bound => .ok () s
  | .compress =>
    (checkRegions s).bind fun _ s =>
      if s.work.cap < boundExact s.work.n then .raise .outputTooSmall s else checkDevices s
  | .decompress => (checkRegions s).bind fun _ s => checkDevices s
  | .decompressExact => (checkRegions s).bind fun _ s => checkDevices s

/-- The length check of DECOMPRESS_EXACT (R125); the other commands end with what they made (R123, R124, R127). -/
def resultOf (c : Command) (s : State) : Res Nat :=
  match c with
  | .bound => .ok (maxCompressedSize s.cfg s.work.n) s
  | .compress => .ok s.work.op s
  | .decompress => .ok s.work.op s
  | .decompressExact => if s.work.op = s.work.cap then .ok s.work.op s else .raise .invalidData s

/-- The command's block. -/
def commandBlock (c : Command) (s : State) : Res Unit :=
  match c with
  | .bound => .ok () s
  | .compress => compressBlockR s
  | .decompress => decompressBlockR s
  | .decompressExact => decompressBlockR s

/-- The end of a command: `finish` or the last check's `raise` (R121, R125, R296). -/
def endWith (r : Res Nat) : Host.Outcome State Fault Refusal :=
  match r with
  | .ok len s => .next (s.finish len)
  | .raise e s => .next (s.raiseEnd e)
  | .fault f => .fault f
  | .refuse q => .refused q

/-- The end of the running command once its block is done. -/
def closeBlock (c : Command) (s : State) : State :=
  match resultOf c s with
  | .ok len s => s.finish len
  | .raise e s => s.raiseEnd e
  | _ => s

/-- A whole command, from an accepted state to its end (R123 to R127). -/
def commandBody (c : Command) (s : State) : Res Nat :=
  (firstChecks c s).bind fun _ s => (commandBlock c s).bind fun _ s => resultOf c s

/-- A whole command run by a host that waits for its end (R104 `RUN`), from an IDLE engine. -/
def runCommand (c : Command) (s : State) : Host.Outcome State Fault Refusal := endWith (commandBody c (s.accept c))

end Machine
end Sys2Proof
end

