-- ==== Sys2Proof/Machine/HostPort.lean ====
section
/-! DEFINITION. The host's side of the interface: the register block (10_state R33 to R42), host memory as the host reaches it
(R80, R85, R332) and the platform's reset. -/
namespace Sys2Proof
namespace Machine

/-- ID (R41). -/
def idWord (c : Params) : Word :=
  BitVec.ofNat 64 (1 + 2 ^ 8 * 16 + 2 ^ 16 * c.sizeW + 2 ^ 24 * c.addrW)

/-- A host read of the register at an offset (R33); reserved offsets and CMD read 0 (R34, R42). -/
def regRead (s : State) (off : Nat) : Word :=
  if off = 0x08 then statusWord s.phase s.regs
  else if off = 0x10 then s.regs.errCode.setWidth 64
  else if off = 0x18 then s.regs.srcAddr
  else if off = 0x20 then s.regs.srcLen
  else if off = 0x28 then s.regs.dstAddr
  else if off = 0x30 then s.regs.dstCap
  else if off = 0x38 then s.regs.resultLen
  else if off = 0x40 then s.regs.errInPos
  else if off = 0x48 then s.regs.errOutPos
  else if off = 0x50 then BitVec.ofNat 64 s.regs.irqEn.toNat
  else if off = 0x58 then idWord s.cfg
  else 0

/-- A host write to a register other than CMD while IDLE (R33, R35, R40); writes to read-only and reserved offsets are ignored. -/
def regWriteIdle (c : Params) (r : Regs) (off : Nat) (v : Word) : Regs :=
  if off = 0x08 then r.clearStatus v
  else if off = 0x18 then { r with srcAddr := truncTo c.addrW v }
  else if off = 0x20 then { r with srcLen := truncTo c.sizeW v }
  else if off = 0x28 then { r with dstAddr := truncTo c.addrW v }
  else if off = 0x30 then { r with dstCap := truncTo c.sizeW v }
  else if off = 0x50 then { r with irqEn := v.getLsbD 0 }
  else r

/-- A host write to a register other than CMD: while BUSY only IRQ_EN takes it (R40, R331). -/
def regWrite (s : State) (off : Nat) (v : Word) : State :=
  if s.busy then (if off = 0x50 then s.setRegs { s.regs with irqEn := v.getLsbD 0 } else s)
  else s.setRegs (regWriteIdle s.cfg s.regs off v)

/-- What a host access of `size` bytes at `addr` reaches. -/
inductive Target where
  | reg (off : Nat)
  | memory
  /-- part of the register block, but not a naturally aligned 8-byte access (R42) -/
  | refused
  deriving DecidableEq, Repr

/-- Which of the three an access reaches (R33, R42, R70). -/
def target (c : Params) (addr size : Nat) : Target :=
  if coversRegs c addr size = false then .memory
  else if size = 8 ∧ addr % 8 = 0 ∧ c.regBase ≤ addr ∧ addr + 8 ≤ c.regBase + 256 then .reg (addr - c.regBase)
  else .refused

/-- A range of host memory the host may reach: it exists (R70), is no part of the register block (R42) and of no other device
(R80). -/
def hostRange (addr len : Nat) (s : State) : Res Unit :=
  if addr + len ≤ s.cfg.addrSpace then
    if coversRegs s.cfg addr len then .refuse .registerAccess
    else if coversDevice s.cfg addr len then .refuse .deviceAccess
    else .ok () s
  else .fault .noSuchAddress

/-! ### The window of R332: from the CMD write to the host's observation of BUSY = 0 (log entry 15) -/

/-- The regions the host may not touch: those of a running command, which BOUND has none of (R73), and those of the commands it has
offered and not seen the end of. -/
def State.engaged (s : State) : List Window :=
  match s.phase with
  | .idle => s.unseen
  | .busy .bound _ => s.unseen
  | .busy _ _ => { sa := s.work.sa, n := s.work.n, da := s.work.da, cap := s.work.cap } :: s.unseen

/-- The host writes `i` to CMD: a command with regions, offered while IDLE, opens its window. -/
def State.offered (i : Instr) (s : State) : State :=
  if s.busy then s
  else if i = .compress ∨ i = .decompress ∨ i = .decompressExact then
    s.setUnseen ({ sa := s.regs.srcAddr.toNat, n := s.regs.srcLen.toNat, da := s.regs.dstAddr.toNat, cap := s.regs.dstCap.toNat }
      :: s.unseen)
  else s

/-- The host has seen BUSY = 0, or the interrupt (R301, R327): every window closes. -/
def State.observed (s : State) : State := s.setUnseen []

/-- `len` bytes at `addr` share a byte with either region. -/
def Window.meets (w : Window) (addr len : Nat) : Bool := meetsRegion w.sa w.n addr len || meetsRegion w.da w.cap addr len

/-- The host stores bytes; into either region of a command whose end it has not seen it may not (R85, R332). -/
def hostStore (addr : Nat) (bytes : List Byte) (s : State) : Res Unit :=
  (hostRange addr bytes.length s).bind fun _ s =>
    if s.engaged.any (fun w => w.meets addr bytes.length) then .refuse .hostRace
    else .ok () (s.setMem (s.mem.writeList addr bytes))

/-- A byte as the host reads it: a destination byte of a command whose end it has not seen is not to be relied on (R332) and is free
(log entry 15). -/
def hostByte (s : State) (a : Nat) : Byte :=
  if s.engaged.any (fun w => inRegion w.da w.cap a) then Config.freeByte s.draws a else s.mem.read a

/-- The host reads bytes (R327); each load that may meet free bytes is a draw of its own. -/
def hostLoad (addr len : Nat) (s : State) : Res (List Byte) :=
  (hostRange addr len s).bind fun _ s =>
    .ok ((List.range' addr len).map (hostByte s)) (if s.engaged.isEmpty then s else s.setDraws (s.draws + 1))

/-- The host keeps a value it read (log entry 28). -/
def State.pushRead (s : State) (v : Word) : State := s.setHost { s.host with reads := v :: s.host.reads }

/-- The host keeps bytes it read (log entry 28). -/
def State.pushBytes (s : State) (bs : List Byte) : State := s.setHost { s.host with got := s.host.got ++ bs }

/-- A host write access that does not reach CMD. The spec gives no byte order for the host's own stores to memory: least significant
byte first is the model's choice (DESIGN CHOICE, log entry 32). -/
def hostWrite (addr size : Nat) (v : Word) (s : State) : Res Unit :=
  match target s.cfg addr size with
  | .reg off => .ok () (regWrite s off v)
  | .memory => hostStore addr (leBytes size v.toNat) s
  | .refused => .refuse .registerAccess

/-- A host read access; a read of STATUS with BUSY = 0 shows the end of a command (R327). The byte order of a load from memory is the
model's choice, as in `hostWrite` (DESIGN CHOICE, log entry 32). -/
def hostRead (addr size : Nat) (s : State) : Res Unit :=
  match target s.cfg addr size with
  | .reg off => .ok () ((if off = 0x08 ∧ s.busy = false then s.observed else s).pushRead (regRead s off))
  | .memory => (hostLoad addr size s).bind fun bs s => .ok () (s.pushRead (BitVec.ofNat 64 (leVal bs)))
  | .refused => .refuse .registerAccess

/-- The host writes a command's operands while IDLE (R324). A length above MAX_SIZE is truncated as every write to the register is
(R33); that host software offers it all the same is the model's choice (DESIGN CHOICE, log entry 34). -/
def State.setOperands (s : State) (sa n da cap : Nat) : State :=
  s.setRegs { s.regs with
    srcAddr := truncTo s.cfg.addrW (BitVec.ofNat 64 sa), srcLen := truncTo s.cfg.sizeW (BitVec.ofNat 64 n)
    dstAddr := truncTo s.cfg.addrW (BitVec.ofNat 64 da), dstCap := truncTo s.cfg.sizeW (BitVec.ofNat 64 cap) }

/-- What host software gets from a call: a value, an error of R266's kinds, or the stop of a step. -/
inductive HostRes (α : Type) where
  | ok (a : α) (s : State)
  | fail (e : HostError) (s : State)
  | stop (o : Host.Outcome State Fault Refusal)

/-- Host software goes on after a call that succeeded; an error is returned at once, none is retried (R266). -/
def HostRes.bind {α β : Type} (r : HostRes α) (k : α → State → HostRes β) : HostRes β :=
  match r with
  | .ok a s => k a s
  | .fail e s => .fail e s
  | .stop o => .stop o

/-- A host memory access inside a call. -/
def HostRes.of {α : Type} (r : Res α) : HostRes α :=
  match r with
  | .ok a s => .ok a s
  | .raise e s => .stop (.next (s.raiseEnd e))
  | .fault f => .stop (.fault f)
  | .refuse q => .stop (.refused q)

/-- The host error an engine error code is returned as (R266). -/
def HostError.ofCode (code : Byte) : HostError :=
  if code = ErrCode.code .invalidData then .invalidData
  else if code = ErrCode.code .unexpectedEof then .unexpectedEof
  else if code = ErrCode.code .outputTooSmall then .outputTooSmall
  else .engine code

/-- Host software writes the operands, runs a command on an IDLE engine and waits for its end (R240, R104 `RUN`), which it then has
seen: the result length, or the engine's error. -/
def hostRun (c : Command) (sa n da cap : Nat) (s : State) : HostRes Nat :=
  match runCommand c (s.setOperands sa n da cap) with
  | .next t => if t.regs.done then .ok t.regs.resultLen.toNat t.observed else .fail (.ofCode t.regs.errCode) t.observed
  | .fault f => .stop (.fault f)
  | .refused q => .stop (.refused q)

end Machine
end Sys2Proof
end

