-- ==== Sys2Proof/Machine/Frame.lean ====
section
/-! DEFINITION. The host frame elements as the frame decompressor meets them (47 sections 1 and 3): FRAME_MAGIC, FRAME_FLG,
FRAME_BD, FRAME_CONTENT_SIZE, FRAME_HC, BLOCK_COMPRESSED, BLOCK_STORED, END_MARK, CONTENT_CHECKSUM. Host software; the engine is
reached through `hostRun` only (R240). -/
namespace Sys2Proof
namespace Machine

/-! ### Fields of the descriptor -/

/-- FLG[7:6], the version (R243). -/
def flgVersion (b : Byte) : BitVec 2 := b.extractLsb' 6 2
/-- FLG[3], content size present (R243). -/
def flgHasSize (b : Byte) : Bool := b.getLsbD 3
/-- FLG[2], content checksum present (R243). -/
def flgHasChecksum (b : Byte) : Bool := b.getLsbD 2
/-- FLG holds only what the source describes: version 01, bits 4, 1, 0 clear (R243). -/
def flgDescribed (b : Byte) : Bool := flgVersion b == 1#2 && !b.getLsbD 4 && !b.getLsbD 1 && !b.getLsbD 0
/-- BD[6:4], the block-size class (R244). -/
def bdClass (b : Byte) : BitVec 3 := b.extractLsb' 4 3
/-- BD holds only what the source describes: a class 4 to 7, bits 7 and 3:0 clear (R244). -/
def bdDescribed (b : Byte) : Bool := decide (4 ≤ (bdClass b).toNat) && !b.getLsbD 7 && b.extractLsb' 0 4 == 0#4
/-- The largest uncompressed block of a class (R244); classes 0 to 3 have none stated (log entry 29). -/
def classSize (c : BitVec 3) : Option Nat :=
  if c = 4#3 then some 65536
  else if c = 5#3 then some 262144
  else if c = 6#3 then some 1048576
  else if c = 7#3 then some 4194304
  else none

/-- XOR of header bytes (R246). -/
def xorBytes (a : Byte) (bs : List Byte) : Byte := bs.foldl (· ^^^ ·) a

/-- A block of `k` bytes is longer than its frame's class allows and the host refuses such blocks (R258). -/
def oversize (c : Params) (bd : Byte) (k : Nat) : Bool :=
  match classSize (bdClass bd) with
  | none => false
  | some m => c.oversizeBlock == .reject && decide (m < k)

/-! ### The decompressor's state -/

def State.setFdec (s : State) (f : FrameDec) : State := s.setHost { s.host with fdec := f }

/-- The call ends with an error (R266). -/
def FrameDec.fail (f : FrameDec) (e : HostError) : FrameDec := { f with point := .ended, error := some e }

/-- The next `k` bytes are consumed and the parser goes on at `p`. -/
def FrameDec.advance (f : FrameDec) (k : Nat) (p : FramePoint) : FrameDec := { f with cur := f.cur + k, point := p }

/-- Doubling until `need` fits, never past `cap` (R256). That a buffer of size 0, which doubling leaves at 0, grows to 2 first is the
model's choice (DESIGN CHOICE, log entry 43). -/
def growTo (cap need : Nat) : Nat → Nat → Nat
  | 0, buf => buf
  | fuel + 1, buf => if need ≤ buf then buf else growTo cap need fuel (min cap (2 * max 1 buf))

/-- The output buffer grown for `need` bytes, or none when that would exceed `max_output_size` (R256). -/
def FrameDec.grow (f : FrameDec) (need : Nat) : Option FrameDec :=
  match f.maxOut with
  | none => some { f with bufCap := growTo (2 * (need + f.bufCap + 1)) need need f.bufCap }
  | some m => if m < need then none else some { f with bufCap := growTo m need need f.bufCap }

/-- The end of a frame whose trailer is read: the checks R258 leaves to parameters (log entry 22). -/
def FrameDec.close (c : Params) (f : FrameDec) : FrameDec :=
  if c.contentSizeCheck && f.size.isSome && f.size != some f.outLen then f.fail .invalidData
  else if c.trailingBytes == .reject && f.cur != f.len then f.fail .invalidData
  else { f with point := .ended, error := none }

/-! ### The elements -/

/-- FRAME_MAGIC (R242, R254). -/
def execFrameMagic (s : State) : Host.Outcome State Fault Refusal := .next (s.setFdec (s.host.fdec.advance 4 .flg))

/-- FRAME_FLG (R243, R254). -/
def execFrameFlg (b : Byte) (s : State) : Host.Outcome State Fault Refusal :=
  let f := { s.host.fdec.advance 1 .bd with flg := b, hcAcc := b }
  .next (s.setFdec (if s.cfg.frameReserved == .reject && !flgDescribed b then f.fail .invalidData else f))

/-- FRAME_BD (R244, R254). -/
def execFrameBd (b : Byte) (s : State) : Host.Outcome State Fault Refusal :=
  let f := s.host.fdec
  let f := { f.advance 1 (if flgHasSize f.flg then .size else .hc) with bd := b, hcAcc := f.hcAcc ^^^ b }
  .next (s.setFdec (if s.cfg.frameReserved == .reject && !bdDescribed b then f.fail .invalidData else f))

/-- FRAME_CONTENT_SIZE (R245, R254, R256): more than `max_output_size` fails at once; otherwise it pre-sizes the output. -/
def execFrameContentSize (v : BitVec 64) (s : State) : Host.Outcome State Fault Refusal :=
  let f := s.host.fdec
  let f := { f.advance 8 .hc with size := some v.toNat, hcAcc := xorBytes f.hcAcc (leBytes 8 v.toNat), bufCap := v.toNat }
  .next (s.setFdec (
    match f.maxOut with
    | none => f
    | some m => if m < v.toNat then f.fail .outputTooLarge else f))

/-- FRAME_HC (R246, R254). -/
def execFrameHc (b : Byte) (s : State) : Host.Outcome State Fault Refusal :=
  let f := s.host.fdec.advance 1 .word
  .next (s.setFdec (if s.cfg.hcVerify && b != f.hcAcc then f.fail .invalidData else f))

/-- END_MARK (R248, R254). -/
def execEndMark (s : State) : Host.Outcome State Fault Refusal :=
  let f := s.host.fdec.advance 4 .checksum
  .next (s.setFdec (if flgHasChecksum f.flg then f else f.close s.cfg))

/-- The call's error or stop as an outcome; success puts the parser state back. -/
def frameOutcome (r : HostRes FrameDec) : Host.Outcome State Fault Refusal :=
  match r with
  | .ok f s => .next (s.setFdec f)
  | .fail e s => .next (s.setFdec (s.host.fdec.fail e))
  | .stop o => o

/-- The payload of a record is all there (R257). -/
def payloadThere (f : FrameDec) (len : Nat) (s : State) : HostRes Unit :=
  if f.len - f.cur < len then .fail .unexpectedEof s else .ok () s

/-- `k` more bytes of output: refused when oversized (R258), `OutputTooLarge` past the cap (R256). The spec gives no order where both
apply: oversized first is the model's choice (DESIGN CHOICE, log entry 35). -/
def appendOutput (f : FrameDec) (k : Nat) (s : State) : HostRes FrameDec :=
  if oversize s.cfg f.bd k then .fail .invalidData s
  else
    match f.grow (f.outLen + k) with
    | none => .fail .outputTooLarge s
    | some f => .ok { f with outLen := f.outLen + k } s

/-- CONTENT_CHECKSUM (R249, R254): compared with CHECKSUM32 of all appended bytes. The spec gives no order between this comparison and
the checks of R258: a mismatch first, the content size next, trailing bytes last is the model's choice (DESIGN CHOICE, log entry 35). -/
def execContentChecksum (v : BitVec 32) (s : State) : Host.Outcome State Fault Refusal :=
  let f := s.host.fdec.advance 4 .ended
  frameOutcome ((HostRes.of (hostLoad f.out f.outLen s)).bind fun bs s =>
    .ok (if v = Config.checksum32 bs then f.close s.cfg else f.fail .checksumMismatch) s)

/-- BLOCK_STORED (R247, R254): the payload is appended verbatim. -/
def execBlockStored (len : BitVec 31) (s : State) : Host.Outcome State Fault Refusal :=
  let f := s.host.fdec.advance 4 .word
  frameOutcome ((payloadThere f len.toNat s).bind fun _ s =>
    (appendOutput f len.toNat s).bind fun g s =>
      (HostRes.of (hostLoad (f.src + f.cur) len.toNat s)).bind fun bs s =>
        (HostRes.of (hostStore (f.out + f.outLen) bs s)).bind fun _ s => .ok (g.advance len.toNat .word) s)

/-- BLOCK_COMPRESSED (R247, R254, R255): one DECOMPRESS of the payload with capacity `HOST_BLOCK_CAP`, its result appended. A host
whose engine is BUSY waits (log entry 24). -/
def execBlockCompressed (len : BitVec 31) (s : State) : Host.Outcome State Fault Refusal :=
  let f := s.host.fdec.advance 4 .word
  if s.busy then .next s
  else
    frameOutcome ((payloadThere f len.toNat s).bind fun _ s =>
      (hostRun .decompress (f.src + f.cur) len.toNat (f.out + f.outLen) s.cfg.hostBlockCap s).bind fun k s =>
        (appendOutput f k s).bind fun g s => .ok (g.advance len.toNat .word) s)

end Machine
end Sys2Proof
end

