-- ==== Sys2Proof/Machine/HostLayer.lean ====
section
/-! DEFINITION. The rest of the host layer (47): the start of a frame decompression, the frame compressor (R250 to R253), the
streaming compressor (R259 to R261) and the streaming decompressor (R262 to R264). Host software. -/
namespace Sys2Proof
namespace Machine

/-! ### Writing frames -/

/-- The FLG byte a compressor writes: version 01, the option bits, the undescribed bits 0 (R243, R252). -/
def flgByte (independent size checksum : Bool) : Byte :=
  BitVec.ofNat 8 (0x40 + 0x20 * independent.toNat + 0x08 * size.toNat + 0x04 * checksum.toNat)

/-- The BD byte of a class, the undescribed bits 0 (R244). -/
def bdByte (c : BitVec 3) : Byte := BitVec.ofNat 8 (16 * c.toNat)

/-- The bytes of the content-size field, if any (R245). -/
def sizeBytes (size : Option Nat) : List Byte :=
  match size with
  | none => []
  | some v => leBytes 8 v

/-- The header of a frame: magic, FLG, BD, the content size if selected, HC (R241, R250). -/
def headerBytes (c : Params) (size : Option Nat) : List Byte :=
  let flg := flgByte c.optIndependent size.isSome c.optChecksum
  let bd := bdByte c.optBlockClass
  encodeElements [.frameMagic, .frameFlg flg, .frameBd bd] ++ sizeBytes size
    ++ [xorBytes 0#8 (flg :: bd :: sizeBytes size)]

/-- The end marker and, if selected, the checksum of the whole content (R248, R249, R250). -/
def trailerBytes (c : Params) (content : List Byte) : List Byte :=
  encodeElements (.endMark :: if c.optChecksum then [.contentChecksum (Config.checksum32 content)] else [])

/-- The chunk size of the frame's class (R251); log entry 29 for a class the spec does not size. -/
def chunkSize (c : Params) : Nat := (classSize c.optBlockClass).getD 65536

/-- A block record (R247, R250): the block when it is strictly smaller than the chunk, else the chunk, stored. -/
def recordBytes (chunk block : List Byte) : List Byte :=
  if block.length < chunk.length then encodeElements [.blockCompressed (BitVec.ofNat 31 block.length)] ++ block
  else encodeElements [.blockStored (BitVec.ofNat 31 chunk.length)] ++ chunk

/-- The size of the scratch region of an `m`-byte chunk: what the caller sets aside, as far as DST_CAP can name it (R33), and at least
`maxCompressedSize(m)` (R250; log entry 40). -/
def scratchSize (c : Params) (scratchCap m : Nat) : Nat := max (min scratchCap c.maxSize) (maxCompressedSize c m)

/-- One chunk's record: COMPRESS of the `m` bytes at `src` into the scratch region, then R250's choice. -/
def chunkRecord (src m scratch scratchCap : Nat) (s : State) : HostRes (List Byte) :=
  (HostRes.of (hostLoad src m s)).bind fun chunk s =>
    (hostRun .compress src m scratch (scratchSize s.cfg scratchCap m) s).bind fun r s =>
      (HostRes.of (hostLoad scratch r s)).bind fun block s => .ok (recordBytes chunk block) s

def State.setFcomp (s : State) (f : FrameComp) : State := s.setHost { s.host with fcomp := f }

def FrameComp.fail (f : FrameComp) (e : HostError) : FrameComp := { f with point := .ended, error := some e }

/-- One write to the destination of a frame compression: `OutputTooSmall` when its bytes do not all fit, and then none is written
(R253; what counts as one write is DESIGN CHOICE, log entry 33). -/
def frameWrite (bytes : List Byte) (s : State) : HostRes Unit :=
  let f := s.host.fcomp
  if f.cap - f.outLen < bytes.length then .fail .outputTooSmall s
  else
    (HostRes.of (hostStore (f.dst + f.outLen) bytes s)).bind fun _ s =>
      .ok () (s.setFcomp { f with outLen := f.outLen + bytes.length })

/-- Room for a 4-byte length slot (R250, R253). -/
def reserveSlot (s : State) : HostRes Unit :=
  if s.host.fcomp.cap - s.host.fcomp.outLen < 4 then .fail .outputTooSmall s else .ok () s

/-- The next part of a frame compression (R250): the header, one chunk's record, or the trailer. That each is a single write, made
whole or not at all, is the model's choice (DESIGN CHOICE, log entry 33). -/
def frameCompPart (s : State) : HostRes Unit :=
  let f := s.host.fcomp
  match f.point with
  | .header =>
    (frameWrite (headerBytes s.cfg (if s.cfg.optContentSize then some f.len else none)) s).bind fun _ s =>
      .ok () (s.setFcomp { s.host.fcomp with point := .chunk })
  | .chunk =>
    if f.cur < f.len then
      let m := min (chunkSize s.cfg) (f.len - f.cur)
      (reserveSlot s).bind fun _ s => (chunkRecord (f.src + f.cur) m f.scratch f.scratchCap s).bind fun rec s =>
        (frameWrite rec s).bind fun _ s => .ok () (s.setFcomp { s.host.fcomp with cur := f.cur + m })
    else .ok () (s.setFcomp { f with point := .trailer })
  | .trailer =>
    (HostRes.of (hostLoad f.src f.len s)).bind fun content s =>
      (frameWrite (trailerBytes s.cfg content) s).bind fun _ s =>
        .ok () (s.setFcomp { s.host.fcomp with point := .ended, error := none })
  | .off => .ok () s
  | .ended => .ok () s

/-- One host step of a frame compression. -/
def frameCompStep (s : State) : Host.Outcome State Fault Refusal :=
  match frameCompPart s with
  | .ok _ s => .next s
  | .fail e s => .next (s.setFcomp (s.host.fcomp.fail e))
  | .stop o => o

/-- A frame compression begins (R250). -/
def startFrameComp (src len dst cap scratch scratchCap : Nat) (s : State) : State :=
  s.setFcomp { point := .header, src := src, len := len, cur := 0, dst := dst, cap := cap, outLen := 0, scratch := scratch,
               scratchCap := scratchCap, error := none }

/-- The fixed header and trailer overhead of a frame: magic, FLG, BD, content size and HC, end marker and checksum (R241; that it counts
the optional fields is DESIGN CHOICE, log entry 41). -/
def frameOverhead : Nat := (4 + 1 + 1 + 8 + 1) + (4 + 4)

/-- The size the allocating wrapper gives its destination: the worst-case block bound times the chunk count, plus the fixed overhead
(R253; log entry 41). -/
def framePresize (c : Params) (len : Nat) : Nat :=
  maxCompressedSize c (chunkSize c) * ((len + chunkSize c - 1) / chunkSize c) + frameOverhead

/-- The allocating wrapper: a frame compression into a destination it has sized (R253). -/
def startFrameCompAlloc (src len dst scratch scratchCap : Nat) (s : State) : State :=
  startFrameComp src len dst (framePresize s.cfg len) scratch scratchCap s

/-- A frame decompression begins (R254); the output buffer starts at `HOST_INITIAL_CAP`, never past the cap (R256). -/
def startFrameDec (src len out : Nat) (maxOut : Option Nat) (s : State) : State :=
  s.setFdec { FrameDec.off with
    point := .magic, src := src, len := len, out := out, maxOut := maxOut
    bufCap := (match maxOut with | none => s.cfg.hostInitialCap | some m => min m s.cfg.hostInitialCap) }

/-! ### Streaming compressor (R259 to R261) -/

def State.setScomp (s : State) (f : StreamComp) : State := s.setHost { s.host with scomp := f }

/-- Bytes go to the sink. -/
def streamPut (bytes : List Byte) (s : State) : State :=
  s.setScomp { s.host.scomp with sink := s.host.scomp.sink ++ bytes }

/-- The header is emitted once (R260). A stream knows no content size (log entry 25). -/
def streamHeader (s : State) : State :=
  match s.host.scomp.point with
  | .headerNotWritten =>
    let s := streamPut (headerBytes s.cfg none) s
    s.setScomp { s.host.scomp with point := .accumulating }
  | _ => s

/-- The accumulated bytes leave as one block record (R260, R261). -/
def flushBlock (s : State) : HostRes Unit :=
  let f := s.host.scomp
  (HostRes.of (hostStore f.accAddr f.acc s)).bind fun _ s =>
    (chunkRecord f.accAddr f.acc.length f.scratch f.scratchCap s).bind fun rec s =>
      let s := streamPut rec s
      .ok () (s.setScomp { s.host.scomp with acc := [] })

/-- Bytes are accumulated, and each time the buffer fills it is flushed (R260); `fuel` bounds the flushes. -/
def accumulate : Nat → List Byte → State → HostRes Unit
  | 0, _, s => .ok () s
  | fuel + 1, bytes, s =>
    let f := s.host.scomp
    let room := chunkSize s.cfg - f.acc.length
    let s := s.setScomp { f with acc := f.acc ++ bytes.take room, seen := f.seen ++ bytes.take room }
    if bytes.length < room then .ok () s
    else (flushBlock s).bind fun _ s => accumulate fuel (bytes.drop room) s

/-- `write(bytes)` (R260): all of them are consumed and their number returned; in `finished` nothing happens and 0 is returned. -/
def streamWriteR (bytes : List Byte) (s : State) : HostRes Nat :=
  match s.host.scomp.point with
  | .finished => .ok 0 s
  | _ => (accumulate (bytes.length + 1) bytes (streamHeader s)).bind fun _ s => .ok bytes.length s

/-- `flush()` (R261): the partly filled buffer leaves without ending the frame; an empty one as `STREAM_EMPTY_FLUSH` says. That the
header comes first where none is written yet, that a flush returns 0, and that on a finished stream it does nothing, is the model's
choice (DESIGN CHOICE, log entry 37). -/
def streamFlushR (s : State) : HostRes Nat :=
  match s.host.scomp.point with
  | .finished => .ok 0 s
  | _ =>
    if s.host.scomp.acc = [] && !s.cfg.streamEmptyFlush then .ok 0 s
    else (flushBlock (streamHeader s)).bind fun _ s => .ok 0 s

/-- The remainder is flushed when there is one (R261). -/
def flushRemainder (s : State) : HostRes Unit := if s.host.scomp.acc = [] then .ok () s else flushBlock s

/-- `finish()` (R261): the remainder, the end marker and the checksum; before any write the header as `STREAM_FINISH_HEADER` says. That it
returns 0, and on a finished stream does nothing, is the model's choice (DESIGN CHOICE, log entry 37). -/
def streamFinishR (s : State) : HostRes Nat :=
  match s.host.scomp.point with
  | .finished => .ok 0 s
  | _ =>
    (flushRemainder (if s.cfg.streamFinishHeader then streamHeader s else s)).bind fun _ s =>
      let s := streamPut (trailerBytes s.cfg s.host.scomp.seen) s
      .ok 0 (s.setScomp { s.host.scomp with point := .finished })

/-- Dropping the compressor without `finish()`: what it has not emitted is lost, its sink keeps the truncated frame, and it takes no
further call (R265; log entry 39). -/
def dropScomp (s : State) : State := s.setScomp { s.host.scomp with point := .finished, acc := [] }

/-- A new streaming compressor (R259); the sink of the one before stays with the host (R265; log entry 39). -/
def openScomp (acc scratch scratchCap : Nat) (s : State) : State :=
  s.setHost { s.host with scomp := .fresh acc scratch scratchCap, frames := s.host.scomp.sink :: s.host.frames }

/-! ### Streaming decompressor (R262 to R264) -/

def State.setSdec (s : State) (f : StreamDec) : State := s.setHost { s.host with sdec := f }

/-- Exactly `k` bytes from the source into the raw-input buffer, or `UnexpectedEof` (R262 to R264; log entry 38). -/
def streamTake (k : Nat) (s : State) : HostRes (List Byte) :=
  let f := s.host.sdec
  if f.len - f.cur < k then .fail .unexpectedEof s
  else
    (HostRes.of (hostLoad (f.src + f.cur) k s)).bind fun bs s =>
      (HostRes.of (hostStore f.raw bs s)).bind fun _ s => .ok bs (s.setSdec { f with cur := f.cur + k })

/-- A check of a header field. -/
def hostCheck (b : Bool) (e : HostError) (s : State) : HostRes Unit := if b then .ok () s else .fail e s

/-- The content-size bytes of a header whose FLG selects them. -/
def streamSize (flg : Byte) (s : State) : HostRes (List Byte) := if flgHasSize flg then streamTake 8 s else .ok [] s

/-- The header: magic, FLG, BD, the optional content size, HC (R263), with the checks of R242 to R246. That the content size is
neither compared nor kept, and that bytes after the frame are not looked at, is the model's choice (DESIGN CHOICE, log entry 36). -/
def streamReadHeader (s : State) : HostRes Unit :=
  (streamTake 4 s).bind fun m s => (hostCheck (leVal m == frameMagicValue) .invalidData s).bind fun _ s =>
    (streamTake 1 s).bind fun fs s =>
      let flg := BitVec.ofNat 8 (leVal fs)
      (hostCheck (s.cfg.frameReserved == .ignore || flgDescribed flg) .invalidData s).bind fun _ s =>
        (streamTake 1 s).bind fun bs s =>
          let bd := BitVec.ofNat 8 (leVal bs)
          (hostCheck (s.cfg.frameReserved == .ignore || bdDescribed bd) .invalidData s).bind fun _ s =>
            (streamSize flg s).bind fun size s => (streamTake 1 s).bind fun hc s =>
              (hostCheck (!s.cfg.hcVerify || hc == [xorBytes 0#8 (flg :: bd :: size)]) .invalidData s).bind fun _ s =>
                .ok () (s.setSdec { s.host.sdec with point := .readingBlocks, flg := flg, bd := bd })

/-- The block buffer holds a new block and its cursor is at the start (R264). That `OVERSIZE_BLOCK_POLICY`, which R258 gives for frame
decompression, holds here as well is the model's choice (DESIGN CHOICE, log entry 36). -/
def streamFill (bytes : List Byte) (s : State) : HostRes Unit :=
  let f := s.host.sdec
  if oversize s.cfg f.bd bytes.length then .fail .invalidData s
  else .ok () (s.setSdec { f with pending := bytes, seen := f.seen ++ bytes })

/-- The checksum after the end marker, where the frame has one and `STREAM_CHECKSUM_VERIFY` says it is read and verified (R264). -/
def streamTrailer (s : State) : HostRes Unit :=
  if flgHasChecksum s.host.sdec.flg && s.cfg.streamChecksumVerify then
    (streamTake 4 s).bind fun bs s =>
      hostCheck (BitVec.ofNat 32 (leVal bs) == Config.checksum32 s.host.sdec.seen) .checksumMismatch s
  else .ok () s

/-- The next record, copied or decompressed from the raw-input buffer into the block buffer, or the end (R264; log entry 38). -/
def streamNextBlock (s : State) : HostRes Unit :=
  (streamTake 4 s).bind fun ws s =>
    let w := BitVec.ofNat 32 (leVal ws)
    if w = 0#32 then
      (streamTrailer (s.setSdec { s.host.sdec with point := .finished })).bind fun _ s => .ok () s
    else
      let len := (w.extractLsb' 0 31).toNat
      (streamTake len s).bind fun bs s =>
        if w.getLsbD 31 then (HostRes.of (hostStore s.host.sdec.block bs s)).bind fun _ s => streamFill bs s
        else
          (hostRun .decompress s.host.sdec.raw len s.host.sdec.block s.cfg.hostBlockCap s).bind fun k s =>
            (HostRes.of (hostLoad s.host.sdec.block k s)).bind fun out s => streamFill out s

/-- At most `k` of the bytes left in the block buffer are handed out (R264). -/
def streamDrain (k : Nat) (s : State) : HostRes Nat :=
  let f := s.host.sdec
  let out := f.pending.take k
  .ok out.length ((s.pushBytes out).setSdec { f with pending := f.pending.drop k })

/-- The header, the first time (R263). -/
def streamOpen (s : State) : HostRes Unit :=
  match s.host.sdec.point with
  | .headerNotRead => streamReadHeader s
  | _ => .ok () s

/-- `read(buffer)` of `k` bytes (R262 to R264): what is left of a block, or the next block; 0 once finished. -/
def streamReadR (k : Nat) (s : State) : HostRes Nat :=
  (streamOpen s).bind fun _ s =>
    if s.host.sdec.pending = [] then
      match s.host.sdec.point with
      | .finished => .ok 0 s
      | _ => (streamNextBlock s).bind fun _ s => streamDrain k s
    else streamDrain k s

/-- The outcome of a streaming-compressor call: its result is kept (log entry 28), or its error. -/
def scompOutcome (r : HostRes Nat) : Host.Outcome State Fault Refusal :=
  match r with
  | .ok k s => .next (s.pushRead (BitVec.ofNat 64 k))
  | .fail e s => .next (s.setScomp { s.host.scomp with error := some e })
  | .stop o => o

/-- The outcome of a streaming-decompressor call. -/
def sdecOutcome (r : HostRes Nat) : Host.Outcome State Fault Refusal :=
  match r with
  | .ok k s => .next (s.pushRead (BitVec.ofNat 64 k))
  | .fail e s => .next (s.setSdec { s.host.sdec with error := some e })
  | .stop o => o

end Machine
end Sys2Proof
end

