-- ==== Sys2Proof/Machine/Fetch.lean ====
section
/-! DEFINITION. Who moves next and what it does: the instruction a step runs (a CMD write of the host, an internal operation or a
stream element of the engine, an element of the frame the host decodes), or an action that is no instruction (R30, R104, R122). -/
namespace Sys2Proof
namespace Machine

/-- What a step does: run an instruction at a state and then sequence the running pipeline, or an action of another kind. -/
inductive Fetched where
  | run (i : Instr) (s : State) (after : State → State)
  | other (o : Host.Outcome State Fault Refusal)

/-- The sequencing of a pipeline acts only while the command goes on: after a `raise` the engine is IDLE (R296). -/
def State.ifBusy (f : State → State) (s : State) : State := if s.busy then f s else s

/-- A next state is sequenced; a stop stays. -/
def onNext (f : State → State) (o : Host.Outcome State Fault Refusal) : Host.Outcome State Fault Refusal :=
  match o with
  | .next s => .next (f s)
  | .fault r => .fault r
  | .refused r => .refused r

/-! ### The engine -/

/-- Stream bytes read at source position `pos` and decoded where the decoder stands; a stream that ends first raises
`UnexpectedEof` (R199, R205). -/
def fetchStream (x : Context) (pos : Nat) (s : State) : Fetched :=
  if s.work.n - pos < contextBytes x then .other (.next (s.raiseEnd .unexpectedEof))
  else
    match srcList pos (contextBytes x) s with
    | .ok bs s =>
      match decode x bs with
      | .instr i _ => .run i s id
      | .rejected _ => .other (.next (s.raiseEnd .unexpectedEof))
    | r => .other r.outcome

/-- After FIND: encode the match, or the next position (R170, R173). -/
def afterFind (s : State) : State := if s.work.accept then s.setPoint .encode else s.setIp (s.work.ip + 1)

/-- The checks are passed: the block, at the machine's pace (log entry 9). -/
def fetchBlock (c : Command) (s : State) : Fetched :=
  match c, s.pace with
  | .bound, _ => .other (.next (closeBlock .bound s))
  | .compress, .whole => .run .compressBlock s (State.ifBusy (closeBlock .compress))
  | .compress, .piecewise =>
    match s.cfg.compressor with
    | .reference => .other (.next ((blockStart s).setPoint .scan))
    | .anyValid => .run .compressBlock s (State.ifBusy (closeBlock .compress))
  | .decompress, .whole => .run .decompressBlock s (State.ifBusy (closeBlock .decompress))
  | .decompress, .piecewise => .other (.next ((s.setWork { s.work with ip := 0, op := 0 }).setPoint .token))
  | .decompressExact, .whole => .run .decompressBlock s (State.ifBusy (closeBlock .decompressExact))
  | .decompressExact, .piecewise => .other (.next ((s.setWork { s.work with ip := 0, op := 0 }).setPoint .token))

/-- The engine's next operation (R123 to R127, R170, R195). -/
def fetchEngine (c : Command) (p : Point) (s : State) : Fetched :=
  match p with
  | .start =>
    match firstChecks c s with
    | .ok _ s => fetchBlock c s
    | r => .other r.outcome
  | .scan => if scanGoesOn s then .run (.find s.work.ip) s (State.ifBusy afterFind) else .other (.next (s.setPoint .last))
  | .encode =>
    .run (.extend (s.work.ip + 4) (s.work.ref + 4) (extendMax s)) s (State.ifBusy fun s => (measured s).setPoint .emit)
  | .emit =>
    .run (.emitSeq s.work.anchor s.work.litLen s.work.offset s.work.matchLen) s
      (State.ifBusy fun s => (afterMatch s).setPoint .scan)
  | .last =>
    .run (.emitLast s.work.anchor (s.work.n - s.work.anchor)) s (State.ifBusy fun s => s.setPoint .finish)
  | .token => if s.work.ip < s.work.n then fetchStream .token s.work.ip s else .other (.next (s.setPoint .finish))
  | .ext _ => fetchStream .ext s.work.ip s
  | .literal => fetchStream .literal (s.work.ip + s.work.idx) s
  | .offset => fetchStream .offset s.work.ip s
  | .copy =>
    if s.work.cap - s.work.op < s.work.matchLen then .other (.next (s.raiseEnd .outputTooSmall))
    else .run (.copyMatch s.work.offset s.work.matchLen) s (State.ifBusy fun s => s.setPoint .token)
  | .finish => .other (.next (closeBlock c s))

/-! ### The host -/

/-- The context of the element a frame parser expects. -/
def frameContext : FramePoint → Option Context
  | .off => none
  | .magic => some .frameMagic
  | .flg => some .frameFlg
  | .bd => some .frameBd
  | .size => some .frameSize
  | .hc => some .frameHc
  | .word => some .blockWord
  | .checksum => some .checksum
  | .ended => none

/-- The next element of the frame being decoded (R254): `UnexpectedEof` when it is not all there (R257), `InvalidData` when the
magic differs (R242). A host whose engine is BUSY waits (log entry 24). -/
def fetchFrame (x : Context) (s : State) : Fetched :=
  let f := s.host.fdec
  if s.busy then .other (.next s)
  else if f.len - f.cur < contextBytes x then .other (.next (s.setFdec (f.fail .unexpectedEof)))
  else
    match hostLoad (f.src + f.cur) (contextBytes x) s with
    | .ok bs s =>
      match decode x bs with
      | .instr i _ => .run i s id
      | .rejected _ => .other (.next (s.setFdec (f.fail .invalidData)))
    | r => .other r.outcome

/-- A host call that needs the engine waits while it is BUSY (log entry 24). -/
def whenIdle (s : State) (waiting : State) (o : Host.Outcome State Fault Refusal) : Host.Outcome State Fault Refusal :=
  if s.busy then .next waiting else o

/-- The host's next action; `s` has it taken off the queue, `waiting` has it still on. -/
def fetchAct (a : HostAct) (s waiting : State) : Fetched :=
  match a with
  | .wr addr size v =>
    if target s.cfg addr size = .reg 0 then .run (decodeCommand v) (s.offered (decodeCommand v)) id
    else .other (hostWrite addr size v s).outcome
  | .rd addr size => .other (hostRead addr size s).outcome
  | .mem addr bytes => .other (hostStore addr bytes s).outcome
  | .ld addr len => .other ((hostLoad addr len s).bind fun bs s => .ok () (s.pushBytes bs)).outcome
  | .poll => .other (.next (if s.busy then waiting else s.observed))
  | .waitIrq => .other (.next (if s.irq then s.observed else waiting))
  | .reset => .other (.next s.resetEngine.observed)
  | .frameCompress src len dst cap scratch scratchCap =>
    .other (.next (startFrameComp src len dst cap scratch scratchCap s))
  | .frameCompressAlloc src len dst scratch scratchCap =>
    .other (.next (startFrameCompAlloc src len dst scratch scratchCap s))
  | .frameDecompress src len out maxOut => .other (.next (startFrameDec src len out maxOut s))
  | .openCompressor acc scratch scratchCap => .other (.next (openScomp acc scratch scratchCap s))
  | .dropCompressor => .other (.next (dropScomp s))
  | .streamWrite bytes => .other (whenIdle s waiting (scompOutcome (streamWriteR bytes s)))
  | .streamFlush => .other (whenIdle s waiting (scompOutcome (streamFlushR s)))
  | .streamFinish => .other (whenIdle s waiting (scompOutcome (streamFinishR s)))
  | .openDecompressor src len raw block => .other (.next (s.setSdec (.fresh src len raw block)))
  | .streamRead k => .other (whenIdle s waiting (sdecOutcome (streamReadR k s)))

/-- A frame compression is under way. -/
def compRunning (f : FrameComp) : Bool := f.point == .header || f.point == .chunk || f.point == .trailer

/-- The host has something to do. -/
def hostReady (h : HostSide) : Bool := (frameContext h.fdec.point).isSome || compRunning h.fcomp || !h.queue.isEmpty

/-- The host's move: the frame it decodes, the frame it writes, or its next action. The platform's reset (R320) is an entry of the
host's queue, so it comes between calls and never inside one: the model's choice (DESIGN CHOICE, log entry 30). -/
def fetchHost (s : State) : Fetched :=
  match frameContext s.host.fdec.point with
  | some x => fetchFrame x s
  | none =>
    if compRunning s.host.fcomp then .other (whenIdle s s (frameCompStep s))
    else
      match s.host.queue with
      | [] => .other (.next s)
      | a :: t => fetchAct a (s.setHost { s.host with queue := t }) s

/-! ### Turns -/

/-- Who moves: the agent the turn list names when it can, else the other; an exhausted list lets a BUSY engine go first, so an
accepted command is eventually ended (R340; log entry 10). -/
def mover (s : State) : Option Agent :=
  match s.turns with
  | .host :: _ => if hostReady s.host then some .host else if s.busy then some .engine else none
  | _ => if s.busy then some .engine else if hostReady s.host then some .host else none

/-- What the next step does. With nothing to do the machine waits (R321). -/
def fetch (s : State) : Fetched :=
  let t := s.setTurns s.turns.tail
  match mover s with
  | some .host => fetchHost t
  | some .engine =>
    match t.phase with
    | .busy c p => fetchEngine c p t
    | .idle => .other (.next t)
  | none => .other (.next t)

/-! ### Placing one instruction where the next step finds it -/

/-- The line of the decoder that reads a stream context (log entry 12). -/
def streamPoint : Context → Point
  | .ext => .ext .lit
  | .literal => .literal
  | .offset => .offset
  | _ => .token

/-- The parse point that reads a frame context (log entry 12). -/
def framePoint : Context → FramePoint
  | .frameFlg => .flg
  | .frameBd => .bd
  | .frameSize => .size
  | .frameHc => .hc
  | .blockWord => .word
  | .checksum => .checksum
  | _ => .magic

/-- The host's next action is a write of `v` to CMD. -/
def placeCommand (s : State) (v : Word) : State :=
  { s with
    turns := .host :: s.turns
    host := { s.host with queue := .wr s.cfg.regBase 8 v :: s.host.queue, fdec := .off, fcomp := .off } }

/-- The engine decodes a block whose next bytes are `bytes`, at source position 0. -/
def placeStream (s : State) (x : Context) (bytes : List Byte) : State :=
  { s with
    turns := .engine :: s.turns, bus := [], phase := .busy .decompress (streamPoint x)
    work := { s.work with sa := 0, n := bytes.length, ip := 0, idx := 0 }, mem := s.mem.writeList 0 bytes }

/-- The host decodes a frame whose next bytes are `bytes`. -/
def placeFrame (s : State) (x : Context) (bytes : List Byte) : State :=
  { s with
    turns := .host :: s.turns, phase := .idle, mem := s.mem.writeList 0 bytes
    host := { s.host with fdec := { s.host.fdec with point := framePoint x, src := 0, len := bytes.length, cur := 0 } } }

/-- One instruction of a context placed where the next step fetches it. -/
def placeBytes (s : State) (x : Context) (bytes : List Byte) : State :=
  match x with
  | .command => placeCommand s (BitVec.ofNat 64 (leVal bytes))
  | .token => placeStream s x bytes
  | .ext => placeStream s x bytes
  | .literal => placeStream s x bytes
  | .offset => placeStream s x bytes
  | .element => placeStream s x bytes
  | .frameMagic => placeFrame s x bytes
  | .frameFlg => placeFrame s x bytes
  | .frameBd => placeFrame s x bytes
  | .frameSize => placeFrame s x bytes
  | .frameHc => placeFrame s x bytes
  | .blockWord => placeFrame s x bytes
  | .checksum => placeFrame s x bytes

/-- A table word placed where the next step fetches it (log entries 12 and 13). -/
def placeTableWord (s : State) (nbits w : Nat) : State :=
  match tableContext nbits w with
  | none => s
  | some x => placeBytes s x (leBytes (contextBytes x) w)

end Machine
end Sys2Proof
end

