-- ==== Sys2Proof/Machine/Dispatch.lean ====
section
/-! DEFINITION. The meaning of every instruction: one arm per constructor of `Instr`. -/
namespace Sys2Proof
namespace Machine

def exec (i : Instr) (s : State) : Host.Outcome State Fault Refusal :=
  match i with
  -- command words (R123 to R128)
  | .compress => Sys2Proof.Machine.execCompress s
  | .decompress => Sys2Proof.Machine.execDecompress s
  | .decompressExact => Sys2Proof.Machine.execDecompressExact s
  | .bound => Sys2Proof.Machine.execBound s
  | .reserved op => Sys2Proof.Machine.execReserved op s
  -- block elements (R92 to R99, R195 to R209)
  | .token l m => Sys2Proof.Machine.execToken l m s
  | .extCont => Sys2Proof.Machine.execExtCont s
  | .extTerm t => Sys2Proof.Machine.execExtTerm t s
  | .literal b => Sys2Proof.Machine.execLiteral b s
  | .offset16 o => Sys2Proof.Machine.execOffset16 o s
  | .seq lits offset len => Sys2Proof.Machine.execSeq lits offset len s
  | .last lits => Sys2Proof.Machine.execLast lits s
  -- internal operations (R140, R155, R170 to R184, R195, R199, R225 to R228)
  | .find p => Sys2Proof.Machine.execFind p s
  | .extend a b max => Sys2Proof.Machine.execExtend a b max s
  | .compressBlock => Sys2Proof.Machine.execCompressBlock s
  | .emitSeq pos ll o lm => Sys2Proof.Machine.execEmitSeq pos ll o lm s
  | .writeExt v => Sys2Proof.Machine.execWriteExt v s
  | .emitLast pos ll => Sys2Proof.Machine.execEmitLast pos ll s
  | .decompressBlock => Sys2Proof.Machine.execDecompressBlock s
  | .readLen nib => Sys2Proof.Machine.execReadLen nib s
  | .copyLiterals pos l => Sys2Proof.Machine.execCopyLiterals pos l s
  | .copyLiteralsDec l => Sys2Proof.Machine.execCopyLiteralsDec l s
  | .copyMatch o l => Sys2Proof.Machine.execCopyMatch o l s
  -- host frame elements (R241 to R249, R254)
  | .frameMagic => Sys2Proof.Machine.execFrameMagic s
  | .frameFlg b => Sys2Proof.Machine.execFrameFlg b s
  | .frameBd b => Sys2Proof.Machine.execFrameBd b s
  | .frameContentSize v => Sys2Proof.Machine.execFrameContentSize v s
  | .frameHc b => Sys2Proof.Machine.execFrameHc b s
  | .blockCompressed len => Sys2Proof.Machine.execBlockCompressed len s
  | .blockStored len => Sys2Proof.Machine.execBlockStored len s
  | .endMark => Sys2Proof.Machine.execEndMark s
  | .contentChecksum v => Sys2Proof.Machine.execContentChecksum v s

end Machine
end Sys2Proof
end

