-- ==== Sys2Proof/Machine/Step.lean ====
section
/-! DEFINITION. One step of the machine: the agent whose turn it is fetches, and what it fetched runs (R30, R122). -/
namespace Sys2Proof
namespace Machine

/-- One step. -/
def step (s : State) : Host.Outcome State Fault Refusal :=
  match fetch s with
  | .run i t after => onNext after (exec i t)
  | .other o => o

/-- The state with one table word placed where the next step fetches it: it stands for the load of a program from outside the
machine (log entry 12). -/
def State.withFetchWord (s : State) (nbits w : Nat) : State := placeTableWord s nbits w

end Machine
end Sys2Proof
end

