-- ==== Sys2Proof/Safety.lean ====
section
/-! DEFINITION. What counts as a safe step and a legal state, and the words the obligations are stated in. -/
namespace Sys2Proof
namespace Safety
open Machine

/-- The step does not stop with a fault. -/
def NoFault (o : Host.Outcome State Fault Refusal) : Prop := ∀ f, o ≠ .fault f

/-- No bus error is coming: none is possible (R81), or the platform's answers to come report none. -/
def Quiet (s : State) : Prop := s.cfg.busErrorPossible = false ∨ s.bus = []

/-- The regions of the latched operands pass R74's checks. -/
def Regions (s : State) : Prop := regionsFit s.cfg s.work = true ∧ regionsDisjoint s.work = true

/-- What a command's operations find when no check of R74 failed and no bus error is coming: its regions are legal and memory is in
its canonical form. -/
structure Ready (s : State) : Prop where
  quiet : Quiet s
  regions : Regions s
  wf : s.mem.wf

/-- `src[pos .. pos+len)` (R71). -/
def srcBytes (s : State) (pos len : Nat) : List Byte := s.mem.readList (s.work.sa + pos) len

/-- `dst[pos .. pos+len)` (R71). -/
def dstBytes (s : State) (pos len : Nat) : List Byte := s.mem.readList (s.work.da + pos) len

/-- From `s` to `t` exactly the bytes at `addr` were stored: they read back, and every other byte of memory reads as before. -/
def Stored (s t : State) (addr : Nat) (bytes : List Byte) : Prop :=
  t.mem.readList addr bytes.length = bytes
    ∧ ∀ a, a < addr ∨ addr + bytes.length ≤ a → t.mem.read a = s.mem.read a

/-- Every byte of memory reads as before. -/
def MemSame (s t : State) : Prop := ∀ a, t.mem.read a = s.mem.read a

/-- The address lies in the destination region of the latched operands (R71). -/
def InDest (s : State) (a : Nat) : Prop := s.work.da ≤ a ∧ a < s.work.da + s.work.cap

/-- What a back-reference appends to an output: `k` bytes, each the byte `o` back from the end (R228). -/
def copyBack (out : List Byte) (o : Nat) : Nat → List Byte
  | 0 => out
  | k + 1 => copyBack (out ++ [out.getD (out.length - o) 0]) o k

/-- The output a list of block elements stands for, after `out`; none when an offset is 0 or reaches past the output (R195, R206,
R207) or the list is no block (R92). -/
def produce : List Byte → List Instr → Option (List Byte)
  | out, [] => some out
  | out, [.last lits] => some (out ++ lits)
  | out, .seq lits o len :: t =>
    if o = 0#16 ∨ out.length + lits.length < o.toNat then none else produce (copyBack (out ++ lits) o.toNat len) t
  | _, _ => none

/-- How the decoding of a block ends: with its output, or with an error, `left` block bytes unread and `made` bytes of output (R291). -/
inductive DecodeEnd where
  | done (out : List Byte)
  | error (e : ErrCode) (left made : Nat)
  deriving DecidableEq, Repr

/-- The decode loop of R195 on byte strings: the block bytes not yet read, and the output so far. `fuel` bounds the elements; a block
of `k` bytes has at most `k` (R196). -/
def decodeBytes (cap : Nat) : Nat → List Byte → List Byte → DecodeEnd
  | 0, _, out => .done out
  | _ + 1, [], out => .done out
  | fuel + 1, t :: bs, out =>
    match parseLen (tokenLit t) bs with
    | none => .error .unexpectedEof 0 out.length
    | some (ll, r1) =>
      if r1.length < ll then .error .unexpectedEof r1.length out.length
      else if cap - out.length < ll then .error .outputTooSmall r1.length out.length
      else
        let out := out ++ r1.take ll
        match r1.drop ll with
        | [] => .done out
        | [_] => .error .unexpectedEof 1 out.length
        | lo :: hi :: r3 =>
          let o := BitVec.ofNat 16 (leVal [lo, hi])
          if o = 0#16 ∨ out.length < o.toNat then .error .invalidData r3.length out.length
          else
            match parseLen (tokenMatch t) r3 with
            | none => .error .unexpectedEof 0 out.length
            | some (m, r4) =>
              if cap - out.length < Config.minMatch + m then .error .outputTooSmall r4.length out.length
              else decodeBytes cap fuel r4 (copyBack out o.toNat (Config.minMatch + m))

/-- The decoding of a whole block into `cap` bytes (R195). -/
def decodeBlock (block : List Byte) (cap : Nat) : DecodeEnd := decodeBytes cap block.length block []

/-- The elements tile the input from `pos` on (R182), each match a true repetition of earlier input (R183), and the last is a
`final_seq` with what is left (R184). -/
def Tiles (src : List Byte) : Nat → List Instr → Prop
  | pos, [.last lits] => lits = src.drop pos
  | pos, .seq lits o len :: t =>
    lits = (src.drop pos).take lits.length ∧ pos + lits.length + len ≤ src.length ∧ Config.minMatch ≤ len ∧ 1 ≤ o.toNat
      ∧ o.toNat ≤ pos + lits.length
      ∧ (∀ i < len, src[pos + lits.length + i]? = src[pos + lits.length + i - o.toNat]?)
      ∧ Tiles src (pos + lits.length + len) t
  | _, _ => False

/-! ### The greedy scan on an input (R170 to R175), for the reference compressor's bytes (R129) -/

/-- The byte of an input at a position. -/
def byteAt (src : List Byte) (i : Nat) : Byte := src.getD i 0

/-- The four bytes at a position of an input, little-endian (R76). -/
def windowAt (src : List Byte) (p : Nat) : BitVec 32 :=
  window4 (byteAt src p) (byteAt src (p + 1)) (byteAt src (p + 2)) (byteAt src (p + 3))

/-- Where the scan stands, and what it has emitted. -/
structure ScanPoint where
  ip : Nat
  anchor : Nat
  ht : Table
  els : List Instr
  deriving DecidableEq, Repr

/-- One turn of the scan: the candidate of the slot, which is then overwritten; on acceptance the match from `ip` to its end, at most
`n − 5`, and the scan goes on behind it, else at the next position (R140 to R143, R174, R175). -/
def ScanPoint.next (src : List Byte) (x : ScanPoint) : ScanPoint :=
  let v := windowAt src x.ip
  let ref := x.ht.get (hash4 v)
  let ht := x.ht.set (hash4 v) x.ip
  if decide (ref ≠ 0) && decide (x.ip - ref ≤ 65535) && (windowAt src ref == v) then
    let ext := tailPrefix (byteAt src) (x.ip + 4) (ref + 4)
      (min (src.length - 5 - (x.ip + 4)) (min (src.length - (x.ip + 4)) (src.length - (ref + 4)))) 0
    { ip := x.ip + (4 + ext), anchor := x.ip + (4 + ext), ht := ht
      els := x.els ++ [.seq ((src.drop x.anchor).take (x.ip - x.anchor)) (BitVec.ofNat 16 (x.ip - ref)) (4 + ext)] }
  else { x with ip := x.ip + 1, ht := ht }

/-- The scan: while at least 13 bytes are given and `ip + 12 ≤ n` (R149, R170, R171). -/
def ScanPoint.run (src : List Byte) : Nat → ScanPoint → ScanPoint
  | 0, x => x
  | fuel + 1, x => if 13 ≤ src.length ∧ x.ip + 12 ≤ src.length then ScanPoint.run src fuel (x.next src) else x

/-- The elements of the reference block of an input: the matches of the scan from position 0 and an empty table, then what is left
(R170, R184). -/
def refElements (src : List Byte) : List Instr :=
  let x := ScanPoint.run src src.length { ip := 0, anchor := 0, ht := [], els := [] }
  x.els ++ [.last (src.drop x.anchor)]

/-- The command the engine is running. -/
def running (s : State) : Option Command :=
  match s.phase with
  | .idle => none
  | .busy c _ => some c

/-! ### Steps -/

/-- The state the agent that moves finds: its turn is taken off the list (log entry 10). -/
def tick (s : State) : State := s.setTurns s.turns.tail

/-- What the decoder reads next, and at which source position, when the engine decodes element by element (R195, R226). -/
def streamAt (s : State) : Option (Context × Nat) :=
  match s.phase with
  | .busy _ .token => if s.work.ip < s.work.n then some (.token, s.work.ip) else none
  | .busy _ (.ext _) => some (.ext, s.work.ip)
  | .busy _ .literal => some (.literal, s.work.ip + s.work.idx)
  | .busy _ .offset => some (.offset, s.work.ip)
  | _ => none

/-- The host's next move is the action `a` of its queue. -/
structure HostDoes (s : State) (a : HostAct) (rest : List HostAct) : Prop where
  moves : mover s = some .host
  noFrame : frameContext s.host.fdec.point = none
  noRecord : compRunning s.host.fcomp = false
  queue : s.host.queue = a :: rest

/-- The state in which the host has taken its next action off the queue. -/
def dequeued (s : State) (rest : List HostAct) : State :=
  { s with turns := s.turns.tail, host := { s.host with queue := rest } }

/-- The address lies in one of a command's two regions. -/
def InWindow (w : Window) (a : Nat) : Prop := (w.sa ≤ a ∧ a < w.sa + w.n) ∨ (w.da ≤ a ∧ a < w.da + w.cap)

/-- The host may not write the byte: it lies in a region of a command whose end the host has not seen, or of the running one; BOUND
has no regions (R73, R85, R332; log entry 15). -/
def Locked (s : State) (a : Nat) : Prop :=
  (∃ w ∈ s.unseen, InWindow w a) ∨
    (∃ c, running s = some c ∧ c ≠ .bound) ∧ InWindow { sa := s.work.sa, n := s.work.n, da := s.work.da, cap := s.work.cap } a

/-! ### Invariants -/

/-- Memory and the hash table are in their canonical forms. -/
def Canonical (s : State) : Prop := s.mem.wf ∧ Assoc.wf 0 s.ht

/-- The register block is one the rules allow: DONE and ERR exclude each other (R35), a success reports no error (R36, R39), an
error no result (R38), the operand registers hold no bits above their widths (R33), and while BUSY everything acceptance clears is
0 and the latched operands are the operand registers (R37, R333). -/
structure RegsLegal (s : State) : Prop where
  exclusive : ¬ (s.regs.done = true ∧ s.regs.err = true)
  success : s.regs.done = true → s.regs.errCode = 0 ∧ s.regs.errInPos = 0 ∧ s.regs.errOutPos = 0
  failure : s.regs.err = true → s.regs.resultLen = 0
  widths : s.regs.srcAddr.toNat < 2 ^ s.cfg.addrW ∧ s.regs.srcLen.toNat < 2 ^ s.cfg.sizeW
    ∧ s.regs.dstAddr.toNat < 2 ^ s.cfg.addrW ∧ s.regs.dstCap.toNat < 2 ^ s.cfg.sizeW
  cleared : s.busy = true → s.regs.done = false ∧ s.regs.err = false ∧ s.regs.errCode = 0 ∧ s.regs.resultLen = 0
    ∧ s.regs.errInPos = 0 ∧ s.regs.errOutPos = 0
  latched : s.busy = true → s.work.sa = s.regs.srcAddr.toNat ∧ s.work.n = s.regs.srcLen.toNat
    ∧ s.work.da = s.regs.dstAddr.toNat ∧ s.work.cap = s.regs.dstCap.toNat

/-- The regions of a command's operands are ordinary memory: no part of the register block or another device (R80). -/
def OrdinaryMemory (s : State) : Prop :=
  coversDevice s.cfg s.regs.srcAddr.toNat s.regs.srcLen.toNat = false
    ∧ coversDevice s.cfg s.regs.dstAddr.toNat s.regs.dstCap.toNat = false

/-- The operand registers pass the region checks of R74. -/
def OperandsLegal (s : State) : Prop :=
  s.regs.srcAddr.toNat + s.regs.srcLen.toNat ≤ 2 ^ s.cfg.addrW ∧ s.regs.dstAddr.toNat + s.regs.dstCap.toNat ≤ 2 ^ s.cfg.addrW
    ∧ (s.regs.srcLen.toNat = 0 ∨ s.regs.dstCap.toNat = 0 ∨ s.regs.srcAddr.toNat + s.regs.srcLen.toNat ≤ s.regs.dstAddr.toNat
      ∨ s.regs.dstAddr.toNat + s.regs.dstCap.toNat ≤ s.regs.srcAddr.toNat)

/-- The source bytes the operand registers name. -/
def operandBytes (s : State) : List Byte := s.mem.readList s.regs.srcAddr.toNat s.regs.srcLen.toNat

/-- The engine waits for a command and will move first once one is accepted, running the whole block in one step. -/
structure Waiting (s : State) : Prop where
  idle : s.phase = .idle
  first : s.turns.head? ≠ some .host
  whole : s.pace = .whole

/-- A range the host may reach: it exists (R70), is ordinary memory (R42, R80), and the host has seen the end of every command it
offered (R327, R332). -/
def HostMay (s : State) (addr len : Nat) : Prop :=
  addr + len ≤ 2 ^ s.cfg.addrW ∧ coversDevice s.cfg addr len = false ∧ s.unseen = []

/-- Waiting host software can run COMPRESS on `m` bytes at `src` with `cap` bytes at `dst`: the engine is IDLE and makes the reference
bytes, no bus error is coming, the host may reach both regions, they are apart, and the capacity meets R123 and fits DST_CAP. -/
structure HostCanCompress (s : State) (src m dst cap : Nat) : Prop where
  idle : s.phase = .idle
  quiet : Quiet s
  wf : s.mem.wf
  params : s.cfg.wf = true
  reference : s.cfg.compressor = .reference
  source : HostMay s src m
  dest : HostMay s dst cap
  apart : src + m ≤ dst ∨ dst + cap ≤ src
  addressed : src < 2 ^ s.cfg.addrW
  enough : m + m / 255 + 16 ≤ cap
  sized : cap < 2 ^ s.cfg.sizeW

end Safety
end Sys2Proof
end

