-- ==== Sys2Proof/Certificates/Slice0/Obligations.lean ====
section
/-! DEFINITION. The statements for the provers, one `Prop` each. `Ready` is: no bus error is coming, the regions pass R74, memory is
canonical. A statement that gives the next state as `{ s with … }` says with it that every other field is unchanged. -/
section
open Sys2Proof Sys2Proof.Machine Sys2Proof.Safety

/-! ### Encodings -/

/-- Decoding the encoding of a well-formed instruction gives it back, with whatever follows it; a `final_seq` is followed by nothing
(R92). Every instruction that has an encoding, at every operand value. -/
def Obligations.DecodeInvertsEncode : Prop :=
  ∀ (i : Instr) (x : Context) (bs rest : List Byte), i.wf = true → contextOf i = some x → encode i = some bs →
    (∀ lits, i = .last lits → rest = []) → decode x (bs ++ rest) = .instr i rest

/-- Whatever decodes is a well-formed instruction of its position, and, but for command words (whose upper bits are ignored, R90) and
the M nibble of a `final_seq` (R100), its bytes are the encoding: no second spelling exists (R98). -/
def Obligations.EncodeInvertsDecode : Prop :=
  ∀ (x : Context) (bs rest : List Byte) (i : Instr), decode x bs = .instr i rest →
    i.wf = true ∧ contextOf i = some x ∧
      (x ≠ .command → (∀ lits, i ≠ .last lits) → ∃ e, encode i = some e ∧ bs = e ++ rest) ∧
      (∀ lits, i = .last lits →
        rest = [] ∧ ∃ m, bs = tokenByte (lenNibble lits.length) m :: (lenExt lits.length ++ lits))

/-- R98: a length below 15 is its nibble and no extension, a length of 15 or more is nibble 15 and the extension of `(v − 15) / 255`
bytes 0xFF and the terminal byte `(v − 15) mod 255`; nothing else spells it. -/
def Obligations.LengthHasOneEncoding : Prop :=
  ∀ (nib : BitVec 4) (bs rest : List Byte) (v : Nat),
    parseLen nib bs = some (v, rest) ↔
      (v < 15 ∧ nib.toNat = v ∧ bs = rest) ∨
        (15 ≤ v ∧ nib = 15#4 ∧ bs = List.replicate ((v - 15) / 255) 0xFF#8 ++ BitVec.ofNat 8 ((v - 15) % 255) :: rest)

/-- R90: the opcode is `w[3:0]`, the other bits are ignored, and every value has its mnemonic. -/
def Obligations.CommandOpcodes : Prop :=
  ∀ (hi : BitVec 60) (op : BitVec 4),
    decodeCommand (hi ++ op) =
      if op = 0x1#4 then .compress else if op = 0x2#4 then .decompress else if op = 0x3#4 then .decompressExact
      else if op = 0x4#4 then .bound else .reserved op

/-- Words written out from the spec's encodings: command words (R90), a token, an extension and an offset (R93, R94, R97), the
example of R176 and its tail, and frame elements (R241 to R248). -/
def Obligations.SampleWords : Prop :=
  decode .command [0x02#8, 0#8, 0#8, 0#8, 0#8, 0#8, 0#8, 0#8] = .instr .decompress [] ∧
    decode .command [0x1F#8, 0#8, 0#8, 0#8, 0#8, 0#8, 0#8, 0x80#8] = .instr (.reserved 0xF#4) [] ∧
    decode .token [0x2F#8] = .instr (.token 2#4 15#4) [] ∧
    decode .ext [0xFF#8] = .instr .extCont [] ∧
    decode .ext [0xD1#8] = .instr (.extTerm 0xD1#8) [] ∧
    decode .offset [0x34#8, 0x12#8] = .instr (.offset16 0x1234#16) [] ∧
    decode .element [0x2F#8, 0x41#8, 0x41#8, 0x01#8, 0x00#8, 0xFF#8, 0xFF#8, 0xFF#8, 0xD1#8, 0x50#8] =
      .instr (.seq [0x41#8, 0x41#8] 1#16 993) [0x50#8] ∧
    decode .element [0x20#8, 0x61#8, 0x62#8] = .instr (.last [0x61#8, 0x62#8]) [] ∧
    decode .frameMagic [0x04#8, 0x22#8, 0x4D#8, 0x18#8] = .instr .frameMagic [] ∧
    decode .blockWord [0x05#8, 0#8, 0#8, 0x80#8] = .instr (.blockStored 5#31) [] ∧
    decode .blockWord [0x05#8, 0#8, 0#8, 0#8] = .instr (.blockCompressed 5#31) [] ∧
    decode .blockWord [0#8, 0#8, 0#8, 0#8] = .instr .endMark []

/-! ### Steps -/

/-- A host write of eight bytes that reaches CMD runs the instruction those bytes decode to, with the write taken off the host's
queue (R34, R104) and, for a command with regions offered while IDLE, the host's window of R332 opened. A host store to ordinary
memory is refused when it writes a byte of a region of a command whose end the host has not seen, and stores its bytes and does
nothing else otherwise (R85, R332). Turns, the queue, the record of the window and the byte order of a stored word are the model's (log
entries 10, 12, 15, 32). -/
def Obligations.StepRunsCommandWrite : Prop :=
  (∀ (s : State) (addr : Nat) (v : Word) (q : List HostAct) (i : Instr),
    HostDoes s (.wr addr 8 v) q → target s.cfg addr 8 = .reg 0 → decode .command (leBytes 8 v.toNat) = .instr i [] →
      step s = exec i { dequeued s q with
        unseen :=
          if s.busy = false ∧ i ∈ [.compress, .decompress, .decompressExact] then
            { sa := s.regs.srcAddr.toNat, n := s.regs.srcLen.toNat, da := s.regs.dstAddr.toNat, cap := s.regs.dstCap.toNat }
              :: s.unseen
          else s.unseen }) ∧
  ∀ (s : State) (a : HostAct) (addr : Nat) (bytes : List Byte) (q : List HostAct),
    (a = .mem addr bytes ∨ ∃ size v, a = .wr addr size v ∧ bytes = leBytes size v.toNat) → HostDoes s a q →
    addr + bytes.length ≤ 2 ^ s.cfg.addrW → coversDevice s.cfg addr bytes.length = false →
      ((∃ x, addr ≤ x ∧ x < addr + bytes.length ∧ Locked s x) → step s = .refused .hostRace) ∧
      (s.mem.wf → (∀ x, addr ≤ x → x < addr + bytes.length → ¬ Locked s x) →
        ∃ t, step s = .next t ∧ t = { dequeued s q with mem := t.mem } ∧ Stored s t addr bytes)

/-- Where the decoder stands at an element of the stream and no bus error is coming, the step runs the instruction the bytes there
decode to; where the block ends before the element does, the step ends the command with `UnexpectedEof` (R199, R205). That one step
decodes one element is the model's choice (log entries 9, 20). -/
def Obligations.StepRunsStreamElement : Prop :=
  ∀ (s : State) (x : Context) (pos : Nat), mover s = some .engine → streamAt s = some (x, pos) → Quiet s →
    s.work.sa + s.work.n ≤ s.cfg.addrSpace →
      (pos + contextBytes x ≤ s.work.n → ∀ (i : Instr) (rest : List Byte),
        decode x (srcBytes s pos (contextBytes x)) = .instr i rest → step s = exec i (tick s)) ∧
      (s.work.n < pos + contextBytes x → step s = .next ((tick s).raiseEnd .unexpectedEof))

/-- Where the host decodes a frame, its engine is IDLE and the bytes are there, the step runs the frame element they decode to; four
bytes that are not the magic number fail with `InvalidData` (R242). That one step decodes one element is the model's choice (log
entry 24). -/
def Obligations.StepRunsFrameElement : Prop :=
  ∀ (s : State) (x : Context), mover s = some .host →
    frameContext s.host.fdec.point = some x → s.phase = .idle →
    s.host.fdec.cur + contextBytes x ≤ s.host.fdec.len →
    HostMay s (s.host.fdec.src + s.host.fdec.cur) (contextBytes x) →
    let bytes := s.mem.readList (s.host.fdec.src + s.host.fdec.cur) (contextBytes x)
    (∀ (i : Instr) (rest : List Byte), decode x bytes = .instr i rest → step s = exec i (tick s)) ∧
    (x = .frameMagic → leVal bytes ≠ 0x184D2204 →
      step s = .next { tick s with host := { s.host with fdec := { s.host.fdec with
        point := .ended, error := some .invalidData } } })

/-- The engine's step at a line of a command's pseudocode runs that line's internal operation, then goes on as the pseudocode does
(R123 to R125, R170, R171, R174, R175, R195, R196, R209). FIND runs while `ip + 12 ≤ n` on an input of at least 13 bytes; a rejected
candidate moves `ip` by 1; an accepted one is measured: the match length is 4 more than EXTEND's, the offset `ip − ref`, the literal
length `ip − anchor`; after EMIT_SEQ `ip` and `anchor` are at the match's end. The lines and the two paces are the model's choice (log
entry 9). -/
def Obligations.StepRunsInternalOperation : Prop :=
  ∀ (s : State) (c : Command), mover s = some .engine →
    let goOn : Point → State → State := fun p t =>
      match t.phase with
      | .idle => t
      | .busy c' _ => { t with phase := .busy c' p }
    let goOnWith : Point → Work → State → State := fun p w t => goOn p { t with work := w }
    let ends : State → State := fun t =>
      match c with
      | .bound => t.finish (maxCompressedSize t.cfg t.work.n)
      | .compress => t.finish t.work.op
      | .decompress => t.finish t.work.op
      | .decompressExact => if t.work.op = t.work.cap then t.finish t.work.op else t.raiseEnd .invalidData
    let u := tick s
    let w := s.work
    (s.phase = .busy c .start → firstChecks c u = .ok () u →
      (c = .bound → step s = .next (ends u)) ∧
      (c = .compress →
        step s =
          if s.pace = .piecewise ∧ s.cfg.compressor = .reference then
            .next { u with ht := [], phase := .busy c .scan, work := { w with ip := 0, anchor := 0, op := 0 } }
          else onNext (State.ifBusy ends) (exec .compressBlock u)) ∧
      (c = .decompress ∨ c = .decompressExact →
        step s =
          if s.pace = .piecewise then .next { u with phase := .busy c .token, work := { w with ip := 0, op := 0 } }
          else onNext (State.ifBusy ends) (exec .decompressBlock u))) ∧
    (s.phase = .busy c .scan →
      step s =
        if 13 ≤ w.n ∧ w.ip + 12 ≤ w.n then
          onNext (State.ifBusy fun t =>
              if t.work.accept then goOn .encode t else { t with work := { t.work with ip := t.work.ip + 1 } })
            (exec (.find w.ip) u)
        else .next { u with phase := .busy c .last }) ∧
    (s.phase = .busy c .encode →
      step s = onNext (State.ifBusy fun t => goOnWith .emit { t.work with
          matchLen := 4 + t.work.ret, offset := BitVec.ofNat 16 (t.work.ip - t.work.ref), litLen := t.work.ip - t.work.anchor } t)
        (exec (.extend (w.ip + 4) (w.ref + 4) (w.n - 5 - (w.ip + 4))) u)) ∧
    (s.phase = .busy c .emit →
      step s = onNext (State.ifBusy fun t => goOnWith .scan { t.work with
          ip := t.work.ip + t.work.matchLen, anchor := t.work.ip + t.work.matchLen } t)
        (exec (.emitSeq w.anchor w.litLen w.offset w.matchLen) u)) ∧
    (s.phase = .busy c .last →
      step s = onNext (State.ifBusy (goOn .finish)) (exec (.emitLast w.anchor (w.n - w.anchor)) u)) ∧
    (s.phase = .busy c .token → w.n ≤ w.ip → step s = .next { u with phase := .busy c .finish }) ∧
    (s.phase = .busy c .copy →
      step s =
        if w.cap - w.op < w.matchLen then .next (u.raiseEnd .outputTooSmall)
        else onNext (State.ifBusy (goOn .token)) (exec (.copyMatch w.offset w.matchLen) u)) ∧
    (s.phase = .busy c .finish → step s = .next (ends u))

/-- R321: an IDLE engine fetches nothing; with a host that does nothing, a step only waits. The reset state waits so. Turns are the
model's (log entry 10). -/
def Obligations.IdleWaits : Prop :=
  (∀ s : State, s.phase = .idle → hostReady s.host = false → step s = .next (tick s)) ∧ step State.reset = .next State.reset

/-! ### Registers -/

/-- R320, R322: after reset, whatever came before, the phase is IDLE, every register reads its reset value (0, and ID its constant), and
the interrupt output is low; the same holds of the state a machine starts in. A reset leaves memory as it is, but for the destination
of a command it abandons, of which the source bytes stay too. The clause on memory is the model's: that all memory outside an abandoned
destination stays, which no command writes (R72), and that a source byte inside it keeps its value (log entries 21, 30). A step at the
platform's reset is this reset, with the windows of R332 closed; that it is an entry of the host's queue is the model's too (log
entries 15, 30). -/
def Obligations.ResetRegisters : Prop :=
  (∀ s t : State, t = s.resetEngine ∨ t = State.reset →
    t.phase = .idle ∧ t.irq = false ∧ ∀ off, regRead t off = if off = 0x58 then idWord t.cfg else 0) ∧
  (∀ (s : State) (a : Nat), s.phase = .idle ∨ ¬ InDest s a ∨ (s.work.sa ≤ a ∧ a < s.work.sa + s.work.n) →
    s.resetEngine.mem.read a = s.mem.read a) ∧
  ∀ (s : State) (q : List HostAct), HostDoes s .reset q → step s = .next { (dequeued s q).resetEngine with unseen := [] }

/-- R33, R40: a write to an operand register while IDLE reads back truncated to the register's width, IRQ_EN keeps bit 0, and no other
register changes; a write to a read-only or reserved offset changes nothing (STATUS and CMD have their own statements). A host write
of eight bytes to a register other than CMD is that write, a host read of eight bytes returns the register's value (R104), and any
other access that reaches the register block is refused (R42), a store or load of bytes among them. A read of STATUS with BUSY = 0 closes the host's windows (R327). The
queue, the list of values read and the windows are the model's (log entries 12, 15, 28). -/
def Obligations.OperandRegisters : Prop :=
  (∀ (s : State) (off : Nat) (v : Word), s.phase = .idle → off ≠ 0x00 →
    (off = 0x18 ∨ off = 0x28 → (regRead (regWrite s off v) off).toNat = v.toNat % 2 ^ s.cfg.addrW % 2 ^ 64) ∧
      (off = 0x20 ∨ off = 0x30 → (regRead (regWrite s off v) off).toNat = v.toNat % 2 ^ s.cfg.sizeW % 2 ^ 64) ∧
      (off = 0x50 → (regRead (regWrite s off v) off).toNat = v.toNat % 2) ∧
      (off ≠ 0x08 → ∀ off', off' ≠ off → regRead (regWrite s off v) off' = regRead s off') ∧
      (off ∉ [0x08, 0x18, 0x20, 0x28, 0x30, 0x50] → regWrite s off v = s) ∧
      regWrite s off v = { s with regs := (regWrite s off v).regs }) ∧
  ∀ (s : State) (q : List HostAct), s.cfg.wf = true →
    (∀ (off : Nat) (v : Word), off % 8 = 0 → off < 256 → off ≠ 0x00 → HostDoes s (.wr (s.cfg.regBase + off) 8 v) q →
      step s = .next (regWrite (dequeued s q) off v)) ∧
    (∀ off : Nat, off % 8 = 0 → off < 256 → HostDoes s (.rd (s.cfg.regBase + off) 8) q →
      step s = .next { dequeued s q with
        unseen := if off = 0x08 ∧ s.busy = false then [] else s.unseen
        host := { s.host with queue := q, reads := regRead s off :: s.host.reads } }) ∧
    (∀ (addr size : Nat) (v : Word), (∃ x, addr ≤ x ∧ x < addr + size ∧ s.cfg.regBase ≤ x ∧ x < s.cfg.regBase + 256) →
      ¬ (size = 8 ∧ addr % 8 = 0) → HostDoes s (.wr addr size v) q ∨ HostDoes s (.rd addr size) q →
      step s = .refused .registerAccess) ∧
    (∀ (addr len : Nat) (bytes : List Byte), (∃ x, addr ≤ x ∧ x < addr + len ∧ s.cfg.regBase ≤ x ∧ x < s.cfg.regBase + 256) →
      addr + len ≤ 2 ^ s.cfg.addrW →
      (HostDoes s (.mem addr bytes) q ∧ bytes.length = len) ∨ HostDoes s (.ld addr len) q → step s = .refused .registerAccess)

/-- R35, R41: STATUS reads BUSY, DONE and ERR in bits 0, 1 and 2 and 0 elsewhere; while IDLE a write with bit 1 (bit 2) set clears DONE
(ERR), and nothing else of the register block changes. ID reads VERSION 0x01, HT_INDEX_BITS 16, SIZE_W and ADDR_W in its four low
bytes and 0 above. -/
def Obligations.StatusAndId : Prop :=
  ∀ (s : State) (v : Word),
    (∀ k, (regRead s 0x08).getLsbD k =
      if k = 0 then s.busy else if k = 1 then s.regs.done else if k = 2 then s.regs.err else false) ∧
    (s.phase = .idle → regWrite s 0x08 v = { s with regs := { s.regs with
      done := s.regs.done && !v.getLsbD 1, err := s.regs.err && !v.getLsbD 2 } }) ∧
    (s.cfg.wf = true →
      (regRead s 0x58).extractLsb' 0 8 = 0x01#8 ∧ (regRead s 0x58).extractLsb' 8 8 = 16#8 ∧
        ((regRead s 0x58).extractLsb' 16 8).toNat = s.cfg.sizeW ∧ ((regRead s 0x58).extractLsb' 24 8).toNat = s.cfg.addrW ∧
        (regRead s 0x58).extractLsb' 32 32 = 0#32)

/-- R331, R40: while BUSY a write to CMD, STATUS or an operand register is ignored, and a write to IRQ_EN takes effect at once. -/
def Obligations.WritesWhileBusy : Prop :=
  ∀ (s : State) (v : Word) (off : Nat), s.busy = true →
    exec (decodeCommand v) s = .next s ∧ (off ≠ 0x50 → regWrite s off v = s) ∧
      regWrite s 0x50 v = { s with regs := { s.regs with irqEn := v.getLsbD 0 } }

/-- R300: the line is `EN ∧ (DONE ∨ ERR)`; with EN = 1 it rises at either end of a command and when `InvalidCommand` is recorded, and
it falls when the flags are cleared, when a command is accepted, and when EN = 0 is written. -/
def Obligations.InterruptLine : Prop :=
  ∀ (s : State) (len : Nat) (e : ErrCode) (op : BitVec 4) (c : Command) (v : Word),
    (s.irq = true ↔ s.regs.irqEn = true ∧ (s.regs.done = true ∨ s.regs.err = true)) ∧
      (s.finish len).irq = s.regs.irqEn ∧ (s.raiseEnd e).irq = s.regs.irqEn ∧
      (s.phase = .idle → ∃ t, exec (.reserved op) s = .next t ∧ t.irq = s.regs.irqEn) ∧
      (s.accept c).irq = false ∧ (v.getLsbD 0 = false → (regWrite s 0x50 v).irq = false) ∧
      (s.phase = .idle → (s.regs.done = true → v.getLsbD 1 = true) → (s.regs.err = true → v.getLsbD 2 = true) →
        (regWrite s 0x08 v).irq = false)

/-! ### Commands -/

/-- R120: a write of a defined opcode while IDLE latches the operands, clears DONE, ERR, ERROR, RESULT_LEN and both positions, sets both
cursors to 0 and enters BUSY with the command to perform, in one step; while BUSY it is ignored. -/
def Obligations.Acceptance : Prop :=
  ∀ (s : State), ∀ p ∈ [(Instr.compress, Command.compress), (.decompress, .decompress), (.decompressExact, .decompressExact),
      (.bound, .bound)],
    exec p.1 s = .next (
      if s.busy then s
      else { s with
        phase := .busy p.2 .start
        regs := { s.regs with
          done := false, err := false, errCode := 0, resultLen := 0, errInPos := 0, errOutPos := 0 }
        work := { s.work with
          sa := s.regs.srcAddr.toNat, n := s.regs.srcLen.toNat, da := s.regs.dstAddr.toNat, cap := s.regs.dstCap.toNat
          ip := 0, op := 0 } })

/-- R128: a reserved opcode while IDLE records `InvalidCommand` (code 5) in one step and stays IDLE; operands, memory and everything
else are unchanged. -/
def Obligations.ReservedOpcode : Prop :=
  ∀ (s : State) (op : BitVec 4), s.phase = .idle → reservedOp op = true →
    decodeCommand (op.setWidth 64) = .reserved op ∧
    exec (.reserved op) s = .next { s with regs := { s.regs with
      done := false, err := true, errCode := 5, resultLen := 0, errInPos := 0, errOutPos := 0 } }

/-- R127: BOUND, accepted and run, ends with DONE and the bound of SRC_LEN, saturated at MAX_SIZE; no memory is accessed, so memory
and the platform's answers are as before, and no error is possible. That one step runs it is the model's choice (log entry 9). -/
def Obligations.BoundCommand : Prop :=
  ∀ s : State, s.phase = .idle → s.turns.head? ≠ some .host →
    ∃ t u, exec .bound s = .next t ∧ step t = .next u ∧
      u = { s with
        regs := { s.regs with
          done := true, err := false, errCode := 0, errInPos := 0, errOutPos := 0
          resultLen := BitVec.ofNat 64
            (min (s.regs.srcLen.toNat + s.regs.srcLen.toNat / 255 + 16) (2 ^ s.cfg.sizeW - 1)) }
        work := u.work, draws := u.draws, turns := s.turns.tail }

/-- R74: before any memory access, a region that wraps or regions that overlap end COMPRESS, DECOMPRESS and DECOMPRESS_EXACT with
`InvalidArgument` (code 4) at positions 0 and 0; memory outside the destination is unchanged and no answer of the platform is used.
Regions that pass the checks do not end the command so. -/
def Obligations.RegionChecks : Prop :=
  ∀ (s : State) (c : Command), s.phase = .idle → s.turns.head? ≠ some .host → c ≠ .bound →
    (¬ OperandsLegal s → ∃ u, step (s.accept c) = .next u ∧ u.phase = .idle ∧ u.bus = s.bus ∧
      u.regs = { s.regs with done := false, err := true, errCode := 4, resultLen := 0, errInPos := 0, errOutPos := 0 } ∧
      ∀ a, ¬ InDest (s.accept c) a → u.mem.read a = s.mem.read a) ∧
    (OperandsLegal s → checkRegions (s.accept c) = .ok () (s.accept c))

/-- R123, R293: with legal regions, a COMPRESS whose capacity is below the exact worst-case bound fails with `OutputTooSmall` (code 3)
before any memory access, even when the block would fit. -/
def Obligations.CompressTooSmall : Prop :=
  ∀ (s : State), s.phase = .idle → s.turns.head? ≠ some .host → OperandsLegal s →
    s.regs.dstCap.toNat < s.regs.srcLen.toNat + s.regs.srcLen.toNat / 255 + 16 →
      ∃ u, step (s.accept .compress) = .next u ∧ u.phase = .idle ∧ u.bus = s.bus ∧
        u.regs = { s.regs with done := false, err := true, errCode := 3, resultLen := 0, errInPos := 0, errOutPos := 0 }

/-- The COMPRESS command end to end (R123): accepted, then run; it ends with DONE, RESULT_LEN is the block's length and within the
bound (R189), the block at the destination decodes to the source bytes (R186), and memory outside the destination is unchanged. That
one step runs the block is the model's choice (log entry 9). -/
def Obligations.CompressCommand : Prop :=
  ∀ s : State, Waiting s → Quiet s → s.mem.wf → OperandsLegal s → OrdinaryMemory s → s.cfg.compressor = .reference →
    s.regs.srcLen.toNat + s.regs.srcLen.toNat / 255 + 16 ≤ s.regs.dstCap.toNat →
      ∃ t u block, exec .compress s = .next t ∧ step t = .next u ∧ u.phase = .idle ∧
        u.regs = { s.regs with
          done := true, err := false, errCode := 0, errInPos := 0, errOutPos := 0, resultLen := BitVec.ofNat 64 block.length } ∧
        block.length ≤ s.regs.srcLen.toNat + s.regs.srcLen.toNat / 255 + 2 ∧
        u.mem.readList s.regs.dstAddr.toNat block.length = block ∧
        decodeBlock block s.regs.srcLen.toNat = .done (operandBytes s) ∧
        ∀ a, ¬ InDest t a → u.mem.read a = s.mem.read a

/-- DECOMPRESS and DECOMPRESS_EXACT end to end (R124, R125, R211, R291): the end is the one the decode loop of R195 gives the source
bytes. A decoded block ends with DONE, its length and its bytes at the destination (EXACT: only at exactly the capacity, else
`InvalidData` at the positions reached); an error ends with ERR, its code (EXACT: an overrun as `EXACT_OVERRUN_ERROR`, R126) and the
two cursors. That one step runs the block is the model's choice (log entry 9). -/
def Obligations.DecompressCommand : Prop :=
  ∀ (s : State) (i : Instr) (c : Command), (i = .decompress ∧ c = .decompress) ∨ (i = .decompressExact ∧ c = .decompressExact) →
    Waiting s → Quiet s → s.mem.wf → OperandsLegal s → OrdinaryMemory s →
      ∃ t u, exec i s = .next t ∧ step t = .next u ∧ u.phase = .idle ∧
        (∀ a, ¬ InDest t a → u.mem.read a = s.mem.read a) ∧
        let ended : Bool → Bool → Byte → Nat → Nat → Nat → Regs := fun done err code ip op len => { s.regs with
          done := done, err := err, errCode := code, errInPos := BitVec.ofNat 64 ip, errOutPos := BitVec.ofNat 64 op
          resultLen := BitVec.ofNat 64 len }
        match decodeBlock (operandBytes s) s.regs.dstCap.toNat with
        | .done out =>
          if c = .decompressExact ∧ out.length ≠ s.regs.dstCap.toNat then
            u.regs = ended false true 1 s.regs.srcLen.toNat out.length 0
          else u.regs = ended true false 0 0 0 out.length ∧ u.mem.readList s.regs.dstAddr.toNat out.length = out
        | .error e left made =>
          u.regs = ended false true
            (if c = .decompressExact ∧ e = .outputTooSmall ∧ s.cfg.exactOverrun = .invalidData then 1 else e.code)
            (s.regs.srcLen.toNat - left) made 0

/-- R296, R126, R290, R231: an error end writes ERROR (the kind's code; in DECOMPRESS_EXACT an `OutputTooSmall` as
`EXACT_OVERRUN_ERROR`), both positions, RESULT_LEN and ERR and goes to IDLE, in one step; no other register of the block changes, no
answer of the platform is used, and memory outside the destination is unchanged. Destination bytes, the working registers and, after
COMPRESS, the hash table take free values (log entries 6, 21), so nothing is said of them; after any other command, or when none
runs, the hash table is unchanged (R51). -/
def Obligations.ErrorEnd : Prop :=
  ∀ (s : State) (e : ErrCode),
    (s.raiseEnd e).regs = { s.regs with
      errCode :=
        match s.phase, e with
        | .busy .decompressExact _, .outputTooSmall => if s.cfg.exactOverrun = .outputTooSmall then 3 else 1
        | _, .invalidData => 1
        | _, .unexpectedEof => 2
        | _, .outputTooSmall => 3
        | _, .invalidArgument => 4
        | _, .invalidCommand => 5
        | _, .busError => 6
      errInPos := BitVec.ofNat 64 s.work.ip, errOutPos := BitVec.ofNat 64 s.work.op, resultLen := 0, err := true } ∧
    s.raiseEnd e = { s with
      regs := (s.raiseEnd e).regs, phase := .idle, work := (s.raiseEnd e).work, ht := (s.raiseEnd e).ht
      mem := (s.raiseEnd e).mem, draws := s.draws + 1 } ∧
    ((∀ p, s.phase ≠ .busy .compress p) → (s.raiseEnd e).ht = s.ht) ∧
    ∀ a, ¬ InDest s a → (s.raiseEnd e).mem.read a = s.mem.read a

/-- R81: the platform may answer any access of the engine with a bus error when `BUS_ERROR_POSSIBLE`, and the access then raises
`BusError` with the current cursors; when it is false no access is ever answered so. The list of answers, consumed one an access, and
that an access answered so stores nothing are the model's (log entry 3). -/
def Obligations.BusErrors : Prop :=
  ∀ (s : State) (a : Nat) (b : Byte) (l : List Bool), a < s.cfg.addrSpace →
    (s.cfg.busErrorPossible = true → s.bus = true :: l →
      memRead a s = .raise .busError (s.setBus l) ∧ memWrite a b s = .raise .busError (s.setBus l) ∧
      ((s.setBus l).raiseEnd .busError).regs.errCode = 6 ∧
      ((s.setBus l).raiseEnd .busError).regs.errInPos = BitVec.ofNat 64 s.work.ip ∧
      ((s.setBus l).raiseEnd .busError).regs.errOutPos = BitVec.ofNat 64 s.work.op) ∧
    (s.cfg.busErrorPossible = true → s.bus = false :: l →
      memRead a s = .ok (s.mem.read a) (s.setBus l) ∧ memWrite a b s = .ok () ((s.setBus l).setMem (s.mem.write a b))) ∧
    (s.cfg.busErrorPossible = false →
      memRead a s = .ok (s.mem.read a) s ∧ memWrite a b s = .ok () (s.setMem (s.mem.write a b)))

/-- R122: every accepted command ends, by `finish` or `raise`, whatever the platform answers: from an accepting state, in the whole
pace, the one step after acceptance ends IDLE with exactly one of DONE and ERR. The pace is the model's choice (log entry 9);
regions over a device are refused (log entry 14). -/
def Obligations.CommandsEnd : Prop :=
  ∀ (s : State) (c : Command), Waiting s → s.mem.wf → OrdinaryMemory s →
    ∃ u, step (s.accept c) = .next u ∧ u.phase = .idle ∧ u.regs.done = !u.regs.err

/-- R130: with the reference compressor and no bus error, a command's registers and result bytes are a function of its operands and
of the source bytes: two machines that agree on those end with equal registers and equal bytes `dst[0 .. RESULT_LEN)`. The pace is
the model's choice (log entry 9). -/
def Obligations.Determinism : Prop :=
  ∀ (s s' : State) (c : Command) (u : State), Waiting s → Waiting s' → Quiet s → Quiet s' → s.mem.wf → s'.mem.wf →
    s.cfg = s'.cfg → s.cfg.compressor = .reference → s.regs = s'.regs → operandBytes s = operandBytes s' →
    step (s.accept c) = .next u →
      ∃ u', step (s'.accept c) = .next u' ∧ u'.regs = u.regs ∧
        (u.regs.done = true → c ≠ .bound →
          u'.mem.readList s.regs.dstAddr.toNat u.regs.resultLen.toNat
            = u.mem.readList s.regs.dstAddr.toNat u.regs.resultLen.toNat)

/-- R72: a step of the engine changes memory in the destination region of the latched operands only, in every state and whatever it
runs. -/
def Obligations.EngineWritesDestinationOnly : Prop :=
  ∀ s t : State, mover s = some .engine → step s = .next t → ∀ a, ¬ InDest s a → t.mem.read a = s.mem.read a

/-! ### Copy engine -/

/-- R225: COPY_LITERALS(s, L) stores `src[s .. s+L)` at `dst[op .. op+L)` and moves `op`; nothing else changes. -/
def Obligations.CopyLiterals : Prop :=
  ∀ (s : State) (pos l : Nat), Ready s → pos + l ≤ s.work.n → s.work.op + l ≤ s.work.cap →
    ∃ t, exec (.copyLiterals pos l) s = .next t ∧
      t = { s with mem := t.mem, work := { s.work with op := s.work.op + l } } ∧
      Stored s t (s.work.da + s.work.op) (srcBytes s pos l)

/-- R226: COPY_LITERALS_DEC(L) stores `src[ip .. ip+L)` at `dst[op .. op+L)` and moves both cursors; nothing else changes. -/
def Obligations.CopyLiteralsDec : Prop :=
  ∀ (s : State) (l : Nat), Ready s → s.work.ip + l ≤ s.work.n → s.work.op + l ≤ s.work.cap →
    ∃ t, exec (.copyLiteralsDec l) s = .next t ∧
      t = { s with mem := t.mem, work := { s.work with ip := s.work.ip + l, op := s.work.op + l } } ∧
      Stored s t (s.work.da + s.work.op) (srcBytes s s.work.ip l)

/-- R228, R229: COPY_MATCH(offset, L) appends L bytes, each equal to the byte `offset` before it as it stands after the writes before
it, so that they repeat the last `offset` bytes with that period; `op` moves past them and nothing else changes. -/
def Obligations.CopyMatch : Prop :=
  ∀ (s : State) (o : BitVec 16) (l : Nat), Ready s → (Instr.copyMatch o l).wf = true → o.toNat ≤ s.work.op →
    s.work.op + l ≤ s.work.cap →
      ∃ t, exec (.copyMatch o l) s = .next t ∧
        t = { s with mem := t.mem, work := { s.work with op := s.work.op + l } } ∧
        (∀ i < l, t.mem.read (s.work.da + (s.work.op + i)) = t.mem.read (s.work.da + (s.work.op - o.toNat + i))) ∧
        (∀ i < l, t.mem.read (s.work.da + (s.work.op + i)) = s.mem.read (s.work.da + (s.work.op - o.toNat + i % o.toNat))) ∧
        ∀ a, a < s.work.da + s.work.op ∨ s.work.da + s.work.op + l ≤ a → t.mem.read a = s.mem.read a

/-- R233: the datapath of R230 (words of 8 bytes, each read before it is written, then the remainder, when the offset is at least 8)
writes the bytes of the byte loop. -/
def Obligations.CopyDatapath : Prop :=
  ∀ (m : Memory) (dst o l : Nat), m.wf → 1 ≤ o → o ≤ dst →
    ∀ a, (m.copyDatapath dst o l).read a = (m.copyBytes (dst - o) dst l).read a

/-! ### Match finder and extender -/

/-- R140 to R143: FIND(p) reads the window at p, hashes it, reads the old slot, overwrites it with p, and accepts exactly when the
candidate is nonzero, at most 65,535 back, and its four bytes are equal; no other slot and nothing else changes. The table holds
positions below p, as R146 derives. -/
def Obligations.FindMatch : Prop :=
  ∀ (s : State) (p : Nat), Quiet s → s.work.sa + s.work.n ≤ s.cfg.addrSpace → Assoc.wf 0 s.ht → p + 4 ≤ s.work.n →
    (∀ h, s.ht.get h < p ∨ s.ht.get h = 0) →
      ∃ t, exec (.find p) s = .next t ∧
        let byte : Nat → Nat := fun k => (s.mem.read (s.work.sa + k)).toNat
        let v := byte p + 2 ^ 8 * byte (p + 1) + 2 ^ 16 * byte (p + 2) + 2 ^ 24 * byte (p + 3)
        let h := BitVec.ofNat 16 (v * 2654435761 % 2 ^ 32 / 2 ^ 16)
        let ref := s.ht.get h
        t = { s with
          ht := t.ht
          work := { s.work with
            seq4 := BitVec.ofNat 32 v, h := h, ref := ref
            accept := decide (ref ≠ 0 ∧ p - ref ≤ 65535 ∧ srcBytes s ref 4 = srcBytes s p 4) } } ∧
        t.ht.get h = p ∧ ∀ k, k ≠ h → t.ht.get k = s.ht.get k

/-- R155, R156, R160: EXTEND(a, b, max) returns the length of the common prefix of the two slices below the ceiling; only the returned
length changes. -/
def Obligations.ExtendMatch : Prop :=
  ∀ (s : State) (a b max : Nat), Quiet s → s.work.sa + s.work.n ≤ s.cfg.addrSpace →
    ∃ k, exec (.extend a b max) s = .next { s with work := { s.work with ret := k } } ∧
      k ≤ min max (min (s.work.n - a) (s.work.n - b)) ∧
      (∀ i < k, s.mem.read (s.work.sa + (a + i)) = s.mem.read (s.work.sa + (b + i))) ∧
      (k = min max (min (s.work.n - a) (s.work.n - b)) ∨
        s.mem.read (s.work.sa + (a + k)) ≠ s.mem.read (s.work.sa + (b + k)))

/-- R162: the wide datapath (windows of 16 bytes, an equality mask, the first unequal lane by `ctz16`, a byte tail) returns the greatest
k up to the limit for which all bytes below k agree. -/
def Obligations.ExtendDatapath : Prop :=
  ∀ (f : Nat → Byte) (a b limit k : Nat), k ≤ limit → (∀ i < k, f (a + i) = f (b + i)) →
    (k = limit ∨ f (a + k) ≠ f (b + k)) → extendDatapath f a b limit = k

/-! ### Token encoder and block compressor -/

/-- R178: WRITE_EXT(v) stores `v / 255` bytes 0xFF and the terminal byte `v mod 255` at `op` and moves `op` past them. -/
def Obligations.WriteExt : Prop :=
  ∀ (s : State) (v : Nat), Ready s → s.work.op + (v / 255 + 1) ≤ s.work.cap →
    ∃ t, exec (.writeExt v) s = .next t ∧
      t = { s with mem := t.mem, work := { s.work with op := s.work.op + (v / 255 + 1) } } ∧
      Stored s t (s.work.da + s.work.op) (List.replicate (v / 255) 0xFF#8 ++ [BitVec.ofNat 8 (v % 255)])

/-- R176, R177, R179, R180, R181: EMIT_SEQ stores token, literal extension, literals, offset low byte first and match extension at
`op`, in this order, and moves `op` past them. -/
def Obligations.EmitSeq : Prop :=
  ∀ (s : State) (pos ll lm : Nat) (o : BitVec 16), Ready s → (Instr.emitSeq pos ll o lm).wf = true → pos + ll ≤ s.work.n →
    let ext : Nat → List Byte := fun v =>
      if 15 ≤ v then List.replicate ((v - 15) / 255) 0xFF#8 ++ [BitVec.ofNat 8 ((v - 15) % 255)] else []
    let bytes := BitVec.ofNat 8 (16 * min ll 15 + min (lm - 4) 15) :: ext ll ++ srcBytes s pos ll
      ++ [BitVec.ofNat 8 (o.toNat % 256), BitVec.ofNat 8 (o.toNat / 256)] ++ ext (lm - 4)
    s.work.op + bytes.length ≤ s.work.cap →
      ∃ t, exec (.emitSeq pos ll o lm) s = .next t ∧
        t = { s with mem := t.mem, work := { s.work with
          op := s.work.op + bytes.length, token := BitVec.ofNat 8 (16 * min ll 15 + min (lm - 4) 15) } } ∧
        Stored s t (s.work.da + s.work.op) bytes

/-- R184: EMIT_LAST stores token (M nibble 0), literal extension and literals at `op`, in this order, and moves `op` past them; also
for no literals. -/
def Obligations.EmitLast : Prop :=
  ∀ (s : State) (pos ll : Nat), Ready s → pos + ll ≤ s.work.n →
    let ext : List Byte :=
      if 15 ≤ ll then List.replicate ((ll - 15) / 255) 0xFF#8 ++ [BitVec.ofNat 8 ((ll - 15) % 255)] else []
    let bytes := BitVec.ofNat 8 (16 * min ll 15) :: ext ++ srcBytes s pos ll
    s.work.op + bytes.length ≤ s.work.cap →
      ∃ t, exec (.emitLast pos ll) s = .next t ∧
        t = { s with mem := t.mem, work := { s.work with
          op := s.work.op + bytes.length, token := BitVec.ofNat 8 (16 * min ll 15) } } ∧
        Stored s t (s.work.da + s.work.op) bytes

/-- R189, R190: COMPRESS_BLOCK of the reference compressor, with the capacity COMPRESS asks for, completes with at most
`n + n/255 + 2` bytes, so `op` never passes the capacity, and stores inside `dst[0 .. op)` only; the operands stay. -/
def Obligations.CompressBlockFits : Prop :=
  ∀ s : State, Ready s → s.cfg.compressor = .reference → s.work.n + s.work.n / 255 + 16 ≤ s.work.cap →
    ∃ t, exec .compressBlock s = .next t ∧ t = { s with mem := t.mem, ht := t.ht, work := t.work } ∧
      t.work.op ≤ s.work.n + s.work.n / 255 + 2 ∧ t.work.op ≤ s.work.cap ∧
      t.work.sa = s.work.sa ∧ t.work.n = s.work.n ∧ t.work.da = s.work.da ∧ t.work.cap = s.work.cap ∧
      ∀ a, a < s.work.da ∨ s.work.da + t.work.op ≤ a → t.mem.read a = s.mem.read a

/-- R182, R183: the block the reference compressor writes is the encoding of the elements the greedy scan gives the input (R129, R170,
R171, R174, R175: every position from 0 on whose candidate is accepted starts a match of the greatest length the ceilings allow, and
the scan resumes behind it), so it parses into them; they tile the input in order, every match a true repetition of earlier input,
the last a `final_seq`. -/
def Obligations.CompressBlockTiles : Prop :=
  ∀ s t : State, Ready s → s.cfg.compressor = .reference → s.work.n + s.work.n / 255 + 16 ≤ s.work.cap →
    exec .compressBlock s = .next t →
      let els := refElements (srcBytes s 0 s.work.n)
      dstBytes t 0 t.work.op = encodeElements els ∧ parseBlock (dstBytes t 0 t.work.op) = some els ∧
        Tiles (srcBytes s 0 s.work.n) 0 els

/-- R185: on an input shorter than 13 bytes the block is the single `final_seq` of all n bytes; for n = 0 the one byte 0x00. -/
def Obligations.CompressShortInput : Prop :=
  ∀ s t : State, Ready s → s.cfg.compressor = .reference → s.work.n + 16 ≤ s.work.cap → s.work.n < 13 →
    exec .compressBlock s = .next t → dstBytes t 0 t.work.op = BitVec.ofNat 8 (16 * s.work.n) :: srcBytes s 0 s.work.n

/-- R186: DECOMPRESS_BLOCK, in any machine whose source holds the block and whose capacity is at least n, gives the input back. -/
def Obligations.RoundTrip : Prop :=
  ∀ s t d : State, Ready s → s.cfg.compressor = .reference → s.work.n + s.work.n / 255 + 16 ≤ s.work.cap →
    exec .compressBlock s = .next t →
    Ready d → srcBytes d 0 d.work.n = dstBytes t 0 t.work.op → s.work.n ≤ d.work.cap →
      ∃ e, exec .decompressBlock d = .next e ∧ e.work.op = s.work.n ∧ e.phase = d.phase ∧
        dstBytes e 0 s.work.n = srcBytes s 0 s.work.n

/-- R129: an `AnyValid` compressor completes with a block B that meets (a) to (d): at most `maxCompressedSize(n)` bytes, decoding with
capacity n to the source, every match with a legal offset and length, and a `final_seq` at the end. It holds whatever block the free
draw proposes (log entry 11). -/
def Obligations.AnyValidBlock : Prop :=
  ∀ s : State, Ready s → s.cfg.compressor = .anyValid → s.work.n + s.work.n / 255 + 16 ≤ s.work.cap →
    s.work.n + s.work.n / 255 + 16 ≤ s.cfg.maxSize →
      ∃ t els, exec .compressBlock s = .next t ∧ t.work.op ≤ maxCompressedSize s.cfg s.work.n ∧
        decodeBlock (dstBytes t 0 t.work.op) s.work.n = .done (srcBytes s 0 s.work.n) ∧
        parseBlock (dstBytes t 0 t.work.op) = some els ∧ elementsShape els = true ∧
        ∀ a, a < s.work.da ∨ s.work.da + t.work.op ≤ a → t.mem.read a = s.mem.read a

/-! ### Token decoder -/

/-- R199: READ_LEN(nib) returns the nibble, or for 15 the extension's sum, with `ip` past the terminal byte; a block that ends before
the terminal byte raises `UnexpectedEof` at n. -/
def Obligations.ReadLen : Prop :=
  ∀ (s : State) (nib : BitVec 4), Quiet s → s.work.sa + s.work.n ≤ s.cfg.addrSpace → s.work.ip ≤ s.work.n →
    match parseLen nib (srcBytes s s.work.ip (s.work.n - s.work.ip)) with
    | some (v, rest) =>
      exec (.readLen nib) s = .next { s with work := { s.work with ip := s.work.n - rest.length, ret := v } }
    | none =>
      nib = 15#4 ∧
        exec (.readLen nib) s = .next (({ s with work := { s.work with ip := s.work.n } } : State).raiseEnd .unexpectedEof)

/-- R197, R198, R200, R201: a TOKEN at a token boundary keeps the byte and passes it; L = 15 goes on to the extension, a smaller L
is the literal length, checked against the input first (`UnexpectedEof`) and the capacity next (`OutputTooSmall`), and then the run
begins, or for L = 0 ends at once. That an element is a step of its own is the model's choice (log entries 9, 20). -/
def Obligations.TokenElement : Prop :=
  ∀ (s : State) (c : Command) (l m : BitVec 4), s.phase = .busy c .token →
    let w := { s.work with token := tokenByte l m, ip := s.work.ip + 1, ret := l.toNat }
    let w' := { w with litLen := l.toNat, idx := 0 }
    exec (.token l m) s =
      if l = 15#4 then .next { s with phase := .busy c (.ext .lit), work := w }
      else if s.work.n - (s.work.ip + 1) < l.toNat then .next (({ s with work := w' } : State).raiseEnd .unexpectedEof)
      else if s.work.cap - s.work.op < l.toNat then .next (({ s with work := w' } : State).raiseEnd .outputTooSmall)
      else if l = 0#4 then
        .next { s with phase := .busy c (if s.work.ip + 1 = s.work.n then .finish else .offset), work := w' }
      else .next { s with phase := .busy c .literal, work := w' }

/-- R94, R199: an extension byte 0xFF adds 255 and goes on; a terminal byte adds its value and ends the length, which then is the
literal length with its checks (R200, R201), or 4 more the match length (R208). That an element is a step of its own is the model's
choice (log entries 9, 20). -/
def Obligations.ExtensionBytes : Prop :=
  ∀ (s : State) (c : Command) (t : Byte),
    exec .extCont s = .next { s with work := { s.work with ret := s.work.ret + 255, ip := s.work.ip + 1 } } ∧
    (s.phase = .busy c (.ext .lit) →
      let v := s.work.ret + t.toNat
      let w := { s.work with ret := v, ip := s.work.ip + 1, litLen := v, idx := 0 }
      exec (.extTerm t) s =
        if s.work.n - (s.work.ip + 1) < v then .next (({ s with work := w } : State).raiseEnd .unexpectedEof)
        else if s.work.cap - s.work.op < v then .next (({ s with work := w } : State).raiseEnd .outputTooSmall)
        else if v = 0 then
          .next { s with phase := .busy c (if s.work.ip + 1 = s.work.n then .finish else .offset), work := w }
        else .next { s with phase := .busy c .literal, work := w }) ∧
    (s.phase = .busy c (.ext .mat) →
      exec (.extTerm t) s = .next { s with phase := .busy c .copy, work := { s.work with
        ret := s.work.ret + t.toNat, ip := s.work.ip + 1, matchLen := 4 + (s.work.ret + t.toNat) } })

/-- R95, R226: a LITERAL of a run is stored at its place in the destination; the last one of the run moves both cursors past the run
and ends the block when no input is left (R204), else goes on to the offset. That an element is a step of its own is the model's
choice (log entries 9, 20). -/
def Obligations.LiteralByte : Prop :=
  ∀ (s : State) (c : Command) (b : Byte), Ready s → s.phase = .busy c .literal → s.work.idx < s.work.litLen →
    s.work.op + s.work.litLen ≤ s.work.cap →
      ∃ t, exec (.literal b) s = .next t ∧ Stored s t (s.work.da + (s.work.op + s.work.idx)) [b] ∧
        t =
          if s.work.idx + 1 < s.work.litLen then { s with mem := t.mem, work := { s.work with idx := s.work.idx + 1 } }
          else { s with
            mem := t.mem
            phase := .busy c (if s.work.ip + s.work.litLen = s.work.n then .finish else .offset)
            work := { s.work with ip := s.work.ip + s.work.litLen, op := s.work.op + s.work.litLen, idx := 0 } }

/-- R205 to R208: an OFFSET16 is kept and passed; 0, or more than the bytes produced, raises `InvalidData` there and then; a legal one
goes on to the match extension when the token's M nibble is 15, else the match length is 4 + M. That an element is a step of its own
and the line it leads to are the model's choice (log entries 9, 20). -/
def Obligations.OffsetElement : Prop :=
  ∀ (s : State) (c : Command) (o : BitVec 16), s.phase = .busy c .offset →
    let m := s.work.token.extractLsb' 0 4
    let w := { s.work with offset := o, ip := s.work.ip + 2, ret := m.toNat }
    exec (.offset16 o) s =
      if o.toNat = 0 ∨ s.work.op < o.toNat then .next (({ s with work := w } : State).raiseEnd .invalidData)
      else if m = 15#4 then .next { s with phase := .busy c (.ext .mat), work := w }
      else .next { s with phase := .busy c .copy, work := { w with matchLen := 4 + m.toNat } }

/-- R92, R195: a whole SEQ at a token boundary, all there in the block and fitting, appends its literals and then its match, moves
`ip` by the element's encoded length and `op` by what it produced, and is at a token boundary again. That an element is a step of
its own is the model's choice (log entry 20). -/
def Obligations.SeqElement : Prop :=
  ∀ (s : State) (c : Command) (lits bytes : List Byte) (o : BitVec 16) (len : Nat), Ready s → s.phase = .busy c .token →
    (Instr.seq lits o len).wf = true → encode (.seq lits o len) = some bytes → s.work.ip + bytes.length ≤ s.work.n →
    1 ≤ o.toNat → o.toNat ≤ s.work.op + lits.length → s.work.op + lits.length + len ≤ s.work.cap →
      ∃ t, exec (.seq lits o len) s = .next t ∧
        t = { s with mem := t.mem, work := { s.work with
          ip := s.work.ip + bytes.length, op := s.work.op + lits.length + len, token := t.work.token, litLen := lits.length
          matchLen := len, offset := o, ret := len - 4, idx := 0 } } ∧
        dstBytes t 0 (s.work.op + lits.length + len) = copyBack (dstBytes s 0 s.work.op ++ lits) o.toNat len ∧
        ∀ a, a < s.work.da + s.work.op ∨ s.work.da + (s.work.op + lits.length + len) ≤ a → t.mem.read a = s.mem.read a

/-- R92, R204: a LAST at a token boundary, being all that is left of the block and fitting, appends its literals and ends the block.
That an element is a step of its own is the model's choice (log entry 20). -/
def Obligations.LastElement : Prop :=
  ∀ (s : State) (c : Command) (lits bytes : List Byte), Ready s → s.phase = .busy c .token →
    encode (.last lits) = some bytes → s.work.ip + bytes.length = s.work.n → s.work.op + lits.length ≤ s.work.cap →
      ∃ t, exec (.last lits) s = .next t ∧
        t = { s with
          mem := t.mem, phase := .busy c .finish
          work := { s.work with
            ip := s.work.n, op := s.work.op + lits.length, token := t.work.token, litLen := lits.length, ret := lits.length
            idx := 0 } } ∧
        Stored s t (s.work.da + s.work.op) lits

/-- R195, R211, R212: DECOMPRESS_BLOCK is the decode loop on byte strings, on every block: it completes with the output at
`dst[0 .. op)`, all input read, or it raises the first error of R195's order with the cursors where they stand. -/
def Obligations.DecompressBlockRefines : Prop :=
  ∀ s : State, Ready s →
    match decodeBlock (srcBytes s 0 s.work.n) s.work.cap with
    | .done out =>
      ∃ t, exec .decompressBlock s = .next t ∧
        t = { s with mem := t.mem, work := { s.work with
          ip := s.work.n, op := out.length, token := t.work.token, litLen := t.work.litLen, matchLen := t.work.matchLen
          offset := t.work.offset } } ∧
        Stored s t s.work.da out
    | .error e left made =>
      ∃ t : State, exec .decompressBlock s = .next (t.raiseEnd e) ∧ t.work.ip = s.work.n - left ∧ t.work.op = made ∧
        t.regs = s.regs ∧ t.phase = s.phase ∧ ∀ a, ¬ InDest s a → t.mem.read a = s.mem.read a

/-! ### Frames -/

/-- R242 to R246, R254: what each header element does when the checks left to parameters do not refuse it: it is passed, recorded,
and the parser goes on; only the host layer's frame state changes. A content size above `max_output_size` fails with
`OutputTooLarge` before any block is decoded. An FLG or BD byte with a bit or value the source does not describe fails with
`InvalidData` under the reject policy (R243, R244), and so does an HC that is not the XOR of the header when it is verified; that
kind and the buffer bookkeeping are the model's (log entries 22, 23). -/
def Obligations.FrameHeaderElements : Prop :=
  ∀ (s : State) (b : Byte) (v : BitVec 64),
    let f := s.host.fdec
    let next : FrameDec → Host.Outcome State Fault Refusal := fun g => .next { s with host := { s.host with fdec := g } }
    let fails : Host.Outcome State Fault Refusal → HostError → Prop := fun o e =>
      ∃ g, o = next g ∧ g.point = .ended ∧ g.error = some e ∧ g.outLen = f.outLen
    exec .frameMagic s = next { f with cur := f.cur + 4, point := .flg } ∧
    (s.cfg.frameReserved = .ignore ∨ b.extractLsb' 6 2 = 1#2 ∧ b &&& 0x13#8 = 0 →
      exec (.frameFlg b) s = next { f with cur := f.cur + 1, point := .bd, flg := b, hcAcc := b }) ∧
    (s.cfg.frameReserved = .reject → ¬ (b.extractLsb' 6 2 = 1#2 ∧ b &&& 0x13#8 = 0) → fails (exec (.frameFlg b) s) .invalidData) ∧
    (s.cfg.frameReserved = .reject → ¬ (4 ≤ (b.extractLsb' 4 3).toNat ∧ b &&& 0x8F#8 = 0) →
      fails (exec (.frameBd b) s) .invalidData) ∧
    (s.cfg.frameReserved = .ignore ∨ 4 ≤ (b.extractLsb' 4 3).toNat ∧ b &&& 0x8F#8 = 0 →
      exec (.frameBd b) s = next { f with
        cur := f.cur + 1, point := if f.flg.getLsbD 3 then .size else .hc, bd := b, hcAcc := f.hcAcc ^^^ b }) ∧
    (f.maxOut = none ∨ f.maxOut.any (fun m => decide (v.toNat ≤ m)) = true →
      exec (.frameContentSize v) s = next { f with
        cur := f.cur + 8, point := .hc, size := some v.toNat, bufCap := v.toNat
        hcAcc := (leBytes 8 v.toNat).foldl (· ^^^ ·) f.hcAcc }) ∧
    (f.maxOut.any (fun m => decide (m < v.toNat)) = true →
      fails (exec (.frameContentSize v) s) .outputTooLarge) ∧
    (s.cfg.hcVerify = false ∨ b = f.hcAcc → exec (.frameHc b) s = next { f with cur := f.cur + 1, point := .word }) ∧
    (s.cfg.hcVerify = true → b ≠ f.hcAcc → fails (exec (.frameHc b) s) .invalidData)

/-- R248, R249, R254, R258: the end marker goes on to the checksum when FLG has one, and otherwise ends the frame; the checksum ends it,
with `ChecksumMismatch` when it is not CHECKSUM32 of the output, in every frame. A frame that ends otherwise fails with `InvalidData`
when its announced content size differs under CONTENT_SIZE_CHECK or bytes follow it under the reject policy, and ends without error in
every other case. `CHECKSUM32` is a free value. That kind of error, that the checksum comes before the other two checks, and that the
output is in host memory, `outLen` bytes at `out`, are the model's choice (log entries 22, 35, 23). -/
def Obligations.FrameEndElements : Prop :=
  ∀ (s : State) (v : BitVec 32),
    let f := s.host.fdec
    let next : FrameDec → Host.Outcome State Fault Refusal := fun g => .next { s with host := { s.host with fdec := g } }
    let closed := next { f with
      cur := f.cur + 4, point := .ended
      error :=
        if s.cfg.contentSizeCheck = true ∧ f.size ≠ none ∧ f.size ≠ some f.outLen then some .invalidData
        else if s.cfg.trailingBytes = .reject ∧ f.cur + 4 ≠ f.len then some .invalidData
        else none }
    (f.flg.getLsbD 2 = true → exec .endMark s = next { f with cur := f.cur + 4, point := .checksum }) ∧
    (f.flg.getLsbD 2 = false → exec .endMark s = closed) ∧
    (s.phase = .idle → HostMay s f.out f.outLen →
      exec (.contentChecksum v) s =
        if v = Config.checksum32 (s.mem.readList f.out f.outLen) then closed
        else next { f with cur := f.cur + 4, point := .ended, error := some .checksumMismatch })

/-- R247, R254: a stored record's payload, all there, within the class and within `max_output_size`, is appended verbatim to the
output and passed. The output buffer's place is the model's choice (log entry 23). -/
def Obligations.StoredBlock : Prop :=
  ∀ (s : State) (len : BitVec 31), s.phase = .idle → s.mem.wf →
    let f := s.host.fdec
    f.cur + 4 + len.toNat ≤ f.len → oversize s.cfg f.bd len.toNat = false →
    (∀ m, f.maxOut = some m → f.outLen + len.toNat ≤ m) →
    HostMay s (f.src + (f.cur + 4)) len.toNat → HostMay s (f.out + f.outLen) len.toNat →
      ∃ t, exec (.blockStored len) s = .next t ∧
        t = { s with mem := t.mem, host := { s.host with fdec := { f with
          cur := f.cur + 4 + len.toNat, point := .word, outLen := f.outLen + len.toNat, bufCap := t.host.fdec.bufCap } } } ∧
        Stored s t (f.out + f.outLen) (s.mem.readList (f.src + (f.cur + 4)) len.toNat)

/-- R247, R254, R255: a compressed record's payload, all there, is decoded by one DECOMPRESS of the engine with capacity
`HOST_BLOCK_CAP`; an output within the class and `max_output_size` is appended and the record passed. The output buffer's place and
that the host runs the command in one step are the model's choice (log entries 23, 24). -/
def Obligations.CompressedBlock : Prop :=
  ∀ (s : State) (len : BitVec 31) (out : List Byte), s.phase = .idle → s.mem.wf → Quiet s → s.cfg.wf = true →
    len ≠ 0#31 →
    let f := s.host.fdec
    let payload := f.src + (f.cur + 4)
    let dst := f.out + f.outLen
    f.cur + 4 + len.toNat ≤ f.len → len.toNat < 2 ^ s.cfg.sizeW → s.cfg.hostBlockCap < 2 ^ s.cfg.sizeW →
    dst < 2 ^ s.cfg.addrW → HostMay s payload len.toNat → HostMay s dst s.cfg.hostBlockCap →
    (payload + len.toNat ≤ dst ∨ dst + s.cfg.hostBlockCap ≤ payload) →
    decodeBlock (s.mem.readList payload len.toNat) s.cfg.hostBlockCap = .done out →
    oversize s.cfg f.bd out.length = false → (∀ m, f.maxOut = some m → f.outLen + out.length ≤ m) →
      ∃ t, exec (.blockCompressed len) s = .next t ∧
        t = { s with
          mem := t.mem, regs := t.regs, work := t.work, draws := t.draws
          host := { s.host with fdec := { f with
            cur := f.cur + 4 + len.toNat, point := .word, outLen := f.outLen + out.length
            bufCap := t.host.fdec.bufCap } } } ∧
        t.regs.done = true ∧ t.regs.resultLen.toNat = out.length ∧
        t.mem.readList dst out.length = out ∧
        ∀ a, a < dst ∨ dst + s.cfg.hostBlockCap ≤ a → t.mem.read a = s.mem.read a

/-- R257: a frame that ends inside an element of the header, a length word, the end marker or the checksum, or inside a payload, fails
with `UnexpectedEof`. That this comes before the other checks of a stored record that is also too long for its class or for
`max_output_size` is the model's choice (log entry 35), as is one element a step (log entry 24). -/
def Obligations.FrameTruncated : Prop :=
  ∀ (s : State) (x : Context) (len : BitVec 31), s.phase = .idle →
    let f := s.host.fdec
    (mover s = some .host → frameContext f.point = some x → f.len < f.cur + contextBytes x →
      step s = .next { tick s with host := { s.host with fdec := { f with point := .ended, error := some .unexpectedEof } } }) ∧
    (f.len < f.cur + 4 + len.toNat → f.cur + 4 ≤ f.len →
      exec (.blockStored len) s = .next { s with host := { s.host with fdec := { f with
        point := .ended, error := some .unexpectedEof } } } ∧
      exec (.blockCompressed len) s = .next { s with host := { s.host with fdec := { f with
        point := .ended, error := some .unexpectedEof } } })

/-- R247, R250: a chunk's record is the block when it is strictly smaller than the chunk, with its length as the length word, else the
chunk itself, with bit 31 set; the record's word decodes back to that choice. -/
def Obligations.RecordChoice : Prop :=
  ∀ (chunk block rest : List Byte), 0 < block.length → chunk.length < 2 ^ 31 → 0 < chunk.length →
    (block.length < chunk.length →
      recordBytes chunk block = leBytes 4 block.length ++ block ∧
      decode .blockWord (recordBytes chunk block ++ rest) =
        .instr (.blockCompressed (BitVec.ofNat 31 block.length)) (block ++ rest)) ∧
    (chunk.length ≤ block.length →
      recordBytes chunk block = leBytes 4 (chunk.length + 2 ^ 31) ++ chunk ∧
      decode .blockWord (recordBytes chunk block ++ rest) =
        .instr (.blockStored (BitVec.ofNat 31 chunk.length)) (chunk ++ rest))

/-- R260, R261, R264: `write` consumes all its bytes and returns their number, and everything written is part of the stream's content.
The first one emits the header; bytes that do not fill the buffer are kept, bytes that fill it leave as one record, and a longer write
is the one that fills it and then the rest. `flush` emits the buffer as one record, an empty one as STREAM_EMPTY_FLUSH says; `finish`
emits the remainder, the end marker and the checksum of all content if selected, before any write with the header as
STREAM_FINISH_HEADER says. The record is R250's choice between the reference block of the bytes and the bytes themselves. Once finished
`write` does nothing and returns 0. `read` first hands out what is left of the decoded block, at most what was asked for; once
finished, with nothing left, it returns 0 and does nothing. A compressor dropped without `finish` leaves its truncated frame in its
sink (R265), and opening another keeps that sink beside it. An IDLE engine's host does such a call in one step and keeps its value.
That a call is one step, that a stream has no content size, the header before a flush, the value 0 of flush and finish, the closed state after a drop, the size of the
scratch region and the lists of sinks and values are the model's choice (log entries 25, 28, 37, 39, 40). -/
def Obligations.StreamCalls : Prop :=
  (∀ (s t : State) (bytes : List Byte) (k : Nat), streamWriteR bytes s = .ok k t →
    (s.host.scomp.point = .finished → k = 0 ∧ t = s) ∧
    (s.host.scomp.point ≠ .finished → k = bytes.length ∧ t.host.scomp.seen = s.host.scomp.seen ++ bytes)) ∧
  (∀ (s : State) (k : Nat),
    let f := s.host.sdec
    (f.point = .finished → f.pending = [] → streamReadR k s = .ok 0 s) ∧
    (f.point ≠ .headerNotRead → f.pending ≠ [] →
      streamReadR k s = .ok (min k f.pending.length) { s with host := { s.host with
        got := s.host.got ++ f.pending.take k, sdec := { f with pending := f.pending.drop k } } })) ∧
  (∀ (s : State) (q : List HostAct),
    (HostDoes s .dropCompressor q → step s = .next { dequeued s q with host := { s.host with
      queue := q, scomp := { s.host.scomp with point := .finished, acc := [] } } }) ∧
    (∀ acc scratch scratchCap : Nat, HostDoes s (.openCompressor acc scratch scratchCap) q →
      step s = .next { dequeued s q with host := { s.host with
        queue := q, scomp := .fresh acc scratch scratchCap, frames := s.host.scomp.sink :: s.host.frames } }) ∧
    ∀ (bytes : List Byte) (n : Nat), ∀ p ∈ [(HostAct.streamWrite bytes, streamWriteR bytes), (.streamFlush, streamFlushR),
        (.streamFinish, streamFinishR), (.streamRead n, streamReadR n)],
      s.phase = .idle → HostDoes s p.1 q → ∀ (k : Nat) (t : State), p.2 (dequeued s q) = .ok k t →
        step s = .next { t with host := { t.host with reads := BitVec.ofNat 64 k :: t.host.reads } }) ∧
  ∀ s : State, s.host.scomp.point ≠ .finished →
    let f := s.host.scomp
    let flg := BitVec.ofNat 8 (0x40 + 0x20 * s.cfg.optIndependent.toNat + 0x04 * s.cfg.optChecksum.toNat)
    let bd := BitVec.ofNat 8 (16 * s.cfg.optBlockClass.toNat)
    let begun :=
      if f.point = .headerNotWritten then f.sink ++ [0x04#8, 0x22#8, 0x4D#8, 0x18#8, flg, bd, flg ^^^ bd] else f.sink
    let begunAtEnd := if s.cfg.streamFinishHeader = true then begun else f.sink
    let record : List Byte → List Byte := fun bytes => recordBytes bytes (encodeElements (refElements bytes))
    let trailer := [0#8, 0#8, 0#8, 0#8] ++ if s.cfg.optChecksum = true then leBytes 4 (Config.checksum32 f.seen).toNat else []
    let can : Nat → Prop := fun m => HostCanCompress s f.accAddr m f.scratch (scratchSize s.cfg f.scratchCap m)
    let without : StreamComp → State := fun g => { s with host := { s.host with scomp := g } }
    let compressing : Nat → HostRes Nat → Nat → StreamComp → Prop := fun m r k g =>
      ∃ t, r = .ok k t ∧
        t = { without g with mem := t.mem, regs := t.regs, work := t.work, ht := t.ht, draws := t.draws } ∧
        ∀ a, (a < f.accAddr ∨ f.accAddr + m ≤ a) →
          (a < f.scratch ∨ f.scratch + scratchSize s.cfg f.scratchCap m ≤ a) → t.mem.read a = s.mem.read a
    (∀ bytes, f.acc.length + bytes.length < chunkSize s.cfg →
      streamWriteR bytes s = .ok bytes.length (without { f with
        point := .accumulating, acc := f.acc ++ bytes, seen := f.seen ++ bytes, sink := begun })) ∧
    (∀ bytes, bytes ≠ [] → f.acc.length + bytes.length = chunkSize s.cfg → can (chunkSize s.cfg) →
      compressing (chunkSize s.cfg) (streamWriteR bytes s) bytes.length { f with
        point := .accumulating, acc := [], seen := f.seen ++ bytes, sink := begun ++ record (f.acc ++ bytes) }) ∧
    (∀ (xs ys : List Byte) (k : Nat) (t : State), xs ≠ [] → f.acc.length + xs.length = chunkSize s.cfg →
      streamWriteR xs s = .ok k t →
        streamWriteR (xs ++ ys) s = (streamWriteR ys t).bind fun j u => .ok (xs.length + j) u) ∧
    (f.acc = [] → s.cfg.streamEmptyFlush = false → streamFlushR s = .ok 0 s) ∧
    (f.acc ≠ [] ∨ s.cfg.streamEmptyFlush = true → can f.acc.length →
      compressing f.acc.length (streamFlushR s) 0 { f with point := .accumulating, acc := [], sink := begun ++ record f.acc }) ∧
    (f.acc = [] → streamFinishR s = .ok 0 (without { f with point := .finished, sink := begunAtEnd ++ trailer })) ∧
    (f.acc ≠ [] → can f.acc.length →
      compressing f.acc.length (streamFinishR s) 0 { f with
        point := .finished, acc := [], sink := begunAtEnd ++ record f.acc ++ trailer })

/-! ### Invariants -/

/-- Every step keeps memory and the hash table in their canonical forms, in every state and whatever it runs. The form is the
model's (log entries 4, 5). -/
def Obligations.StepKeepsCanonical : Prop :=
  ∀ s t : State, Canonical s → step s = .next t → Canonical t

/-- Every step keeps the register block legal: DONE and ERR exclude each other (R35, R294), a success shows no error and an error no
result (R36, R38, R39), the operand registers hold no bits above their widths (R33), and while BUSY the cleared registers read 0 and
the latched operands are the operand registers (R37, R333). -/
def Obligations.StepKeepsRegsLegal : Prop :=
  ∀ s t : State, RegsLegal s → step s = .next t → RegsLegal t

/-- The reset state meets both invariants. -/
def Obligations.ResetIsLegal : Prop :=
  Canonical State.reset ∧ RegsLegal State.reset

end
end

