-- ==== Sys2Proof/Laws/State.lean ====
section
/-! SUPPORT. One lemma per field per update of State, so that no proof unfolds a record update. -/
namespace Sys2Proof
namespace Machine

@[simp] theorem State.setMem_cfg (s : State) (m : Memory) : (s.setMem m).cfg = s.cfg := rfl
@[simp] theorem State.setMem_regs (s : State) (m : Memory) : (s.setMem m).regs = s.regs := rfl
@[simp] theorem State.setMem_phase (s : State) (m : Memory) : (s.setMem m).phase = s.phase := rfl
@[simp] theorem State.setMem_work (s : State) (m : Memory) : (s.setMem m).work = s.work := rfl
@[simp] theorem State.setMem_ht (s : State) (m : Memory) : (s.setMem m).ht = s.ht := rfl
@[simp] theorem State.setMem_mem (s : State) (m : Memory) : (s.setMem m).mem = m := rfl
@[simp] theorem State.setMem_bus (s : State) (m : Memory) : (s.setMem m).bus = s.bus := rfl
@[simp] theorem State.setMem_draws (s : State) (m : Memory) : (s.setMem m).draws = s.draws := rfl
@[simp] theorem State.setMem_turns (s : State) (m : Memory) : (s.setMem m).turns = s.turns := rfl
@[simp] theorem State.setMem_pace (s : State) (m : Memory) : (s.setMem m).pace = s.pace := rfl
@[simp] theorem State.setMem_unseen (s : State) (m : Memory) : (s.setMem m).unseen = s.unseen := rfl
@[simp] theorem State.setMem_host (s : State) (m : Memory) : (s.setMem m).host = s.host := rfl
@[simp] theorem State.setMem_setMem (s : State) (m m' : Memory) : (s.setMem m).setMem m' = s.setMem m' := rfl
@[simp] theorem State.setMem_self (s : State) : s.setMem s.mem = s := rfl

@[simp] theorem State.setBus_cfg (s : State) (b : List Bool) : (s.setBus b).cfg = s.cfg := rfl
@[simp] theorem State.setBus_regs (s : State) (b : List Bool) : (s.setBus b).regs = s.regs := rfl
@[simp] theorem State.setBus_phase (s : State) (b : List Bool) : (s.setBus b).phase = s.phase := rfl
@[simp] theorem State.setBus_work (s : State) (b : List Bool) : (s.setBus b).work = s.work := rfl
@[simp] theorem State.setBus_ht (s : State) (b : List Bool) : (s.setBus b).ht = s.ht := rfl
@[simp] theorem State.setBus_mem (s : State) (b : List Bool) : (s.setBus b).mem = s.mem := rfl
@[simp] theorem State.setBus_bus (s : State) (b : List Bool) : (s.setBus b).bus = b := rfl
@[simp] theorem State.setBus_draws (s : State) (b : List Bool) : (s.setBus b).draws = s.draws := rfl
@[simp] theorem State.setBus_turns (s : State) (b : List Bool) : (s.setBus b).turns = s.turns := rfl
@[simp] theorem State.setBus_pace (s : State) (b : List Bool) : (s.setBus b).pace = s.pace := rfl
@[simp] theorem State.setBus_unseen (s : State) (b : List Bool) : (s.setBus b).unseen = s.unseen := rfl
@[simp] theorem State.setBus_host (s : State) (b : List Bool) : (s.setBus b).host = s.host := rfl
@[simp] theorem State.setBus_setBus (s : State) (b b' : List Bool) : (s.setBus b).setBus b' = s.setBus b' := rfl
@[simp] theorem State.setBus_self (s : State) : s.setBus s.bus = s := rfl

@[simp] theorem State.setWork_cfg (s : State) (w : Work) : (s.setWork w).cfg = s.cfg := rfl
@[simp] theorem State.setWork_regs (s : State) (w : Work) : (s.setWork w).regs = s.regs := rfl
@[simp] theorem State.setWork_phase (s : State) (w : Work) : (s.setWork w).phase = s.phase := rfl
@[simp] theorem State.setWork_work (s : State) (w : Work) : (s.setWork w).work = w := rfl
@[simp] theorem State.setWork_ht (s : State) (w : Work) : (s.setWork w).ht = s.ht := rfl
@[simp] theorem State.setWork_mem (s : State) (w : Work) : (s.setWork w).mem = s.mem := rfl
@[simp] theorem State.setWork_bus (s : State) (w : Work) : (s.setWork w).bus = s.bus := rfl
@[simp] theorem State.setWork_draws (s : State) (w : Work) : (s.setWork w).draws = s.draws := rfl
@[simp] theorem State.setWork_turns (s : State) (w : Work) : (s.setWork w).turns = s.turns := rfl
@[simp] theorem State.setWork_pace (s : State) (w : Work) : (s.setWork w).pace = s.pace := rfl
@[simp] theorem State.setWork_unseen (s : State) (w : Work) : (s.setWork w).unseen = s.unseen := rfl
@[simp] theorem State.setWork_host (s : State) (w : Work) : (s.setWork w).host = s.host := rfl
@[simp] theorem State.setWork_setWork (s : State) (w w' : Work) : (s.setWork w).setWork w' = s.setWork w' := rfl
@[simp] theorem State.setWork_self (s : State) : s.setWork s.work = s := rfl

@[simp] theorem State.setHt_cfg (s : State) (t : Table) : (s.setHt t).cfg = s.cfg := rfl
@[simp] theorem State.setHt_regs (s : State) (t : Table) : (s.setHt t).regs = s.regs := rfl
@[simp] theorem State.setHt_phase (s : State) (t : Table) : (s.setHt t).phase = s.phase := rfl
@[simp] theorem State.setHt_work (s : State) (t : Table) : (s.setHt t).work = s.work := rfl
@[simp] theorem State.setHt_ht (s : State) (t : Table) : (s.setHt t).ht = t := rfl
@[simp] theorem State.setHt_mem (s : State) (t : Table) : (s.setHt t).mem = s.mem := rfl
@[simp] theorem State.setHt_bus (s : State) (t : Table) : (s.setHt t).bus = s.bus := rfl
@[simp] theorem State.setHt_draws (s : State) (t : Table) : (s.setHt t).draws = s.draws := rfl
@[simp] theorem State.setHt_turns (s : State) (t : Table) : (s.setHt t).turns = s.turns := rfl
@[simp] theorem State.setHt_pace (s : State) (t : Table) : (s.setHt t).pace = s.pace := rfl
@[simp] theorem State.setHt_unseen (s : State) (t : Table) : (s.setHt t).unseen = s.unseen := rfl
@[simp] theorem State.setHt_host (s : State) (t : Table) : (s.setHt t).host = s.host := rfl
@[simp] theorem State.setHt_setHt (s : State) (t t' : Table) : (s.setHt t).setHt t' = s.setHt t' := rfl
@[simp] theorem State.setHt_self (s : State) : s.setHt s.ht = s := rfl

@[simp] theorem State.setRegs_cfg (s : State) (r : Regs) : (s.setRegs r).cfg = s.cfg := rfl
@[simp] theorem State.setRegs_regs (s : State) (r : Regs) : (s.setRegs r).regs = r := rfl
@[simp] theorem State.setRegs_phase (s : State) (r : Regs) : (s.setRegs r).phase = s.phase := rfl
@[simp] theorem State.setRegs_work (s : State) (r : Regs) : (s.setRegs r).work = s.work := rfl
@[simp] theorem State.setRegs_ht (s : State) (r : Regs) : (s.setRegs r).ht = s.ht := rfl
@[simp] theorem State.setRegs_mem (s : State) (r : Regs) : (s.setRegs r).mem = s.mem := rfl
@[simp] theorem State.setRegs_bus (s : State) (r : Regs) : (s.setRegs r).bus = s.bus := rfl
@[simp] theorem State.setRegs_draws (s : State) (r : Regs) : (s.setRegs r).draws = s.draws := rfl
@[simp] theorem State.setRegs_turns (s : State) (r : Regs) : (s.setRegs r).turns = s.turns := rfl
@[simp] theorem State.setRegs_pace (s : State) (r : Regs) : (s.setRegs r).pace = s.pace := rfl
@[simp] theorem State.setRegs_unseen (s : State) (r : Regs) : (s.setRegs r).unseen = s.unseen := rfl
@[simp] theorem State.setRegs_host (s : State) (r : Regs) : (s.setRegs r).host = s.host := rfl
@[simp] theorem State.setRegs_setRegs (s : State) (r r' : Regs) : (s.setRegs r).setRegs r' = s.setRegs r' := rfl
@[simp] theorem State.setRegs_self (s : State) : s.setRegs s.regs = s := rfl

@[simp] theorem State.setPhase_cfg (s : State) (p : Phase) : (s.setPhase p).cfg = s.cfg := rfl
@[simp] theorem State.setPhase_regs (s : State) (p : Phase) : (s.setPhase p).regs = s.regs := rfl
@[simp] theorem State.setPhase_phase (s : State) (p : Phase) : (s.setPhase p).phase = p := rfl
@[simp] theorem State.setPhase_work (s : State) (p : Phase) : (s.setPhase p).work = s.work := rfl
@[simp] theorem State.setPhase_ht (s : State) (p : Phase) : (s.setPhase p).ht = s.ht := rfl
@[simp] theorem State.setPhase_mem (s : State) (p : Phase) : (s.setPhase p).mem = s.mem := rfl
@[simp] theorem State.setPhase_bus (s : State) (p : Phase) : (s.setPhase p).bus = s.bus := rfl
@[simp] theorem State.setPhase_draws (s : State) (p : Phase) : (s.setPhase p).draws = s.draws := rfl
@[simp] theorem State.setPhase_turns (s : State) (p : Phase) : (s.setPhase p).turns = s.turns := rfl
@[simp] theorem State.setPhase_pace (s : State) (p : Phase) : (s.setPhase p).pace = s.pace := rfl
@[simp] theorem State.setPhase_unseen (s : State) (p : Phase) : (s.setPhase p).unseen = s.unseen := rfl
@[simp] theorem State.setPhase_host (s : State) (p : Phase) : (s.setPhase p).host = s.host := rfl
@[simp] theorem State.setPhase_setPhase (s : State) (p p' : Phase) : (s.setPhase p).setPhase p' = s.setPhase p' := rfl
@[simp] theorem State.setPhase_self (s : State) : s.setPhase s.phase = s := rfl

@[simp] theorem State.setHost_cfg (s : State) (h : HostSide) : (s.setHost h).cfg = s.cfg := rfl
@[simp] theorem State.setHost_regs (s : State) (h : HostSide) : (s.setHost h).regs = s.regs := rfl
@[simp] theorem State.setHost_phase (s : State) (h : HostSide) : (s.setHost h).phase = s.phase := rfl
@[simp] theorem State.setHost_work (s : State) (h : HostSide) : (s.setHost h).work = s.work := rfl
@[simp] theorem State.setHost_ht (s : State) (h : HostSide) : (s.setHost h).ht = s.ht := rfl
@[simp] theorem State.setHost_mem (s : State) (h : HostSide) : (s.setHost h).mem = s.mem := rfl
@[simp] theorem State.setHost_bus (s : State) (h : HostSide) : (s.setHost h).bus = s.bus := rfl
@[simp] theorem State.setHost_draws (s : State) (h : HostSide) : (s.setHost h).draws = s.draws := rfl
@[simp] theorem State.setHost_turns (s : State) (h : HostSide) : (s.setHost h).turns = s.turns := rfl
@[simp] theorem State.setHost_pace (s : State) (h : HostSide) : (s.setHost h).pace = s.pace := rfl
@[simp] theorem State.setHost_unseen (s : State) (h : HostSide) : (s.setHost h).unseen = s.unseen := rfl
@[simp] theorem State.setHost_host (s : State) (h : HostSide) : (s.setHost h).host = h := rfl
@[simp] theorem State.setHost_setHost (s : State) (h h' : HostSide) : (s.setHost h).setHost h' = s.setHost h' := rfl
@[simp] theorem State.setHost_self (s : State) : s.setHost s.host = s := rfl

@[simp] theorem State.setDraws_cfg (s : State) (k : Nat) : (s.setDraws k).cfg = s.cfg := rfl
@[simp] theorem State.setDraws_regs (s : State) (k : Nat) : (s.setDraws k).regs = s.regs := rfl
@[simp] theorem State.setDraws_phase (s : State) (k : Nat) : (s.setDraws k).phase = s.phase := rfl
@[simp] theorem State.setDraws_work (s : State) (k : Nat) : (s.setDraws k).work = s.work := rfl
@[simp] theorem State.setDraws_ht (s : State) (k : Nat) : (s.setDraws k).ht = s.ht := rfl
@[simp] theorem State.setDraws_mem (s : State) (k : Nat) : (s.setDraws k).mem = s.mem := rfl
@[simp] theorem State.setDraws_bus (s : State) (k : Nat) : (s.setDraws k).bus = s.bus := rfl
@[simp] theorem State.setDraws_draws (s : State) (k : Nat) : (s.setDraws k).draws = k := rfl
@[simp] theorem State.setDraws_turns (s : State) (k : Nat) : (s.setDraws k).turns = s.turns := rfl
@[simp] theorem State.setDraws_pace (s : State) (k : Nat) : (s.setDraws k).pace = s.pace := rfl
@[simp] theorem State.setDraws_unseen (s : State) (k : Nat) : (s.setDraws k).unseen = s.unseen := rfl
@[simp] theorem State.setDraws_host (s : State) (k : Nat) : (s.setDraws k).host = s.host := rfl
@[simp] theorem State.setDraws_setDraws (s : State) (k k' : Nat) : (s.setDraws k).setDraws k' = s.setDraws k' := rfl
@[simp] theorem State.setDraws_self (s : State) : s.setDraws s.draws = s := rfl

@[simp] theorem State.setTurns_cfg (s : State) (l : List Agent) : (s.setTurns l).cfg = s.cfg := rfl
@[simp] theorem State.setTurns_regs (s : State) (l : List Agent) : (s.setTurns l).regs = s.regs := rfl
@[simp] theorem State.setTurns_phase (s : State) (l : List Agent) : (s.setTurns l).phase = s.phase := rfl
@[simp] theorem State.setTurns_work (s : State) (l : List Agent) : (s.setTurns l).work = s.work := rfl
@[simp] theorem State.setTurns_ht (s : State) (l : List Agent) : (s.setTurns l).ht = s.ht := rfl
@[simp] theorem State.setTurns_mem (s : State) (l : List Agent) : (s.setTurns l).mem = s.mem := rfl
@[simp] theorem State.setTurns_bus (s : State) (l : List Agent) : (s.setTurns l).bus = s.bus := rfl
@[simp] theorem State.setTurns_draws (s : State) (l : List Agent) : (s.setTurns l).draws = s.draws := rfl
@[simp] theorem State.setTurns_turns (s : State) (l : List Agent) : (s.setTurns l).turns = l := rfl
@[simp] theorem State.setTurns_pace (s : State) (l : List Agent) : (s.setTurns l).pace = s.pace := rfl
@[simp] theorem State.setTurns_unseen (s : State) (l : List Agent) : (s.setTurns l).unseen = s.unseen := rfl
@[simp] theorem State.setTurns_host (s : State) (l : List Agent) : (s.setTurns l).host = s.host := rfl
@[simp] theorem State.setTurns_setTurns (s : State) (l l' : List Agent) : (s.setTurns l).setTurns l' = s.setTurns l' := rfl
@[simp] theorem State.setTurns_self (s : State) : s.setTurns s.turns = s := rfl

@[simp] theorem State.setUnseen_cfg (s : State) (l : List Window) : (s.setUnseen l).cfg = s.cfg := rfl
@[simp] theorem State.setUnseen_regs (s : State) (l : List Window) : (s.setUnseen l).regs = s.regs := rfl
@[simp] theorem State.setUnseen_phase (s : State) (l : List Window) : (s.setUnseen l).phase = s.phase := rfl
@[simp] theorem State.setUnseen_work (s : State) (l : List Window) : (s.setUnseen l).work = s.work := rfl
@[simp] theorem State.setUnseen_ht (s : State) (l : List Window) : (s.setUnseen l).ht = s.ht := rfl
@[simp] theorem State.setUnseen_mem (s : State) (l : List Window) : (s.setUnseen l).mem = s.mem := rfl
@[simp] theorem State.setUnseen_bus (s : State) (l : List Window) : (s.setUnseen l).bus = s.bus := rfl
@[simp] theorem State.setUnseen_draws (s : State) (l : List Window) : (s.setUnseen l).draws = s.draws := rfl
@[simp] theorem State.setUnseen_turns (s : State) (l : List Window) : (s.setUnseen l).turns = s.turns := rfl
@[simp] theorem State.setUnseen_pace (s : State) (l : List Window) : (s.setUnseen l).pace = s.pace := rfl
@[simp] theorem State.setUnseen_unseen (s : State) (l : List Window) : (s.setUnseen l).unseen = l := rfl
@[simp] theorem State.setUnseen_host (s : State) (l : List Window) : (s.setUnseen l).host = s.host := rfl
@[simp] theorem State.setUnseen_setUnseen (s : State) (l l' : List Window) :
    (s.setUnseen l).setUnseen l' = s.setUnseen l' := rfl
@[simp] theorem State.setUnseen_self (s : State) : s.setUnseen s.unseen = s := rfl

@[simp] theorem State.setIp_cfg (s : State) (v : Nat) : (s.setIp v).cfg = s.cfg := rfl
@[simp] theorem State.setIp_regs (s : State) (v : Nat) : (s.setIp v).regs = s.regs := rfl
@[simp] theorem State.setIp_phase (s : State) (v : Nat) : (s.setIp v).phase = s.phase := rfl
@[simp] theorem State.setIp_work (s : State) (v : Nat) : (s.setIp v).work = { s.work with ip := v } := rfl
@[simp] theorem State.setIp_ht (s : State) (v : Nat) : (s.setIp v).ht = s.ht := rfl
@[simp] theorem State.setIp_mem (s : State) (v : Nat) : (s.setIp v).mem = s.mem := rfl
@[simp] theorem State.setIp_bus (s : State) (v : Nat) : (s.setIp v).bus = s.bus := rfl
@[simp] theorem State.setIp_draws (s : State) (v : Nat) : (s.setIp v).draws = s.draws := rfl
@[simp] theorem State.setIp_turns (s : State) (v : Nat) : (s.setIp v).turns = s.turns := rfl
@[simp] theorem State.setIp_pace (s : State) (v : Nat) : (s.setIp v).pace = s.pace := rfl
@[simp] theorem State.setIp_unseen (s : State) (v : Nat) : (s.setIp v).unseen = s.unseen := rfl
@[simp] theorem State.setIp_host (s : State) (v : Nat) : (s.setIp v).host = s.host := rfl

@[simp] theorem State.setOp_cfg (s : State) (v : Nat) : (s.setOp v).cfg = s.cfg := rfl
@[simp] theorem State.setOp_regs (s : State) (v : Nat) : (s.setOp v).regs = s.regs := rfl
@[simp] theorem State.setOp_phase (s : State) (v : Nat) : (s.setOp v).phase = s.phase := rfl
@[simp] theorem State.setOp_work (s : State) (v : Nat) : (s.setOp v).work = { s.work with op := v } := rfl
@[simp] theorem State.setOp_ht (s : State) (v : Nat) : (s.setOp v).ht = s.ht := rfl
@[simp] theorem State.setOp_mem (s : State) (v : Nat) : (s.setOp v).mem = s.mem := rfl
@[simp] theorem State.setOp_bus (s : State) (v : Nat) : (s.setOp v).bus = s.bus := rfl
@[simp] theorem State.setOp_draws (s : State) (v : Nat) : (s.setOp v).draws = s.draws := rfl
@[simp] theorem State.setOp_turns (s : State) (v : Nat) : (s.setOp v).turns = s.turns := rfl
@[simp] theorem State.setOp_pace (s : State) (v : Nat) : (s.setOp v).pace = s.pace := rfl
@[simp] theorem State.setOp_unseen (s : State) (v : Nat) : (s.setOp v).unseen = s.unseen := rfl
@[simp] theorem State.setOp_host (s : State) (v : Nat) : (s.setOp v).host = s.host := rfl

@[simp] theorem State.setRet_cfg (s : State) (v : Nat) : (s.setRet v).cfg = s.cfg := rfl
@[simp] theorem State.setRet_regs (s : State) (v : Nat) : (s.setRet v).regs = s.regs := rfl
@[simp] theorem State.setRet_phase (s : State) (v : Nat) : (s.setRet v).phase = s.phase := rfl
@[simp] theorem State.setRet_work (s : State) (v : Nat) : (s.setRet v).work = { s.work with ret := v } := rfl
@[simp] theorem State.setRet_ht (s : State) (v : Nat) : (s.setRet v).ht = s.ht := rfl
@[simp] theorem State.setRet_mem (s : State) (v : Nat) : (s.setRet v).mem = s.mem := rfl
@[simp] theorem State.setRet_bus (s : State) (v : Nat) : (s.setRet v).bus = s.bus := rfl
@[simp] theorem State.setRet_draws (s : State) (v : Nat) : (s.setRet v).draws = s.draws := rfl
@[simp] theorem State.setRet_turns (s : State) (v : Nat) : (s.setRet v).turns = s.turns := rfl
@[simp] theorem State.setRet_pace (s : State) (v : Nat) : (s.setRet v).pace = s.pace := rfl
@[simp] theorem State.setRet_unseen (s : State) (v : Nat) : (s.setRet v).unseen = s.unseen := rfl
@[simp] theorem State.setRet_host (s : State) (v : Nat) : (s.setRet v).host = s.host := rfl

/-! `setPoint` moves only the phase, and only of a BUSY engine. -/
@[simp] theorem State.setPoint_cfg (s : State) (p : Point) : (s.setPoint p).cfg = s.cfg := by
  unfold State.setPoint; split <;> rfl
@[simp] theorem State.setPoint_regs (s : State) (p : Point) : (s.setPoint p).regs = s.regs := by
  unfold State.setPoint; split <;> rfl
@[simp] theorem State.setPoint_work (s : State) (p : Point) : (s.setPoint p).work = s.work := by
  unfold State.setPoint; split <;> rfl
@[simp] theorem State.setPoint_ht (s : State) (p : Point) : (s.setPoint p).ht = s.ht := by
  unfold State.setPoint; split <;> rfl
@[simp] theorem State.setPoint_mem (s : State) (p : Point) : (s.setPoint p).mem = s.mem := by
  unfold State.setPoint; split <;> rfl
@[simp] theorem State.setPoint_bus (s : State) (p : Point) : (s.setPoint p).bus = s.bus := by
  unfold State.setPoint; split <;> rfl
@[simp] theorem State.setPoint_draws (s : State) (p : Point) : (s.setPoint p).draws = s.draws := by
  unfold State.setPoint; split <;> rfl
@[simp] theorem State.setPoint_turns (s : State) (p : Point) : (s.setPoint p).turns = s.turns := by
  unfold State.setPoint; split <;> rfl
@[simp] theorem State.setPoint_pace (s : State) (p : Point) : (s.setPoint p).pace = s.pace := by
  unfold State.setPoint; split <;> rfl
@[simp] theorem State.setPoint_unseen (s : State) (p : Point) : (s.setPoint p).unseen = s.unseen := by
  unfold State.setPoint; split <;> rfl
@[simp] theorem State.setPoint_host (s : State) (p : Point) : (s.setPoint p).host = s.host := by
  unfold State.setPoint; split <;> rfl
theorem State.setPoint_phase (s : State) (p : Point) :
    (s.setPoint p).phase = match s.phase with | .idle => .idle | .busy c _ => .busy c p := by
  unfold State.setPoint; split <;> simp_all

@[simp] theorem Phase.isBusy_idle : Phase.isBusy .idle = false := rfl
@[simp] theorem Phase.isBusy_busy (c : Command) (p : Point) : Phase.isBusy (.busy c p) = true := rfl
@[simp] theorem State.setPoint_busy (s : State) (p : Point) : (s.setPoint p).busy = s.busy := by
  unfold State.setPoint State.busy; split <;> simp_all

/-! The two ends and acceptance, field by field. -/
@[simp] theorem State.accept_cfg (s : State) (c : Command) : (s.accept c).cfg = s.cfg := rfl
@[simp] theorem State.accept_regs (s : State) (c : Command) : (s.accept c).regs = s.regs.accepted := rfl
@[simp] theorem State.accept_phase (s : State) (c : Command) : (s.accept c).phase = .busy c .start := rfl
@[simp] theorem State.accept_work (s : State) (c : Command) : (s.accept c).work = s.work.latch s.regs := rfl
@[simp] theorem State.accept_ht (s : State) (c : Command) : (s.accept c).ht = s.ht := rfl
@[simp] theorem State.accept_mem (s : State) (c : Command) : (s.accept c).mem = s.mem := rfl
@[simp] theorem State.accept_bus (s : State) (c : Command) : (s.accept c).bus = s.bus := rfl
@[simp] theorem State.accept_draws (s : State) (c : Command) : (s.accept c).draws = s.draws := rfl
@[simp] theorem State.accept_turns (s : State) (c : Command) : (s.accept c).turns = s.turns := rfl
@[simp] theorem State.accept_pace (s : State) (c : Command) : (s.accept c).pace = s.pace := rfl
@[simp] theorem State.accept_unseen (s : State) (c : Command) : (s.accept c).unseen = s.unseen := rfl
@[simp] theorem State.accept_host (s : State) (c : Command) : (s.accept c).host = s.host := rfl
@[simp] theorem State.settle_cfg (s : State) (j : Nat) (r : Regs) : (s.settle j r).cfg = s.cfg := rfl
@[simp] theorem State.settle_regs (s : State) (j : Nat) (r : Regs) : (s.settle j r).regs = r := rfl
@[simp] theorem State.settle_phase (s : State) (j : Nat) (r : Regs) : (s.settle j r).phase = .idle := rfl
@[simp] theorem State.settle_work (s : State) (j : Nat) (r : Regs) : (s.settle j r).work = Work.free s.cfg s.draws := rfl
@[simp] theorem State.settle_ht (s : State) (j : Nat) (r : Regs) : (s.settle j r).ht = s.endTable := rfl
@[simp] theorem State.settle_mem (s : State) (j : Nat) (r : Regs) : (s.settle j r).mem = s.endMem j := rfl
@[simp] theorem State.settle_bus (s : State) (j : Nat) (r : Regs) : (s.settle j r).bus = s.bus := rfl
@[simp] theorem State.settle_draws (s : State) (j : Nat) (r : Regs) : (s.settle j r).draws = s.draws + 1 := rfl
@[simp] theorem State.settle_turns (s : State) (j : Nat) (r : Regs) : (s.settle j r).turns = s.turns := rfl
@[simp] theorem State.settle_pace (s : State) (j : Nat) (r : Regs) : (s.settle j r).pace = s.pace := rfl
@[simp] theorem State.settle_unseen (s : State) (j : Nat) (r : Regs) : (s.settle j r).unseen = s.unseen := rfl
@[simp] theorem State.settle_host (s : State) (j : Nat) (r : Regs) : (s.settle j r).host = s.host := rfl
@[simp] theorem State.finish_cfg (s : State) (len : Nat) : (s.finish len).cfg = s.cfg := rfl
@[simp] theorem State.finish_regs (s : State) (len : Nat) : (s.finish len).regs = s.regs.finished len := rfl
@[simp] theorem State.finish_phase (s : State) (len : Nat) : (s.finish len).phase = .idle := rfl
@[simp] theorem State.finish_mem (s : State) (len : Nat) : (s.finish len).mem = s.endMem len := rfl
@[simp] theorem State.finish_bus (s : State) (len : Nat) : (s.finish len).bus = s.bus := rfl
@[simp] theorem State.finish_turns (s : State) (len : Nat) : (s.finish len).turns = s.turns := rfl
@[simp] theorem State.finish_pace (s : State) (len : Nat) : (s.finish len).pace = s.pace := rfl
@[simp] theorem State.finish_unseen (s : State) (len : Nat) : (s.finish len).unseen = s.unseen := rfl
@[simp] theorem State.finish_host (s : State) (len : Nat) : (s.finish len).host = s.host := rfl
@[simp] theorem State.raiseEnd_cfg (s : State) (e : ErrCode) : (s.raiseEnd e).cfg = s.cfg := rfl
@[simp] theorem State.raiseEnd_regs (s : State) (e : ErrCode) : (s.raiseEnd e).regs = s.regs.raised (s.reportCode e) s.work.ip s.work.op := rfl
@[simp] theorem State.raiseEnd_phase (s : State) (e : ErrCode) : (s.raiseEnd e).phase = .idle := rfl
@[simp] theorem State.raiseEnd_mem (s : State) (e : ErrCode) : (s.raiseEnd e).mem = s.endMem 0 := rfl
@[simp] theorem State.raiseEnd_bus (s : State) (e : ErrCode) : (s.raiseEnd e).bus = s.bus := rfl
@[simp] theorem State.raiseEnd_turns (s : State) (e : ErrCode) : (s.raiseEnd e).turns = s.turns := rfl
@[simp] theorem State.raiseEnd_pace (s : State) (e : ErrCode) : (s.raiseEnd e).pace = s.pace := rfl
@[simp] theorem State.raiseEnd_unseen (s : State) (e : ErrCode) : (s.raiseEnd e).unseen = s.unseen := rfl
@[simp] theorem State.raiseEnd_host (s : State) (e : ErrCode) : (s.raiseEnd e).host = s.host := rfl

end Machine
end Sys2Proof
end

