-- ==== Sys2Proof/Laws/Memory.lean ====
section
/-! SUPPORT. Sorted tables and host memory: read after write, what a write leaves alone, and the canonical form. -/
namespace Sys2Proof
namespace Machine

/-! ### Sorted tables -/

theorem Assoc.find_none_of_lt {α : Type} {l : List (Nat × α)} {k : Nat} (h : ∀ e ∈ l, k < e.1) : Assoc.find l k = none := by
  induction l with
  | nil => rfl
  | cons e t ih =>
    have h0 := h e (by simp)
    simp [Assoc.find, show e.1 ≠ k by omega, ih fun x hx => h x (by simp [hx])]

theorem Assoc.find_set_other {α : Type} [DecidableEq α] (d : α) (l : List (Nat × α)) {k k' : Nat} (v : α) (h : k' ≠ k) :
    Assoc.find (Assoc.set d l k v) k' = Assoc.find l k' := by
  induction l with
  | nil => simp only [Assoc.set]; split <;> simp [Assoc.find, Ne.symm h]
  | cons e t ih =>
    by_cases hv : v = d
    · by_cases h1 : k < e.1
      · simp [Assoc.set, Assoc.find, hv, h1]
      · by_cases h2 : e.1 = k
        · simp [Assoc.set, Assoc.find, hv, h2, Ne.symm h]
        · subst hv; simp [Assoc.set, Assoc.find, h1, h2, ih]
    · by_cases h1 : k < e.1
      · simp [Assoc.set, Assoc.find, hv, h1, Ne.symm h]
      · by_cases h2 : e.1 = k
        · simp [Assoc.set, Assoc.find, hv, h2, Ne.symm h]
        · simp [Assoc.set, Assoc.find, h1, h2, ih]

theorem Assoc.find_set_same {α : Type} [DecidableEq α] (d : α) {l : List (Nat × α)}
    (hl : l.Pairwise fun a b => a.1 < b.1) (k : Nat) (v : α) :
    Assoc.find (Assoc.set d l k v) k = if v = d then none else some v := by
  induction l with
  | nil => simp only [Assoc.set]; split <;> simp [Assoc.find]
  | cons e t ih =>
    have ht := List.pairwise_cons.mp hl
    by_cases h1 : k < e.1
    · by_cases hv : v = d
      · have : Assoc.find (e :: t) k = none := find_none_of_lt fun x hx => by
          rcases List.mem_cons.mp hx with rfl | hx
          · exact h1
          · exact Nat.lt_trans h1 (ht.1 x hx)
        simpa [Assoc.set, h1, hv] using this
      · simp [Assoc.set, Assoc.find, h1, hv]
    · by_cases h2 : e.1 = k
      · by_cases hv : v = d
        · have : Assoc.find t k = none := find_none_of_lt fun x hx => h2 ▸ ht.1 x hx
          simpa [Assoc.set, h1, h2, hv] using this
        · simp [Assoc.set, Assoc.find, h2, hv]
      · simp [Assoc.set, Assoc.find, h1, h2, ih ht.2]

theorem Assoc.mem_set {α : Type} [DecidableEq α] {d : α} {l : List (Nat × α)} {k : Nat} {v : α} {e : Nat × α}
    (h : e ∈ Assoc.set d l k v) : e ∈ l ∨ (e = (k, v) ∧ v ≠ d) := by
  induction l with
  | nil => simp only [Assoc.set] at h; split at h <;> simp_all
  | cons x t ih =>
    by_cases h1 : k < x.1
    · by_cases hv : v = d
      · left; simpa [Assoc.set, h1, hv] using h
      · simp only [Assoc.set, h1, hv, if_true, if_false, List.mem_cons] at h
        rcases h with h | h
        · exact .inr ⟨h, hv⟩
        · exact .inl (by simpa using h)
    · by_cases h2 : x.1 = k
      · by_cases hv : v = d
        · simp only [Assoc.set, h2, hv, if_true, if_false, lt_irrefl] at h
          exact .inl (by simp [h])
        · simp only [Assoc.set, h2, hv, if_true, if_false, lt_irrefl, List.mem_cons] at h
          rcases h with h | h
          · exact .inr ⟨h, hv⟩
          · exact .inl (by simp [h])
      · simp only [Assoc.set, h1, h2, if_false, List.mem_cons] at h
        rcases h with h | h
        · exact .inl (by simp [h])
        · rcases ih h with h | h
          · exact .inl (by simp [h])
          · exact .inr h

theorem Assoc.wf_set {α : Type} [DecidableEq α] {d : α} {l : List (Nat × α)} (h : Assoc.wf d l) (k : Nat) (v : α) :
    Assoc.wf d (Assoc.set d l k v) := by
  refine ⟨?_, fun e he => ?_⟩
  · have hl := h.1
    clear h
    induction l with
    | nil => simp only [Assoc.set]; split <;> simp
    | cons e t ih =>
      have ht := List.pairwise_cons.mp hl
      by_cases h1 : k < e.1
      · by_cases hv : v = d
        · simpa [Assoc.set, h1, hv] using hl
        · simp only [Assoc.set, h1, hv, if_true, if_false]
          refine List.pairwise_cons.mpr ⟨fun x hx => ?_, hl⟩
          rcases List.mem_cons.mp hx with rfl | hx
          · exact h1
          · exact Nat.lt_trans h1 (ht.1 x hx)
      · by_cases h2 : e.1 = k
        · by_cases hv : v = d
          · simpa [Assoc.set, h2, hv] using ht.2
          · simp only [Assoc.set, h2, hv, if_true, if_false, lt_irrefl]
            exact List.pairwise_cons.mpr ⟨fun x hx => h2 ▸ ht.1 x hx, ht.2⟩
        · simp only [Assoc.set, h1, h2, if_false]
          refine List.pairwise_cons.mpr ⟨fun x hx => ?_, ih ht.2⟩
          rcases Assoc.mem_set hx with hx | ⟨rfl, -⟩
          · exact ht.1 x hx
          · show e.1 < k
            omega
  · rcases Assoc.mem_set he with he | ⟨rfl, hv⟩
    · exact h.2 e he
    · exact hv

/-! ### The hash table (R142) -/

theorem Table.get_set_same {t : Table} (h : Assoc.wf 0 t) (k : BitVec 16) (p : Nat) : (t.set k p).get k = p := by
  simp only [Table.get, Table.set, Assoc.find_set_same 0 h.1]
  split <;> simp_all

theorem Table.get_set_other (t : Table) {k k' : BitVec 16} (p : Nat) (h : k' ≠ k) : (t.set k p).get k' = t.get k' := by
  simp only [Table.get, Table.set]
  rw [Assoc.find_set_other]
  exact fun e => h (BitVec.eq_of_toNat_eq e)

theorem Table.wf_set {t : Table} (h : Assoc.wf 0 t) (k : BitVec 16) (p : Nat) : Assoc.wf 0 (t.set k p) := Assoc.wf_set h _ _

/-! ### Spans -/

theorem Span.unlisted_cut_inside {lo hi a : Nat} (l : List Span) (h : lo ≤ a ∧ a < hi) :
    Memory.unlisted (Span.cut lo hi l) a = Memory.blank := by
  have : (Span.cut lo hi l).find? (Span.covers a) = none := by
    induction l with
    | nil => rfl
    | cons sp t ih =>
      simp only [Span.cut, List.find?_append, ih, Option.or_none]
      rw [Option.or_eq_none_iff]
      constructor
      · split
        · simp only [List.find?_cons, List.find?_nil]
          have : Span.covers a { sp with hi := min sp.hi lo } = false := by simp [Span.covers]; omega
          simp [this]
        · rfl
      · split
        · simp only [List.find?_cons, List.find?_nil]
          have : Span.covers a { sp with lo := max sp.lo hi } = false := by simp [Span.covers]; omega
          simp [this]
        · rfl
  simp [Memory.unlisted, this]

theorem Span.unlisted_cut_outside {lo hi a : Nat} (l : List Span) (h : a < lo ∨ hi ≤ a) (hlh : lo ≤ hi) :
    Memory.unlisted (Span.cut lo hi l) a = Memory.unlisted l a := by
  induction l with
  | nil => rfl
  | cons sp t ih =>
    by_cases hc : Span.covers a sp = true
    · have hc' : sp.lo ≤ a ∧ a < sp.hi := by simpa [Span.covers] using hc
      have h1 : Memory.unlisted (sp :: t) a = Config.freeByte sp.draw a := by simp [Memory.unlisted, hc]
      rw [h1]
      rcases h with h | h
      · have : sp.lo < min sp.hi lo := by omega
        have hcov : Span.covers a { sp with hi := min sp.hi lo } = true := by simp [Span.covers]; omega
        simp [Memory.unlisted, Span.cut, this, hcov]
      · have hcut : (if sp.lo < min sp.hi lo then [{ sp with hi := min sp.hi lo }] else []).find? (Span.covers a) = none := by
          split
          · have : Span.covers a { sp with hi := min sp.hi lo } = false := by simp [Span.covers]; omega
            simp [this]
          · rfl
        have h2 : max sp.lo hi < sp.hi := by omega
        have hcov : Span.covers a { sp with lo := max sp.lo hi } = true := by simp [Span.covers]; omega
        simp only [Memory.unlisted, Span.cut, List.append_assoc, List.find?_append, hcut, h2, if_true, List.find?_cons, hcov,
          Option.none_or, Option.some_or]
    · have hc' : ¬ (sp.lo ≤ a ∧ a < sp.hi) := by simpa [Span.covers] using hc
      have h1 : Memory.unlisted (sp :: t) a = Memory.unlisted t a := by
        simp [Memory.unlisted, hc]
      have hA : (if sp.lo < min sp.hi lo then [{ sp with hi := min sp.hi lo }] else []).find? (Span.covers a) = none := by
        split
        · have : Span.covers a { sp with hi := min sp.hi lo } = false := by simp [Span.covers]; omega
          simp [this]
        · rfl
      have hB : (if max sp.lo hi < sp.hi then [{ sp with lo := max sp.lo hi }] else []).find? (Span.covers a) = none := by
        split
        · have : Span.covers a { sp with lo := max sp.lo hi } = false := by simp [Span.covers]; omega
          simp [this]
        · rfl
      rw [h1, ← ih]
      simp only [Memory.unlisted, Span.cut, List.append_assoc, List.find?_append, hA, hB, Option.none_or]

theorem Span.mem_cut {lo hi : Nat} {l : List Span} {x : Span} (h : x ∈ Span.cut lo hi l) :
    ∃ sp ∈ l, sp.lo ≤ x.lo ∧ x.hi ≤ sp.hi ∧ x.lo < x.hi ∧ (x.hi ≤ lo ∨ hi ≤ x.lo) := by
  induction l with
  | nil => simp [Span.cut] at h
  | cons sp t ih =>
    simp only [Span.cut, List.mem_append] at h
    rcases h with (h | h) | h
    · split at h
      · simp only [List.mem_singleton] at h
        subst h
        exact ⟨sp, by simp, by simp; omega⟩
      · simp at h
    · split at h
      · simp only [List.mem_singleton] at h
        subst h
        exact ⟨sp, by simp, by simp; omega⟩
      · simp at h
    · obtain ⟨y, hy, h⟩ := ih h
      exact ⟨y, by simp [hy], h⟩

/-- Spans rising and disjoint. -/
abbrev Span.sorted (l : List Span) : Prop := l.Pairwise (fun a b => a.hi ≤ b.lo) ∧ ∀ sp ∈ l, sp.lo < sp.hi

theorem Span.sorted_cut {lo hi : Nat} {l : List Span} (h : Span.sorted l) (hlh : lo ≤ hi) : Span.sorted (Span.cut lo hi l) := by
  refine ⟨?_, fun x hx => ?_⟩
  · have hl := h.1
    clear h
    induction l with
    | nil => exact List.Pairwise.nil
    | cons sp t ih =>
      have ht := List.pairwise_cons.mp hl
      simp only [Span.cut]
      refine List.pairwise_append.mpr ⟨?_, ih ht.2, ?_⟩
      · refine List.pairwise_append.mpr ⟨by split <;> simp, by split <;> simp, ?_⟩
        intro a ha b hb
        split at ha <;> split at hb <;> simp_all
      · intro a ha b hb
        obtain ⟨y, hy, h1, -, -, -⟩ := Span.mem_cut hb
        have h3 := ht.1 y hy
        simp only [List.mem_append] at ha
        rcases ha with ha | ha
        · split at ha
          · rw [List.mem_singleton] at ha
            subst ha
            show min sp.hi lo ≤ b.lo
            omega
          · simp at ha
        · split at ha
          · rw [List.mem_singleton] at ha
            subst ha
            show sp.hi ≤ b.lo
            omega
          · simp at ha
  · obtain ⟨_, _, _, _, h3, _⟩ := Span.mem_cut hx
    exact h3

/-! ### Bytes of memory -/

theorem Memory.read_write_same {m : Memory} (h : m.wf) (a : Nat) (b : Byte) : (m.write a b).read a = b := by
  simp only [Memory.read, Memory.write, Assoc.find_set_same _ h.1.1]
  split
  · next x hx =>
    split at hx
    · cases hx
    · exact (Option.some.inj hx).symm
  · next hx =>
    split at hx
    · next hb => rw [Span.unlisted_cut_inside _ (by omega)]; exact hb.symm
    · cases hx

theorem Memory.read_write_other (m : Memory) {a a' : Nat} (b : Byte) (h : a' ≠ a) : (m.write a b).read a' = m.read a' := by
  simp only [Memory.read, Memory.write, Assoc.find_set_other _ _ _ h]
  rw [Span.unlisted_cut_outside _ (by omega) (by omega)]

theorem Memory.wf_write {m : Memory} (h : m.wf) (a : Nat) (b : Byte) : (m.write a b).wf := by
  refine ⟨Assoc.wf_set h.1 a b, Span.sorted_cut h.2.1 (by omega), fun sp hsp c hc => ?_⟩
  obtain ⟨y, hy, h1, h2, h3, h4⟩ := Span.mem_cut hsp
  rcases Assoc.mem_set hc with hc | ⟨rfl, -⟩
  · have := h.2.2 y hy c hc
    simp only [Span.covers, Bool.and_eq_false_iff, decide_eq_false_iff_not] at this ⊢
    omega
  · simp only [Span.covers, Bool.and_eq_false_iff, decide_eq_false_iff_not]
    omega

theorem Memory.wf_writeList {m : Memory} (h : m.wf) (a : Nat) (bs : List Byte) : (m.writeList a bs).wf := by
  induction bs generalizing m a with
  | nil => exact h
  | cons b t ih => exact ih (Memory.wf_write h a b) (a + 1)

theorem Memory.read_writeList_other (m : Memory) {a x : Nat} (bs : List Byte) (h : x < a ∨ a + bs.length ≤ x) :
    (m.writeList a bs).read x = m.read x := by
  induction bs generalizing m a with
  | nil => rfl
  | cons b t ih =>
    simp only [List.length_cons] at h
    rw [Memory.writeList, ih _ (by omega), Memory.read_write_other _ _ (by omega)]

theorem Memory.read_writeList_inside {m : Memory} (h : m.wf) (a : Nat) (bs : List Byte) (i : Nat) (hi : i < bs.length) :
    (m.writeList a bs).read (a + i) = bs[i] := by
  induction bs generalizing m a i with
  | nil => simp at hi
  | cons b t ih =>
    rw [Memory.writeList]
    cases i with
    | zero =>
      rw [Memory.read_writeList_other _ _ (by omega), Nat.add_zero, Memory.read_write_same h]
      rfl
    | succ i =>
      have := ih (Memory.wf_write h a b) (a + 1) i (by simpa using hi)
      rw [show a + (i + 1) = a + 1 + i by omega, this]
      rfl

@[simp] theorem Memory.length_readList (m : Memory) (a len : Nat) : (m.readList a len).length = len := by
  simp [Memory.readList]

theorem Memory.getElem_readList (m : Memory) (a len i : Nat) (h : i < (m.readList a len).length) :
    (m.readList a len)[i] = m.read (a + i) := by
  simp [Memory.readList]

theorem Memory.readList_congr {m m' : Memory} {a a' len : Nat} (h : ∀ i < len, m.read (a + i) = m'.read (a' + i)) :
    m.readList a len = m'.readList a' len := by
  refine List.ext_getElem (by simp) fun i h1 h2 => ?_
  rw [Memory.getElem_readList, Memory.getElem_readList]
  exact h i (by simpa using h1)

theorem Memory.readList_writeList {m : Memory} (h : m.wf) (a : Nat) (bs : List Byte) :
    (m.writeList a bs).readList a bs.length = bs := by
  refine List.ext_getElem (by simp) fun i h1 h2 => ?_
  rw [Memory.getElem_readList, Memory.read_writeList_inside h a bs i h2]

theorem Memory.readList_writeList_other (m : Memory) {a x len : Nat} (bs : List Byte) (h : x + len ≤ a ∨ a + bs.length ≤ x) :
    (m.writeList a bs).readList x len = m.readList x len :=
  Memory.readList_congr fun i hi => Memory.read_writeList_other m bs (by omega)

theorem Memory.readList_succ (m : Memory) (a k : Nat) : m.readList a (k + 1) = m.read a :: m.readList (a + 1) k := by
  simp [Memory.readList, List.range'_succ]

theorem Memory.readList_append (m : Memory) (a j k : Nat) : m.readList a (j + k) = m.readList a j ++ m.readList (a + j) k := by
  simp [Memory.readList, ← List.range'_append_1]

theorem Memory.writeList_append (m : Memory) (a : Nat) (xs ys : List Byte) :
    m.writeList a (xs ++ ys) = (m.writeList a xs).writeList (a + xs.length) ys := by
  induction xs generalizing m a with
  | nil => rfl
  | cons x t ih => simp only [List.cons_append, Memory.writeList, ih, List.length_cons]; congr 1; omega

/-! ### Unspecified spans -/

theorem Memory.read_havoc_outside (m : Memory) {lo hi k a : Nat} (h : a < lo ∨ hi ≤ a) : (m.havoc lo hi k).read a = m.read a := by
  unfold Memory.havoc
  split
  · next hlh =>
    have hfind : Assoc.find (m.cells.filter fun c => decide (c.1 < lo) || decide (hi ≤ c.1)) a = Assoc.find m.cells a := by
      induction m.cells with
      | nil => rfl
      | cons c t ih =>
        by_cases hc : (decide (c.1 < lo) || decide (hi ≤ c.1)) = true
        · rw [List.filter_cons_of_pos (by exact hc), Assoc.find, Assoc.find, ih]
        · rw [List.filter_cons_of_neg (by exact hc), Assoc.find, ih]
          have : c.1 ≠ a := by simp at hc; omega
          simp [this]
    have hcut := Span.unlisted_cut_outside m.spans h (Nat.le_of_lt hlh)
    have hsp : Memory.unlisted ((Span.cut lo hi m.spans).filter (fun sp => decide (sp.hi ≤ lo)) ++ { lo := lo, hi := hi, draw := k }
        :: (Span.cut lo hi m.spans).filter (fun sp => decide (hi ≤ sp.lo))) a = Memory.unlisted (Span.cut lo hi m.spans) a := by
      have hall : ∀ x ∈ Span.cut lo hi m.spans, x.hi ≤ lo ∨ hi ≤ x.lo := fun x hx => by
        obtain ⟨_, _, _, _, _, h4⟩ := Span.mem_cut hx; exact h4
      have hne : Span.covers a { lo := lo, hi := hi, draw := k } = false := by simp [Span.covers]; omega
      have hf1 : ∀ l : List Span, (∀ x ∈ l, x.hi ≤ lo ∨ hi ≤ x.lo) → (hi ≤ a) →
          (l.filter (fun sp => decide (hi ≤ sp.lo))).find? (Span.covers a) = l.find? (Span.covers a) := by
        intro l hl ha
        induction l with
        | nil => rfl
        | cons x t ih =>
          have ih := ih fun y hy => hl y (by simp [hy])
          by_cases hx : hi ≤ x.lo
          · rw [List.filter_cons_of_pos (by simpa using hx), List.find?_cons, List.find?_cons, ih]
          · rw [List.filter_cons_of_neg (by simpa using hx), List.find?_cons, ih]
            have := hl x (by simp)
            have hcv : Span.covers a x = false := by simp [Span.covers]; omega
            simp [hcv]
      have hf2 : ∀ l : List Span, (∀ x ∈ l, x.hi ≤ lo ∨ hi ≤ x.lo) → (a < lo) →
          (l.filter (fun sp => decide (sp.hi ≤ lo))).find? (Span.covers a) = l.find? (Span.covers a) := by
        intro l hl ha
        induction l with
        | nil => rfl
        | cons x t ih =>
          have ih := ih fun y hy => hl y (by simp [hy])
          by_cases hx : x.hi ≤ lo
          · rw [List.filter_cons_of_pos (by simpa using hx), List.find?_cons, List.find?_cons, ih]
          · rw [List.filter_cons_of_neg (by simpa using hx), List.find?_cons, ih]
            have := hl x (by simp)
            have hcv : Span.covers a x = false := by simp [Span.covers]; omega
            simp [hcv]
      have hnone1 : hi ≤ a → ((Span.cut lo hi m.spans).filter (fun sp => decide (sp.hi ≤ lo))).find? (Span.covers a) = none := by
        intro ha
        refine List.find?_eq_none.mpr fun x hx => ?_
        simp at hx; simp [Span.covers]; omega
      have hnone2 : a < lo → ((Span.cut lo hi m.spans).filter (fun sp => decide (hi ≤ sp.lo))).find? (Span.covers a) = none := by
        intro ha
        refine List.find?_eq_none.mpr fun x hx => ?_
        simp at hx; simp [Span.covers]; omega
      rcases h with h | h
      · simp only [Memory.unlisted, List.find?_append, List.find?_cons, hne, hf2 _ hall h, hnone2 h, Option.or_none]
      · simp only [Memory.unlisted, List.find?_append, List.find?_cons, hne, hf1 _ hall h, hnone1 h, Option.none_or]
    simp only [Memory.read, hfind, hsp, hcut]
  · rfl

theorem Memory.wf_havoc {m : Memory} (h : m.wf) (lo hi k : Nat) : (m.havoc lo hi k).wf := by
  unfold Memory.havoc
  split
  · next hlh =>
    have hs := Span.sorted_cut h.2.1 (Nat.le_of_lt hlh)
    refine ⟨⟨h.1.1.filter _, fun e he => h.1.2 e (List.mem_of_mem_filter he)⟩, ⟨?_, ?_⟩, ?_⟩
    · refine List.pairwise_append.mpr ⟨hs.1.filter _, List.pairwise_cons.mpr ⟨?_, hs.1.filter _⟩, ?_⟩
      · intro x hx; simp at hx; exact hx.2
      · intro x hx y hy
        simp at hx
        rcases List.mem_cons.mp hy with rfl | hy
        · exact hx.2
        · simp at hy; omega
    · intro x hx
      simp only [List.mem_append, List.mem_cons, List.mem_filter] at hx
      rcases hx with hx | rfl | hx
      · exact hs.2 x hx.1
      · exact hlh
      · exact hs.2 x hx.1
    · intro x hx c hc
      simp only [List.mem_filter, Bool.or_eq_true, decide_eq_true_eq] at hc
      simp only [List.mem_append, List.mem_cons, List.mem_filter] at hx
      have hcut : ∀ x ∈ Span.cut lo hi m.spans, Span.covers c.1 x = false := fun x hx => by
        obtain ⟨y, hy, h1, h2, _, _⟩ := Span.mem_cut hx
        have := h.2.2 y hy c hc.1
        simp only [Span.covers, Bool.and_eq_false_iff, decide_eq_false_iff_not] at this ⊢
        omega
      rcases hx with hx | rfl | hx
      · exact hcut x hx.1
      · simp only [Span.covers, Bool.and_eq_false_iff, decide_eq_false_iff_not]; omega
      · exact hcut x hx.1
  · exact h

end Machine
end Sys2Proof
end

