-- ==== Sys2Proof/Laws/Engine.lean ====
section
/-! SUPPORT. Results of engine operations: sequencing, what an access can do, and what every operation of the engine leaves alone. -/
namespace Sys2Proof
namespace Machine
open Safety

/-! ### Sequencing -/

@[simp] theorem Res.bind_ok {α β : Type} (a : α) (s : State) (k : α → State → Res β) : (Res.ok a s).bind k = k a s := rfl
@[simp] theorem Res.bind_raise {α β : Type} (e : ErrCode) (s : State) (k : α → State → Res β) :
    (Res.raise e s).bind k = .raise e s := rfl
@[simp] theorem Res.bind_fault {α β : Type} (f : Fault) (k : α → State → Res β) : (Res.fault f : Res α).bind k = .fault f := rfl
@[simp] theorem Res.bind_refuse {α β : Type} (q : Refusal) (k : α → State → Res β) :
    (Res.refuse q : Res α).bind k = .refuse q := rfl

theorem Res.bind_assoc {α β γ : Type} (r : Res α) (k : α → State → Res β) (l : β → State → Res γ) :
    (r.bind k).bind l = r.bind fun a s => (k a s).bind l := by
  cases r <;> rfl

@[simp] theorem Res.outcome_ok {α : Type} (a : α) (s : State) : (Res.ok a s).outcome = .next s := rfl
@[simp] theorem Res.outcome_raise {α : Type} (e : ErrCode) (s : State) : (Res.raise e s : Res α).outcome = .next (s.raiseEnd e) := rfl
@[simp] theorem Res.outcome_fault {α : Type} (f : Fault) : (Res.fault f : Res α).outcome = .fault f := rfl
@[simp] theorem Res.outcome_refuse {α : Type} (q : Refusal) : (Res.refuse q : Res α).outcome = .refused q := rfl

/-- The result completes or raises, without a stop, and then `Q` or `E` holds. -/
def Res.Sat {α : Type} (r : Res α) (Q : α → State → Prop) (E : ErrCode → State → Prop) : Prop :=
  match r with
  | .ok a t => Q a t
  | .raise e t => E e t
  | .fault _ => False
  | .refuse _ => False

theorem Res.Sat.bind {α β : Type} {r : Res α} {k : α → State → Res β} {Q : β → State → Prop} {E : ErrCode → State → Prop}
    (h : r.Sat (fun a t => (k a t).Sat Q E) E) : (r.bind k).Sat Q E := by
  cases r <;> exact h

theorem Res.Sat.mono {α : Type} {r : Res α} {Q Q' : α → State → Prop} {E E' : ErrCode → State → Prop} (h : r.Sat Q E)
    (hQ : ∀ a t, Q a t → Q' a t) (hE : ∀ e t, E e t → E' e t) : r.Sat Q' E' := by
  cases r
  · exact hQ _ _ h
  · exact hE _ _ h
  · exact h
  · exact h

/-- Whatever state the result carries satisfies `P`. -/
def Res.All {α : Type} (r : Res α) (P : State → Prop) : Prop :=
  match r with
  | .ok _ t => P t
  | .raise _ t => P t
  | .fault _ => True
  | .refuse _ => True

theorem Res.All.bind {α β : Type} {r : Res α} {k : α → State → Res β} {P P' : State → Prop}
    (h : r.All P) (hr : ∀ t, P t → P' t) (hk : ∀ a t, P t → (k a t).All P') : (r.bind k).All P' := by
  cases r
  · exact hk _ _ h
  · exact hr _ h
  · trivial
  · trivial

theorem Res.All.mono {α : Type} {r : Res α} {P P' : State → Prop} (h : r.All P) (hp : ∀ t, P t → P' t) : r.All P' := by
  cases r <;> first | exact hp _ h | trivial

/-! ### What every operation of the engine leaves alone (R72) -/

/-- From `s` the engine reached `t` inside one command: build parameters, registers, turns, pace and the host side are as before,
so are the latched operands and the running command; memory changed in the destination region only; memory and the hash table
kept their canonical forms; and no bus error came up that was not coming. -/
structure Reach (s t : State) : Prop where
  cfg : t.cfg = s.cfg
  regs : t.regs = s.regs
  turns : t.turns = s.turns
  pace : t.pace = s.pace
  host : t.host = s.host
  sa : t.work.sa = s.work.sa
  n : t.work.n = s.work.n
  da : t.work.da = s.work.da
  cap : t.work.cap = s.work.cap
  command : running t = running s
  mem : ∀ a, ¬ InDest s a → t.mem.read a = s.mem.read a
  wf : s.mem.wf → t.mem.wf
  table : Assoc.wf 0 s.ht → Assoc.wf 0 t.ht
  quiet : Quiet s → Quiet t

theorem Reach.refl (s : State) : Reach s s :=
  ⟨rfl, rfl, rfl, rfl, rfl, rfl, rfl, rfl, rfl, rfl, fun _ _ => rfl, id, id, id⟩

theorem Reach.trans {s t u : State} (h : Reach s t) (h' : Reach t u) : Reach s u where
  cfg := h'.cfg.trans h.cfg
  regs := h'.regs.trans h.regs
  turns := h'.turns.trans h.turns
  pace := h'.pace.trans h.pace
  host := h'.host.trans h.host
  sa := h'.sa.trans h.sa
  n := h'.n.trans h.n
  da := h'.da.trans h.da
  cap := h'.cap.trans h.cap
  command := h'.command.trans h.command
  mem := fun a ha => (h'.mem a (by simpa [InDest, h.da, h.cap] using ha)).trans (h.mem a ha)
  wf := fun hw => h'.wf (h.wf hw)
  table := fun hw => h'.table (h.table hw)
  quiet := fun hq => h'.quiet (h.quiet hq)

/-- A change of the working registers that keeps the latched operands. -/
theorem Reach.setWork {s : State} {w : Work} (hsa : w.sa = s.work.sa) (hn : w.n = s.work.n) (hda : w.da = s.work.da)
    (hcap : w.cap = s.work.cap) : Reach s (s.setWork w) :=
  ⟨rfl, rfl, rfl, rfl, rfl, hsa, hn, hda, hcap, rfl, fun _ _ => rfl, id, id, id⟩

theorem Reach.setHt {s : State} {t : Table} (h : Assoc.wf 0 s.ht → Assoc.wf 0 t) : Reach s (s.setHt t) :=
  ⟨rfl, rfl, rfl, rfl, rfl, rfl, rfl, rfl, rfl, rfl, fun _ _ => rfl, id, h, id⟩

theorem Reach.setDraws (s : State) (k : Nat) : Reach s (s.setDraws k) :=
  ⟨rfl, rfl, rfl, rfl, rfl, rfl, rfl, rfl, rfl, rfl, fun _ _ => rfl, id, id, id⟩

theorem Reach.setPoint (s : State) (p : Point) : Reach s (s.setPoint p) where
  cfg := by simp
  regs := by simp
  turns := by simp
  pace := by simp
  host := by simp
  sa := by simp
  n := by simp
  da := by simp
  cap := by simp
  command := by simp only [running, State.setPoint_phase]; cases s.phase <;> rfl
  mem := by simp
  wf := by simp
  table := by simp
  quiet := by simp [Quiet]

theorem Reach.tailBus {s : State} {b : Bool} {l : List Bool} (h : s.bus = b :: l) : Reach s (s.setBus l) where
  cfg := rfl
  regs := rfl
  turns := rfl
  pace := rfl
  host := rfl
  sa := rfl
  n := rfl
  da := rfl
  cap := rfl
  command := rfl
  mem := fun _ _ => rfl
  wf := id
  table := id
  quiet := fun hq => hq.elim .inl fun hb => by simp [hb] at h

theorem Reach.write {s : State} {a : Nat} (b : Byte) (h : InDest s a) : Reach s (s.setMem (s.mem.write a b)) where
  cfg := rfl
  regs := rfl
  turns := rfl
  pace := rfl
  host := rfl
  sa := rfl
  n := rfl
  da := rfl
  cap := rfl
  command := rfl
  mem := fun _ hx => Memory.read_write_other _ _ fun e => hx (e ▸ h)
  wf := fun hw => Memory.wf_write hw a b
  table := id
  quiet := id

/-! ### The accesses -/

theorem busAnswer_quiet {s : State} (h : Quiet s) : busAnswer s = .ok () s := by
  unfold busAnswer
  rcases h with h | h
  · simp [h]
  · simp [h]

theorem busAnswer_all (s : State) : (busAnswer s).All (Reach s) := by
  unfold busAnswer
  split
  · split
    · exact Reach.refl s
    · next hb => exact Reach.tailBus hb
    · next hb => exact Reach.tailBus hb
  · exact Reach.refl s

theorem busAnswer_sat (s : State) :
    (busAnswer s).Sat (fun _ t => ∃ l, t = s.setBus l ∧ Reach s t) (fun e t => e = .busError ∧ ∃ l, t = s.setBus l ∧ Reach s t) := by
  unfold busAnswer
  split
  · split
    · exact ⟨s.bus, rfl, Reach.refl s⟩
    · next hb => exact ⟨_, rfl, Reach.tailBus hb⟩
    · next hb => exact ⟨rfl, _, rfl, Reach.tailBus hb⟩
  · exact ⟨s.bus, rfl, Reach.refl s⟩

theorem memRead_quiet {s : State} (h : Quiet s) {a : Nat} (ha : a < s.cfg.addrSpace) : memRead a s = .ok (s.mem.read a) s := by
  simp [memRead, ha, busAnswer_quiet h]

theorem memRead_all (a : Nat) (s : State) : (memRead a s).All (Reach s) := by
  unfold memRead
  split
  · exact Res.All.bind (busAnswer_all s) (fun _ h => h) fun _ t h => h
  · trivial

theorem memRead_sat {a : Nat} {s : State} (ha : a < s.cfg.addrSpace) :
    (memRead a s).Sat (fun b t => b = s.mem.read a ∧ ∃ l, t = s.setBus l ∧ Reach s t)
      (fun e t => e = .busError ∧ ∃ l, t = s.setBus l ∧ Reach s t) := by
  simp only [memRead, ha, if_true]
  refine Res.Sat.bind ((busAnswer_sat s).mono (fun _ t h => ?_) fun e t h => h)
  obtain ⟨l, rfl, hr⟩ := h
  exact ⟨rfl, l, rfl, hr⟩

theorem regionsFit_iff (c : Params) (w : Work) :
    regionsFit c w = true ↔ w.sa + w.n ≤ c.addrSpace ∧ w.da + w.cap ≤ c.addrSpace := by
  simp [regionsFit]

theorem regionsDisjoint_iff (w : Work) :
    regionsDisjoint w = true ↔ w.n = 0 ∨ w.cap = 0 ∨ w.sa + w.n ≤ w.da ∨ w.da + w.cap ≤ w.sa := by
  simp [regionsDisjoint, or_assoc]

/-- The regions lie in the address space (R74). -/
def Fits (s : State) : Prop := s.work.sa + s.work.n ≤ s.cfg.addrSpace ∧ s.work.da + s.work.cap ≤ s.cfg.addrSpace

theorem fits_of_regions {s : State} (h : Regions s) : Fits s := (regionsFit_iff _ _).mp h.1

theorem Reach.fits {s t : State} (h : Reach s t) (hf : Fits s) : Fits t := by
  simpa [Fits, h.sa, h.n, h.da, h.cap, h.cfg] using hf

theorem srcByte_quiet {s : State} (h : Quiet s) (hf : s.work.sa + s.work.n ≤ s.cfg.addrSpace) {i : Nat} (hi : i < s.work.n) :
    srcByte i s = .ok (s.mem.read (s.work.sa + i)) s := by
  simp only [srcByte, hi, if_true]
  exact memRead_quiet h (by omega)

theorem srcByte_all (i : Nat) (s : State) : (srcByte i s).All (Reach s) := by
  unfold srcByte
  split
  · exact memRead_all _ s
  · trivial

theorem srcByte_sat {i : Nat} {s : State} (hf : s.work.sa + s.work.n ≤ s.cfg.addrSpace) (hi : i < s.work.n) :
    (srcByte i s).Sat (fun b t => b = s.mem.read (s.work.sa + i) ∧ ∃ l, t = s.setBus l ∧ Reach s t)
      (fun e t => e = .busError ∧ ∃ l, t = s.setBus l ∧ Reach s t) := by
  simp only [srcByte, hi, if_true]
  exact memRead_sat (by omega)

theorem dstByte_quiet {s : State} (h : Quiet s) (hf : Fits s) {w j : Nat} (hj : j < w) (hc : j < s.work.cap) :
    dstByte w j s = .ok (s.mem.read (s.work.da + j)) s := by
  simp only [dstByte, hj, hc, and_self, if_true]
  exact memRead_quiet h (by have := hf.2; omega)

theorem dstByte_all (w j : Nat) (s : State) : (dstByte w j s).All (Reach s) := by
  unfold dstByte
  split
  · exact memRead_all _ s
  · trivial

theorem dstByte_sat {w j : Nat} {s : State} (hf : Fits s) (hj : j < w) (hc : j < s.work.cap) :
    (dstByte w j s).Sat (fun b t => b = s.mem.read (s.work.da + j) ∧ ∃ l, t = s.setBus l ∧ Reach s t)
      (fun e t => e = .busError ∧ ∃ l, t = s.setBus l ∧ Reach s t) := by
  simp only [dstByte, hj, hc, and_self, if_true]
  exact memRead_sat (by have := hf.2; omega)

theorem dstWrite_quiet {s : State} (h : Quiet s) (hf : Fits s) {j : Nat} (b : Byte) (hc : j < s.work.cap) :
    dstWrite j b s = .ok () (s.setMem (s.mem.write (s.work.da + j) b)) := by
  have ha : s.work.da + j < s.cfg.addrSpace := by have := hf.2; omega
  simp [dstWrite, memWrite, hc, ha, busAnswer_quiet h]

theorem dstWrite_all (j : Nat) (b : Byte) (s : State) : (dstWrite j b s).All (Reach s) := by
  unfold dstWrite memWrite
  split
  · next hj =>
    split
    · refine Res.All.bind (busAnswer_all s) (fun _ h => h) fun _ t h => h.trans ?_
      have := Reach.write (s := t) (a := s.work.da + j) b ⟨by rw [h.da]; omega, by rw [h.da, h.cap]; omega⟩
      exact this
    · trivial
  · trivial

theorem dstWrite_sat {j : Nat} {s : State} (b : Byte) (hf : Fits s) (hc : j < s.work.cap) :
    (dstWrite j b s).Sat (fun _ t => ∃ l, t = (s.setBus l).setMem (s.mem.write (s.work.da + j) b) ∧ Reach s t)
      (fun e t => e = .busError ∧ ∃ l, t = s.setBus l ∧ Reach s t) := by
  have ha : s.work.da + j < s.cfg.addrSpace := by have := hf.2; omega
  simp only [dstWrite, memWrite, hc, ha, if_true]
  refine Res.Sat.bind ((busAnswer_sat s).mono (fun _ t h => ?_) fun e t h => h)
  obtain ⟨l, rfl, hr⟩ := h
  exact ⟨l, rfl, hr.trans (Reach.write (s := s.setBus l) b ⟨by simp, by simp; omega⟩)⟩

end Machine
end Sys2Proof
end

