-- ==== Sys2Proof/Laws/Access.lean ====
section
/-! SUPPORT. The engine's loops over bytes, when no bus error is coming: each is one equation on memory (R79, R225 to R228). -/
namespace Sys2Proof
namespace Safety
open Machine

/-! ### What keeps a state ready -/

@[simp] theorem Quiet.setMem_iff (s : State) (m : Memory) : Quiet (s.setMem m) ↔ Quiet s := Iff.rfl
@[simp] theorem Quiet.setWork_iff (s : State) (w : Work) : Quiet (s.setWork w) ↔ Quiet s := Iff.rfl
@[simp] theorem Quiet.setHt_iff (s : State) (t : Table) : Quiet (s.setHt t) ↔ Quiet s := Iff.rfl
@[simp] theorem Quiet.setDraws_iff (s : State) (k : Nat) : Quiet (s.setDraws k) ↔ Quiet s := Iff.rfl
@[simp] theorem Quiet.setTurns_iff (s : State) (l : List Agent) : Quiet (s.setTurns l) ↔ Quiet s := Iff.rfl
@[simp] theorem Quiet.setPhase_iff (s : State) (p : Phase) : Quiet (s.setPhase p) ↔ Quiet s := Iff.rfl
@[simp] theorem Quiet.setHost_iff (s : State) (h : HostSide) : Quiet (s.setHost h) ↔ Quiet s := Iff.rfl
@[simp] theorem Quiet.setRegs_iff (s : State) (r : Regs) : Quiet (s.setRegs r) ↔ Quiet s := Iff.rfl

theorem Ready.fits {s : State} (h : Ready s) : Fits s := fits_of_regions h.regions

/-- Whatever keeps the parameters, the latched operands and the answers to come keeps a state ready. -/
theorem Ready.of_eq {s t : State} (h : Ready s) (hcfg : t.cfg = s.cfg) (hbus : t.bus = s.bus) (hsa : t.work.sa = s.work.sa)
    (hn : t.work.n = s.work.n) (hda : t.work.da = s.work.da) (hcap : t.work.cap = s.work.cap) (hwf : t.mem.wf) : Ready t where
  quiet := by simpa [Quiet, hcfg, hbus] using h.quiet
  regions := by simpa [Regions, regionsFit, regionsDisjoint, hcfg, hsa, hn, hda, hcap] using h.regions
  wf := hwf

/-- A ready state is ready after stores and after changes of the working registers that keep the operands. -/
theorem Ready.setMem {s : State} (h : Ready s) {m : Memory} (hm : m.wf) : Ready (s.setMem m) := ⟨h.quiet, h.regions, hm⟩

theorem Ready.setWork {s : State} (h : Ready s) {w : Work} (hsa : w.sa = s.work.sa) (hn : w.n = s.work.n)
    (hda : w.da = s.work.da) (hcap : w.cap = s.work.cap) : Ready (s.setWork w) :=
  h.of_eq rfl rfl hsa hn hda hcap h.wf

theorem Ready.setHt {s : State} (h : Ready s) (t : Table) : Ready (s.setHt t) := ⟨h.quiet, h.regions, h.wf⟩
theorem Ready.setDraws {s : State} (h : Ready s) (k : Nat) : Ready (s.setDraws k) := ⟨h.quiet, h.regions, h.wf⟩
theorem Ready.setTurns {s : State} (h : Ready s) (l : List Agent) : Ready (s.setTurns l) := ⟨h.quiet, h.regions, h.wf⟩
theorem Ready.setPhase {s : State} (h : Ready s) (p : Phase) : Ready (s.setPhase p) := ⟨h.quiet, h.regions, h.wf⟩
theorem Ready.setPoint {s : State} (h : Ready s) (p : Point) : Ready (s.setPoint p) := by
  unfold State.setPoint; split
  · exact h
  · exact h.setPhase _

/-- Destination bytes are no source bytes (R74, R85). -/
theorem Ready.apart {s : State} (h : Ready s) {i j : Nat} (hi : i < s.work.n) (hj : j < s.work.cap) :
    s.work.sa + i ≠ s.work.da + j := by
  have := (regionsDisjoint_iff _).mp h.regions.2
  omega

/-- A store into the destination leaves the source bytes (R85). -/
theorem Ready.src_writeList {s : State} (h : Ready s) {j pos k : Nat} (bs : List Byte) (hj : j + bs.length ≤ s.work.cap)
    (hp : pos + k ≤ s.work.n) :
    (s.mem.writeList (s.work.da + j) bs).readList (s.work.sa + pos) k = s.mem.readList (s.work.sa + pos) k := by
  refine Memory.readList_congr fun i hi => Memory.read_writeList_other _ _ ?_
  by_cases hb : bs.length = 0
  · omega
  · have := (regionsDisjoint_iff _).mp h.regions.2
    omega

end Safety

namespace Machine
open Safety

/-! ### Reads -/

theorem srcList_quiet {s : State} (h : Quiet s) (hf : s.work.sa + s.work.n ≤ s.cfg.addrSpace) {k pos : Nat} (hp : pos + k ≤ s.work.n) :
    srcList pos k s = .ok (s.mem.readList (s.work.sa + pos) k) s := by
  induction k generalizing pos with
  | zero => rfl
  | succ k ih =>
    rw [srcList, srcByte_quiet h hf (by omega), Res.bind_ok, ih (by omega), Memory.readList_succ]
    rfl

theorem srcWindow_quiet {s : State} (h : Quiet s) (hf : s.work.sa + s.work.n ≤ s.cfg.addrSpace) {p : Nat} (hp : p + 4 ≤ s.work.n) :
    srcWindow p s = .ok (window4 (s.mem.read (s.work.sa + p)) (s.mem.read (s.work.sa + (p + 1)))
      (s.mem.read (s.work.sa + (p + 2))) (s.mem.read (s.work.sa + (p + 3)))) s := by
  rw [srcWindow, srcByte_quiet h hf (by omega), Res.bind_ok, srcByte_quiet h hf (by omega), Res.bind_ok,
    srcByte_quiet h hf (by omega), Res.bind_ok, srcByte_quiet h hf (by omega), Res.bind_ok]

theorem commonPrefix_quiet {s : State} (h : Quiet s) (hf : s.work.sa + s.work.n ≤ s.cfg.addrSpace) {a b r k : Nat}
    (ha : a + k + r ≤ s.work.n)
    (hb : b + k + r ≤ s.work.n) :
    commonPrefix a b r k s = .ok (tailPrefix (fun i => s.mem.read (s.work.sa + i)) a b r k) s := by
  induction r generalizing k with
  | zero => rfl
  | succ r ih =>
    rw [commonPrefix, srcByte_quiet h hf (by omega), Res.bind_ok, srcByte_quiet h hf (by omega), Res.bind_ok, tailPrefix]
    split
    · rw [ih (by omega) (by omega)]
    · rfl

/-! ### Writes -/

theorem putList_quiet {s : State} (h : Quiet s) (hf : Fits s) {bs : List Byte} (hb : s.work.op + bs.length ≤ s.work.cap) :
    putList bs s = .ok () ((s.setMem (s.mem.writeList (s.work.da + s.work.op) bs)).setOp (s.work.op + bs.length)) := by
  induction bs generalizing s with
  | nil => rfl
  | cons b t ih =>
    simp only [List.length_cons] at hb
    rw [putList, put, dstWrite_quiet h hf b (by omega), Res.bind_ok, Res.bind_ok, ih (by exact h) (by exact hf) (by simp; omega)]
    simp [Memory.writeList, State.setOp, State.setMem, State.setWork, Nat.add_assoc, Nat.add_comm 1]

theorem copySrc_quiet {s : State} (h : Ready s) {pos dst k : Nat} (hp : pos + k ≤ s.work.n) (hd : dst + k ≤ s.work.cap) :
    copySrc pos dst k s =
      .ok () (s.setMem (s.mem.writeList (s.work.da + dst) (s.mem.readList (s.work.sa + pos) k))) := by
  induction k generalizing s pos dst with
  | zero => rfl
  | succ k ih =>
    rw [copySrc, srcByte_quiet h.quiet h.fits.1 (by omega), Res.bind_ok, dstWrite_quiet h.quiet h.fits _ (by omega), Res.bind_ok,
      ih (h.setMem (Memory.wf_write h.wf _ _)) (by simp; omega) (by simp; omega)]
    have := h.src_writeList (j := dst) (pos := pos + 1) (k := k) [s.mem.read (s.work.sa + pos)] (by simp; omega) (by omega)
    simp only [Memory.writeList] at this
    simp [Memory.readList_succ, Memory.writeList, this, Nat.add_assoc]

theorem copyDst_quiet {s : State} (h : Quiet s) (hf : Fits s) {frm dst k : Nat} (hfd : frm < dst) (hd : dst + k ≤ s.work.cap) :
    copyDst frm dst k s = .ok () (s.setMem (s.mem.copyBytes (s.work.da + frm) (s.work.da + dst) k)) := by
  induction k generalizing s frm dst with
  | zero => rfl
  | succ k ih =>
    rw [copyDst, dstByte_quiet h hf hfd (by omega), Res.bind_ok, dstWrite_quiet h hf _ (by omega), Res.bind_ok,
      ih (by exact h) (by exact hf) (by omega) (by simp; omega)]
    simp [Memory.copyBytes, Nat.add_assoc]

/-! ### The byte copy on memory (R228, R229) -/

theorem Memory.wf_copyBytes {m : Memory} (h : m.wf) (frm dst k : Nat) : (m.copyBytes frm dst k).wf := by
  induction k generalizing m frm dst with
  | zero => exact h
  | succ k ih => exact ih (Memory.wf_write h _ _) _ _

theorem Memory.read_copyBytes_other (m : Memory) {frm dst k a : Nat} (h : a < dst ∨ dst + k ≤ a) :
    (m.copyBytes frm dst k).read a = m.read a := by
  induction k generalizing m frm dst with
  | zero => rfl
  | succ k ih =>
    rw [Memory.copyBytes, ih _ (by omega), Memory.read_write_other _ _ (by omega)]

/-- Each byte of a forward copy equals the byte `dst − frm` before it, as it stands after the copy (R228). -/
theorem Memory.read_copyBytes {m : Memory} (h : m.wf) {frm dst k i : Nat} (hfd : frm < dst) (hi : i < k) :
    (m.copyBytes frm dst k).read (dst + i) = (m.copyBytes frm dst k).read (frm + i) := by
  induction k generalizing m frm dst i with
  | zero => omega
  | succ k ih =>
    rw [Memory.copyBytes]
    cases i with
    | zero =>
      simp only [Nat.add_zero]
      rw [Memory.read_copyBytes_other _ (by omega), Memory.read_write_same h, Memory.read_copyBytes_other _ (by omega), Memory.read_write_other _ _ (by omega)]
    | succ i =>
      have := ih (Memory.wf_write h dst (m.read frm)) (frm := frm + 1) (dst := dst + 1) (i := i) (by omega) (by omega)
      rwa [Nat.add_right_comm, Nat.add_right_comm frm] at this

/-- A forward copy repeats the bytes before it with the period of its distance (R229). -/
theorem Memory.read_copyBytes_periodic {m : Memory} (h : m.wf) {frm o k i : Nat} (ho : 0 < o) (hi : i < k) :
    (m.copyBytes frm (frm + o) k).read (frm + o + i) = m.read (frm + i % o) := by
  induction i using Nat.strong_induction_on with
  | _ i ih =>
    rw [Memory.read_copyBytes h (by omega) hi]
    by_cases hio : i < o
    · rw [Memory.read_copyBytes_other _ (by omega), Nat.mod_eq_of_lt hio]
    · have := ih (i - o) (by omega) (by omega)
      rw [show frm + i = frm + o + (i - o) by omega, this, Nat.mod_eq_sub_mod (by omega : i ≥ o)]

end Machine
end Sys2Proof
end

