-- ==== Sys2Proof/Laws/Encoding.lean ====
section
/-! SUPPORT. The encodings: little-endian fields, token nibbles, lengths and their extensions (R93 to R98), elements (R92, R103). -/
namespace Sys2Proof

/-! ### Little-endian fields -/

@[simp] theorem length_leBytes (k v : Nat) : (leBytes k v).length = k := by
  induction k generalizing v with
  | zero => rfl
  | succ k ih => simp [leBytes, ih]

theorem leVal_leBytes (k v : Nat) : leVal (leBytes k v) = v % 2 ^ (8 * k) := by
  induction k generalizing v with
  | zero => simp [leBytes, leVal, Nat.mod_one]
  | succ k ih =>
    rw [leBytes, leVal, ih, BitVec.toNat_ofNat, Nat.mul_succ, Nat.pow_add, Nat.mul_comm (2 ^ (8 * k)), Nat.mod_mul]

theorem leVal_lt (bs : List Byte) : leVal bs < 2 ^ (8 * bs.length) := by
  induction bs with
  | nil => simp [leVal]
  | cons b t ih =>
    have := b.isLt
    rw [leVal, List.length_cons, Nat.mul_succ, Nat.pow_add]
    omega

theorem leBytes_leVal (bs : List Byte) : leBytes bs.length (leVal bs) = bs := by
  induction bs with
  | nil => rfl
  | cons b t ih =>
    have := b.isLt
    rw [List.length_cons, leBytes, leVal, show (b.toNat + 256 * leVal t) / 256 = leVal t by omega, ih]
    congr 1
    exact BitVec.eq_of_toNat_eq (by rw [BitVec.toNat_ofNat]; omega)

theorem takeField_append {k : Nat} {bs : List Byte} (h : bs.length = k) (rest : List Byte) :
    takeField k (bs ++ rest) = some (leVal bs, rest) := by
  subst h
  simp [takeField]

theorem takeField_eq_some {k : Nat} {bs : List Byte} {v : Nat} {rest : List Byte} (h : takeField k bs = some (v, rest)) :
    bs = leBytes k v ++ rest ∧ v < 2 ^ (8 * k) := by
  unfold takeField at h
  split at h
  · cases h
  · next hk =>
    have hl : (bs.take k).length = k := by simp; omega
    have h1 := leBytes_leVal (bs.take k)
    have h2 := leVal_lt (bs.take k)
    rw [hl] at h1 h2
    simp only [Option.some.injEq, Prod.mk.injEq] at h
    rw [← h.1, ← h.2, h1, List.take_append_drop]
    exact ⟨rfl, h2⟩

/-! ### Tokens (R93) -/

theorem tokenLit_tokenByte (l m : BitVec 4) : tokenLit (tokenByte l m) = l := by
  revert l m; decide

theorem tokenMatch_tokenByte (l m : BitVec 4) : tokenMatch (tokenByte l m) = m := by
  revert l m; decide

theorem tokenByte_nibbles (t : Byte) : tokenByte (tokenLit t) (tokenMatch t) = t := by
  revert t; decide

/-! ### Lengths (R94 to R98) -/

theorem lenNibble_of_lt {v : Nat} (h : v < 15) : (lenNibble v).toNat = v := by
  rw [lenNibble, BitVec.toNat_ofNat, Nat.min_eq_left (by omega)]; omega

theorem lenNibble_of_le {v : Nat} (h : 15 ≤ v) : lenNibble v = 15#4 := by
  rw [lenNibble, Nat.min_eq_right h]

theorem lenNibble_eq_fifteen {v : Nat} : lenNibble v = 15#4 ↔ 15 ≤ v := by
  refine ⟨fun h => ?_, lenNibble_of_le⟩
  by_contra hv
  have := lenNibble_of_lt (v := v) (by omega)
  rw [h] at this
  simp at this; omega

theorem lenNibble_toNat {nib : BitVec 4} (h : nib ≠ 15#4) : lenNibble nib.toNat = nib ∧ nib.toNat < 15 := by
  revert nib; decide

theorem length_extBytes (v : Nat) : (extBytes v).length = v / 255 + 1 := by simp [extBytes]

theorem length_lenExt (v : Nat) : (lenExt v).length = extLength v := by
  unfold lenExt extLength
  split <;> split
  · omega
  · rw [length_extBytes]
  · rfl
  · omega

theorem parseExt_extBytes (v base : Nat) (rest : List Byte) : parseExt (extBytes v ++ rest) base = some (base + v, rest) := by
  have step : ∀ k base, parseExt (List.replicate k 0xFF#8 ++ (BitVec.ofNat 8 (v % 255) :: rest)) base
      = some (base + 255 * k + v % 255, rest) := by
    intro k
    induction k with
    | zero =>
      intro base
      have hb : (BitVec.ofNat 8 (v % 255)).toNat = v % 255 := by rw [BitVec.toNat_ofNat]; omega
      have hne : BitVec.ofNat 8 (v % 255) ≠ 0xFF#8 := fun h => by rw [h] at hb; simp at hb; omega
      rw [List.replicate_zero, List.nil_append, parseExt, if_neg hne, hb, Nat.mul_zero, Nat.add_zero]
    | succ k ih =>
      intro base
      rw [List.replicate_succ, List.cons_append, parseExt, if_pos rfl, ih]
      congr 2; omega
  rw [extBytes, List.append_assoc, List.singleton_append, step]
  congr 2; omega

theorem parseExt_eq_some {bs : List Byte} {base v : Nat} {rest : List Byte} (h : parseExt bs base = some (v, rest)) :
    base ≤ v ∧ bs = extBytes (v - base) ++ rest := by
  induction bs generalizing base with
  | nil => cases h
  | cons b t ih =>
    rw [parseExt] at h
    split at h
    · next hb =>
      obtain ⟨h1, h2⟩ := ih h
      refine ⟨by omega, ?_⟩
      rw [hb, h2, extBytes, extBytes, show (v - base) / 255 = (v - (base + 255)) / 255 + 1 by omega,
        show (v - base) % 255 = (v - (base + 255)) % 255 by omega]
      rfl
    · next hb =>
      simp only [Option.some.injEq, Prod.mk.injEq] at h
      have hlt : b.toNat < 255 := by
        have := b.isLt
        have : b.toNat ≠ 255 := fun h => hb (BitVec.eq_of_toNat_eq (by simpa using h))
        omega
      refine ⟨by omega, ?_⟩
      rw [← h.1, ← h.2, extBytes, show base + b.toNat - base = b.toNat by omega, Nat.div_eq_of_lt hlt, Nat.mod_eq_of_lt hlt]
      simp

/-- A length is read back from its encoding (R98). -/
theorem parseLen_lenExt (v : Nat) (rest : List Byte) : parseLen (lenNibble v) (lenExt v ++ rest) = some (v, rest) := by
  unfold parseLen lenExt
  by_cases h : 15 ≤ v
  · rw [if_pos (lenNibble_of_le h), if_pos h, parseExt_extBytes]
    congr 2; omega
  · rw [if_neg (mt lenNibble_eq_fifteen.mp h), if_neg h, lenNibble_of_lt (by omega)]
    rfl

/-- A length has no other encoding (R98). -/
theorem parseLen_eq_some {nib : BitVec 4} {bs : List Byte} {v : Nat} {rest : List Byte}
    (h : parseLen nib bs = some (v, rest)) : nib = lenNibble v ∧ bs = lenExt v ++ rest := by
  unfold parseLen at h
  split at h
  · next hn =>
    obtain ⟨h1, h2⟩ := parseExt_eq_some h
    exact ⟨by rw [hn, lenNibble_of_le h1], by rw [lenExt, if_pos h1, h2]⟩
  · next hn =>
    simp only [Option.some.injEq, Prod.mk.injEq] at h
    obtain ⟨h1, h2⟩ := lenNibble_toNat hn
    rw [← h.1, h1, lenExt, if_neg (by omega), ← h.2]
    exact ⟨rfl, rfl⟩

/-! ### Elements (R92, R103) -/

theorem leBytes_two (o : BitVec 16) : leBytes 2 o.toNat = [BitVec.ofNat 8 o.toNat, BitVec.ofNat 8 (o.toNat / 256)] := rfl

theorem ofNat_leVal_two (o : BitVec 16) :
    BitVec.ofNat 16 (leVal [BitVec.ofNat 8 o.toNat, BitVec.ofNat 8 (o.toNat / 256)]) = o := by
  rw [← leBytes_two, leVal_leBytes, Nat.mod_eq_of_lt (by have := o.isLt; omega)]
  exact BitVec.ofNat_toNat 16 o |>.trans (BitVec.setWidth_eq o)

theorem length_encodeSeq (lits : List Byte) (o : BitVec 16) (len : Nat) :
    (encodeSeq lits o len).length = 1 + extLength lits.length + lits.length + 2 + extLength (len - Config.minMatch) := by
  simp [encodeSeq, length_lenExt]; omega

theorem length_encodeLast (lits : List Byte) : (encodeLast lits).length = 1 + extLength lits.length + lits.length := by
  simp [encodeLast, length_lenExt]; omega

theorem decodeElement_encodeSeq (lits : List Byte) (o : BitVec 16) {len : Nat} (h : Config.minMatch ≤ len) (rest : List Byte) :
    decodeElement (encodeSeq lits o len ++ rest) = .instr (.seq lits o len) rest := by
  simp only [encodeSeq, List.cons_append, List.append_assoc, decodeElement, tokenLit_tokenByte, parseLen_lenExt,
    tokenMatch_tokenByte]
  rw [if_neg (by simp), List.drop_left, List.take_left]
  simp only [leBytes_two, List.cons_append, List.nil_append, parseLen_lenExt, ofNat_leVal_two]
  rw [Nat.add_sub_cancel' h]

theorem decodeElement_last (lits : List Byte) (m : BitVec 4) :
    decodeElement (tokenByte (lenNibble lits.length) m :: lenExt lits.length ++ lits) = .instr (.last lits) [] := by
  simp [decodeElement, tokenLit_tokenByte, parseLen_lenExt]

theorem decodeElement_encodeLast (lits : List Byte) : decodeElement (encodeLast lits) = .instr (.last lits) [] :=
  decodeElement_last lits 0#4

/-- What an element that decodes looks like, byte by byte (R92, R98, R100). -/
theorem decodeElement_eq_instr {bs : List Byte} {i : Instr} {rest : List Byte} (h : decodeElement bs = .instr i rest) :
    (∃ lits o len, i = .seq lits o len ∧ Config.minMatch ≤ len ∧ bs = encodeSeq lits o len ++ rest) ∨
      (∃ lits m, i = .last lits ∧ rest = [] ∧ bs = tokenByte (lenNibble lits.length) m :: lenExt lits.length ++ lits) := by
  cases bs with
  | nil => cases h
  | cons t r =>
    rw [decodeElement] at h
    split at h
    · cases h
    · next ll r1 hl =>
      obtain ⟨hl1, hl2⟩ := parseLen_eq_some hl
      split at h
      · cases h
      · next hlen =>
        have htake : (r1.take ll).length = ll := by simp; omega
        split at h
        · next hd =>
          cases h
          refine .inr ⟨r1.take ll, tokenMatch t, rfl, rfl, ?_⟩
          rw [htake, ← hl1, tokenByte_nibbles, hl2, ← List.take_append_drop ll r1, hd]
          simp
        · cases h
        · next lo hi r3 hd =>
          split at h
          · cases h
          · next m r4 hm =>
            cases h
            obtain ⟨hm1, hm2⟩ := parseLen_eq_some hm
            refine .inl ⟨_, _, _, rfl, by simp [Config.minMatch], ?_⟩
            have hb : leBytes 2 (BitVec.ofNat 16 (leVal [lo, hi])).toNat = [lo, hi] := by
              have h1 := leBytes_leVal [lo, hi]
              have h2 := leVal_lt [lo, hi]
              rw [BitVec.toNat_ofNat, Nat.mod_eq_of_lt (by exact h2)]
              exact h1
            rw [encodeSeq, htake, ← hl1, Nat.add_sub_cancel_left, ← hm1, tokenByte_nibbles, hb, hl2]
            conv_lhs => rw [← List.take_append_drop ll r1, hd, hm2]
            simp

/-! ### Blocks (R92) -/

/-- The terms a block is made of: match sequences, then at most one final sequence, which ends it. -/
def BlockElements : List Instr → Prop
  | [] => True
  | [.last _] => True
  | .seq _ _ len :: t => Config.minMatch ≤ len ∧ BlockElements t
  | _ => False

theorem encodeElements_seq (lits : List Byte) (o : BitVec 16) (len : Nat) (t : List Instr) :
    encodeElements (.seq lits o len :: t) = encodeSeq lits o len ++ encodeElements t := rfl

theorem encodeElements_last (lits : List Byte) : encodeElements [.last lits] = encodeLast lits := by
  simp [encodeElements, encode]

theorem encodeElements_append (l m : List Instr) : encodeElements (l ++ m) = encodeElements l ++ encodeElements m := by
  induction l with
  | nil => rfl
  | cons i t ih => rw [List.cons_append, encodeElements, encodeElements, ih, List.append_assoc]

theorem parseElements_encode {l : List Instr} (h : BlockElements l) {fuel : Nat} (hf : (encodeElements l).length ≤ fuel) :
    parseElements fuel (encodeElements l) = some l := by
  induction l generalizing fuel with
  | nil => simp [encodeElements, parseElements]
  | cons i t ih =>
    match i, t, h with
    | .last lits, [], _ =>
      rw [encodeElements_last] at hf ⊢
      have hl := length_encodeLast lits
      cases fuel with
      | zero => omega
      | succ fuel =>
        cases hc : encodeLast lits with
        | nil => simp [hc] at hl; omega
        | cons b r =>
          rw [parseElements, ← hc, decodeElement_encodeLast]
          simp [parseElements]
    | .seq lits o len, t, h =>
      rw [encodeElements_seq] at hf ⊢
      have hl := length_encodeSeq lits o len
      rw [List.length_append] at hf
      cases fuel with
      | zero => omega
      | succ fuel =>
        cases hc : encodeSeq lits o len ++ encodeElements t with
        | nil => rw [(List.append_eq_nil_iff.mp hc).1, List.length_nil] at hl; omega
        | cons b r =>
          rw [parseElements, ← hc, decodeElement_encodeSeq lits o h.1]
          simp only
          rw [ih h.2 (by omega)]
          rfl

theorem parseBlock_encode {l : List Instr} (h : BlockElements l) : parseBlock (encodeElements l) = some l :=
  parseElements_encode h (Nat.le_refl _)

theorem parseElements_blockElements {fuel : Nat} {bs : List Byte} {l : List Instr} (h : parseElements fuel bs = some l) :
    BlockElements l := by
  induction fuel generalizing bs l with
  | zero => cases bs <;> simp [parseElements] at h; subst h; trivial
  | succ fuel ih =>
    cases bs with
    | nil => simp [parseElements] at h; subst h; trivial
    | cons b r =>
      rw [parseElements] at h
      split at h
      · cases h
      · next i rest hd =>
        obtain ⟨t, ht, rfl⟩ := Option.map_eq_some_iff.mp h
        rcases decodeElement_eq_instr hd with ⟨lits, o, len, rfl, hlen, -⟩ | ⟨lits, m, rfl, rfl, -⟩
        · exact ⟨hlen, ih ht⟩
        · cases fuel <;> simp [parseElements] at ht <;> subst ht <;> trivial

/-- The token byte of two lengths as a number (R93, R176). -/
theorem tokenByte_lenNibble (l m : Nat) :
    tokenByte (lenNibble l) (lenNibble m) = BitVec.ofNat 8 (16 * min l 15 + min m 15) := by
  have h1 : min l 15 < 16 := by omega
  have h2 : min m 15 < 16 := by omega
  unfold lenNibble
  generalize min l 15 = x at *
  generalize min m 15 = y at *
  apply BitVec.eq_of_toNat_eq
  unfold tokenByte
  rw [BitVec.toNat_append, BitVec.toNat_ofNat, BitVec.toNat_ofNat, BitVec.toNat_ofNat,
    ← Nat.shiftLeft_add_eq_or_of_lt (by omega), Nat.shiftLeft_eq]
  omega

end Sys2Proof
end

