-- ==== Sys2Proof/Laws/Units.lean ====
section
/-! SUPPORT. The units when no bus error is coming: the copies, the encoder, the match finder and the extender, one equation each. -/
namespace Sys2Proof
namespace Machine
open Safety

/-! ### Copies (R225, R226, R228) -/

theorem copyLiteralsR_quiet {s : State} (h : Ready s) {pos l : Nat} (hp : pos + l ≤ s.work.n) (hd : s.work.op + l ≤ s.work.cap) :
    copyLiteralsR pos l s =
      .ok () ((s.setMem (s.mem.writeList (s.work.da + s.work.op) (srcBytes s pos l))).setOp (s.work.op + l)) := by
  rw [copyLiteralsR, copySrc_quiet h hp hd]
  rfl

theorem copyLiteralsDecR_quiet {s : State} (h : Ready s) {l : Nat} (hp : s.work.ip + l ≤ s.work.n)
    (hd : s.work.op + l ≤ s.work.cap) :
    copyLiteralsDecR l s =
      .ok () ((s.setMem (s.mem.writeList (s.work.da + s.work.op) (srcBytes s s.work.ip l))).setWork
        { s.work with ip := s.work.ip + l, op := s.work.op + l }) := by
  rw [copyLiteralsDecR, copySrc_quiet h hp hd]
  rfl

theorem copyMatchR_quiet {s : State} (h : Quiet s) (hf : Fits s) {o : BitVec 16} {l : Nat} (ho : o ≠ 0#16)
    (hop : o.toNat ≤ s.work.op) (hd : s.work.op + l ≤ s.work.cap) :
    copyMatchR o l s =
      .ok () ((s.setMem (s.mem.copyBytes (s.work.da + (s.work.op - o.toNat)) (s.work.da + s.work.op) l)).setOp
        (s.work.op + l)) := by
  have ho' : o.toNat ≠ 0 := fun e => ho (BitVec.eq_of_toNat_eq (by simpa using e))
  rw [copyMatchR, if_pos hop, copyDst_quiet h hf (by omega) hd]
  rfl

/-! ### The encoder (R176 to R184) -/

theorem writeLenExt_quiet {s : State} (h : Quiet s) (hf : Fits s) {v : Nat} (hb : s.work.op + extLength v ≤ s.work.cap) :
    writeLenExt v s =
      .ok () ((s.setMem (s.mem.writeList (s.work.da + s.work.op) (lenExt v))).setOp (s.work.op + extLength v)) := by
  rw [← length_lenExt] at hb ⊢
  unfold writeLenExt lenExt at *
  split
  · next hv =>
    rw [if_pos hv] at hb
    exact putList_quiet h hf hb
  · rfl

/-- A store at `op` that moves `op` past it, as one change of state. -/
def State.stored (s : State) (bs : List Byte) : State :=
  (s.setMem (s.mem.writeList (s.work.da + s.work.op) bs)).setOp (s.work.op + bs.length)

theorem State.stored_stored (s : State) (xs ys : List Byte) : (s.stored xs).stored ys = s.stored (xs ++ ys) := by
  simp [State.stored, State.setMem, State.setOp, State.setWork, Memory.writeList_append, Nat.add_assoc]

@[simp] theorem State.stored_work (s : State) (bs : List Byte) :
    (s.stored bs).work = { s.work with op := s.work.op + bs.length } := rfl
@[simp] theorem State.stored_mem (s : State) (bs : List Byte) :
    (s.stored bs).mem = s.mem.writeList (s.work.da + s.work.op) bs := rfl
@[simp] theorem State.stored_ht (s : State) (bs : List Byte) : (s.stored bs).ht = s.ht := rfl
@[simp] theorem State.stored_cfg (s : State) (bs : List Byte) : (s.stored bs).cfg = s.cfg := rfl
@[simp] theorem State.stored_draws (s : State) (bs : List Byte) : (s.stored bs).draws = s.draws := rfl

theorem stored_ready {s : State} (h : Ready s) (bs : List Byte) : Ready (s.stored bs) :=
  h.of_eq rfl rfl rfl rfl rfl rfl (Memory.wf_writeList h.wf _ _)

theorem srcBytes_stored {s : State} (h : Ready s) {pos k : Nat} {bs : List Byte} (hb : s.work.op + bs.length ≤ s.work.cap)
    (hp : pos + k ≤ s.work.n) : srcBytes (s.stored bs) pos k = srcBytes s pos k :=
  h.src_writeList bs hb hp

theorem putList_stored {s : State} (h : Ready s) {bs : List Byte} (hb : s.work.op + bs.length ≤ s.work.cap) :
    putList bs s = .ok () (s.stored bs) := putList_quiet h.quiet h.fits hb

theorem put_stored {s : State} (h : Ready s) {b : Byte} (hb : s.work.op + 1 ≤ s.work.cap) : put b s = .ok () (s.stored [b]) := by
  have := putList_stored h (bs := [b]) hb
  rw [putList] at this
  revert this
  cases put b s <;> simp [putList]

theorem writeLenExt_stored {s : State} (h : Ready s) {v : Nat} (hb : s.work.op + (lenExt v).length ≤ s.work.cap) :
    writeLenExt v s = .ok () (s.stored (lenExt v)) := by
  rw [State.stored, length_lenExt]
  exact writeLenExt_quiet h.quiet h.fits (by rwa [← length_lenExt])

theorem copyLiteralsR_stored {s : State} (h : Ready s) {pos l : Nat} (hp : pos + l ≤ s.work.n)
    (hd : s.work.op + l ≤ s.work.cap) : copyLiteralsR pos l s = .ok () (s.stored (srcBytes s pos l)) := by
  rw [copyLiteralsR_quiet h hp hd, State.stored, show (srcBytes s pos l).length = l from Memory.length_readList _ _ _]

theorem setToken_ready {s : State} (h : Ready s) (t : Byte) : Ready (s.setWork { s.work with token := t }) :=
  h.setWork rfl rfl rfl rfl

theorem emitSeqR_quiet {s : State} (h : Ready s) {pos ll : Nat} {o : BitVec 16} {lm : Nat} (hp : pos + ll ≤ s.work.n)
    (hd : s.work.op + (encodeSeq (srcBytes s pos ll) o lm).length ≤ s.work.cap) :
    emitSeqR pos ll o lm s =
      .ok () ((s.setWork { s.work with token := tokenByte (lenNibble ll) (lenNibble (lm - Config.minMatch)) }).stored
        (encodeSeq (srcBytes s pos ll) o lm)) := by
  have hlen : (srcBytes s pos ll).length = ll := Memory.length_readList _ _ _
  simp only [encodeSeq, hlen, List.length_append, List.length_cons] at hd
  have h1 := setToken_ready h (tokenByte (lenNibble ll) (lenNibble (lm - Config.minMatch)))
  have hs : ∀ bs : List Byte, s.work.op + bs.length ≤ s.work.cap → ∀ t,
      srcBytes ((s.setWork { s.work with token := t }).stored bs) pos ll = srcBytes s pos ll := fun bs hb t =>
    srcBytes_stored (setToken_ready h t) (by simpa using hb) (by simpa using hp)
  rw [emitSeqR, put_stored h1 (by simp; omega), Res.bind_ok, writeLenExt_stored (stored_ready h1 _) (by simp; omega),
    Res.bind_ok, State.stored_stored, copyLiteralsR_stored (stored_ready h1 _) (by simpa using hp) (by simp; omega), Res.bind_ok,
    hs _ (by simp; omega), State.stored_stored,
    putList_stored (stored_ready h1 _) (by simp [hlen] at hd ⊢; omega), Res.bind_ok, State.stored_stored,
    writeLenExt_stored (stored_ready h1 _) (by simp [hlen] at hd ⊢; omega), State.stored_stored, encodeSeq, hlen]
  simp

theorem emitLastR_quiet {s : State} (h : Ready s) {pos ll : Nat} (hp : pos + ll ≤ s.work.n)
    (hd : s.work.op + (encodeLast (srcBytes s pos ll)).length ≤ s.work.cap) :
    emitLastR pos ll s =
      .ok () ((s.setWork { s.work with token := tokenByte (lenNibble ll) 0#4 }).stored (encodeLast (srcBytes s pos ll))) := by
  have hlen : (srcBytes s pos ll).length = ll := Memory.length_readList _ _ _
  simp only [encodeLast, hlen, List.length_append, List.length_cons] at hd
  have h1 := setToken_ready h (tokenByte (lenNibble ll) 0#4)
  rw [emitLastR, put_stored h1 (by simp; omega), Res.bind_ok, writeLenExt_stored (stored_ready h1 _) (by simp; omega),
    Res.bind_ok, State.stored_stored, copyLiteralsR_stored (stored_ready h1 _) (by simpa using hp) (by simp; omega),
    srcBytes_stored h1 (by simp; omega) (by simpa using hp), State.stored_stored]
  show Res.ok () (State.stored _ ([tokenByte (lenNibble ll) 0#4] ++ lenExt ll ++ srcBytes s pos ll)) = _
  rw [encodeLast, hlen]
  simp

/-! ### The match finder and the extender (R140, R155) -/

/-- The window at a source position (R76). -/
def srcWindowAt (s : State) (p : Nat) : BitVec 32 :=
  window4 (s.mem.read (s.work.sa + p)) (s.mem.read (s.work.sa + (p + 1))) (s.mem.read (s.work.sa + (p + 2)))
    (s.mem.read (s.work.sa + (p + 3)))

/-- A window is its four bytes, little-endian (R76). -/
theorem toNat_window4 (a b c d : Byte) :
    (window4 a b c d).toNat = a.toNat + 2 ^ 8 * b.toNat + 2 ^ 16 * c.toNat + 2 ^ 24 * d.toNat := by
  have ha := a.isLt
  have hb := b.isLt
  have hc := c.isLt
  simp only [window4, BitVec.toNat_append]
  rw [← Nat.shiftLeft_add_eq_or_of_lt hc, ← Nat.shiftLeft_add_eq_or_of_lt hb, ← Nat.shiftLeft_add_eq_or_of_lt ha]
  simp only [Nat.shiftLeft_eq]
  omega

/-- Two windows are one value exactly when their four bytes agree (R76). -/
theorem window4_inj {a b c d a' b' c' d' : Byte} : window4 a b c d = window4 a' b' c' d' ↔ a = a' ∧ b = b' ∧ c = c' ∧ d = d' := by
  refine ⟨fun h => ?_, fun ⟨h1, h2, h3, h4⟩ => by rw [h1, h2, h3, h4]⟩
  have h := congrArg BitVec.toNat h
  simp only [toNat_window4] at h
  have := a.isLt; have := b.isLt; have := c.isLt; have := a'.isLt; have := b'.isLt; have := c'.isLt
  exact ⟨BitVec.eq_of_toNat_eq (by omega), BitVec.eq_of_toNat_eq (by omega), BitVec.eq_of_toNat_eq (by omega),
    BitVec.eq_of_toNat_eq (by omega)⟩

/-- FIND's verdict on the slot it read (R143). -/
def acceptsAt (s : State) (p : Nat) : Bool :=
  let ref := s.ht.get (hash4 (srcWindowAt s p))
  decide (ref ≠ 0) && decide (p - ref ≤ Config.maxOffset) && (srcWindowAt s ref == srcWindowAt s p)

theorem findR_quiet {s : State} (h : Quiet s) (hf : s.work.sa + s.work.n ≤ s.cfg.addrSpace) {p : Nat}
    (hp : p + 4 ≤ s.work.n)
    (hr : s.ht.get (hash4 (srcWindowAt s p)) + 4 ≤ s.work.n ∨ s.ht.get (hash4 (srcWindowAt s p)) = 0) :
    findR p s = .ok () ((s.setHt (s.ht.set (hash4 (srcWindowAt s p)) p)).setWork { s.work with
      seq4 := srcWindowAt s p, h := hash4 (srcWindowAt s p), ref := s.ht.get (hash4 (srcWindowAt s p)),
      accept := acceptsAt s p }) := by
  rw [findR, srcWindow_quiet h hf hp, Res.bind_ok]
  change (if s.ht.get (hash4 (srcWindowAt s p)) = 0 ∨ Config.maxOffset < p - s.ht.get (hash4 (srcWindowAt s p)) then _ else _) = _
  by_cases hc : s.ht.get (hash4 (srcWindowAt s p)) = 0 ∨ Config.maxOffset < p - s.ht.get (hash4 (srcWindowAt s p))
  · have : acceptsAt s p = false := by
      unfold acceptsAt
      rcases hc with hc | hc
      · simp [hc]
      · simp [Nat.not_le.mpr hc]
    rw [if_pos hc, this]
    rfl
  · have h0 : s.ht.get (hash4 (srcWindowAt s p)) ≠ 0 := fun e => hc (.inl e)
    have h1 : p - s.ht.get (hash4 (srcWindowAt s p)) ≤ Config.maxOffset := Nat.not_lt.mp fun e => hc (.inr e)
    have : acceptsAt s p = (srcWindowAt s (s.ht.get (hash4 (srcWindowAt s p))) == srcWindowAt s p) := by
      simp [acceptsAt, h0, h1]
    rw [if_neg hc, this]
    show (srcWindow (s.ht.get (hash4 (srcWindowAt s p))) _).bind _ = _
    rw [srcWindow_quiet (by exact h) (by exact hf) (by exact hr.resolve_right h0)]
    rfl

/-- The hash as arithmetic (R141). -/
theorem toNat_hash4 (v : BitVec 32) : (hash4 v).toNat = v.toNat * 2654435761 % 2 ^ 32 / 2 ^ 16 := by
  have h : v.toNat * 2654435761 % 2 ^ 32 / 2 ^ 16 < 2 ^ 16 := Nat.div_lt_of_lt_mul (Nat.mod_lt _ (by decide))
  rw [hash4, BitVec.extractLsb'_toNat, BitVec.toNat_mul, Nat.shiftRight_eq_div_pow]
  exact Nat.mod_eq_of_lt h

theorem toNat_srcWindowAt (s : State) (p : Nat) :
    (srcWindowAt s p).toNat = (s.mem.read (s.work.sa + p)).toNat + 2 ^ 8 * (s.mem.read (s.work.sa + (p + 1))).toNat
      + 2 ^ 16 * (s.mem.read (s.work.sa + (p + 2))).toNat + 2 ^ 24 * (s.mem.read (s.work.sa + (p + 3))).toNat :=
  toNat_window4 _ _ _ _

/-- Two windows are equal when their four bytes are. -/
theorem srcWindowAt_eq_iff (s : State) (p q : Nat) : srcWindowAt s p = srcWindowAt s q ↔ srcBytes s p 4 = srcBytes s q 4 := by
  rw [srcWindowAt, srcWindowAt, window4_inj]
  simp [srcBytes, Memory.readList, List.range', Nat.add_assoc]

theorem acceptsAt_eq (s : State) (p : Nat) :
    acceptsAt s p = decide (s.ht.get (hash4 (srcWindowAt s p)) ≠ 0 ∧ p - s.ht.get (hash4 (srcWindowAt s p)) ≤ Config.maxOffset ∧
      srcBytes s (s.ht.get (hash4 (srcWindowAt s p))) 4 = srcBytes s p 4) := by
  rw [Bool.eq_iff_iff]
  simp only [acceptsAt, Bool.and_eq_true, decide_eq_true_eq, beq_iff_eq, srcWindowAt_eq_iff, and_assoc]

/-- The common prefix grows to the first difference or the ceiling (R160). -/
theorem tailPrefix_spec (f : Nat → Byte) (a b r k : Nat) :
    k ≤ tailPrefix f a b r k ∧ tailPrefix f a b r k ≤ k + r ∧ (∀ i, k ≤ i → i < tailPrefix f a b r k → f (a + i) = f (b + i)) ∧
      (tailPrefix f a b r k = k + r ∨ f (a + tailPrefix f a b r k) ≠ f (b + tailPrefix f a b r k)) := by
  induction r generalizing k with
  | zero => exact ⟨Nat.le_refl _, Nat.le_refl _, fun i h1 h2 => absurd h2 (by simpa [tailPrefix] using h1), .inl rfl⟩
  | succ r ih =>
    rw [tailPrefix]
    split
    · next he =>
      obtain ⟨h1, h2, h3, h4⟩ := ih (k + 1)
      refine ⟨by omega, by omega, fun i hi hi' => ?_, h4.imp (fun h => by omega) id⟩
      rcases Nat.eq_or_lt_of_le hi with rfl | hlt
      · exact he
      · exact h3 i hlt hi'
    · next he => exact ⟨Nat.le_refl _, by omega, fun i h1 h2 => by omega, .inr he⟩

/-- The length EXTEND returns. -/
def extendLen (s : State) (a b max : Nat) : Nat :=
  tailPrefix (fun i => s.mem.read (s.work.sa + i)) a b (extendLimit s.work.n a b max) 0

theorem extendR_quiet {s : State} (h : Quiet s) (hf : s.work.sa + s.work.n ≤ s.cfg.addrSpace) (a b max : Nat) :
    extendR a b max s = .ok () (s.setRet (extendLen s a b max)) := by
  unfold extendR extendLen
  by_cases h0 : extendLimit s.work.n a b max = 0
  · rw [h0]; rfl
  · rw [commonPrefix_quiet h hf (by unfold extendLimit at *; omega) (by unfold extendLimit at *; omega)]
    rfl

theorem extendLen_spec (s : State) (a b max : Nat) :
    extendLen s a b max ≤ extendLimit s.work.n a b max ∧
      (∀ i < extendLen s a b max, s.mem.read (s.work.sa + (a + i)) = s.mem.read (s.work.sa + (b + i))) ∧
      (extendLen s a b max = extendLimit s.work.n a b max ∨
        s.mem.read (s.work.sa + (a + extendLen s a b max)) ≠ s.mem.read (s.work.sa + (b + extendLen s a b max))) := by
  obtain ⟨-, h2, h3, h4⟩ := tailPrefix_spec (fun i => s.mem.read (s.work.sa + i)) a b (extendLimit s.work.n a b max) 0
  rw [Nat.zero_add] at h2 h4
  exact ⟨h2, fun i hi => h3 i (Nat.zero_le _) hi, h4⟩

end Machine
end Sys2Proof
end

