-- ==== Sys2Proof/Laws/DecodeLoop.lean ====
section
/-! SUPPORT. The block decompressor when no bus error is coming: lengths, the two parts of an iteration, and the whole loop over
the elements of a block (R195 to R213). -/
namespace Sys2Proof
namespace Machine
open Safety

theorem parseExt_length {bs : List Byte} {v w : Nat} {rest : List Byte} (h : parseExt bs v = some (w, rest)) :
    rest.length < bs.length := by
  obtain ⟨-, h⟩ := parseExt_eq_some h
  rw [h, List.length_append, length_extBytes]
  omega

theorem parseLen_length {nib : BitVec 4} {bs : List Byte} {w : Nat} {rest : List Byte} (h : parseLen nib bs = some (w, rest)) :
    rest.length ≤ bs.length := by
  rw [(parseLen_eq_some h).2, List.length_append]
  omega

theorem length_srcBytes (s : State) (pos len : Nat) : (srcBytes s pos len).length = len := Memory.length_readList _ _ _

theorem srcBytes_succ (s : State) (pos k : Nat) :
    srcBytes s pos (k + 1) = s.mem.read (s.work.sa + pos) :: srcBytes s (pos + 1) k :=
  Memory.readList_succ _ _ _

theorem srcBytes_append (s : State) (pos j k : Nat) : srcBytes s pos (j + k) = srcBytes s pos j ++ srcBytes s (pos + j) k := by
  rw [srcBytes, Memory.readList_append, Nat.add_assoc]; rfl

/-- A tail of the source bytes is the source bytes from its own position on. -/
theorem srcBytes_tail {s : State} {pos k : Nat} {xs rest : List Byte} (h : srcBytes s pos k = xs ++ rest) :
    rest = srcBytes s (pos + k - rest.length) rest.length ∧ xs = srcBytes s pos xs.length ∧ xs.length + rest.length = k := by
  have hl := congrArg List.length h
  rw [length_srcBytes, List.length_append] at hl
  rw [hl, srcBytes_append] at h
  obtain ⟨h1, h2⟩ := List.append_inj h (length_srcBytes _ _ _)
  exact ⟨by rw [show pos + k - rest.length = pos + xs.length by omega]; exact h2.symm, h1.symm, hl.symm⟩

/-! ### Lengths (R199) -/

theorem readExt_quiet {s : State} (h : Quiet s) (hf : s.work.sa + s.work.n ≤ s.cfg.addrSpace) {r v : Nat}
    (hr : s.work.ip + r = s.work.n) :
    readExt r v s =
      match parseExt (srcBytes s s.work.ip r) v with
      | some (w, rest) => .ok w (s.setIp (s.work.n - rest.length))
      | none => .raise .unexpectedEof (s.setIp s.work.n) := by
  induction r generalizing v s with
  | zero =>
    have : s.setIp s.work.n = s := by rw [← hr]; rfl
    simp only [readExt, srcBytes, Memory.readList, List.range'_zero, List.map_nil, parseExt, this]
  | succ r ih =>
    rw [readExt, srcByte_quiet h hf (by omega), Res.bind_ok, srcBytes_succ, parseExt]
    simp only
    split
    · next hb =>
      rw [ih (by exact h) (by exact hf) (by simp; omega), hb]
      have : srcBytes (s.setIp (s.work.ip + 1)) (s.setIp (s.work.ip + 1)).work.ip r = srcBytes s (s.work.ip + 1) r := rfl
      rw [this]
      rfl
    · simp only [length_srcBytes]
      rw [show s.work.n - r = s.work.ip + 1 by omega]

theorem readLen_quiet {s : State} (h : Quiet s) (hf : s.work.sa + s.work.n ≤ s.cfg.addrSpace) (nib : BitVec 4)
    (hi : s.work.ip ≤ s.work.n) :
    readLen nib s =
      match parseLen nib (srcBytes s s.work.ip (s.work.n - s.work.ip)) with
      | some (w, rest) => .ok w (s.setIp (s.work.n - rest.length))
      | none => .raise .unexpectedEof (s.setIp s.work.n) := by
  unfold readLen parseLen
  split
  · exact readExt_quiet h hf (by omega)
  · have : s.setIp (s.work.n - (srcBytes s s.work.ip (s.work.n - s.work.ip)).length) = s := by
      rw [length_srcBytes, show s.work.n - (s.work.n - s.work.ip) = s.work.ip by omega]
      rfl
    simp only [this]

/-! ### The two parts of an iteration -/

/-- The literal part, as one equation (R197 to R202). -/
theorem literalPart_quiet {s : State} (h : Ready s) {t : Byte} {bs : List Byte}
    (hb : srcBytes s s.work.ip (s.work.n - s.work.ip) = t :: bs) :
    literalPart s =
      match parseLen (tokenLit t) bs with
      | none => .raise .unexpectedEof (s.setWork { s.work with token := t, ip := s.work.n })
      | some (ll, r1) =>
        if r1.length < ll then
          .raise .unexpectedEof (s.setWork { s.work with token := t, ip := s.work.n - r1.length, litLen := ll })
        else if s.work.cap - s.work.op < ll then
          .raise .outputTooSmall (s.setWork { s.work with token := t, ip := s.work.n - r1.length, litLen := ll })
        else
          .ok () ((s.setMem (s.mem.writeList (s.work.da + s.work.op) (r1.take ll))).setWork
            { s.work with token := t, ip := s.work.n - r1.length + ll, litLen := ll, op := s.work.op + ll }) := by
  have hl := congrArg List.length hb
  rw [length_srcBytes, List.length_cons] at hl
  rw [show s.work.n - s.work.ip = (s.work.n - s.work.ip - 1) + 1 by omega, srcBytes_succ] at hb
  obtain ⟨ht, hb⟩ := List.cons.inj hb
  rw [literalPart, srcByte_quiet h.quiet h.fits.1 (by omega), Res.bind_ok, ht]
  have h1 : Ready (s.setWork { s.work with token := t, ip := s.work.ip + 1 }) := h.setWork rfl rfl rfl rfl
  rw [readLen_quiet h1.quiet h1.fits.1 _ (by simp; omega)]
  have hb' : srcBytes (s.setWork { s.work with token := t, ip := s.work.ip + 1 }) (s.work.ip + 1) (s.work.n - (s.work.ip + 1))
      = bs := hb
  simp only [State.setWork_work, hb']
  cases hp : parseLen (tokenLit t) bs with
  | none => rfl
  | some p =>
    obtain ⟨ll, r1⟩ := p
    have hr1 := parseLen_length hp
    obtain ⟨hsuf, -, -⟩ := srcBytes_tail (hb.trans (parseLen_eq_some hp).2)
    simp only [Res.bind_ok, State.setIp_work, State.setWork_work]
    by_cases hll : r1.length < ll
    · rw [if_pos hll]
      exact if_pos (show s.work.n - (s.work.n - r1.length) < ll by omega)
    · rw [if_neg hll]
      refine (if_neg (show ¬ s.work.n - (s.work.n - r1.length) < ll by omega)).trans ?_
      by_cases hcap : s.work.cap - s.work.op < ll
      · rw [if_pos hcap]
        exact if_pos hcap
      · rw [if_neg hcap]
        refine (if_neg hcap).trans ?_
        have h2 : Ready (((s.setWork { s.work with token := t, ip := s.work.ip + 1 }).setIp (s.work.n - r1.length)).setWork
            { s.work with token := t, ip := s.work.n - r1.length, litLen := ll }) := h.of_eq rfl rfl rfl rfl rfl rfl h.wf
        by_cases hz : ll = 0
        · subst hz
          rfl
        · have := copyLiteralsDecR_quiet h2 (l := ll) (by simp; omega) (by simp; omega)
          refine this.trans ?_
          have hbytes : srcBytes s (s.work.n - r1.length) ll = r1.take ll := by
            have hsuf' : r1 = srcBytes s (s.work.n - r1.length) r1.length := by
              rw [show s.work.n - r1.length = s.work.ip + 1 + (s.work.n - s.work.ip - 1) - r1.length by omega]
              exact hsuf
            have := srcBytes_append s (s.work.n - r1.length) ll (r1.length - ll)
            rw [show ll + (r1.length - ll) = r1.length by omega, ← hsuf'] at this
            conv_rhs => rw [this]
            rw [List.take_left' (length_srcBytes _ _ _)]
          show Res.ok () ((s.setMem (s.mem.writeList (s.work.da + s.work.op) (srcBytes s (s.work.n - r1.length) ll))).setWork _) = _
          rw [hbytes]
          rfl

/-- The match part, as one equation (R205 to R209). -/
theorem matchPart_quiet {s : State} (h : Ready s) (hi : s.work.ip ≤ s.work.n) :
    matchPart s =
      match srcBytes s s.work.ip (s.work.n - s.work.ip) with
      | lo :: hi :: r3 =>
        let o := BitVec.ofNat 16 (leVal [lo, hi])
        if o = 0#16 ∨ s.work.op < o.toNat then
          .raise .invalidData (s.setWork { s.work with offset := o, ip := s.work.ip + 2 })
        else
          match parseLen (tokenMatch s.work.token) r3 with
          | none => .raise .unexpectedEof (s.setWork { s.work with offset := o, ip := s.work.n })
          | some (m, rest) =>
            if s.work.cap - s.work.op < Config.minMatch + m then
              .raise .outputTooSmall
                (s.setWork { s.work with offset := o, ip := s.work.n - rest.length, matchLen := Config.minMatch + m })
            else
              .ok () ((s.setMem (s.mem.copyBytes (s.work.da + (s.work.op - o.toNat)) (s.work.da + s.work.op)
                (Config.minMatch + m))).setWork { s.work with
                  offset := o, ip := s.work.n - rest.length, matchLen := Config.minMatch + m,
                  op := s.work.op + (Config.minMatch + m) })
      | _ => .raise .unexpectedEof s := by
  unfold matchPart
  by_cases h2 : s.work.n - s.work.ip < 2
  · rw [if_pos h2]
    have hl := length_srcBytes s s.work.ip (s.work.n - s.work.ip)
    generalize srcBytes s s.work.ip (s.work.n - s.work.ip) = bs at hl
    match bs, hl with
    | [], _ => rfl
    | [_], _ => rfl
    | a :: b :: r, hl => simp at hl; omega
  · rw [if_neg h2, show s.work.n - s.work.ip = (s.work.n - s.work.ip - 2) + 1 + 1 by omega, srcBytes_succ, srcBytes_succ,
      srcByte_quiet h.quiet h.fits.1 (by omega), Res.bind_ok, srcByte_quiet h.quiet h.fits.1 (by omega), Res.bind_ok]
    simp only
    generalize BitVec.ofNat 16 (leVal [s.mem.read (s.work.sa + s.work.ip), s.mem.read (s.work.sa + (s.work.ip + 1))]) = o
    by_cases h0 : o = 0#16
    · rw [if_pos h0, if_pos (.inl h0)]
    · by_cases hop : s.work.op < o.toNat
      · rw [if_neg h0, if_pos (by exact hop), if_pos (.inr hop)]
      · rw [if_neg h0, if_neg (by exact hop), if_neg (by simp [h0, hop])]
        have h1 : Ready (s.setWork { s.work with offset := o, ip := s.work.ip + 2 }) := h.setWork rfl rfl rfl rfl
        rw [readLen_quiet h1.quiet h1.fits.1 _ (by simp; omega)]
        have hb : srcBytes (s.setWork { s.work with offset := o, ip := s.work.ip + 2 }) (s.work.ip + 2)
            (s.work.n - (s.work.ip + 2)) = srcBytes s (s.work.ip + 1 + 1) (s.work.n - s.work.ip - 2) := rfl
        simp only [State.setWork_work, hb]
        cases hp : parseLen (tokenMatch s.work.token) (srcBytes s (s.work.ip + 1 + 1) (s.work.n - s.work.ip - 2)) with
        | none => rfl
        | some p =>
          obtain ⟨m, rest⟩ := p
          simp only [Res.bind_ok, State.setIp_work, State.setWork_work]
          by_cases hcap : s.work.cap - s.work.op < Config.minMatch + m
          · rw [if_pos hcap]
            exact if_pos hcap
          · rw [if_neg hcap]
            refine (if_neg hcap).trans ?_
            have hm : 4 ≤ Config.minMatch + m := by unfold Config.minMatch; omega
            have h3 : Ready (((s.setWork { s.work with offset := o, ip := s.work.ip + 2 }).setIp (s.work.n - rest.length)).setWork
                { s.work with offset := o, ip := s.work.n - rest.length, matchLen := Config.minMatch + m }) :=
              h.of_eq rfl rfl rfl rfl rfl rfl h.wf
            refine (copyMatchR_quiet h3.quiet h3.fits h0 (by simpa using hop) ?_).trans rfl
            simp; omega

end Machine
end Sys2Proof
end

