-- ==== Sys2Proof/Laws/Blocks.lean ====
section
/-! SUPPORT. A block that parses and whose elements stand for an output is decoded to it (R195, R212, R213), and a tiling of an
input stands for that input (R182, R183, R186). -/
namespace Sys2Proof
namespace Safety
open Machine

theorem length_copyBack (out : List Byte) (o k : Nat) : (copyBack out o k).length = out.length + k := by
  induction k generalizing out with
  | zero => rfl
  | succ k ih => rw [copyBack, ih, List.length_append, List.length_singleton]; omega

theorem produce_length {out res : List Byte} {els : List Instr} (h : produce out els = some res) : out.length ≤ res.length := by
  induction els generalizing out with
  | nil => simp [produce] at h; rw [h]
  | cons i t ih =>
    match i, t with
    | .last lits, [] => simp [produce] at h; rw [← h]; simp
    | .seq lits o len, t =>
      rw [produce] at h
      split at h
      · cases h
      · have := ih h
        rw [length_copyBack, List.length_append] at this
        omega

/-- Copying back from a list that already holds what it repeats extends it by that much. -/
theorem copyBack_take {src : List Byte} {q o len : Nat} (ho : 1 ≤ o) (hoq : o ≤ q) (hq : q + len ≤ src.length)
    (h : ∀ i < len, src[q + i]? = src[q + i - o]?) : copyBack (src.take q) o len = src.take (q + len) := by
  induction len generalizing q with
  | zero => rfl
  | succ k ih =>
    have hlen : (src.take q).length = q := by rw [List.length_take]; omega
    have h0 := h 0 (by omega)
    rw [Nat.add_zero] at h0
    have hb : (src.take q).getD ((src.take q).length - o) 0 = src[q]'(by omega) := by
      rw [hlen, List.getD_eq_getElem?_getD, List.getElem?_take_of_lt (by omega), ← h0, List.getElem?_eq_getElem (by omega)]
      rfl
    rw [copyBack, hb, List.take_concat_get' src q (by omega), ih (by omega) (by omega) fun i hi => ?_, Nat.add_right_comm]
    · rfl
    · have := h (i + 1) (by omega)
      rwa [show q + (i + 1) = q + 1 + i by omega] at this

theorem produce_tiles {src : List Byte} {pos : Nat} {els : List Instr} (hp : pos ≤ src.length) (h : Tiles src pos els) :
    produce (src.take pos) els = some src := by
  induction els generalizing pos with
  | nil => exact h.elim
  | cons i t ih =>
    match i, t with
    | .last lits, [] =>
      rw [produce, show lits = src.drop pos from h, List.take_append_drop]
    | .seq lits o len, t =>
      obtain ⟨h1, h2, h3, h4, h5, h6, h7⟩ := h
      have hl : (src.take pos).length = pos := by rw [List.length_take]; omega
      have ho : o ≠ 0#16 := fun e => by rw [e] at h4; simp at h4
      rw [produce, if_neg (by rw [hl]; simp [ho]; omega)]
      have : src.take pos ++ lits = src.take (pos + lits.length) := by rw [List.take_add, ← h1]
      rw [this, copyBack_take h4 h5 (by omega) h6]
      exact ih (by omega) h7

end Safety

namespace Machine
open Safety

/-- The forward copy in memory is the copy back on the output (R228). -/
theorem readList_copyBytes {m : Memory} (h : m.wf) {da op o k : Nat} {out : List Byte} (hout : m.readList da op = out)
    (ho : 1 ≤ o) (hop : o ≤ op) : (m.copyBytes (da + (op - o)) (da + op) k).readList da (op + k) = copyBack out o k := by
  induction k generalizing m op out with
  | zero => exact hout
  | succ k ih =>
    have hl : out.length = op := by rw [← hout, Memory.length_readList]
    have hb : out.getD (out.length - o) 0 = m.read (da + (op - o)) := by
      rw [hl, ← hout, List.getD_eq_getElem?_getD, List.getElem?_eq_getElem (by simp; omega), Memory.getElem_readList]
      rfl
    rw [Memory.copyBytes, copyBack, hb, show da + (op - o) + 1 = da + (op + 1 - o) by omega, Nat.add_assoc da op 1,
      show op + (k + 1) = op + 1 + k by omega]
    refine ih (Memory.wf_write h _ _) ?_ (by omega)
    rw [Memory.readList_append, Memory.readList_succ, Memory.read_write_same h]
    rw [← hout]
    congr 1
    exact Memory.readList_congr fun i hi => Memory.read_write_other _ _ (by omega)

/-- From `s` the decoder reached `t`: output `out`, all input read, nothing else changed (R212). -/
structure Decoded (s t : State) (out : List Byte) : Prop where
  frame : t = { s with mem := t.mem, work := { s.work with
    ip := s.work.n, op := out.length, token := t.work.token, litLen := t.work.litLen, matchLen := t.work.matchLen,
    offset := t.work.offset } }
  bytes : dstBytes t 0 out.length = out
  other : ∀ a, a < s.work.da ∨ s.work.da + out.length ≤ a → t.mem.read a = s.mem.read a
  wf : t.mem.wf

/-- Changes of memory inside the destination leave the source bytes (R85). -/
theorem srcBytes_outside {s t : State} (h : Ready s) (hsa : t.work.sa = s.work.sa)
    (hm : ∀ a, ¬ InDest s a → t.mem.read a = s.mem.read a) {pos k : Nat} (hk : pos + k ≤ s.work.n) :
    srcBytes t pos k = srcBytes s pos k := by
  rw [srcBytes, srcBytes, hsa]
  refine Memory.readList_congr fun i hi => hm _ fun hd => ?_
  have := (regionsDisjoint_iff _).mp h.regions.2
  unfold InDest at hd
  omega

/-- From `s` the decoder stopped with an error at `t`: only decoder registers and destination bytes changed. -/
structure Stopped (s t : State) : Prop where
  frame : t = { s with mem := t.mem, work := { s.work with
    ip := t.work.ip, op := t.work.op, token := t.work.token, litLen := t.work.litLen, matchLen := t.work.matchLen,
    offset := t.work.offset } }
  other : ∀ a, ¬ InDest s a → t.mem.read a = s.mem.read a
  wf : t.mem.wf

/-- The engine's result is the end that the rules give (R195, R291). -/
def DecodesTo (s : State) (r : Res Unit) (d : DecodeEnd) : Prop :=
  match d with
  | .done out => out.length ≤ s.work.cap ∧ ∃ t, r = .ok () t ∧ Decoded s t out
  | .error e left made => ∃ t, r = .raise e t ∧ Stopped s t ∧ t.work.ip = s.work.n - left ∧ t.work.op = made

theorem Decoded.of_stop {s : State} (hi : s.work.ip = s.work.n) {out : List Byte} (hw : s.mem.wf)
    (hout : dstBytes s 0 s.work.op = out) : Decoded s s out := by
  have hl : out.length = s.work.op := by rw [← hout]; exact Memory.length_readList _ _ _
  exact ⟨by rw [hl, ← hi], by rw [hl, hout], fun _ _ => rfl, hw⟩

theorem decodeBytes_length {cap fuel : Nat} {bs out res : List Byte} (h : decodeBytes cap fuel bs out = .done res) :
    out.length ≤ res.length := by
  induction fuel generalizing bs out with
  | zero => cases h; exact Nat.le_refl _
  | succ fuel ih =>
    cases bs with
    | nil => cases h; exact Nat.le_refl _
    | cons t bs =>
      rw [decodeBytes] at h
      split at h
      · cases h
      · split at h
        · cases h
        · split at h
          · cases h
          · simp only at h
            split at h
            · cases h; simp
            · cases h
            · split at h
              · cases h
              · split at h
                · cases h
                · split at h
                  · cases h
                  · have := ih h
                    rw [length_copyBack, List.length_append] at this
                    omega

/-- One iteration before the rest of the decoding. -/
theorem DecodesTo.after {s s' : State} {r : Res Unit} {d : DecodeEnd} (h : DecodesTo s' r d)
    (hs : s' = { s with mem := s'.mem, work := { s.work with
      ip := s'.work.ip, op := s'.work.op, token := s'.work.token, litLen := s'.work.litLen, matchLen := s'.work.matchLen,
      offset := s'.work.offset } })
    (hin : ∀ a, ¬ InDest s a → s'.mem.read a = s.mem.read a)
    (hm : ∀ res, d = .done res → ∀ a, a < s.work.da ∨ s.work.da + res.length ≤ a → s'.mem.read a = s.mem.read a) :
    DecodesTo s r d := by
  have hda : s'.work.da = s.work.da := by rw [hs]
  have hcap : s'.work.cap = s.work.cap := by rw [hs]
  have hn : s'.work.n = s.work.n := by rw [hs]
  cases d with
  | done out =>
    obtain ⟨h0, t, h1, h2⟩ := h
    exact ⟨hcap ▸ h0, t, h1, by rw [h2.frame, hs], h2.bytes, fun a ha => by
      rw [h2.other a (by rwa [hda]), hm out rfl a ha], h2.wf⟩
  | error e left made =>
    obtain ⟨t, h1, h2, h3, h4⟩ := h
    exact ⟨t, h1, ⟨by rw [h2.frame, hs], fun a ha => by rw [h2.other a (by simpa [InDest, hda, hcap] using ha), hin a ha], h2.wf⟩,
      hn ▸ h3, h4⟩

/-- The decode loop does what R195 says, on every block. -/
theorem decodeLoop_quiet {s : State} (h : Ready s) {fuel : Nat} (hf : s.work.n - s.work.ip ≤ fuel) (hi : s.work.ip ≤ s.work.n)
    (hop : s.work.op ≤ s.work.cap) {out bs : List Byte} (hout : dstBytes s 0 s.work.op = out)
    (hbs : srcBytes s s.work.ip (s.work.n - s.work.ip) = bs) :
    DecodesTo s (decodeLoop fuel s) (decodeBytes s.work.cap fuel bs out) := by
  induction fuel generalizing s out bs with
  | zero =>
    have hl : out.length = s.work.op := by rw [← hout]; exact Memory.length_readList _ _ _
    exact ⟨by omega, s, rfl, .of_stop (by omega) h.wf hout⟩
  | succ fuel ih =>
    have hl : out.length = s.work.op := by rw [← hout]; exact Memory.length_readList _ _ _
    have hsl := length_srcBytes s s.work.ip (s.work.n - s.work.ip)
    rw [hbs] at hsl
    rw [decodeLoop]
    cases bs with
    | nil =>
      rw [List.length_nil] at hsl
      rw [if_neg (by omega)]
      exact ⟨by omega, s, rfl, .of_stop (by omega) h.wf hout⟩
    | cons t0 bs =>
      rw [List.length_cons] at hsl
      rw [if_pos (by omega), literalPart_quiet h hbs, decodeBytes]
      cases hp : parseLen (tokenLit t0) bs with
      | none => exact ⟨_, rfl, ⟨rfl, fun _ _ => rfl, h.wf⟩, rfl, hl.symm⟩
      | some p =>
        obtain ⟨ll, r1⟩ := p
        have hr1 := parseLen_length hp
        simp only
        rw [hl]
        split
        · exact ⟨_, rfl, ⟨rfl, fun _ _ => rfl, h.wf⟩, rfl, rfl⟩
        · next hll =>
          split
          · exact ⟨_, rfl, ⟨rfl, fun _ _ => rfl, h.wf⟩, rfl, rfl⟩
          · next hcap =>
            simp only [Res.bind_ok]
            have htl : (r1.take ll).length = ll := by rw [List.length_take]; omega
            obtain ⟨s1, hs1⟩ : ∃ s1, s1 = (s.setMem (s.mem.writeList (s.work.da + s.work.op) (r1.take ll))).setWork { s.work with
              token := t0, ip := s.work.n - r1.length + ll, litLen := ll, op := s.work.op + ll } := ⟨_, rfl⟩
            rw [← hs1]
            have hw1 : s1.work = { s.work with
              token := t0, ip := s.work.n - r1.length + ll, litLen := ll, op := s.work.op + ll } := by rw [hs1]; rfl
            have hm1 : s1.mem = s.mem.writeList (s.work.da + s.work.op) (r1.take ll) := by rw [hs1]; rfl
            have hr1' : Ready s1 := hs1 ▸ h.of_eq rfl rfl rfl rfl rfl rfl (Memory.wf_writeList h.wf _ _)
            have hs1f : s1 = { s with mem := s1.mem, work := { s.work with
              ip := s1.work.ip, op := s1.work.op, token := s1.work.token, litLen := s1.work.litLen, matchLen := s1.work.matchLen,
              offset := s1.work.offset } } := by rw [hs1]; rfl
            have hin1 : ∀ a, ¬ InDest s a → s1.mem.read a = s.mem.read a := fun a ha => by
              rw [hm1]; exact Memory.read_writeList_other _ _ (by unfold InDest at ha; omega)
            have hout1 : dstBytes s1 0 s1.work.op = out ++ r1.take ll := by
              rw [dstBytes, hw1, hm1]
              simp only [Nat.add_zero]
              have := Memory.readList_writeList h.wf (s.work.da + s.work.op) (r1.take ll)
              rw [htl] at this
              rw [Memory.readList_append, this, Memory.readList_writeList_other _ _ (by omega), ← hout, dstBytes, Nat.add_zero]
            have hb1 : srcBytes s1 s1.work.ip (s1.work.n - s1.work.ip) = r1.drop ll := by
              have hdl : (r1.drop ll).length = r1.length - ll := List.length_drop
              have := (srcBytes_tail (xs := t0 :: (lenExt ll ++ r1.take ll)) (rest := r1.drop ll) (hbs.trans (by
                rw [(parseLen_eq_some hp).2]; simp))).1
              rw [srcBytes_outside h (by rw [hw1]) hin1 (by rw [hw1]; simp only; omega)]
              conv_rhs => rw [this]
              rw [hw1]; simp only [hdl]
              congr 1 <;> omega
            have hbase : s1.work.op = s.work.op + ll := by rw [hw1]
            rcases hd : r1.drop ll with _ | ⟨lo, _ | ⟨hi, r3⟩⟩
            · have : r1.length - ll = 0 := by rw [← List.length_drop, hd]; rfl
              rw [if_pos (by rw [hw1]; simp only; omega)]
              have hd1 : Decoded s1 s1 (out ++ r1.take ll) := .of_stop (by rw [hw1]; simp only; omega) hr1'.wf hout1
              refine DecodesTo.after (s' := s1) ⟨?_, s1, rfl, hd1⟩ hs1f hin1 fun res hres a ha => ?_
              · rw [List.length_append, htl, hw1]; simp only; omega
              · cases hres
                rw [List.length_append, htl, hl] at ha
                rw [hm1]; exact Memory.read_writeList_other _ _ (by omega)
            · have : r1.length - ll = 1 := by rw [← List.length_drop, hd]; rfl
              rw [if_neg (by rw [hw1]; simp only; omega), matchPart_quiet hr1' (by rw [hw1]; simp only; omega), hb1, hd]
              refine ⟨s1, rfl, ⟨hs1f, hin1, hr1'.wf⟩, ?_, ?_⟩
              · rw [hw1]; simp only; omega
              · rw [hw1, List.length_append, htl, hl]
            · have hd3 : r1.length - ll = r3.length + 2 := by rw [← List.length_drop, hd]; rfl
              rw [if_neg (by rw [hw1]; simp only; omega), matchPart_quiet hr1' (by rw [hw1]; simp only; omega), hb1, hd]
              simp only
              generalize ho : BitVec.ofNat 16 (leVal [lo, hi]) = o
              have htok : s1.work.token = t0 := by rw [hw1]
              have hol : (out ++ r1.take ll).length = s1.work.op := by rw [List.length_append, htl, hl, hw1]
              have hcap1 : s1.work.cap = s.work.cap := by rw [hw1]
              have hn1 : s1.work.n = s.work.n := by rw [hw1]
              have hip1 : s1.work.ip = s.work.n - (r3.length + 2) := by rw [hw1]; simp only; omega
              rw [htok, hol]
              split
              · refine ⟨_, rfl, ⟨by rw [hs1f]; rfl, hin1, hr1'.wf⟩, ?_, rfl⟩
                show s1.work.ip + 2 = _
                omega
              · next hoff =>
                rw [not_or, Nat.not_lt] at hoff
                cases hp2 : parseLen (tokenMatch t0) r3 with
                | none =>
                  refine ⟨_, rfl, ⟨by rw [hs1f]; rfl, hin1, hr1'.wf⟩, ?_, rfl⟩
                  show s1.work.n = _
                  omega
                | some p =>
                  obtain ⟨m, r4⟩ := p
                  have hr4 := parseLen_length hp2
                  simp only
                  rw [hcap1]
                  split
                  · refine ⟨_, rfl, ⟨by rw [hs1f]; rfl, hin1, hr1'.wf⟩, ?_, rfl⟩
                    show s1.work.n - _ = _
                    rw [hn1]
                  · next hcap2 =>
                    simp only [Res.bind_ok]
                    obtain ⟨s2, hs2⟩ : ∃ s2, s2 = (s1.setMem (s1.mem.copyBytes (s1.work.da + (s1.work.op - o.toNat))
                      (s1.work.da + s1.work.op) (Config.minMatch + m))).setWork { s1.work with
                        cap := s.work.cap, token := t0, offset := o, ip := s1.work.n - r4.length, matchLen := Config.minMatch + m,
                        op := s1.work.op + (Config.minMatch + m) } := ⟨_, rfl⟩
                    rw [← hs2]
                    have hw2 : s2.work = { s1.work with
                        offset := o, ip := s1.work.n - r4.length, matchLen := Config.minMatch + m,
                        op := s1.work.op + (Config.minMatch + m) } := by rw [hs2, ← hcap1, ← htok]; rfl
                    have hm2 : s2.mem = s1.mem.copyBytes (s1.work.da + (s1.work.op - o.toNat)) (s1.work.da + s1.work.op)
                      (Config.minMatch + m) := by rw [hs2]; rfl
                    have hr2 : Ready s2 := hs2 ▸ hr1'.of_eq rfl rfl rfl rfl rfl hcap1.symm (Memory.wf_copyBytes hr1'.wf _ _ _)
                    have hda1 : s1.work.da = s.work.da := by rw [hw1]
                    have ho1 : 1 ≤ o.toNat := by
                      have : o.toNat ≠ 0 := fun e => hoff.1 (BitVec.eq_of_toNat_eq (by simpa using e))
                      omega
                    have hmem2 : ∀ a, a < s.work.da ∨ s.work.da + (s.work.op + ll + (Config.minMatch + m)) ≤ a →
                        s2.mem.read a = s.mem.read a := fun a ha => by
                      rw [hm2, Memory.read_copyBytes_other _ (by omega), hm1, Memory.read_writeList_other _ _ (by omega)]
                    have hin2 : ∀ a, ¬ InDest s a → s2.mem.read a = s.mem.read a := fun a ha =>
                      hmem2 a (by unfold InDest at ha; omega)
                    have hout2 : dstBytes s2 0 s2.work.op = copyBack (out ++ r1.take ll) o.toNat (Config.minMatch + m) := by
                      have hd1 : s1.mem.readList s1.work.da s1.work.op = out ++ r1.take ll := by
                        rw [← hout1, dstBytes, Nat.add_zero]
                      have := readList_copyBytes hr1'.wf (k := Config.minMatch + m) hd1 ho1 hoff.2
                      rw [dstBytes, hw2, hm2, Nat.add_zero]
                      exact this
                    have hb2 : srcBytes s2 s2.work.ip (s2.work.n - s2.work.ip) = r4 := by
                      have hbs1 := hb1.trans (hd.trans (congrArg (fun l => lo :: hi :: l) (parseLen_eq_some hp2).2))
                      have := (srcBytes_tail (xs := lo :: hi :: lenExt m) (rest := r4) hbs1).1
                      rw [srcBytes_outside (s := s1) hr1' (by rw [hw2]) (fun a ha => ?_) (by rw [hw2]; simp only; omega)]
                      · conv_rhs => rw [this]
                        rw [hw2]
                        simp only
                        congr 1 <;> omega
                      · rw [hm2]
                        refine Memory.read_copyBytes_other _ ?_
                        unfold InDest at ha; omega
                    have := ih hr2 (by rw [hw2]; simp only; omega) (by rw [hw2]; simp only; omega)
                      (by rw [hw2]; simp only; omega) hout2 hb2
                    rw [show s2.work.cap = s.work.cap by rw [hw2, hcap1]] at this
                    refine this.after (by rw [hs2, hs1]; rfl) hin2 fun res hres a ha => hmem2 a ?_
                    have := decodeBytes_length hres
                    rw [length_copyBack, hol, hbase] at this
                    omega

/-- DECOMPRESS_BLOCK does what R195 says, on every block. -/
theorem decompressBlockR_quiet {s : State} (h : Ready s) :
    DecodesTo s (decompressBlockR s) (decodeBlock (srcBytes s 0 s.work.n) s.work.cap) := by
  have h0 : Ready (s.setWork { s.work with ip := 0, op := 0 }) := h.setWork rfl rfl rfl rfl
  have := decodeLoop_quiet h0 (fuel := s.work.n) (Nat.sub_le _ _) (Nat.zero_le _) (Nat.zero_le _) rfl rfl
  rw [decodeBlock, length_srcBytes]
  exact this.after rfl (fun _ _ => rfl) fun _ _ _ _ => rfl

/-! ### Blocks that decode (R213) -/

theorem decodeBytes_produce {cap fuel : Nat} {bs out res : List Byte} {els : List Instr} (hp : parseElements fuel bs = some els)
    (hres : produce out els = some res) (hcap : res.length ≤ cap) : decodeBytes cap fuel bs out = .done res := by
  induction fuel generalizing bs out els with
  | zero =>
    cases bs with
    | nil => simp [parseElements] at hp; subst hp; simp [produce] at hres; rw [hres]; rfl
    | cons b r => cases hp
  | succ fuel ih =>
    cases bs with
    | nil => simp [parseElements] at hp; subst hp; simp [produce] at hres; rw [hres]; rfl
    | cons t0 bs =>
      rw [parseElements] at hp
      split at hp
      · cases hp
      · next i rest hd =>
        obtain ⟨els, ht, rfl⟩ := Option.map_eq_some_iff.mp hp
        rw [decodeBytes]
        rcases decodeElement_eq_instr hd with ⟨lits, o, len, rfl, hlen, hbs⟩ | ⟨lits, m, rfl, rfl, hbs⟩
        · rw [produce] at hres
          split at hres
          · cases hres
          · next hoff =>
            have hmono := produce_length hres
            rw [length_copyBack, List.length_append] at hmono
            simp only [encodeSeq, List.cons_append, List.append_assoc, List.cons.injEq] at hbs
            rw [hbs.1, hbs.2, tokenLit_tokenByte, parseLen_lenExt]
            simp only
            rw [if_neg (by simp), if_neg (by omega), List.take_left, List.drop_left, leBytes_two]
            simp only [List.cons_append, List.nil_append, ofNat_leVal_two, List.length_append]
            rw [if_neg hoff, tokenMatch_tokenByte, parseLen_lenExt]
            simp only [Nat.add_sub_cancel' hlen]
            rw [if_neg (by omega)]
            exact ih ht hres
        · have hels : els = [] := by cases fuel <;> simp [parseElements] at ht <;> exact ht
          subst hels
          simp only [produce, Option.some.injEq] at hres
          have hlen := congrArg List.length hres
          rw [List.length_append] at hlen
          simp only [List.cons_append, List.cons.injEq] at hbs
          rw [hbs.1, hbs.2, tokenLit_tokenByte, parseLen_lenExt]
          simp only
          rw [if_neg (by simp), if_neg (by omega), List.take_length, List.drop_length]
          exact congrArg _ hres

theorem decodeBytes_cap {cap fuel : Nat} {bs out res : List Byte} (hout : out.length ≤ cap)
    (h : decodeBytes cap fuel bs out = .done res) : res.length ≤ cap := by
  induction fuel generalizing bs out with
  | zero => cases h; exact hout
  | succ fuel ih =>
    cases bs with
    | nil => cases h; exact hout
    | cons t bs =>
      rw [decodeBytes] at h
      split at h
      · cases h
      · split at h
        · cases h
        · split at h
          · cases h
          · next hll hcap =>
            simp only at h
            split at h
            · cases h; rw [List.length_append, List.length_take]; omega
            · cases h
            · split at h
              · cases h
              · split at h
                · cases h
                · split at h
                  · cases h
                  · next hcap2 =>
                    rw [List.length_append, List.length_take] at hcap2
                    refine ih ?_ h
                    rw [length_copyBack, List.length_append, List.length_take]
                    omega

theorem produce_of_decodeBytes {cap fuel : Nat} {bs out res : List Byte} (hf : bs.length ≤ fuel)
    (h : decodeBytes cap fuel bs out = .done res) : ∃ els, parseElements fuel bs = some els ∧ produce out els = some res := by
  induction fuel generalizing bs out with
  | zero =>
    cases bs with
    | nil => cases h; exact ⟨[], rfl, rfl⟩
    | cons b r => simp at hf
  | succ fuel ih =>
    cases bs with
    | nil => cases h; exact ⟨[], rfl, rfl⟩
    | cons t0 bs =>
      rw [List.length_cons] at hf
      rw [decodeBytes] at h
      split at h
      · cases h
      · next ll r1 hp =>
        have hr1 := parseLen_length hp
        split at h
        · cases h
        · next hll =>
          split at h
          · cases h
          · simp only at h
            split at h
            · next hd =>
              cases h
              refine ⟨[.last (r1.take ll)], ?_, rfl⟩
              simp only [parseElements, decodeElement, hp, if_neg hll, hd]
              cases fuel <;> rfl
            · cases h
            · next lo hi r3 hd =>
              have hd3 := congrArg List.length hd
              rw [List.length_drop, List.length_cons, List.length_cons] at hd3
              split at h
              · cases h
              · next hoff =>
                split at h
                · cases h
                · next m r4 hp2 =>
                  have hr4 := parseLen_length hp2
                  split at h
                  · cases h
                  · obtain ⟨els, h1, h2⟩ := ih (by omega) h
                    refine ⟨_, by simp only [parseElements, decodeElement, hp, if_neg hll, hd, hp2, h1]; rfl, ?_⟩
                    rw [produce, if_neg (by rw [← List.length_append]; exact hoff)]
                    exact h2

/-- A block decodes to an output exactly when it parses, its elements stand for that output, and the output fits (R212, R213). -/
theorem decodeBlock_done_iff {block out : List Byte} {cap : Nat} :
    (∃ els, parseBlock block = some els ∧ produce [] els = some out) ∧ out.length ≤ cap ↔ decodeBlock block cap = .done out := by
  refine ⟨fun ⟨⟨els, h1, h2⟩, h3⟩ => decodeBytes_produce h1 h2 h3, fun h => ⟨produce_of_decodeBytes (Nat.le_refl _) h, ?_⟩⟩
  exact decodeBytes_cap (Nat.zero_le _) h

end Machine
end Sys2Proof
end

