-- ==== Sys2Proof/Laws/Scan.lean ====
section
/-! SUPPORT. The reference compressor when no bus error is coming: its block tiles the input (R182, R183), fits the worst-case
bound (R189, R190), and the loop's invariant. -/
namespace Sys2Proof
namespace Machine
open Safety

/-! ### What an element costs (R189) -/

theorem extLength_le (v : Nat) : extLength v ≤ v / 255 + 1 ∧ (v < 15 → extLength v = 0) := by
  unfold extLength; split <;> omega

/-- A match sequence costs no more than it covers, but for a 255th of its literals (R189). -/
theorem encodeSeq_room {lits : List Byte} {o : BitVec 16} {len op a : Nat} (hlen : Config.minMatch ≤ len)
    (h : op ≤ a + a / 255) :
    op + (encodeSeq lits o len).length ≤ (a + lits.length + len) + (a + lits.length + len) / 255 := by
  rw [length_encodeSeq]
  unfold Config.minMatch extLength at *
  split <;> split <;> omega

theorem encodeLast_room {lits : List Byte} {op a : Nat} (h : op ≤ a + a / 255) :
    op + (encodeLast lits).length ≤ (a + lits.length) + (a + lits.length) / 255 + 2 := by
  rw [length_encodeLast]
  unfold extLength
  split <;> omega

/-! ### The loop's invariant -/

/-- The scan that began at `s₀` stands at `s`, having emitted the match sequences `els` (R182, R183, R189). -/
structure Scanned (s₀ s : State) (els : List Instr) : Prop where
  frame : s = { s₀ with mem := s.mem, ht := s.ht, work := s.work }
  sa : s.work.sa = s₀.work.sa
  n : s.work.n = s₀.work.n
  da : s.work.da = s₀.work.da
  cap : s.work.cap = s₀.work.cap
  wf : s.mem.wf
  other : ∀ a, a < s₀.work.da ∨ s₀.work.da + s.work.op ≤ a → s.mem.read a = s₀.mem.read a
  block : dstBytes s 0 s.work.op = encodeElements els
  tiles : ∀ tail, Tiles (srcBytes s₀ 0 s₀.work.n) s.work.anchor tail → Tiles (srcBytes s₀ 0 s₀.work.n) 0 (els ++ tail)
  order : s.work.anchor ≤ s.work.ip
  inside : s.work.anchor ≤ s₀.work.n
  room : s.work.op ≤ s.work.anchor + s.work.anchor / 255
  slots : ∀ h, s.ht.get h < s.work.ip ∨ s.ht.get h = 0
  table : Assoc.wf 0 s.ht

theorem Scanned.ready {s₀ s : State} {els : List Instr} (h : Scanned s₀ s els) (h₀ : Ready s₀) : Ready s :=
  h₀.of_eq (by rw [h.frame]) (by rw [h.frame]) h.sa h.n h.da h.cap h.wf

theorem blockStart_scanned {s₀ : State} (h₀ : Ready s₀) : Scanned s₀ (blockStart s₀) [] where
  frame := rfl
  sa := rfl
  n := rfl
  da := rfl
  cap := rfl
  wf := h₀.wf
  other := fun _ _ => rfl
  block := rfl
  tiles := fun _ h => h
  order := Nat.le_refl _
  inside := Nat.zero_le _
  room := Nat.zero_le _
  slots := fun _ => .inr rfl
  table := ⟨List.Pairwise.nil, fun _ h => nomatch h⟩

/-- Source bytes during the scan are those it began with (R85). -/
theorem Scanned.src {s₀ s : State} {els : List Instr} (h : Scanned s₀ s els) (h₀ : Ready s₀)
    (hop : s.work.op ≤ s₀.work.cap) {i : Nat} (hi : i < s₀.work.n) :
    s.mem.read (s.work.sa + i) = s₀.mem.read (s₀.work.sa + i) := by
  have := srcBytes_outside (s := s₀) (t := s) h₀ h.sa (fun a ha => h.other a (by unfold InDest at ha; omega)) (pos := i) (k := 1)
    (by omega)
  simpa [srcBytes, Memory.readList, h.sa] using this

theorem getElem?_srcBytes {s : State} {n i : Nat} (hi : i < n) : (srcBytes s 0 n)[i]? = some (s.mem.read (s.work.sa + i)) := by
  rw [List.getElem?_eq_getElem (by rw [length_srcBytes]; exact hi)]
  simp [srcBytes, Memory.getElem_readList]

theorem take_drop_srcBytes {s : State} {n pos k : Nat} (h : pos + k ≤ n) :
    ((srcBytes s 0 n).drop pos).take k = srcBytes s pos k := by
  have h1 := srcBytes_append s 0 pos (n - pos)
  have h2 := srcBytes_append s pos k (n - pos - k)
  rw [show pos + (n - pos) = n by omega, Nat.zero_add] at h1
  rw [show k + (n - pos - k) = n - pos by omega] at h2
  rw [h1, List.drop_left' (length_srcBytes _ _ _), h2, List.take_left' (length_srcBytes _ _ _)]

/-! ### The scan on the input bytes alone (R129, R130) -/

theorem byteAt_srcBytes {s : State} {n i : Nat} (hi : i < n) : byteAt (srcBytes s 0 n) i = s.mem.read (s.work.sa + i) := by
  rw [byteAt, List.getD_eq_getElem?_getD, getElem?_srcBytes hi]; rfl

theorem tailPrefix_congr {f g : Nat → Byte} {a b : Nat} (r k : Nat)
    (h : ∀ i, k ≤ i → i < k + r → f (a + i) = g (a + i) ∧ f (b + i) = g (b + i)) : tailPrefix f a b r k = tailPrefix g a b r k := by
  induction r generalizing k with
  | zero => rfl
  | succ r ih =>
    obtain ⟨h1, h2⟩ := h k (Nat.le_refl _) (by omega)
    rw [tailPrefix, tailPrefix, h1, h2, ih (k + 1) fun i hi hi' => h i (by omega) (by omega)]

/-- One turn of the scan loop keeps the invariant, moves `ip` and is the turn on the input bytes alone (R170 to R175). -/
theorem scan_turn {s₀ s : State} {els : List Instr} (h₀ : Ready s₀) (hcap : boundExact s₀.work.n ≤ s₀.work.cap)
    (h : Scanned s₀ s els) (hgo : scanGoesOn s = true) :
    ∃ s' els', Scanned s₀ s' els' ∧ (s.work.ip < s'.work.ip) ∧
      (⟨s'.work.ip, s'.work.anchor, s'.ht, els'⟩ : ScanPoint) =
        ScanPoint.next (srcBytes s₀ 0 s₀.work.n) ⟨s.work.ip, s.work.anchor, s.ht, els⟩ ∧
      ((findR s.work.ip s).bind fun _ s =>
        if s.work.accept then encodeMatchR s else .ok () (s.setIp (s.work.ip + 1))) = .ok () s' := by
  have hr := h.ready h₀
  have hn := h.n
  simp [scanGoesOn, Config.minMatchInput, Config.mfLimit] at hgo
  have hopcap : s.work.op + 2 ≤ s₀.work.cap := by
    have := h.room; have := h.inside; unfold boundExact Config.boundSlack at hcap; omega
  have hslot := h.slots (hash4 (srcWindowAt s s.work.ip))
  have hbyte : ∀ i < s₀.work.n, byteAt (srcBytes s₀ 0 s₀.work.n) i = s.mem.read (s.work.sa + i) := fun i hi =>
    (byteAt_srcBytes hi).trans (h.src h₀ (by omega) hi).symm
  have hwin : ∀ p, p + 4 ≤ s₀.work.n → windowAt (srcBytes s₀ 0 s₀.work.n) p = srcWindowAt s p := fun p hp => by
    rw [windowAt, srcWindowAt, hbyte _ (by omega), hbyte _ (by omega), hbyte _ (by omega), hbyte _ (by omega)]
  have hguard : (decide (s.ht.get (hash4 (srcWindowAt s s.work.ip)) ≠ 0)
      && decide (s.work.ip - s.ht.get (hash4 (srcWindowAt s s.work.ip)) ≤ Config.maxOffset)
      && (windowAt (srcBytes s₀ 0 s₀.work.n) (s.ht.get (hash4 (srcWindowAt s s.work.ip))) == srcWindowAt s s.work.ip))
      = acceptsAt s s.work.ip := by
    by_cases h0 : s.ht.get (hash4 (srcWindowAt s s.work.ip)) = 0
    · simp [acceptsAt, h0]
    · rw [hwin _ (by have := hslot.resolve_right h0; omega)]; rfl
  rw [findR_quiet hr.quiet hr.fits.1 (by omega) (hslot.imp (fun h => by omega) id), Res.bind_ok]
  have hacc : acceptsAt s s.work.ip = true → s.ht.get (hash4 (srcWindowAt s s.work.ip)) ≠ 0 ∧
      s.work.ip - s.ht.get (hash4 (srcWindowAt s s.work.ip)) ≤ Config.maxOffset ∧
      srcWindowAt s (s.ht.get (hash4 (srcWindowAt s s.work.ip))) = srcWindowAt s s.work.ip := by
    simp [acceptsAt, and_assoc]
  revert hslot hacc
  generalize hv : hash4 (srcWindowAt s s.work.ip) = v
  generalize hrf : s.ht.get v = ref
  intro hslot hacc
  have hslots : ∀ k, (s.ht.set v s.work.ip).get k < s.work.ip + 1 := fun k => by
    by_cases hk : k = v
    · rw [hk, Table.get_set_same h.table]; omega
    · rw [Table.get_set_other _ _ hk]; have := h.slots k; omega
  cases ha : acceptsAt s s.work.ip with
  | false =>
    refine ⟨_, els, ?_, ?_, ?_, rfl⟩
    · exact {
        frame := by rw [h.frame]; rfl
        sa := h.sa, n := h.n, da := h.da, cap := h.cap, wf := h.wf, other := h.other, block := h.block, tiles := h.tiles
        order := Nat.le_succ_of_le h.order
        inside := h.inside, room := h.room
        slots := fun k => .inl (hslots k)
        table := Table.wf_set h.table _ _ }
    · exact Nat.lt_succ_self _
    · rw [ScanPoint.next]
      simp only [hwin s.work.ip (by omega), hv, hrf, ha] at hguard ⊢
      rw [hguard]
      rfl
  | true =>
    obtain ⟨h1, h2, h3⟩ := hacc ha
    have hlt : ref < s.work.ip := hslot.resolve_right h1
    have hordr := h.order
    have hoff : (BitVec.ofNat 16 (s.work.ip - ref)).toNat = s.work.ip - ref := by
      have : Config.maxOffset = 65535 := rfl
      rw [BitVec.toNat_ofNat]; exact Nat.mod_eq_of_lt (by omega)
    generalize hs1 : ((s.setHt (s.ht.set v s.work.ip)).setWork _) = s1
    have hr1 : Ready s1 := hs1 ▸ hr.of_eq rfl rfl rfl rfl rfl rfl hr.wf
    have hw1 : s1.work = { s.work with seq4 := srcWindowAt s s.work.ip, h := v, ref := ref, accept := true } := by rw [← hs1]; rfl
    have hm1 : s1.mem = s.mem := by rw [← hs1]; rfl
    have hmax : extendMax s1 = s.work.n - 5 - (s.work.ip + 4) := by rw [extendMax, hw1]
    rw [encodeMatchR, extendR_quiet hr1.quiet hr1.fits.1, Res.bind_ok]
    obtain ⟨he1, he2, -⟩ := extendLen_spec s1 (s1.work.ip + 4) (s1.work.ref + 4) (extendMax s1)
    have htail : tailPrefix (byteAt (srcBytes s₀ 0 s₀.work.n)) (s.work.ip + 4) (ref + 4)
        (extendLimit s₀.work.n (s.work.ip + 4) (ref + 4) (s₀.work.n - 5 - (s.work.ip + 4))) 0
        = extendLen s1 (s1.work.ip + 4) (s1.work.ref + 4) (extendMax s1) := by
      rw [extendLen, hmax, hm1, hw1, hn]
      refine tailPrefix_congr _ _ fun i _ hi => ⟨hbyte _ ?_, hbyte _ ?_⟩ <;> unfold extendLimit at hi <;> omega
    generalize hext : extendLen s1 (s1.work.ip + 4) (s1.work.ref + 4) (extendMax s1) = ext at he1 he2 htail ⊢
    have hext : ext ≤ s.work.n - 5 - (s.work.ip + 4) := by
      rw [← hmax]; exact he1.trans (Nat.min_le_left _ _)
    simp only [hw1, hm1] at he2
    have hs2 : measured (s1.setRet ext) = s1.setWork { s1.work with
        ret := ext, matchLen := 4 + ext, offset := BitVec.ofNat 16 (s.work.ip - ref), litLen := s.work.ip - s.work.anchor } := by
      simp only [measured, State.setRet, State.setWork_work, hw1]; rfl
    simp only [hs2]
    generalize hs2' : s1.setWork _ = s2
    have hr2 : Ready s2 := hs2' ▸ hr1.of_eq rfl rfl rfl rfl rfl rfl hr1.wf
    have hw2 : s2.work = { s1.work with
        ret := ext, matchLen := 4 + ext, offset := BitVec.ofNat 16 (s.work.ip - ref), litLen := s.work.ip - s.work.anchor } := by
      rw [← hs2']; rfl
    have hm2 : s2.mem = s.mem := by rw [← hs2', ← hm1]; rfl
    have hlits : srcBytes s2 s.work.anchor (s.work.ip - s.work.anchor) = srcBytes s₀ s.work.anchor (s.work.ip - s.work.anchor) := by
      refine srcBytes_outside h₀ (by rw [hw2, hw1]; exact h.sa) (fun a ha => ?_) (by omega)
      rw [hm2]; exact h.other a (by unfold InDest at ha; omega)
    have hll : (srcBytes s₀ s.work.anchor (s.work.ip - s.work.anchor)).length = s.work.ip - s.work.anchor := length_srcBytes _ _ _
    have hroom := encodeSeq_room (lits := srcBytes s₀ s.work.anchor (s.work.ip - s.work.anchor))
      (o := BitVec.ofNat 16 (s.work.ip - ref)) (len := 4 + ext) (Nat.le_add_right _ _) h.room
    rw [hll, show s.work.anchor + (s.work.ip - s.work.anchor) + (4 + ext) = s.work.ip + (4 + ext) by omega] at hroom
    have hcapS : s.work.ip + (4 + ext) + (s.work.ip + (4 + ext)) / 255 ≤ s₀.work.cap := by
      unfold boundExact Config.boundSlack at hcap; omega
    have hemit := emitSeqR_quiet hr2 (pos := s.work.anchor) (ll := s.work.ip - s.work.anchor)
      (o := BitVec.ofNat 16 (s.work.ip - ref)) (lm := 4 + ext) (by rw [hw2, hw1]; simp; omega)
      (by rw [hlits]; rw [hw2, hw1]; simp only [h.cap]; omega)
    have e1 : s2.work.anchor = s.work.anchor := by rw [hw2, hw1]
    have e2 : s2.work.litLen = s.work.ip - s.work.anchor := by rw [hw2]
    have e3 : s2.work.offset = BitVec.ofNat 16 (s.work.ip - ref) := by rw [hw2]
    have e4 : s2.work.matchLen = 4 + ext := by rw [hw2]
    rw [e1, e2, e3, e4, hemit, Res.bind_ok, hlits]
    generalize hbs : encodeSeq (srcBytes s₀ s.work.anchor (s.work.ip - s.work.anchor)) (BitVec.ofNat 16 (s.work.ip - ref)) (4 + ext)
      = bs at hroom
    rw [if_pos (by rw [hw1])]
    refine ⟨_, els ++ [.seq (srcBytes s₀ s.work.anchor (s.work.ip - s.work.anchor)) (BitVec.ofNat 16 (s.work.ip - ref)) (4 + ext)],
      ?_, ?_, ?_, rfl⟩
    · have hop : s2.work.op = s.work.op := by rw [hw2, hw1]
      have hda : s2.work.da = s₀.work.da := by rw [hw2, hw1]; exact h.da
      have hip : s2.work.ip = s.work.ip := by rw [hw2, hw1]
      have hht : s2.ht = s.ht.set v s.work.ip := by rw [← hs2', ← hs1]; rfl
      have hmem : ((s2.setWork { s2.work with
          token := tokenByte (lenNibble (s.work.ip - s.work.anchor)) (lenNibble (4 + ext - Config.minMatch)) }).stored bs).mem
          = s.mem.writeList (s₀.work.da + s.work.op) bs := by
        rw [State.stored_mem, State.setWork_mem, hm2, State.setWork_work]
        simp only [hop, hda]
      have hsrc : ∀ i, i < s₀.work.n → s.mem.read (s.work.sa + i) = s₀.mem.read (s₀.work.sa + i) :=
        fun i hi => h.src h₀ (by omega) hi
      exact {
        frame := by
          have : s2 = { s₀ with mem := s2.mem, ht := s2.ht, work := s2.work } := by
            rw [← hs2', ← hs1, h.frame]; rfl
          simp only [afterMatch, State.stored, State.setOp, State.setMem, State.setWork]
          rw [this]
        sa := by simp only [afterMatch, State.setWork_work, State.stored_work, hw2, hw1]; exact h.sa
        n := by simp only [afterMatch, State.setWork_work, State.stored_work, hw2, hw1]; exact h.n
        da := by simp only [afterMatch, State.setWork_work, State.stored_work, hw2, hw1]; exact h.da
        cap := by simp only [afterMatch, State.setWork_work, State.stored_work, hw2, hw1]; exact h.cap
        wf := by
          show (State.stored _ bs).mem.wf
          rw [hmem]; exact Memory.wf_writeList h.wf _ _
        other := fun a ha => by
          show (State.stored _ bs).mem.read a = _
          simp only [afterMatch, State.setWork_work, State.stored_work, hop] at ha
          rw [hmem, Memory.read_writeList_other _ _ (by omega)]
          exact h.other a (by omega)
        block := by
          have hb := h.block
          rw [dstBytes, h.da, Nat.add_zero] at hb
          show (State.stored _ bs).mem.readList _ _ = _
          rw [hmem]
          simp only [afterMatch, State.setWork_work, State.stored_work, hop, hda, Nat.add_zero]
          rw [Memory.readList_append, Memory.readList_writeList h.wf, Memory.readList_writeList_other _ _ (by omega), hb,
            encodeElements_append, encodeElements_seq, hbs]
          simp [encodeElements]
        tiles := fun tail ht => by
          rw [List.append_assoc]
          refine h.tiles _ ?_
          simp only [afterMatch, State.setWork_work, State.stored_work, hip, e4] at ht
          refine ⟨?_, ?_, Nat.le_add_right _ _, ?_, ?_, ?_, ?_⟩
          · rw [hll, take_drop_srcBytes (by omega)]
          · rw [hll, length_srcBytes]; omega
          · rw [hoff]; omega
          · rw [hoff, hll]; omega
          · intro i hi
            rw [hll, hoff, show s.work.anchor + (s.work.ip - s.work.anchor) + i = s.work.ip + i by omega,
              show s.work.ip + i - (s.work.ip - ref) = ref + i by omega, getElem?_srcBytes (by omega), getElem?_srcBytes (by omega),
              ← hsrc _ (by omega), ← hsrc _ (by omega)]
            by_cases h4 : i < 4
            · obtain ⟨w0, w1, w2, w3⟩ := window4_inj.mp h3
              congr 1
              match i, h4 with
              | 0, _ => exact w0.symm
              | 1, _ => exact w1.symm
              | 2, _ => exact w2.symm
              | 3, _ => exact w3.symm
            · have := he2 (i - 4) (by omega)
              rw [show s.work.ip + 4 + (i - 4) = s.work.ip + i by omega, show ref + 4 + (i - 4) = ref + i by omega] at this
              rw [this]
          · rw [hll, show s.work.anchor + (s.work.ip - s.work.anchor) + (4 + ext) = s.work.ip + (4 + ext) by omega]
            exact ht
        order := Nat.le_refl _
        inside := by simp only [afterMatch, State.setWork_work, State.stored_work, hip, e4]; omega
        room := by simp only [afterMatch, State.setWork_work, State.stored_work, hip, e4, hop]; omega
        slots := fun k => by
          have := hslots k
          simp only [afterMatch, State.setWork_work, State.setWork_ht, State.stored_ht, State.stored_work, hip, e4, hht]; omega
        table := by
          show Assoc.wf 0 s2.ht
          rw [hht]; exact Table.wf_set h.table _ _ }
    · simp only [afterMatch, State.setWork_work, State.stored_work, hw2, hw1]; omega
    · have hht : s2.ht = s.ht.set v s.work.ip := by rw [← hs2', ← hs1]; rfl
      rw [ScanPoint.next]
      simp only [hwin s.work.ip (by omega), hv, hrf, ha, length_srcBytes] at hguard ⊢
      rw [extendLimit] at htail
      rw [hguard, if_pos rfl, htail, take_drop_srcBytes (by omega)]
      simp only [afterMatch, State.setWork_work, State.stored_work, State.setWork_ht, State.stored_ht, hw2, hw1, hht]

/-- The scan loop runs to its end and keeps the invariant (R170, R122). -/
theorem scanLoop_scanned {s₀ s : State} {els : List Instr} (h₀ : Ready s₀) (hcap : boundExact s₀.work.n ≤ s₀.work.cap)
    (h : Scanned s₀ s els) (fuel : Nat) : ∃ s' els', Scanned s₀ s' els' ∧
      (⟨s'.work.ip, s'.work.anchor, s'.ht, els'⟩ : ScanPoint) =
        ScanPoint.run (srcBytes s₀ 0 s₀.work.n) fuel ⟨s.work.ip, s.work.anchor, s.ht, els⟩ ∧ scanLoop fuel s = .ok () s' := by
  induction fuel generalizing s els with
  | zero => exact ⟨s, els, h, rfl, rfl⟩
  | succ fuel ih =>
    have hgo : scanGoesOn s = true ↔ Config.minMatchInput ≤ (srcBytes s₀ 0 s₀.work.n).length
        ∧ s.work.ip + Config.mfLimit ≤ (srcBytes s₀ 0 s₀.work.n).length := by
      rw [length_srcBytes, scanGoesOn, h.n]; simp
    rw [scanLoop, ScanPoint.run]
    by_cases hg : scanGoesOn s = true
    · rw [if_pos hg, if_pos (hgo.mp hg)]
      obtain ⟨s', els', hs', -, hpure, hrun⟩ := scan_turn h₀ hcap h hg
      obtain ⟨t, els'', ht, hpure', hloop⟩ := ih hs'
      refine ⟨t, els'', ht, by rw [hpure', hpure], ?_⟩
      cases hf : findR s.work.ip s with
      | ok _ u =>
        rw [hf, Res.bind_ok] at hrun
        rw [Res.bind_ok]
        split
        · next ha => rw [if_pos ha] at hrun; rw [hrun, Res.bind_ok, hloop]
        · next ha => rw [if_neg ha] at hrun; cases hrun; exact hloop
      | raise e u => rw [hf] at hrun; cases hrun
      | fault f => rw [hf] at hrun; cases hrun
      | refuse q => rw [hf] at hrun; cases hrun
    · rw [if_neg hg, if_neg fun hc => hg (hgo.mpr hc)]
      exact ⟨s, els, h, rfl, rfl⟩

/-- What the reference compressor leaves: a block that tiles the input and fits the bound (R182 to R190). -/
structure Compressed (s t : State) (els : List Instr) : Prop where
  frame : t = { s with mem := t.mem, ht := t.ht, work := t.work }
  sa : t.work.sa = s.work.sa
  n : t.work.n = s.work.n
  da : t.work.da = s.work.da
  cap : t.work.cap = s.work.cap
  wf : t.mem.wf
  other : ∀ a, a < s.work.da ∨ s.work.da + t.work.op ≤ a → t.mem.read a = s.mem.read a
  block : dstBytes t 0 t.work.op = encodeElements els
  tiles : Tiles (srcBytes s 0 s.work.n) 0 els
  room : t.work.op ≤ s.work.n + s.work.n / 255 + 2

theorem compressRefR_quiet {s : State} (h : Ready s) (hcap : boundExact s.work.n ≤ s.work.cap) :
    ∃ t, compressRefR s = .ok () t ∧ Compressed s t (refElements (srcBytes s 0 s.work.n)) := by
  obtain ⟨u, els, hu, hpure, hloop⟩ := scanLoop_scanned h hcap (blockStart_scanned h) s.work.n
  have hru := hu.ready h
  have hn := hu.n
  have hin := hu.inside
  have hlits : srcBytes u u.work.anchor (s.work.n - u.work.anchor) = srcBytes s u.work.anchor (s.work.n - u.work.anchor) := by
    refine srcBytes_outside h hu.sa (fun a ha => hu.other a ?_) (by omega)
    have := hu.room
    unfold InDest at ha; unfold boundExact Config.boundSlack at hcap; omega
  have hll : (srcBytes s u.work.anchor (s.work.n - u.work.anchor)).length = s.work.n - u.work.anchor := length_srcBytes _ _ _
  have hroom := encodeLast_room (lits := srcBytes s u.work.anchor (s.work.n - u.work.anchor)) hu.room
  rw [hll, show u.work.anchor + (s.work.n - u.work.anchor) = s.work.n by omega] at hroom
  have hlast := emitLastR_quiet hru (pos := u.work.anchor) (ll := s.work.n - u.work.anchor) (by omega)
    (by rw [hlits, hu.cap]; unfold boundExact Config.boundSlack at hcap; omega)
  rw [compressRefR, hloop, Res.bind_ok, hn, hlast, hlits]
  have hdrop : (srcBytes s 0 s.work.n).drop u.work.anchor = srcBytes s u.work.anchor (s.work.n - u.work.anchor) := by
    have := take_drop_srcBytes (s := s) (n := s.work.n) (pos := u.work.anchor) (k := s.work.n - u.work.anchor) (by omega)
    rwa [List.take_of_length_le (by rw [List.length_drop, length_srcBytes])] at this
  have hels : refElements (srcBytes s 0 s.work.n) = els ++ [.last (srcBytes s u.work.anchor (s.work.n - u.work.anchor))] := by
    have hstart : (⟨(blockStart s).work.ip, (blockStart s).work.anchor, (blockStart s).ht, []⟩ : ScanPoint) = ⟨0, 0, [], []⟩ := rfl
    rw [refElements, length_srcBytes, ← hstart, ← hpure]
    simp only [hdrop]
  refine ⟨_, rfl, ?_⟩
  rw [hels]
  · have hb := hu.block
    rw [dstBytes, hu.da, Nat.add_zero] at hb
    generalize hbs : encodeLast (srcBytes s u.work.anchor (s.work.n - u.work.anchor)) = bs at hroom
    exact {
      frame := by rw [hu.frame]; rfl
      sa := hu.sa, n := hu.n, da := hu.da, cap := hu.cap
      wf := Memory.wf_writeList hu.wf _ _
      other := fun a ha => by
        simp only [State.stored_work, State.setWork_work] at ha
        rw [State.stored_mem, State.setWork_mem, State.setWork_work, Memory.read_writeList_other _ _ (by simp only [hu.da]; omega)]
        exact hu.other a (by omega)
      block := by
        rw [dstBytes]
        simp only [State.stored_work, State.setWork_work, State.stored_mem, State.setWork_mem, hu.da, Nat.add_zero]
        rw [Memory.readList_append, Memory.readList_writeList hu.wf, Memory.readList_writeList_other _ _ (by omega), hb,
          encodeElements_append, encodeElements_last, hbs]
      tiles := hu.tiles _ (by
        show srcBytes s _ _ = (srcBytes s 0 s.work.n).drop _
        exact hdrop.symm)
      room := hroom }

end Machine
end Sys2Proof
end

