-- ==== Sys2Proof/Laws/AnyValid.lean ====
section
/-! SUPPORT. The reference block as a function of its input, and the block an `AnyValid` compressor writes (R129). -/
namespace Sys2Proof
namespace Machine
open Safety

/-- Elements that tile an input are a block of legal matches (R129 (c), (d)). -/
theorem tiles_block {src : List Byte} {pos : Nat} {els : List Instr} (h : Tiles src pos els) :
    BlockElements els ∧ elementsShape els = true := by
  induction els generalizing pos with
  | nil => exact h.elim
  | cons i t ih =>
    match i, t with
    | .last lits, [] => exact ⟨trivial, rfl⟩
    | .seq lits o len, t =>
      obtain ⟨h1, h2, h3, h4, h5, h6, h7⟩ := h
      obtain ⟨h8, h9⟩ := ih h7
      refine ⟨⟨h3, h8⟩, ?_⟩
      have : o ≠ 0#16 := fun e => by rw [e] at h4; simp at h4
      cases t with
      | nil => exact h7.elim
      | cons => simp [elementsShape, this, h3, h9]

/-- A block whose elements tile an input decodes to it (R186). -/
theorem decodeBlock_of_tiles {src : List Byte} {els : List Instr} (h : Tiles src 0 els) {cap : Nat} (hc : src.length ≤ cap) :
    decodeBlock (encodeElements els) cap = .done src :=
  decodeBlock_done_iff.mp ⟨⟨els, parseBlock_encode (tiles_block h).1, produce_tiles (Nat.zero_le _) h⟩, hc⟩

/-! ### The machine of its own -/

theorem Memory.wf_empty : Memory.wf { cells := [], spans := [] } := by decide

theorem lab_ready (src : List Byte) (cap : Nat) : Ready (labState src cap) where
  quiet := .inl rfl
  regions := by
    have h : src.length + cap < 2 ^ (src.length + cap + 64) :=
      Nat.lt_of_lt_of_le Nat.lt_two_pow_self (Nat.pow_le_pow_right (by omega) (by omega))
    constructor
    · rw [regionsFit_iff]
      simp only [labState, Params.addrSpace, Work.reset]
      omega
    · rw [regionsDisjoint_iff]
      simp only [labState, Work.reset]
      omega
  wf := Memory.wf_writeList Memory.wf_empty _ _

theorem lab_src (src : List Byte) (cap : Nat) : srcBytes (labState src cap) 0 (labState src cap).work.n = src :=
  Memory.readList_writeList Memory.wf_empty _ _

theorem blockMeaning_eq (b : List Byte) (cap : Nat) :
    blockMeaning b cap = match decodeBlock b cap with | .done out => some out | .error _ _ _ => none := by
  have h := decompressBlockR_quiet (lab_ready b cap)
  rw [lab_src] at h
  change DecodesTo _ _ (decodeBlock b cap) at h
  unfold blockMeaning
  revert h
  cases decodeBlock b cap with
  | done out =>
    rintro ⟨-, t, h1, h2⟩
    rw [h1]
    have : t.work.op = out.length := by rw [h2.frame]
    have hb := h2.bytes
    simp only [blockOf, this]
    exact congrArg some hb
  | error e left made =>
    rintro ⟨t, h1, -⟩
    rw [h1]; rfl

/-- The reference block is the encoding of the reference elements, which tile the input, and fits the bound (R182 to R190). -/
theorem refBlock_spec (src : List Byte) :
    refBlock src = encodeElements (refElements src) ∧ Tiles src 0 (refElements src)
      ∧ (refBlock src).length ≤ src.length + src.length / 255 + 2 := by
  obtain ⟨t, h1, h2⟩ := compressRefR_quiet (lab_ready src (boundExact src.length)) (Nat.le_refl _)
  rw [lab_src] at h2
  have hb : refBlock src = dstBytes t 0 t.work.op := by unfold refBlock; rw [h1]; rfl
  have ht := h2.tiles
  rw [lab_src] at ht
  exact ⟨hb.trans h2.block, ht, by rw [hb]; exact Nat.le_trans (Nat.le_of_eq (Memory.length_readList _ _ _)) h2.room⟩

theorem refBlock_valid (c : Params) (src : List Byte) (h : boundExact src.length ≤ c.maxSize) : validBlock c src (refBlock src) = true := by
  obtain ⟨h1, h2, h3⟩ := refBlock_spec src
  have hm : maxCompressedSize c src.length = boundExact src.length := Nat.min_eq_left h
  unfold validBlock
  rw [blockMeaning_eq, hm, h1, decodeBlock_of_tiles h2 (Nat.le_refl _), parseBlock_encode (tiles_block h2).1, ← h1]
  have : (refBlock src).length ≤ boundExact src.length := Nat.le_trans h3 (by unfold boundExact Config.boundSlack; omega)
  simp [this, (tiles_block h2).2]

theorem chosenBlock_valid (c : Params) (k : Nat) (src : List Byte) (h : boundExact src.length ≤ c.maxSize) :
    validBlock c src (chosenBlock c k src) = true := by
  unfold chosenBlock
  split
  · assumption
  · exact refBlock_valid c src h

/-- Whatever is proposed, the block fits the bound (R129 (a), R189). -/
theorem chosenBlock_length (c : Params) (k : Nat) (src : List Byte) : (chosenBlock c k src).length ≤ boundExact src.length := by
  unfold chosenBlock
  split
  · next h =>
    simp only [validBlock, Bool.and_eq_true, decide_eq_true_eq] at h
    exact Nat.le_trans h.1.1 (Nat.min_le_left _ _)
  · obtain ⟨-, -, h3⟩ := refBlock_spec src
    exact Nat.le_trans h3 (by unfold boundExact Config.boundSlack; omega)

/-- Under AnyValid the block stored is the chosen one (R129). -/
theorem compressAnyR_quiet {s : State} (h : Ready s) (hcap : boundExact s.work.n ≤ s.work.cap) :
    compressAnyR s =
      .ok () (((blockStart s).setDraws (s.draws + 1)).stored (chosenBlock s.cfg s.draws (srcBytes s 0 s.work.n))) := by
  have h0 : Ready (blockStart s) := (h.setHt []).setWork rfl rfl rfl rfl
  have hl := chosenBlock_length s.cfg s.draws (srcBytes s 0 s.work.n)
  rw [length_srcBytes] at hl
  rw [compressAnyR, srcList_quiet h0.quiet h0.fits.1 (by exact Nat.le_of_eq (Nat.zero_add _)), Res.bind_ok]
  exact putList_stored (h0.setDraws (s.draws + 1)) (by
    show 0 + (chosenBlock s.cfg s.draws (srcBytes s 0 s.work.n)).length ≤ s.work.cap
    omega)

end Machine
end Sys2Proof
end

