-- ==== Sys2Proof/Laws/Keeps.lean ====
section
/-! SUPPORT. Every operation of the engine, from any state and whatever the platform answers, reaches its end inside one command
(`Reach`, R72): one lemma per operation. -/
namespace Sys2Proof
namespace Machine
open Safety

/-- The next operation of a sequence goes on from what the first reached. -/
theorem Res.All.next {α β : Type} {r : Res α} {k : α → State → Res β} {s : State} (h : r.All (Reach s))
    (hk : ∀ a t, Reach s t → (k a t).All (Reach t)) : (r.bind k).All (Reach s) :=
  Res.All.bind h (fun _ h => h) fun a t ht => (hk a t ht).mono fun _ hu => ht.trans hu

theorem Res.All.from {α : Type} {r : Res α} {s t : State} (h : Reach s t) (hr : r.All (Reach t)) : r.All (Reach s) :=
  hr.mono fun _ hu => h.trans hu

theorem Reach.setIp (s : State) (v : Nat) : Reach s (s.setIp v) := Reach.setWork rfl rfl rfl rfl
theorem Reach.setOp (s : State) (v : Nat) : Reach s (s.setOp v) := Reach.setWork rfl rfl rfl rfl
theorem Reach.setRet (s : State) (v : Nat) : Reach s (s.setRet v) := Reach.setWork rfl rfl rfl rfl

/-! ### Reads and writes -/

theorem put_all (b : Byte) (s : State) : (put b s).All (Reach s) :=
  (dstWrite_all _ _ s).next fun _ t _ => Reach.setOp t _

theorem putList_all (bs : List Byte) (s : State) : (putList bs s).All (Reach s) := by
  induction bs generalizing s with
  | nil => exact Reach.refl s
  | cons b t ih => exact (put_all b s).next fun _ u _ => ih u

theorem srcList_all (pos k : Nat) (s : State) : (srcList pos k s).All (Reach s) := by
  induction k generalizing pos s with
  | zero => exact Reach.refl s
  | succ k ih => exact (srcByte_all pos s).next fun _ t _ => (ih (pos + 1) t).next fun _ u _ => Reach.refl u

theorem srcWindow_all (p : Nat) (s : State) : (srcWindow p s).All (Reach s) :=
  (srcByte_all p s).next fun _ t _ => (srcByte_all _ t).next fun _ t _ => (srcByte_all _ t).next fun _ t _ =>
    (srcByte_all _ t).next fun _ t _ => Reach.refl t

/-! ### The copy engine -/

theorem copySrc_all (pos dst k : Nat) (s : State) : (copySrc pos dst k s).All (Reach s) := by
  induction k generalizing pos dst s with
  | zero => exact Reach.refl s
  | succ k ih => exact (srcByte_all pos s).next fun b t _ => (dstWrite_all dst b t).next fun _ u _ => ih _ _ u

theorem copyDst_all (frm dst k : Nat) (s : State) : (copyDst frm dst k s).All (Reach s) := by
  induction k generalizing frm dst s with
  | zero => exact Reach.refl s
  | succ k ih => exact (dstByte_all dst frm s).next fun b t _ => (dstWrite_all dst b t).next fun _ u _ => ih _ _ u

theorem copyLiteralsR_all (pos l : Nat) (s : State) : (copyLiteralsR pos l s).All (Reach s) :=
  (copySrc_all _ _ _ s).next fun _ t _ => Reach.setOp t _

theorem copyLiteralsDecR_all (l : Nat) (s : State) : (copyLiteralsDecR l s).All (Reach s) :=
  (copySrc_all _ _ _ s).next fun _ _ _ => Reach.setWork rfl rfl rfl rfl

theorem copyMatchR_all (o : BitVec 16) (l : Nat) (s : State) : (copyMatchR o l s).All (Reach s) := by
  unfold copyMatchR
  split
  · exact (copyDst_all _ _ _ s).next fun _ t _ => Reach.setOp t _
  · trivial

/-! ### The match finder and extender -/

theorem findR_all (p : Nat) (s : State) : (findR p s).All (Reach s) := by
  refine (srcWindow_all p s).next fun v t _ => ?_
  have h : Reach t ((t.setHt (t.ht.set (hash4 v) p)).setWork
      { t.work with seq4 := v, h := hash4 v, ref := t.ht.get (hash4 v), accept := false }) :=
    (Reach.setHt fun hw => Table.wf_set hw _ _).trans (Reach.setWork rfl rfl rfl rfl)
  simp only
  split
  · exact h
  · exact Res.All.from h ((srcWindow_all _ _).next fun _ _ _ => Reach.setWork rfl rfl rfl rfl)

theorem commonPrefix_all (a b r k : Nat) (s : State) : (commonPrefix a b r k s).All (Reach s) := by
  induction r generalizing k s with
  | zero => exact Reach.refl s
  | succ r ih =>
    refine (srcByte_all _ s).next fun x t _ => (srcByte_all _ t).next fun y u _ => ?_
    split
    · exact ih _ u
    · exact Reach.refl u

theorem extendR_all (a b max : Nat) (s : State) : (extendR a b max s).All (Reach s) :=
  (commonPrefix_all _ _ _ _ s).next fun k t _ => Reach.setRet t k

/-! ### The token encoder -/

theorem writeExtR_all (v : Nat) (s : State) : (writeExtR v s).All (Reach s) := putList_all _ s

theorem writeLenExt_all (v : Nat) (s : State) : (writeLenExt v s).All (Reach s) := by
  unfold writeLenExt
  split
  · exact writeExtR_all _ s
  · exact Reach.refl s

theorem emitSeqR_all (pos ll : Nat) (o : BitVec 16) (lm : Nat) (s : State) : (emitSeqR pos ll o lm s).All (Reach s) :=
  Res.All.from (Reach.setWork
    (w := { s.work with token := tokenByte (lenNibble ll) (lenNibble (lm - Config.minMatch)) }) rfl rfl rfl rfl) ((put_all _ _).next fun _ t _ => (writeLenExt_all _ t).next fun _ t _ =>
    (copyLiteralsR_all _ _ t).next fun _ t _ => (putList_all _ t).next fun _ t _ => writeLenExt_all _ t)

theorem emitLastR_all (pos ll : Nat) (s : State) : (emitLastR pos ll s).All (Reach s) :=
  Res.All.from (Reach.setWork (w := { s.work with token := tokenByte (lenNibble ll) 0#4 }) rfl rfl rfl rfl) ((put_all _ _).next fun _ t _ => (writeLenExt_all _ t).next fun _ t _ =>
    copyLiteralsR_all _ _ t)

/-! ### The block decompressor -/

theorem readExt_all (r v : Nat) (s : State) : (readExt r v s).All (Reach s) := by
  induction r generalizing v s with
  | zero => exact Reach.refl s
  | succ r ih =>
    refine (srcByte_all _ s).next fun b t _ => Res.All.from (Reach.setIp t (t.work.ip + 1)) ?_
    simp only
    split
    · exact ih _ _
    · exact Reach.refl _

theorem readLen_all (nib : BitVec 4) (s : State) : (readLen nib s).All (Reach s) := by
  unfold readLen
  split
  · exact readExt_all _ _ s
  · exact Reach.refl s

theorem literalPart_all (s : State) : (literalPart s).All (Reach s) := by
  refine (srcByte_all _ s).next fun b t _ => Res.All.from
    (Reach.setWork (w := { t.work with token := b, ip := t.work.ip + 1 }) rfl rfl rfl rfl) ((readLen_all _ _).next fun ll u _ =>
    Res.All.from (Reach.setWork (w := { u.work with litLen := ll }) rfl rfl rfl rfl) ?_)
  simp only
  split
  · exact Reach.refl _
  · split
    · exact Reach.refl _
    · exact copyLiteralsDecR_all _ _

theorem matchPart_all (s : State) : (matchPart s).All (Reach s) := by
  unfold matchPart
  split
  · exact Reach.refl s
  · refine (srcByte_all _ s).next fun lo t _ => (srcByte_all _ t).next fun hi u _ => ?_
    refine Res.All.from (Reach.setWork (w := { u.work with offset := BitVec.ofNat 16 (leVal [lo, hi]), ip := u.work.ip + 2 })
      rfl rfl rfl rfl) ?_
    simp only
    split
    · exact Reach.refl _
    · split
      · exact Reach.refl _
      · refine (readLen_all _ _).next fun m v _ =>
          Res.All.from (Reach.setWork (w := { v.work with matchLen := Config.minMatch + m }) rfl rfl rfl rfl) ?_
        split
        · exact Reach.refl _
        · exact copyMatchR_all _ _ _

theorem decodeLoop_all (fuel : Nat) (s : State) : (decodeLoop fuel s).All (Reach s) := by
  induction fuel generalizing s with
  | zero => exact Reach.refl s
  | succ fuel ih =>
    rw [decodeLoop]
    split
    · refine (literalPart_all s).next fun _ t _ => ?_
      split
      · exact Reach.refl t
      · exact (matchPart_all t).next fun _ u _ => ih u
    · exact Reach.refl s

theorem decompressBlockR_all (s : State) : (decompressBlockR s).All (Reach s) :=
  Res.All.from (Reach.setWork (w := { s.work with ip := 0, op := 0 }) rfl rfl rfl rfl) (decodeLoop_all _ _)

/-! ### The stream elements -/

theorem afterLiterals_reach (s : State) : Reach s (afterLiterals s) := Reach.setPoint _ _

theorem beginLiterals_all (ll : Nat) (s : State) : (beginLiterals ll s).All (Reach s) := by
  refine Res.All.from (Reach.setWork (w := { s.work with litLen := ll, idx := 0 }) rfl rfl rfl rfl) ?_
  unfold beginLiterals
  simp only
  split
  · exact Reach.refl _
  · split
    · exact Reach.refl _
    · split
      · exact afterLiterals_reach _
      · exact Reach.setPoint _ _

theorem beginMatch_all (m : Nat) (s : State) : (beginMatch m s).All (Reach s) :=
  Reach.trans (t := s.setWork { s.work with matchLen := Config.minMatch + m }) (Reach.setWork rfl rfl rfl rfl) (Reach.setPoint _ _)

theorem tokenR_all (l m : BitVec 4) (s : State) : (tokenR l m s).All (Reach s) := by
  refine Res.All.from (Reach.setWork (w := { s.work with token := tokenByte l m, ip := s.work.ip + 1, ret := l.toNat })
    rfl rfl rfl rfl) ?_
  unfold tokenR
  simp only
  split
  · exact Reach.setPoint _ _
  · exact beginLiterals_all _ _

theorem extContR_all (s : State) : (extContR s).All (Reach s) := Reach.setWork rfl rfl rfl rfl

theorem extTermR_all (t : Byte) (s : State) : (extTermR t s).All (Reach s) := by
  refine Res.All.from (Reach.setWork (w := { s.work with ret := s.work.ret + t.toNat, ip := s.work.ip + 1 }) rfl rfl rfl rfl) ?_
  unfold extTermR
  simp only
  split
  · exact beginLiterals_all _ _
  · exact beginMatch_all _ _
  · exact Reach.refl _

theorem literalR_all (b : Byte) (s : State) : (literalR b s).All (Reach s) := by
  refine (dstWrite_all _ _ s).next fun _ t _ => ?_
  split
  · exact Reach.setWork rfl rfl rfl rfl
  · refine Reach.trans ?_ (afterLiterals_reach _)
    exact Reach.setWork rfl rfl rfl rfl

theorem offset16R_all (o : BitVec 16) (s : State) : (offset16R o s).All (Reach s) := by
  refine Res.All.from (Reach.setWork
    (w := { s.work with offset := o, ip := s.work.ip + 2, ret := (tokenMatch s.work.token).toNat }) rfl rfl rfl rfl) ?_
  unfold offset16R
  simp only
  split
  · exact Reach.refl _
  · split
    · exact Reach.refl _
    · split
      · exact Reach.setPoint _ _
      · exact beginMatch_all _ _

theorem copyStepR_all (s : State) : (copyStepR s).All (Reach s) := by
  unfold copyStepR
  split
  · exact Reach.refl _
  · exact (copyMatchR_all _ _ s).next fun _ t _ => Reach.setPoint t _

theorem literalsR_all (bs : List Byte) (s : State) : (literalsR bs s).All (Reach s) := by
  induction bs generalizing s with
  | nil => exact Reach.refl s
  | cons b t ih => exact (literalR_all b s).next fun _ u _ => ih u

theorem extContsR_all (k : Nat) (s : State) : (extContsR k s).All (Reach s) := by
  induction k generalizing s with
  | zero => exact Reach.refl s
  | succ k ih => exact (extContR_all s).next fun _ u _ => ih u

theorem lenExtR_all (v : Nat) (s : State) : (lenExtR v s).All (Reach s) := by
  unfold lenExtR
  split
  · exact (extContsR_all _ s).next fun _ u _ => extTermR_all _ u
  · exact Reach.refl s

theorem seqR_all (lits : List Byte) (o : BitVec 16) (len : Nat) (s : State) : (seqR lits o len s).All (Reach s) :=
  (tokenR_all _ _ s).next fun _ t _ => (lenExtR_all _ t).next fun _ t _ => (literalsR_all _ t).next fun _ t _ =>
    (offset16R_all _ t).next fun _ t _ => (lenExtR_all _ t).next fun _ t _ => copyStepR_all t

theorem lastR_all (lits : List Byte) (s : State) : (lastR lits s).All (Reach s) :=
  (tokenR_all _ _ s).next fun _ t _ => (lenExtR_all _ t).next fun _ t _ => literalsR_all _ t

/-! ### The block compressor and the commands -/

theorem blockStart_reach (s : State) : Reach s (blockStart s) :=
  (Reach.setHt fun _ => ⟨List.Pairwise.nil, fun _ h => nomatch h⟩).trans (Reach.setWork rfl rfl rfl rfl)

theorem encodeMatchR_all (s : State) : (encodeMatchR s).All (Reach s) :=
  (extendR_all _ _ _ s).next fun _ t _ => Res.All.from (t := measured t) (Reach.setWork rfl rfl rfl rfl)
    ((emitSeqR_all _ _ _ _ _).next fun _ _ _ => Reach.setWork rfl rfl rfl rfl)

theorem scanLoop_all (fuel : Nat) (s : State) : (scanLoop fuel s).All (Reach s) := by
  induction fuel generalizing s with
  | zero => exact Reach.refl s
  | succ fuel ih =>
    rw [scanLoop]
    split
    · refine (findR_all _ s).next fun _ t _ => ?_
      split
      · exact (encodeMatchR_all t).next fun _ u _ => ih u
      · exact Res.All.from (Reach.setIp t _) (ih _)
    · exact Reach.refl s

theorem compressRefR_all (s : State) : (compressRefR s).All (Reach s) :=
  Res.All.from (blockStart_reach s) ((scanLoop_all _ _).next fun _ t _ => emitLastR_all _ _ t)

theorem compressAnyR_all (s : State) : (compressAnyR s).All (Reach s) :=
  Res.All.from (blockStart_reach s) ((srcList_all _ _ _).next fun _ t _ => Res.All.from (Reach.setDraws t _) (putList_all _ _))

theorem compressBlockR_all (s : State) : (compressBlockR s).All (Reach s) := by
  unfold compressBlockR
  split
  · exact compressRefR_all s
  · exact compressAnyR_all s

theorem commandBlock_all (c : Command) (s : State) : (commandBlock c s).All (Reach s) := by
  cases c
  · exact compressBlockR_all s
  · exact decompressBlockR_all s
  · exact decompressBlockR_all s
  · exact Reach.refl s

/-- The region checks end in the same state (R74). -/
theorem checkRegions_all (s : State) : (checkRegions s).All (· = s) := by
  unfold checkRegions; split
  · rfl
  · split
    · rfl
    · rfl

theorem checkDevices_all (s : State) : (checkDevices s).All (· = s) := by
  unfold checkDevices; split
  · trivial
  · rfl

/-- The checks before a block change nothing (R293). -/
theorem firstChecks_all (c : Command) (s : State) : (firstChecks c s).All (· = s) := by
  cases c
  · refine Res.All.bind (checkRegions_all s) (fun _ h => h) fun _ t h => ?_
    subst h; split
    · rfl
    · exact checkDevices_all t
  · exact Res.All.bind (checkRegions_all s) (fun _ h => h) fun _ t h => h ▸ checkDevices_all t
  · exact Res.All.bind (checkRegions_all s) (fun _ h => h) fun _ t h => h ▸ checkDevices_all t
  · rfl

theorem resultOf_all (c : Command) (s : State) : (resultOf c s).All (· = s) := by
  cases c
  · rfl
  · rfl
  · simp only [resultOf]; split
    · rfl
    · rfl
  · rfl

theorem commandBody_all (c : Command) (s : State) : (commandBody c s).All (Reach s) :=
  ((firstChecks_all c s).mono fun _ h => h ▸ Reach.refl _).next fun _ t _ => (commandBlock_all c t).next fun _ u _ =>
    (resultOf_all c u).mono fun _ h => h ▸ Reach.refl _

end Machine
end Sys2Proof
end

