-- ==== Sys2Proof/Laws/Bus.lean ====
section
/-! SUPPORT. What the platform's answers can do to an operation of the engine (R81): raise `BusError` somewhere, or nothing; then it
does what it does when no error is coming. One lemma per operation. -/
namespace Sys2Proof
namespace Machine
open Safety

/-- `r` is a bus error, or it is `r₀` with other answers left. -/
def BusTwin {α : Type} (r r₀ : Res α) : Prop :=
  (∃ t, r = .raise .busError t) ∨
    match r₀ with
    | .ok a t => t.bus = [] ∧ ∃ l, r = .ok a (t.setBus l)
    | .raise e t => t.bus = [] ∧ ∃ l, r = .raise e (t.setBus l)
    | .fault f => r = .fault f
    | .refuse q => r = .refuse q

theorem BusTwin.ok {α : Type} (a : α) {s : State} (h : s.bus = []) (l : List Bool) : BusTwin (.ok a (s.setBus l)) (.ok a s) :=
  .inr ⟨h, l, rfl⟩

theorem BusTwin.raise {α : Type} (e : ErrCode) {s : State} (h : s.bus = []) (l : List Bool) :
    BusTwin (.raise e (s.setBus l) : Res α) (.raise e s) :=
  .inr ⟨h, l, rfl⟩

theorem BusTwin.bind {α β : Type} {r r₀ : Res α} {k k₀ : α → State → Res β} (h : BusTwin r r₀)
    (hk : ∀ a t l, t.bus = [] → BusTwin (k a (t.setBus l)) (k₀ a t)) : BusTwin (r.bind k) (r₀.bind k₀) := by
  rcases h with ⟨t, rfl⟩ | h
  · exact .inl ⟨t, rfl⟩
  · cases r₀ with
    | ok a t => obtain ⟨hb, l, rfl⟩ := h; exact hk a t l hb
    | raise e t => obtain ⟨hb, l, rfl⟩ := h; exact .inr ⟨hb, l, rfl⟩
    | fault f => cases h; exact .inr rfl
    | refuse q => cases h; exact .inr rfl

theorem BusTwin.ite {α : Type} {c : Prop} [Decidable c] {r r₀ q q₀ : Res α} (ht : BusTwin r r₀) (he : BusTwin q q₀) :
    BusTwin (if c then r else q) (if c then r₀ else q₀) := by
  split
  · exact ht
  · exact he

/-! ### Accesses -/

theorem busAnswer_twin {s : State} (h : s.bus = []) (l : List Bool) : BusTwin (busAnswer (s.setBus l)) (busAnswer s) := by
  have h0 : busAnswer s = .ok () s := busAnswer_quiet (.inr h)
  rw [h0]
  unfold busAnswer
  split
  · split
    · exact .ok () h _
    · exact .ok () h _
    · exact .inl ⟨_, rfl⟩
  · exact .ok () h _

theorem memRead_twin (a : Nat) {s : State} (h : s.bus = []) (l : List Bool) : BusTwin (memRead a (s.setBus l)) (memRead a s) := by
  unfold memRead
  by_cases ha : a < s.cfg.addrSpace
  · rw [if_pos (by exact ha), if_pos ha]
    exact (busAnswer_twin h l).bind fun _ t l hb => .ok _ hb l
  · rw [if_neg (by exact ha), if_neg ha]
    exact .inr rfl

theorem memWrite_twin (a : Nat) (b : Byte) {s : State} (h : s.bus = []) (l : List Bool) :
    BusTwin (memWrite a b (s.setBus l)) (memWrite a b s) := by
  unfold memWrite
  by_cases ha : a < s.cfg.addrSpace
  · rw [if_pos (by exact ha), if_pos ha]
    exact (busAnswer_twin h l).bind fun _ t l hb => .ok _ (s := t.setMem (t.mem.write a b)) hb l
  · rw [if_neg (by exact ha), if_neg ha]
    exact .inr rfl

theorem srcByte_twin (i : Nat) {s : State} (h : s.bus = []) (l : List Bool) : BusTwin (srcByte i (s.setBus l)) (srcByte i s) := by
  unfold srcByte
  by_cases hi : i < s.work.n
  · rw [if_pos (by exact hi), if_pos hi]; exact memRead_twin _ h l
  · rw [if_neg (by exact hi), if_neg hi]; exact .inr rfl

theorem dstByte_twin (w j : Nat) {s : State} (h : s.bus = []) (l : List Bool) :
    BusTwin (dstByte w j (s.setBus l)) (dstByte w j s) := by
  unfold dstByte
  by_cases hi : j < w ∧ j < s.work.cap
  · rw [if_pos (by exact hi), if_pos hi]; exact memRead_twin _ h l
  · rw [if_neg (by exact hi), if_neg hi]; exact .inr rfl

theorem dstWrite_twin (j : Nat) (b : Byte) {s : State} (h : s.bus = []) (l : List Bool) :
    BusTwin (dstWrite j b (s.setBus l)) (dstWrite j b s) := by
  unfold dstWrite
  by_cases hi : j < s.work.cap
  · rw [if_pos (by exact hi), if_pos hi]; exact memWrite_twin _ _ h l
  · rw [if_neg (by exact hi), if_neg hi]; exact .inr rfl

theorem put_twin (b : Byte) {s : State} (h : s.bus = []) (l : List Bool) : BusTwin (put b (s.setBus l)) (put b s) :=
  (dstWrite_twin _ _ h l).bind fun _ t l hb => .ok _ (s := t.setOp (t.work.op + 1)) hb l

theorem putList_twin (bs : List Byte) {s : State} (h : s.bus = []) (l : List Bool) :
    BusTwin (putList bs (s.setBus l)) (putList bs s) := by
  induction bs generalizing s l with
  | nil => exact .ok _ h l
  | cons b t ih => exact (put_twin b h l).bind fun _ u l hb => ih hb l

theorem srcList_twin (pos k : Nat) {s : State} (h : s.bus = []) (l : List Bool) :
    BusTwin (srcList pos k (s.setBus l)) (srcList pos k s) := by
  induction k generalizing pos s l with
  | zero => exact .ok _ h l
  | succ k ih => exact (srcByte_twin pos h l).bind fun _ t l hb => (ih (pos + 1) hb l).bind fun _ u l hb => .ok _ hb l

theorem srcWindow_twin (p : Nat) {s : State} (h : s.bus = []) (l : List Bool) :
    BusTwin (srcWindow p (s.setBus l)) (srcWindow p s) :=
  (srcByte_twin p h l).bind fun _ _ l h => (srcByte_twin _ h l).bind fun _ _ l h => (srcByte_twin _ h l).bind fun _ _ l h =>
    (srcByte_twin _ h l).bind fun _ _ l h => .ok _ h l

/-! ### Units -/

theorem copySrc_twin (pos dst k : Nat) {s : State} (h : s.bus = []) (l : List Bool) :
    BusTwin (copySrc pos dst k (s.setBus l)) (copySrc pos dst k s) := by
  induction k generalizing pos dst s l with
  | zero => exact .ok _ h l
  | succ k ih => exact (srcByte_twin pos h l).bind fun b t l hb => (dstWrite_twin dst b hb l).bind fun _ u l hb => ih _ _ hb l

theorem copyDst_twin (frm dst k : Nat) {s : State} (h : s.bus = []) (l : List Bool) :
    BusTwin (copyDst frm dst k (s.setBus l)) (copyDst frm dst k s) := by
  induction k generalizing frm dst s l with
  | zero => exact .ok _ h l
  | succ k ih => exact (dstByte_twin dst frm h l).bind fun b t l hb => (dstWrite_twin dst b hb l).bind fun _ u l hb => ih _ _ hb l

theorem copyLiteralsR_twin (pos k : Nat) {s : State} (h : s.bus = []) (l : List Bool) :
    BusTwin (copyLiteralsR pos k (s.setBus l)) (copyLiteralsR pos k s) :=
  (copySrc_twin _ _ _ h l).bind fun _ t l hb => .ok _ (s := t.setOp (t.work.op + k)) hb l

theorem copyLiteralsDecR_twin (k : Nat) {s : State} (h : s.bus = []) (l : List Bool) :
    BusTwin (copyLiteralsDecR k (s.setBus l)) (copyLiteralsDecR k s) :=
  (copySrc_twin _ _ _ h l).bind fun _ t l hb =>
    .ok _ (s := t.setWork { t.work with ip := t.work.ip + k, op := t.work.op + k }) hb l

theorem copyMatchR_twin (o : BitVec 16) (k : Nat) {s : State} (h : s.bus = []) (l : List Bool) :
    BusTwin (copyMatchR o k (s.setBus l)) (copyMatchR o k s) := by
  unfold copyMatchR
  by_cases ho : o.toNat ≤ s.work.op
  · rw [if_pos (by exact ho), if_pos ho]
    exact (copyDst_twin _ _ _ h l).bind fun _ t l hb => .ok _ (s := t.setOp (t.work.op + k)) hb l
  · rw [if_neg (by exact ho), if_neg ho]; exact .inr rfl

theorem findR_twin (p : Nat) {s : State} (h : s.bus = []) (l : List Bool) : BusTwin (findR p (s.setBus l)) (findR p s) := by
  refine (srcWindow_twin p h l).bind fun v t l hb => ?_
  have h1 : ((t.setHt (t.ht.set (hash4 v) p)).setWork
      { t.work with seq4 := v, h := hash4 v, ref := t.ht.get (hash4 v), accept := false }).bus = [] := hb
  exact .ite (.ok _ h1 l) ((srcWindow_twin _ h1 l).bind fun v' u l hb =>
    .ok _ (s := u.setWork { u.work with accept := v' == v }) hb l)

theorem commonPrefix_twin (a b r k : Nat) {s : State} (h : s.bus = []) (l : List Bool) :
    BusTwin (commonPrefix a b r k (s.setBus l)) (commonPrefix a b r k s) := by
  induction r generalizing k s l with
  | zero => exact .ok _ h l
  | succ r ih =>
    refine (srcByte_twin _ h l).bind fun x t l hb => (srcByte_twin _ hb l).bind fun y u l hb => ?_
    split
    · exact ih _ hb l
    · exact .ok _ hb l

theorem extendR_twin (a b max : Nat) {s : State} (h : s.bus = []) (l : List Bool) :
    BusTwin (extendR a b max (s.setBus l)) (extendR a b max s) :=
  (commonPrefix_twin _ _ _ _ h l).bind fun k t l hb => .ok _ (s := t.setRet k) hb l

theorem writeLenExt_twin (v : Nat) {s : State} (h : s.bus = []) (l : List Bool) :
    BusTwin (writeLenExt v (s.setBus l)) (writeLenExt v s) := by
  unfold writeLenExt
  split
  · exact putList_twin _ h l
  · exact .ok _ h l

theorem emitSeqR_twin (pos ll : Nat) (o : BitVec 16) (lm : Nat) {s : State} (h : s.bus = []) (l : List Bool) :
    BusTwin (emitSeqR pos ll o lm (s.setBus l)) (emitSeqR pos ll o lm s) :=
  (put_twin _ (s := s.setWork { s.work with token := tokenByte (lenNibble ll) (lenNibble (lm - Config.minMatch)) }) h l).bind
    fun _ _ l h => (writeLenExt_twin _ h l).bind fun _ _ l h => (copyLiteralsR_twin _ _ h l).bind fun _ _ l h =>
      (putList_twin _ h l).bind fun _ _ l h => writeLenExt_twin _ h l

theorem emitLastR_twin (pos ll : Nat) {s : State} (h : s.bus = []) (l : List Bool) :
    BusTwin (emitLastR pos ll (s.setBus l)) (emitLastR pos ll s) :=
  (put_twin _ (s := s.setWork { s.work with token := tokenByte (lenNibble ll) 0#4 }) h l).bind
    fun _ _ l h => (writeLenExt_twin _ h l).bind fun _ _ l h => copyLiteralsR_twin _ _ h l

/-! ### The decode loop -/

theorem readExt_twin (r v : Nat) {s : State} (h : s.bus = []) (l : List Bool) : BusTwin (readExt r v (s.setBus l)) (readExt r v s) := by
  induction r generalizing v s l with
  | zero => exact .raise _ h l
  | succ r ih =>
    refine (srcByte_twin _ h l).bind fun b t l hb => ?_
    dsimp only
    split
    · exact ih _ (s := t.setIp (t.work.ip + 1)) hb l
    · exact .ok _ (s := t.setIp (t.work.ip + 1)) hb l

theorem readLen_twin (nib : BitVec 4) {s : State} (h : s.bus = []) (l : List Bool) :
    BusTwin (readLen nib (s.setBus l)) (readLen nib s) := by
  unfold readLen
  split
  · exact readExt_twin _ _ h l
  · exact .ok _ h l

theorem literalPart_twin {s : State} (h : s.bus = []) (l : List Bool) : BusTwin (literalPart (s.setBus l)) (literalPart s) := by
  refine (srcByte_twin _ h l).bind fun b t l hb => ?_
  refine (readLen_twin (tokenLit b) (s := t.setWork { t.work with token := b, ip := t.work.ip + 1 }) hb l).bind fun ll u l hb => ?_
  have h1 : (u.setWork { u.work with litLen := ll }).bus = [] := hb
  exact .ite (.raise _ h1 l) (.ite (.raise _ h1 l) (copyLiteralsDecR_twin ll h1 l))

theorem matchPart_twin {s : State} (h : s.bus = []) (l : List Bool) : BusTwin (matchPart (s.setBus l)) (matchPart s) := by
  refine .ite (.raise _ h l) ((srcByte_twin _ h l).bind fun lo t l hb => (srcByte_twin (t.work.ip + 1) hb l).bind fun hi u l hb => ?_)
  have h1 : (u.setWork { u.work with offset := BitVec.ofNat 16 (leVal [lo, hi]), ip := u.work.ip + 2 }).bus = [] := hb
  refine .ite (.raise _ h1 l) (.ite (.raise _ h1 l) ((readLen_twin _ h1 l).bind fun m v l hb => ?_))
  have h2 : (v.setWork { v.work with matchLen := Config.minMatch + m }).bus = [] := hb
  exact .ite (.raise _ h2 l) (copyMatchR_twin _ _ h2 l)

theorem decodeLoop_twin (fuel : Nat) {s : State} (h : s.bus = []) (l : List Bool) :
    BusTwin (decodeLoop fuel (s.setBus l)) (decodeLoop fuel s) := by
  induction fuel generalizing s l with
  | zero => exact .ok _ h l
  | succ fuel ih =>
    exact .ite ((literalPart_twin h l).bind fun _ t l hb => .ite (.ok _ hb l) ((matchPart_twin hb l).bind fun _ u l hb => ih hb l))
      (.ok _ h l)

theorem decompressBlockR_twin {s : State} (h : s.bus = []) (l : List Bool) :
    BusTwin (decompressBlockR (s.setBus l)) (decompressBlockR s) :=
  decodeLoop_twin _ (s := s.setWork { s.work with ip := 0, op := 0 }) h l

/-! ### The scan -/

theorem encodeMatchR_twin {s : State} (h : s.bus = []) (l : List Bool) : BusTwin (encodeMatchR (s.setBus l)) (encodeMatchR s) :=
  (extendR_twin _ _ _ h l).bind fun _ t l hb => (emitSeqR_twin _ _ _ _ (s := measured t) hb l).bind fun _ u l hb =>
    .ok _ (s := afterMatch u) hb l

theorem scanLoop_twin (fuel : Nat) {s : State} (h : s.bus = []) (l : List Bool) :
    BusTwin (scanLoop fuel (s.setBus l)) (scanLoop fuel s) := by
  induction fuel generalizing s l with
  | zero => exact .ok _ h l
  | succ fuel ih =>
    exact .ite ((findR_twin _ h l).bind fun _ t l hb => .ite ((encodeMatchR_twin hb l).bind fun _ u l hb => ih hb l)
      (ih (s := t.setIp (t.work.ip + 1)) hb l)) (.ok _ h l)

theorem compressRefR_twin {s : State} (h : s.bus = []) (l : List Bool) : BusTwin (compressRefR (s.setBus l)) (compressRefR s) :=
  (scanLoop_twin _ (s := blockStart s) h l).bind fun _ t l hb => emitLastR_twin _ _ hb l

theorem compressAnyR_twin {s : State} (h : s.bus = []) (l : List Bool) : BusTwin (compressAnyR (s.setBus l)) (compressAnyR s) :=
  (srcList_twin _ _ (s := blockStart s) h l).bind fun src t l hb =>
    putList_twin (chosenBlock t.cfg t.draws src) (s := t.setDraws (t.draws + 1)) hb l

theorem compressBlockR_twin {s : State} (h : s.bus = []) (l : List Bool) :
    BusTwin (compressBlockR (s.setBus l)) (compressBlockR s) := by
  unfold compressBlockR
  dsimp only [State.setBus_cfg]
  split
  · exact compressRefR_twin h l
  · exact compressAnyR_twin h l

/-- A command's block with any answers coming: a bus error, or the block as it is without. -/
theorem commandBlock_twin (c : Command) {s : State} (h : s.bus = []) (l : List Bool) :
    BusTwin (commandBlock c (s.setBus l)) (commandBlock c s) := by
  cases c
  · exact compressBlockR_twin h l
  · exact decompressBlockR_twin h l
  · exact decompressBlockR_twin h l
  · exact .ok _ h l

end Machine
end Sys2Proof
end

