-- ==== Sys2Proof/Laws/Ends.lean ====
section
/-! SUPPORT. The ends of a command: what `finish`, `raise` and a reset leave of memory (R231, R296, R322), and stores as one predicate. -/
namespace Sys2Proof
namespace Machine
open Safety

theorem freeDest_outside (s : State) (j : Nat) {a : Nat} (h : a < s.work.da + j ∨ s.work.da + s.work.cap ≤ a) :
    (s.freeDest j).read a = s.mem.read a := by
  unfold State.freeDest State.destEnd
  rw [Memory.read_havoc_outside _ (by omega)]

theorem freeDest_wf {s : State} (h : s.mem.wf) (j : Nat) : (s.freeDest j).wf := Memory.wf_havoc h _ _ _

/-- A reset keeps every byte outside the destination of the command it abandons, and every source byte (R322). -/
theorem resetMem_keeps (s : State) {a : Nat} (h : ¬ InDest s a ∨ (s.work.sa ≤ a ∧ a < s.work.sa + s.work.n)) :
    s.resetMem.read a = s.mem.read a := by
  unfold State.resetMem
  split
  · rfl
  · rfl
  · unfold State.abandonDest State.destEnd
    unfold InDest at h
    rw [Memory.read_havoc_outside _ (by omega), Memory.read_havoc_outside _ (by omega)]

theorem resetMem_wf {s : State} (h : s.mem.wf) : s.resetMem.wf := by
  unfold State.resetMem
  split
  · exact h
  · exact h
  · exact Memory.wf_havoc (Memory.wf_havoc h _ _ _) _ _ _

/-- At a command's end memory is as it stood, or its destination from `j` on is unspecified (R73, R231). -/
theorem endMem_cases (s : State) (j : Nat) : s.endMem j = s.mem ∨ s.endMem j = s.freeDest j := by
  unfold State.endMem; split
  · exact .inl rfl
  · exact .inr rfl

theorem endMem_outside (s : State) (j : Nat) {a : Nat} (h : a < s.work.da + j ∨ s.work.da + s.work.cap ≤ a) :
    (s.endMem j).read a = s.mem.read a := by
  rcases endMem_cases s j with e | e <;> rw [e]
  exact freeDest_outside s j h

theorem endMem_notInDest (s : State) (j : Nat) {a : Nat} (h : ¬ InDest s a) : (s.endMem j).read a = s.mem.read a :=
  endMem_outside s j (by unfold InDest at h; omega)

theorem endMem_wf {s : State} (h : s.mem.wf) (j : Nat) : (s.endMem j).wf := by
  rcases endMem_cases s j with e | e <;> rw [e]
  · exact h
  · exact freeDest_wf h j

/-- The result bytes of a successful command stay (R83, R231). -/
theorem endMem_result (s : State) (len : Nat) : (s.endMem len).readList s.work.da len = s.mem.readList s.work.da len :=
  Memory.readList_congr fun _ hi => endMem_outside s len (by omega)

/-! ### Stores -/

theorem stored_of_writeList {s t : State} (hw : s.mem.wf) {a : Nat} {bs : List Byte} (h : t.mem = s.mem.writeList a bs) :
    Stored s t a bs := by
  refine ⟨?_, fun x hx => ?_⟩
  · rw [h, Memory.readList_writeList hw]
  · rw [h, Memory.read_writeList_other _ _ hx]

theorem Table.wf_free (c : Params) (k : Nat) : Assoc.wf 0 (Table.free c k) := by
  unfold Table.free
  generalize Config.freeTable k = l
  have : ∀ t : Table, Assoc.wf 0 t → Assoc.wf 0 (l.foldl (fun t e => Table.set t (BitVec.ofNat 16 e.1) (e.2 % 2 ^ c.sizeW)) t) := by
    induction l with
    | nil => exact fun _ h => h
    | cons e l ih => exact fun t h => ih _ (Table.wf_set h _ _)
  exact this [] ⟨List.Pairwise.nil, fun _ h => nomatch h⟩

theorem endTable_wf {s : State} (h : Assoc.wf 0 s.ht) : Assoc.wf 0 s.endTable := by
  unfold State.endTable; split
  · exact Table.wf_free _ _
  · exact h

end Machine
end Sys2Proof
end

