-- ==== Sys2Proof/Laws/Steps.lean ====
section
/-! SUPPORT. What one step can do, said once: the engine's step reaches a state inside its command and may end it (`Closes`); a
property kept by the moves of `StepClosed` is kept by every step. -/
namespace Sys2Proof
namespace Machine
open Safety

/-- What a fetched action ends in. -/
def Fetched.outcome (f : Fetched) : Host.Outcome State Fault Refusal :=
  match f with
  | .run i t after => onNext after (exec i t)
  | .other o => o

theorem step_eq (s : State) : step s = (fetch s).outcome := by
  unfold step Fetched.outcome; split <;> simp_all

/-! ### The engine's step -/

/-- The engine's step at a line of a command. -/
theorem step_engineAt {s : State} {c : Command} {p : Point} (hm : mover s = some .engine) (hp : s.phase = .busy c p) :
    step s = (fetchEngine c p (tick s)).outcome := by
  have ht : (s.setTurns s.turns.tail).phase = .busy c p := hp
  rw [step_eq, fetch, hm]
  simp only [ht]
  rfl

/-- A command that runs goes on at the line named, and an IDLE engine stays as it is. -/
theorem setPoint_eq (p : Point) (s : State) :
    s.setPoint p = match s.phase with | .idle => s | .busy c _ => { s with phase := .busy c p } := by
  unfold State.setPoint; cases s.phase <;> rfl

/-- From `s` the engine reaches a state inside its command, or ends the command there (R121, R296). -/
def Closes (s t : State) : Prop := ∃ u, Reach s u ∧ (t = u ∨ (∃ len, t = u.finish len) ∨ ∃ e, t = u.raiseEnd e)

theorem Closes.of_reach {s t : State} (h : Reach s t) : Closes s t := ⟨t, h, .inl rfl⟩

theorem Closes.from {s t u : State} (h : Reach s t) (h' : Closes t u) : Closes s u :=
  let ⟨v, hv, hc⟩ := h'
  ⟨v, h.trans hv, hc⟩

theorem closes_outcome {α : Type} {r : Res α} {s t : State} (h : r.All (Reach s)) (ho : r.outcome = .next t) : Closes s t := by
  cases r with
  | ok a u => cases ho; exact ⟨_, h, .inl rfl⟩
  | raise e u => cases ho; exact ⟨_, h, .inr (.inr ⟨e, rfl⟩)⟩
  | fault f => cases ho
  | refuse q => cases ho

/-- The end of a command is one of its two ends (R121, R125, R296). -/
theorem closeBlock_closes (c : Command) (s : State) : Closes s (closeBlock c s) := by
  unfold closeBlock
  have h := resultOf_all c s
  revert h
  cases resultOf c s with
  | ok len u => intro h; cases (h : u = s); exact ⟨_, Reach.refl _, .inr (.inl ⟨len, rfl⟩)⟩
  | raise e u => intro h; cases (h : u = s); exact ⟨_, Reach.refl _, .inr (.inr ⟨e, rfl⟩)⟩
  | fault f => exact fun _ => .of_reach (Reach.refl s)
  | refuse q => exact fun _ => .of_reach (Reach.refl s)

theorem closes_ifBusy {s t u : State} {f : State → State} (hf : ∀ v, Closes v (f v)) (h : Closes s t)
    (hu : u = State.ifBusy f t) : Closes s u := by
  subst hu
  unfold State.ifBusy
  split
  · next hb =>
    obtain ⟨v, hv, rfl | ⟨len, rfl⟩ | ⟨e, rfl⟩⟩ := h
    · exact .from hv (hf t)
    · simp [State.busy] at hb
    · simp [State.busy] at hb
  · exact h

/-- An operation of the engine and the sequencing after it. -/
theorem closes_run {α : Type} {r : Res α} {s t : State} {f : State → State} (hf : ∀ v, Closes v (f v)) (h : r.All (Reach s))
    (ho : onNext (State.ifBusy f) r.outcome = .next t) : Closes s t := by
  unfold onNext at ho
  split at ho
  · next v hv => cases ho; exact closes_ifBusy hf (closes_outcome h hv) rfl
  · cases ho
  · cases ho

theorem afterFind_closes (s : State) : Closes s (afterFind s) := by
  unfold afterFind; split
  · exact .of_reach (Reach.setPoint s _)
  · exact .of_reach (Reach.setIp s _)

/-- A stream element runs as an operation of the engine. -/
theorem closes_streamElement {x : Context} {bs rest : List Byte} {i : Instr} (h : decode x bs = .instr i rest)
    (hx : x = .token ∨ x = .ext ∨ x = .literal ∨ x = .offset) {s t : State} (ho : exec i s = .next t) : Closes s t := by
  rcases hx with rfl | rfl | rfl | rfl <;> simp only [decode, decodeField] at h <;> split at h <;> try cases h
  · exact closes_outcome (tokenR_all _ _ s) ho
  · split at ho
    · exact closes_outcome (extContR_all s) ho
    · exact closes_outcome (extTermR_all _ s) ho
  · exact closes_outcome (literalR_all _ s) ho
  · exact closes_outcome (offset16R_all _ s) ho

theorem onNext_id (o : Host.Outcome State Fault Refusal) : onNext id o = o := by
  cases o <;> rfl

theorem fetchStream_closes {x : Context} (hx : x = .token ∨ x = .ext ∨ x = .literal ∨ x = .offset) (pos : Nat) {s t : State}
    (h : (fetchStream x pos s).outcome = .next t) : Closes s t := by
  unfold fetchStream at h
  split at h
  · cases h; exact ⟨s, Reach.refl s, .inr (.inr ⟨_, rfl⟩)⟩
  · have ha := srcList_all pos (contextBytes x) s
    cases hr : srcList pos (contextBytes x) s with
    | ok bs u =>
      rw [hr] at h ha
      simp only at h
      split at h
      · next hd =>
        simp only [Fetched.outcome, onNext_id] at h
        exact .from ha (closes_streamElement hd hx h)
      · cases h; exact ⟨u, ha, .inr (.inr ⟨_, rfl⟩)⟩
    | raise e u => rw [hr] at h ha; exact closes_outcome (r := (Res.raise e u : Res Unit)) ha h
    | fault f => rw [hr] at h; cases h
    | refuse q => rw [hr] at h; cases h

theorem fetchBlock_closes (c : Command) {s t : State} (h : (fetchBlock c s).outcome = .next t) : Closes s t := by
  unfold fetchBlock at h
  split at h
  · cases h; exact closeBlock_closes _ s
  · exact closes_run (closeBlock_closes _) (compressBlockR_all s) h
  · split at h
    · cases h; exact .from (blockStart_reach s) (.of_reach (Reach.setPoint _ _))
    · exact closes_run (closeBlock_closes _) (compressBlockR_all s) h
  · exact closes_run (closeBlock_closes _) (decompressBlockR_all s) h
  · cases h
    exact .from (t := s.setWork { s.work with ip := 0, op := 0 }) (Reach.setWork rfl rfl rfl rfl) (.of_reach (Reach.setPoint _ _))
  · exact closes_run (closeBlock_closes _) (decompressBlockR_all s) h
  · cases h
    exact .from (t := s.setWork { s.work with ip := 0, op := 0 }) (Reach.setWork rfl rfl rfl rfl) (.of_reach (Reach.setPoint _ _))

theorem fetchEngine_closes (c : Command) (p : Point) {s t : State} (h : (fetchEngine c p s).outcome = .next t) : Closes s t := by
  have point : ∀ q, Closes s (s.setPoint q) := fun q => .of_reach (Reach.setPoint s q)
  cases p with
  | start =>
    simp only [fetchEngine] at h
    have ha := firstChecks_all c s
    cases hr : firstChecks c s with
    | ok a u => rw [hr] at h ha; cases (ha : u = s); exact fetchBlock_closes c h
    | raise e u =>
      rw [hr] at h ha
      cases (ha : u = s)
      exact closes_outcome (r := (Res.raise e s : Res Unit)) (Reach.refl s) h
    | fault f => rw [hr] at h; cases h
    | refuse q => rw [hr] at h; cases h
  | scan =>
    simp only [fetchEngine] at h
    split at h
    · exact closes_run afterFind_closes (findR_all _ s) h
    · cases h; exact point _
  | encode =>
    exact closes_run (fun v => .from (t := measured v) (Reach.setWork rfl rfl rfl rfl) (.of_reach (Reach.setPoint _ _)))
      (extendR_all _ _ _ s) h
  | emit =>
    exact closes_run (fun v => .from (t := afterMatch v) (Reach.setWork rfl rfl rfl rfl) (.of_reach (Reach.setPoint _ _)))
      (emitSeqR_all _ _ _ _ s) h
  | last => exact closes_run (fun v => .of_reach (Reach.setPoint v _)) (emitLastR_all _ _ s) h
  | token =>
    simp only [fetchEngine] at h
    split at h
    · exact fetchStream_closes (.inl rfl) _ h
    · cases h; exact point _
  | ext k => exact fetchStream_closes (.inr (.inl rfl)) _ h
  | literal => exact fetchStream_closes (.inr (.inr (.inl rfl))) _ h
  | offset => exact fetchStream_closes (.inr (.inr (.inr rfl))) _ h
  | copy =>
    simp only [fetchEngine] at h
    split at h
    · cases h; exact ⟨s, Reach.refl s, .inr (.inr ⟨_, rfl⟩)⟩
    · exact closes_run (fun v => .of_reach (Reach.setPoint v _)) (copyMatchR_all _ _ s) h
  | finish => cases h; exact closeBlock_closes c s

/-- WHAT THE ENGINE'S STEP CAN DO: it reaches a state inside the command, or ends the command there. -/
theorem step_engine {s t : State} (hm : mover s = some .engine) (h : step s = .next t) : Closes (tick s) t := by
  rw [step_eq, fetch, hm] at h
  simp only at h
  split at h
  · exact fetchEngine_closes _ _ h
  · cases h; exact .of_reach (Reach.refl _)

/-- The engine moves only while BUSY. -/
theorem busy_of_mover {s : State} (h : mover s = some .engine) : s.busy = true := by
  unfold mover at h
  split at h
  · split at h
    · cases h
    · split at h
      · assumption
      · cases h
  · split at h
    · assumption
    · split at h <;> cases h

end Machine
end Sys2Proof
end

