-- ==== Sys2Proof/Laws/Commands.lean ====
section
/-! SUPPORT. Whole commands: at the whole pace the step after acceptance is the command run to its end, its checks are those of the
operand registers, and it ends whatever the platform answers (R122). -/
namespace Sys2Proof
namespace Machine
open Safety

theorem reach_busy {s t : State} (h : Reach s t) : t.busy = s.busy := by
  have h := h.command
  unfold running at h
  unfold State.busy
  cases hs : s.phase <;> cases ht : t.phase <;> rw [hs, ht] at h <;> simp_all

/-- The engine's move when its turn comes and it is BUSY. -/
theorem mover_engine {s : State} (hb : s.busy = true) (ht : s.turns.head? ≠ some .host) : mover s = some .engine := by
  unfold mover
  split
  · next h => rw [h] at ht; exact absurd rfl ht
  · rw [if_pos hb]

theorem step_busy {s : State} {c : Command} {p : Point} (hp : s.phase = .busy c p) (ht : s.turns.head? ≠ some .host) :
    step s = (fetchEngine c p (tick s)).outcome := by
  have hm : mover s = some .engine := mover_engine (by unfold State.busy; rw [hp]; rfl) ht
  rw [step_eq, fetch, hm]
  have hp' : (s.setTurns s.turns.tail).phase = .busy c p := hp
  simp only [hp']
  rfl

/-- A block and the sequencing of its end are the block and then the end (R121, R296). -/
theorem whole_block (c : Command) {r : Res Unit} {s : State} (hb : s.busy = true) (ha : r.All (Reach s)) :
    onNext (State.ifBusy (closeBlock c)) r.outcome = endWith (r.bind fun _ s => resultOf c s) := by
  cases r with
  | ok a t =>
    have hbt : t.busy = true := (reach_busy ha).trans hb
    simp only [Res.outcome_ok, onNext, State.ifBusy, hbt, if_true, Res.bind_ok, closeBlock]
    cases c with
    | decompressExact => by_cases hc : t.work.op = t.work.cap <;> simp [resultOf, hc, endWith]
    | _ => rfl
  | raise e t => rfl
  | fault f => rfl
  | refuse q => rfl

/-- At the whole pace the step after acceptance runs the command to its end. -/
theorem step_accept {s : State} (c : Command) (h : Waiting s) : step (s.accept c) = runCommand c (tick s) := by
  rw [step_busy (s := s.accept c) (c := c) (p := .start) rfl h.first]
  have hacc : tick (s.accept c) = (tick s).accept c := rfl
  rw [hacc, runCommand, commandBody]
  have hpace : ((tick s).accept c).pace = .whole := h.whole
  have hbusy : ((tick s).accept c).busy = true := rfl
  generalize (tick s).accept c = t at hpace hbusy
  have ha := firstChecks_all c t
  simp only [fetchEngine]
  cases hr : firstChecks c t with
  | ok a u =>
    rw [hr] at ha
    cases (ha : u = t)
    simp only [Res.bind_ok]
    cases c with
    | compress => simp only [fetchBlock, hpace]; exact whole_block .compress hbusy (compressBlockR_all t)
    | decompress => simp only [fetchBlock, hpace]; exact whole_block .decompress hbusy (decompressBlockR_all t)
    | decompressExact => simp only [fetchBlock, hpace]; exact whole_block .decompressExact hbusy (decompressBlockR_all t)
    | bound => simp only [fetchBlock]; rfl
  | raise e u => rfl
  | fault f => rfl
  | refuse q => rfl

/-! ### The checks of an accepted command -/

theorem checkRegions_accept_ok {s : State} (c : Command) (h : OperandsLegal s) : checkRegions (s.accept c) = .ok () (s.accept c) := by
  obtain ⟨h1, h2, h3⟩ := h
  have h4 : regionsFit (s.accept c).cfg (s.accept c).work = true := (regionsFit_iff _ _).mpr ⟨h1, h2⟩
  have h5 : regionsDisjoint (s.accept c).work = true := (regionsDisjoint_iff _).mpr h3
  rw [checkRegions, if_neg (by rw [h4]; decide), if_neg (by rw [h5]; decide)]

theorem checkRegions_accept_bad {s : State} (c : Command) (h : ¬ OperandsLegal s) :
    checkRegions (s.accept c) = .raise .invalidArgument (s.accept c) := by
  unfold checkRegions
  split
  · rfl
  · next h4 =>
    split
    · rfl
    · next h5 =>
      rw [Bool.not_eq_false, regionsFit_iff] at h4
      rw [Bool.not_eq_false, regionsDisjoint_iff] at h5
      exact absurd ⟨h4.1, h4.2, h5⟩ h

theorem checkDevices_accept {s : State} (c : Command) (h : OrdinaryMemory s) : checkDevices (s.accept c) = .ok () (s.accept c) := by
  have h1 : coversDevice (s.accept c).cfg (s.accept c).work.sa (s.accept c).work.n = false := h.1
  have h2 : coversDevice (s.accept c).cfg (s.accept c).work.da (s.accept c).work.cap = false := h.2
  rw [checkDevices, h1, h2]; rfl

/-- An accepted command with legal operands and no bus error coming finds its regions ready. -/
theorem accept_ready {s : State} (c : Command) (hq : Quiet s) (hw : s.mem.wf) (h : OperandsLegal s) : Ready (s.accept c) :=
  ⟨hq, ⟨(regionsFit_iff _ _).mpr ⟨h.1, h.2.1⟩, (regionsDisjoint_iff _).mpr h.2.2⟩, hw⟩

/-! ### Every command ends (R122) -/

/-- With regions that are legal and a capacity COMPRESS accepts, the block ends by completing or raising, whatever the platform
answers. -/
theorem commandBlock_ends (c : Command) {s : State} (hr : Regions s) (hw : s.mem.wf)
    (hcap : c = .compress → boundExact s.work.n ≤ s.work.cap) :
    (commandBlock c s).Sat (fun _ _ => True) (fun _ _ => True) := by
  have h0 : Ready (s.setBus []) := ⟨.inr rfl, hr, hw⟩
  have hq : (commandBlock c (s.setBus [])).Sat (fun _ _ => True) (fun _ _ => True) := by
    have hdec : (decompressBlockR (s.setBus [])).Sat (fun _ _ => True) (fun _ _ => True) := by
      have := decompressBlockR_quiet h0
      unfold DecodesTo at this
      split at this
      · obtain ⟨-, t, h1, -⟩ := this; rw [h1]; trivial
      · obtain ⟨t, h1, -⟩ := this; rw [h1]; trivial
    cases c with
    | compress =>
      simp only [commandBlock, compressBlockR]
      split
      · obtain ⟨t, h1, -⟩ := compressRefR_quiet h0 (hcap rfl); rw [h1]; trivial
      · rw [compressAnyR_quiet h0 (hcap rfl)]; trivial
    | decompress => exact hdec
    | decompressExact => exact hdec
    | bound => trivial
  have ht := commandBlock_twin c (s := s.setBus []) rfl s.bus
  rw [State.setBus_setBus, State.setBus_self] at ht
  rcases ht with ⟨t, h⟩ | h
  · rw [h]; trivial
  · revert h hq
    cases commandBlock c (s.setBus []) with
    | ok a t => rintro - ⟨-, l, h⟩; rw [h]; trivial
    | raise e t => rintro - ⟨-, l, h⟩; rw [h]; trivial
    | fault f => exact fun h => h.elim
    | refuse q => exact fun h => h.elim

end Machine
end Sys2Proof
end

