-- ==== Sys2Proof/Laws/Elements.lean ====
section
/-! SUPPORT. The block decoder one element at a time when no bus error is coming: extensions, literal runs and the pieces of a whole
sequence (R92 to R97, R195 to R209). -/
namespace Sys2Proof
namespace Machine
open Safety

theorem extContsR_eq (k : Nat) (s : State) :
    extContsR k s = .ok () (s.setWork { s.work with ret := s.work.ret + 255 * k, ip := s.work.ip + k }) := by
  induction k generalizing s with
  | zero => rfl
  | succ k ih =>
    rw [extContsR, extContR, Res.bind_ok, ih]
    simp only [State.setWork_work, State.setWork_setWork]
    rw [show s.work.ret + 255 + 255 * k = s.work.ret + 255 * (k + 1) by omega,
      show s.work.ip + 1 + k = s.work.ip + (k + 1) by omega]

/-- A literal length that passes its two checks begins its run, or for 0 ends at once (R200 to R202). -/
theorem beginLiterals_ok {s : State} {ll : Nat} (hin : s.work.ip + ll ≤ s.work.n) (hout : s.work.op + ll ≤ s.work.cap) :
    beginLiterals ll s = .ok () (if ll = 0 then afterLiterals (s.setWork { s.work with litLen := ll, idx := 0 })
      else (s.setWork { s.work with litLen := ll, idx := 0 }).setPoint .literal) := by
  rw [beginLiterals]
  simp only [State.setWork_work]
  by_cases h0 : ll = 0
  · subst h0; rw [if_neg (by omega), if_neg (by omega)]
  · rw [if_neg (by omega), if_neg (by omega)]

/-- The extension of a literal length: `ret` becomes the length, `ip` passes the extension, and the run begins (R98, R199). -/
theorem lenExtR_lit {s : State} {c : Command} {v : Nat} (hp : s.phase = .busy c (.ext .lit)) (hv : 15 ≤ v) (hr : s.work.ret = 15)
    (hin : s.work.ip + (lenExt v).length + v ≤ s.work.n) (hout : s.work.op + v ≤ s.work.cap) :
    lenExtR v s = .ok () ((s.setWork { s.work with
      ret := v, ip := s.work.ip + (lenExt v).length, litLen := v, idx := 0 }).setPoint .literal) := by
  have hl : (lenExt v).length = (v - 15) / 255 + 1 := by rw [length_lenExt, extLength, if_neg (by omega)]
  have hb : (BitVec.ofNat 8 ((v - 15) % 255)).toNat = (v - 15) % 255 := by
    rw [BitVec.toNat_ofNat]; exact Nat.mod_eq_of_lt (by omega)
  rw [lenExtR, if_pos hv, extContsR_eq, Res.bind_ok, extTermR]
  simp only [State.setWork_work, State.setWork_phase, State.setWork_setWork, hp, hb, hr]
  rw [show 15 + 255 * ((v - 15) / 255) + (v - 15) % 255 = v by omega,
    show s.work.ip + (v - 15) / 255 + 1 = s.work.ip + (lenExt v).length by omega]
  rw [beginLiterals_ok (by simp; omega) (by simp; omega), if_neg (by omega)]
  rfl

/-- The extension of a match length (R98, R199, R208). -/
theorem lenExtR_mat {s : State} {c : Command} {v : Nat} (hp : s.phase = .busy c (.ext .mat)) (hv : 15 ≤ v) (hr : s.work.ret = 15) :
    lenExtR v s = .ok () ((s.setWork { s.work with
      ret := v, ip := s.work.ip + (lenExt v).length, matchLen := Config.minMatch + v }).setPoint .copy) := by
  have hl : (lenExt v).length = (v - 15) / 255 + 1 := by rw [length_lenExt, extLength, if_neg (by omega)]
  have hb : (BitVec.ofNat 8 ((v - 15) % 255)).toNat = (v - 15) % 255 := by
    rw [BitVec.toNat_ofNat]; exact Nat.mod_eq_of_lt (by omega)
  rw [lenExtR, if_pos hv, extContsR_eq, Res.bind_ok, extTermR]
  simp only [State.setWork_work, State.setWork_phase, State.setWork_setWork, hp, hb, hr]
  rw [show 15 + 255 * ((v - 15) / 255) + (v - 15) % 255 = v by omega,
    show s.work.ip + (v - 15) / 255 + 1 = s.work.ip + (lenExt v).length by omega]
  rfl

/-- The head of a sequence, token and literal extension: the run begins (R197 to R202). -/
theorem seqHead {s : State} {c : Command} (hp : s.phase = .busy c .token) (ll : Nat) (m : BitVec 4)
    (hin : s.work.ip + 1 + (lenExt ll).length + ll ≤ s.work.n) (hout : s.work.op + ll ≤ s.work.cap) :
    ((tokenR (lenNibble ll) m s).bind fun _ s => lenExtR ll s) = .ok () (
      let t := s.setWork { s.work with
        token := tokenByte (lenNibble ll) m, ip := s.work.ip + 1 + (lenExt ll).length, ret := ll, litLen := ll, idx := 0 }
      if ll = 0 then afterLiterals t else t.setPoint .literal) := by
  rw [tokenR]
  simp only
  by_cases hv : 15 ≤ ll
  · rw [if_pos (lenNibble_of_le hv), Res.bind_ok, if_neg (by omega)]
    have hphase : ((s.setWork { s.work with
        token := tokenByte (lenNibble ll) m, ip := s.work.ip + 1, ret := (lenNibble ll).toNat }).setPoint (.ext .lit)).phase
        = .busy c (.ext .lit) := by rw [State.setPoint_phase, State.setWork_phase, hp]
    rw [lenExtR_lit hphase hv (by simp [lenNibble_of_le hv]) (by simp; omega) (by simp; omega)]
    unfold State.setPoint
    simp only [State.setWork_phase, hp]
    rfl
  · have hn : lenNibble ll ≠ 15#4 := fun e => by
      have := lenNibble_of_lt (v := ll) (by omega)
      rw [e] at this; simp at this; omega
    have hz : lenExt ll = [] := by rw [lenExt, if_neg (by omega)]
    rw [hz] at hin ⊢
    have hnat : (lenNibble ll).toNat = ll := lenNibble_of_lt (by omega)
    rw [if_neg hn, hnat, beginLiterals_ok (by simpa using hin) (by simpa using hout), Res.bind_ok, lenExtR, if_neg (by omega)]
    rfl

/-- One literal byte of a run (R226). -/
theorem literalR_quiet {s : State} (h : Quiet s) (hf : Fits s) (b : Byte) (hi : s.work.op + s.work.idx < s.work.cap) :
    literalR b s = .ok () (
      let t := s.setMem (s.mem.write (s.work.da + (s.work.op + s.work.idx)) b)
      if s.work.idx + 1 < s.work.litLen then t.setWork { s.work with idx := s.work.idx + 1 }
      else afterLiterals (t.setWork { s.work with
        ip := s.work.ip + (s.work.idx + 1), op := s.work.op + (s.work.idx + 1), idx := 0 })) := by
  rw [literalR, dstWrite_quiet h hf b hi, Res.bind_ok]
  simp only [State.setMem_work]
  by_cases hlt : s.work.idx + 1 < s.work.litLen
  · rw [if_pos hlt]; exact if_pos hlt
  · rw [if_neg hlt]; exact if_neg hlt

/-- A whole run of literals (R95, R226). -/
theorem literalsR_quiet {bs : List Byte} {s : State} (h : Quiet s) (hf : Fits s) (h0 : bs ≠ [])
    (hl : s.work.idx + bs.length = s.work.litLen) (hc : s.work.op + s.work.litLen ≤ s.work.cap) :
    literalsR bs s = .ok () (afterLiterals ((s.setMem (s.mem.writeList (s.work.da + (s.work.op + s.work.idx)) bs)).setWork
      { s.work with ip := s.work.ip + s.work.litLen, op := s.work.op + s.work.litLen, idx := 0 })) := by
  induction bs generalizing s with
  | nil => exact absurd rfl h0
  | cons b t ih =>
    rw [List.length_cons] at hl
    rw [literalsR, literalR_quiet h hf b (by omega), Res.bind_ok]
    simp only
    cases t with
    | nil =>
      rw [if_neg (by simp at hl; omega)]
      rw [show s.work.idx + 1 = s.work.litLen by simpa using hl]
      rfl
    | cons b' t =>
      rw [List.length_cons] at hl
      rw [if_pos (by omega), ih (by exact h) (by exact hf) (by simp) (by simp; omega) (by simpa using hc)]
      simp only [State.setWork_work, State.setWork_mem, State.setMem_mem]
      rw [show s.work.da + (s.work.op + (s.work.idx + 1)) = s.work.da + (s.work.op + s.work.idx) + 1 by omega]
      rfl

/-- Token, literal extension and literals of a sequence: the literals are appended, and the end of the block or the offset comes next
(R92, R197 to R204). -/
theorem seqLiterals {s : State} (h : Ready s) {c : Command} (hp : s.phase = .busy c .token) (lits : List Byte) (m : BitVec 4)
    (hin : s.work.ip + 1 + (lenExt lits.length).length + lits.length ≤ s.work.n) (hout : s.work.op + lits.length ≤ s.work.cap) :
    (((tokenR (lenNibble lits.length) m s).bind fun _ s => lenExtR lits.length s).bind fun _ s => literalsR lits s) =
      .ok () { s with
        mem := s.mem.writeList (s.work.da + s.work.op) lits
        phase := .busy c (if s.work.ip + 1 + (lenExt lits.length).length + lits.length = s.work.n then .finish else .offset)
        work := { s.work with
          token := tokenByte (lenNibble lits.length) m, ip := s.work.ip + 1 + (lenExt lits.length).length + lits.length
          op := s.work.op + lits.length, ret := lits.length, litLen := lits.length, idx := 0 } } := by
  rw [seqHead hp _ _ hin hout, Res.bind_ok]
  simp only
  by_cases h0 : lits.length = 0
  · rw [if_pos h0]
    cases List.eq_nil_of_length_eq_zero h0
    rw [literalsR, afterLiterals, State.setPoint]
    simp only [State.setWork_phase, hp, State.setWork_work]
    rfl
  · rw [if_neg h0]
    have hne : lits ≠ [] := fun e => h0 (by rw [e]; rfl)
    generalize hw : ({ s.work with
        token := tokenByte (lenNibble lits.length) m, ip := s.work.ip + 1 + (lenExt lits.length).length, ret := lits.length
        litLen := lits.length, idx := 0 } : Work) = w
    have ht : (s.setWork w).setPoint .literal = { s with phase := .busy c .literal, work := w } := by
      rw [State.setPoint]; simp only [State.setWork_phase, hp]; rfl
    rw [ht]
    have htr : Ready { s with phase := .busy c .literal, work := w } :=
      h.of_eq rfl rfl (by rw [← hw]) (by rw [← hw]) (by rw [← hw]) (by rw [← hw]) h.wf
    rw [literalsR_quiet htr.quiet htr.fits hne (by rw [← hw]; exact Nat.zero_add _) (by rw [← hw]; exact hout), ← hw]
    rfl

/-- Offset and match extension of a sequence: the copy comes next (R205 to R208). -/
theorem seqOffset {s : State} {c : Command} (hp : s.phase = .busy c .offset) {o : BitVec 16} {m : Nat}
    (hm : tokenMatch s.work.token = lenNibble m) (h0 : o ≠ 0#16) (hop : o.toNat ≤ s.work.op) :
    ((offset16R o s).bind fun _ s => lenExtR m s) = .ok () { s with
      phase := .busy c .copy
      work := { s.work with
        offset := o, ip := s.work.ip + 2 + (lenExt m).length, ret := m, matchLen := Config.minMatch + m } } := by
  have point : ∀ (w : Work) (p : Point), (s.setWork w).setPoint p = { s with phase := .busy c p, work := w } := fun w p => by
    rw [State.setPoint]; simp only [State.setWork_phase, hp]; rfl
  rw [offset16R]
  simp only [State.setWork_work, hm]
  rw [if_neg h0, if_neg (Nat.not_lt.mpr hop)]
  by_cases hv : 15 ≤ m
  · rw [if_pos (lenNibble_of_le hv), Res.bind_ok, point, lenExtR_mat (c := c) rfl hv (by simp [lenNibble_of_le hv])]
    rw [State.setPoint]
    rfl
  · have hn : lenNibble m ≠ 15#4 := fun e => by
      have := lenNibble_of_lt (v := m) (by omega)
      rw [e] at this; simp at this; omega
    have hz : lenExt m = [] := by rw [lenExt, if_neg (by omega)]
    rw [if_neg hn, lenNibble_of_lt (by omega), beginMatch, State.setWork_setWork, point, Res.bind_ok, lenExtR, if_neg (by omega), hz]
    rfl

end Machine
end Sys2Proof
end

