-- ==== Sys2Proof/Laws/HostSteps.lean ====
section
/-! SUPPORT. The host's step by its elementary moves: a property they keep (`StepClosed`) is kept by every step of the machine, by the
engine's (Laws/Steps.lean) and by the host's, software layers included (R30, R104, 47). -/
namespace Sys2Proof
namespace Machine
open Safety

/-- A property that every elementary move of engine, host and platform keeps. -/
structure StepClosed (P : State → Prop) : Prop where
  reach : ∀ {s t : State}, Reach s t → P s → P t
  finish : ∀ {s : State} (len : Nat), s.busy = true → P s → P (s.finish len)
  raised : ∀ {s : State} (e : ErrCode), s.busy = true → P s → P (s.raiseEnd e)
  accept : ∀ {s : State} (c : Command), s.phase = .idle → P s → P (s.accept c)
  invalid : ∀ {s : State}, s.phase = .idle → P s → P (s.setRegs s.regs.invalidCommand)
  write : ∀ {s : State} (off : Nat) (v : Word), P s → P (regWrite s off v)
  operands : ∀ {s : State} (sa n da cap : Nat), s.phase = .idle → P s → P (s.setOperands sa n da cap)
  reset : ∀ {s : State}, P s → P s.resetEngine
  host : ∀ {s : State} (h : HostSide), P s → P (s.setHost h)
  draws : ∀ {s : State} (k : Nat), P s → P (s.setDraws k)
  turns : ∀ {s : State} (l : List Agent), P s → P (s.setTurns l)
  unseen : ∀ {s : State} (l : List Window), P s → P (s.setUnseen l)
  store : ∀ {s : State} (a : Nat) (bs : List Byte), P s → P (s.setMem (s.mem.writeList a bs))

theorem idle_of_not_busy {s : State} (h : s.busy = false) : s.phase = .idle := by
  unfold State.busy at h
  cases hp : s.phase with
  | idle => rfl
  | busy c p => rw [hp] at h; cases h

/-- A result that never raises, and whose state satisfies `P` when it completes. -/
def Res.Calm {α : Type} (r : Res α) (P : State → Prop) : Prop :=
  match r with
  | .ok _ t => P t
  | .raise _ _ => False
  | .fault _ => True
  | .refuse _ => True

theorem Res.Calm.bind {α β : Type} {r : Res α} {k : α → State → Res β} {P Q : State → Prop} (h : r.Calm P)
    (hk : ∀ a t, P t → (k a t).Calm Q) : (r.bind k).Calm Q := by
  cases r
  · exact hk _ _ h
  · exact h
  · trivial
  · trivial

theorem Res.Calm.outcome {α : Type} {r : Res α} {P : State → Prop} (h : r.Calm P) {t : State} (ho : r.outcome = .next t) : P t := by
  cases r with
  | ok a u => cases ho; exact h
  | raise e u => exact h.elim
  | fault f => cases ho
  | refuse q => cases ho

/-- A call of host software: the state it returns with, or fails in, satisfies `P`; a stop inside it is no next state. -/
def HostRes.All {α : Type} (r : HostRes α) (P : State → Prop) : Prop :=
  match r with
  | .ok _ t => P t
  | .fail _ t => P t
  | .stop o => ∀ t, o ≠ .next t

theorem HostRes.All.bind {α β : Type} {r : HostRes α} {k : α → State → HostRes β} {P : State → Prop} (h : r.All P)
    (hk : ∀ a t, P t → (k a t).All P) : (r.bind k).All P := by
  cases r
  · exact hk _ _ h
  · exact h
  · exact h

theorem HostRes.all_of {α : Type} {r : Res α} {P : State → Prop} (h : r.Calm P) : (HostRes.of r).All P := by
  cases r with
  | ok a u => exact h
  | raise e u => exact h.elim
  | fault f => exact fun t h => nomatch h
  | refuse q => exact fun t h => nomatch h

/-! ### Elementary host accesses -/

theorem hostRange_calm {P : State → Prop} (addr len : Nat) {s : State} (h : P s) : (hostRange addr len s).Calm P := by
  unfold hostRange
  split
  · split
    · trivial
    · split
      · trivial
      · exact h
  · trivial

namespace StepClosed
variable {P : State → Prop} (hP : StepClosed P)
include hP

/-- The same property of an engine that is IDLE, for the host's calls. -/
def idle (P : State → Prop) (s : State) : Prop := P s ∧ s.phase = .idle

theorem hostStore (addr : Nat) (bs : List Byte) {s : State} (h : P s) : (hostStore addr bs s).Calm P := by
  refine (hostRange_calm addr bs.length h).bind fun _ t ht => ?_
  split
  · trivial
  · exact hP.store _ _ ht

theorem hostLoad (addr len : Nat) {s : State} (h : P s) : (hostLoad addr len s).Calm P := by
  refine (hostRange_calm addr len h).bind fun _ t ht => ?_
  show P _
  split
  · exact ht
  · exact hP.draws _ ht

theorem hostStore_idle (addr : Nat) (bs : List Byte) {s : State} (h : idle P s) : (Machine.hostStore addr bs s).Calm (idle P) := by
  refine (hostRange_calm addr bs.length h).bind fun _ t ht => ?_
  split
  · trivial
  · exact ⟨hP.store _ _ ht.1, ht.2⟩

theorem hostLoad_idle (addr len : Nat) {s : State} (h : idle P s) : (Machine.hostLoad addr len s).Calm (idle P) := by
  refine (hostRange_calm addr len h).bind fun _ t ht => ?_
  show idle P _
  split
  · exact ht
  · exact ⟨hP.draws _ ht.1, ht.2⟩

theorem hostWrite (addr size : Nat) (v : Word) {s : State} (h : P s) : (hostWrite addr size v s).Calm P := by
  unfold Machine.hostWrite
  split
  · exact hP.write _ _ h
  · exact hP.hostStore _ _ h
  · trivial

theorem hostRead (addr size : Nat) {s : State} (h : P s) : (hostRead addr size s).Calm P := by
  unfold Machine.hostRead
  split
  · refine hP.host _ ?_
    split
    · exact hP.unseen _ h
    · exact h
  · exact (hP.hostLoad _ _ h).bind fun _ t ht => hP.host _ ht
  · trivial

/-! ### Commands -/

theorem closes {s t : State} (hb : s.busy = true) (h : P s) (hc : Closes s t) : P t := by
  obtain ⟨u, hu, hc⟩ := hc
  have hbu : u.busy = true := by
    have := hu.command
    unfold running at this
    unfold State.busy at hb ⊢
    cases hp : u.phase with
    | idle =>
      rw [hp] at this
      cases hs : s.phase with
      | idle => rw [hs] at hb; cases hb
      | busy c p => rw [hs] at this; cases this
    | busy c p => rfl
  rcases hc with rfl | ⟨len, rfl⟩ | ⟨e, rfl⟩
  · exact hP.reach hu h
  · exact hP.finish len hbu (hP.reach hu h)
  · exact hP.raised e hbu (hP.reach hu h)

theorem offer (c : Command) {s : State} (h : P s) : P (offerCommand c s) := by
  unfold offerCommand
  cases hb : s.busy with
  | true => exact h
  | false => exact hP.accept c (idle_of_not_busy hb) h

/-- A word written to CMD (R120, R128, R331). -/
theorem command (v : Word) {s t : State} (h : P s) (ho : exec (decodeCommand v) s = .next t) : P t := by
  unfold decodeCommand at ho
  dsimp only at ho
  split at ho
  · cases ho; exact hP.offer _ h
  · split at ho
    · cases ho; exact hP.offer _ h
    · split at ho
      · cases ho; exact hP.offer _ h
      · split at ho
        · cases ho; exact hP.offer _ h
        · cases ho
          cases hb : s.busy with
          | true => exact h
          | false => exact hP.invalid (idle_of_not_busy hb) h

/-- A whole command run by waiting host software (R104). -/
theorem runCommand (c : Command) {s t : State} (h : idle P s) (ho : runCommand c s = .next t) : idle P t := by
  have ha : P (s.accept c) := hP.accept c h.2 h.1
  have hall := commandBody_all c (s.accept c)
  unfold Machine.runCommand endWith at ho
  split at ho
  · next hr =>
    cases ho
    rw [hr] at hall
    exact ⟨hP.closes rfl ha ⟨_, hall, .inr (.inl ⟨_, rfl⟩)⟩, rfl⟩
  · next hr =>
    cases ho
    rw [hr] at hall
    exact ⟨hP.closes rfl ha ⟨_, hall, .inr (.inr ⟨_, rfl⟩)⟩, rfl⟩
  · cases ho
  · cases ho

theorem hostRun (c : Command) (sa n da cap : Nat) {s : State} (h : idle P s) : (hostRun c sa n da cap s).All (idle P) := by
  have hs : idle P (s.setOperands sa n da cap) := ⟨hP.operands _ _ _ _ h.2 h.1, h.2⟩
  unfold Machine.hostRun
  split
  · next hr =>
    have ht := hP.runCommand c hs hr
    split
    · exact ⟨hP.unseen _ ht.1, ht.2⟩
    · exact ⟨hP.unseen _ ht.1, ht.2⟩
  · exact fun t h => nomatch h
  · exact fun t h => nomatch h

/-! ### The frame decompressor -/

theorem setHost_idle (g : HostSide) {s : State} (h : idle P s) : idle P (s.setHost g) := ⟨hP.host _ h.1, h.2⟩

theorem frameOutcome {r : HostRes FrameDec} (h : r.All (idle P)) {t : State} (ho : frameOutcome r = .next t) : P t := by
  cases r with
  | ok f u => cases ho; exact hP.host _ h.1
  | fail e u => cases ho; exact hP.host _ h.1
  | stop o => exact absurd ho (h t)

omit hP in
theorem payloadThere (f : FrameDec) (len : Nat) {s : State} (h : idle P s) : (payloadThere f len s).All (idle P) := by
  unfold Machine.payloadThere; split
  · exact h
  · exact h

omit hP in
theorem appendOutput (f : FrameDec) (k : Nat) {s : State} (h : idle P s) : (appendOutput f k s).All (idle P) := by
  unfold Machine.appendOutput; split
  · exact h
  · split
    · exact h
    · exact h

/-- An element of the frame being read (R242 to R249, R254). -/
theorem frameElement {x : Context} {bs rest : List Byte} {i : Instr} (hd : decode x bs = .instr i rest)
    (hx : ∃ p, frameContext p = some x) {s t : State} (h : idle P s) (ho : exec i s = .next t) : P t := by
  have header : ∀ f : FrameDec, P (s.setFdec f) := fun f => hP.host _ h.1
  obtain ⟨p, hp⟩ := hx
  have word : ∀ w : BitVec 32, exec (decodeBlockWord w) s = .next t → P t := by
    intro w ho
    unfold decodeBlockWord at ho
    split at ho
    · cases ho; exact header _
    · split at ho
      · refine hP.frameOutcome ?_ ho
        exact (StepClosed.payloadThere _ _ h).bind fun _ u hu => (StepClosed.appendOutput _ _ hu).bind fun g v hv =>
          (HostRes.all_of (hP.hostLoad_idle _ _ hv)).bind fun bs w hw =>
            (HostRes.all_of (hP.hostStore_idle _ _ hw)).bind fun _ z hz => hz
      · simp only [exec, execBlockCompressed] at ho
        split at ho
        · cases ho; exact h.1
        · refine hP.frameOutcome ?_ ho
          exact (StepClosed.payloadThere _ _ h).bind fun _ u hu => (hP.hostRun _ _ _ _ _ hu).bind fun k v hv =>
            (StepClosed.appendOutput _ _ hv).bind fun g z hz => hz
  cases p <;> simp only [frameContext, reduceCtorEq, Option.some.injEq] at hp <;> subst hp <;>
    simp only [decode, decodeField] at hd <;> split at hd <;> try cases hd
  · split at hd
    · cases hd; cases ho; exact header _
    · cases hd
  · cases ho; exact header _
  · cases ho; exact header _
  · cases ho; exact header _
  · cases ho; exact header _
  · exact word _ ho
  · refine hP.frameOutcome ?_ ho
    exact (HostRes.all_of (hP.hostLoad_idle _ _ h)).bind fun bs u hu => hu

theorem fetchFrame {x : Context} (hx : ∃ p, frameContext p = some x) {s t : State} (h : P s)
    (ho : (fetchFrame x s).outcome = .next t) : P t := by
  unfold Machine.fetchFrame at ho
  dsimp only at ho
  split at ho
  · cases ho; exact h
  · next hb =>
    have hi : idle P s := ⟨h, idle_of_not_busy (Bool.eq_false_iff.mpr hb)⟩
    split at ho
    · cases ho; exact hP.host _ h
    · have hl := hP.hostLoad_idle (s.host.fdec.src + s.host.fdec.cur) (contextBytes x) hi
      cases hr : Machine.hostLoad (s.host.fdec.src + s.host.fdec.cur) (contextBytes x) s with
      | ok bs u =>
        rw [hr] at ho hl
        simp only at ho
        split at ho
        · next hd =>
          simp only [Fetched.outcome, onNext_id] at ho
          exact hP.frameElement hd hx hl ho
        · cases ho; exact hP.host _ hl.1
      | raise e u => rw [hr] at hl; exact hl.elim
      | fault f => rw [hr] at ho; cases ho
      | refuse q => rw [hr] at ho; cases ho

/-! ### The frame compressor -/

theorem chunkRecord (src m scratch scratchCap : Nat) {s : State} (h : idle P s) :
    (chunkRecord src m scratch scratchCap s).All (idle P) :=
  (HostRes.all_of (hP.hostLoad_idle _ _ h)).bind fun _ t ht => (hP.hostRun _ _ _ _ _ ht).bind fun _ u hu =>
    (HostRes.all_of (hP.hostLoad_idle _ _ hu)).bind fun _ v hv => hv

theorem frameWrite (bs : List Byte) {s : State} (h : idle P s) : (frameWrite bs s).All (idle P) := by
  unfold Machine.frameWrite
  simp only
  split
  · exact h
  · exact (HostRes.all_of (hP.hostStore_idle _ _ h)).bind fun _ t ht => hP.setHost_idle _ ht

omit hP in
theorem reserveSlot {s : State} (h : idle P s) : (reserveSlot s).All (idle P) := by
  unfold Machine.reserveSlot; split
  · exact h
  · exact h

theorem frameCompPart {s : State} (h : idle P s) : (frameCompPart s).All (idle P) := by
  unfold Machine.frameCompPart
  simp only
  split
  · exact (hP.frameWrite _ h).bind fun _ t ht => hP.setHost_idle _ ht
  · split
    · exact (StepClosed.reserveSlot h).bind fun _ t ht => (hP.chunkRecord _ _ _ _ ht).bind fun _ u hu =>
        (hP.frameWrite _ hu).bind fun _ v hv => hP.setHost_idle _ hv
    · exact hP.setHost_idle _ h
  · exact (HostRes.all_of (hP.hostLoad_idle _ _ h)).bind fun _ t ht => (hP.frameWrite _ ht).bind fun _ u hu => hP.setHost_idle _ hu
  · exact h
  · exact h

theorem frameCompStep {s t : State} (h : idle P s) (ho : frameCompStep s = .next t) : P t := by
  have ha := hP.frameCompPart h
  unfold Machine.frameCompStep at ho
  cases hr : Machine.frameCompPart s with
  | ok a u => rw [hr] at ho ha; cases ho; exact ha.1
  | fail e u => rw [hr] at ho ha; cases ho; exact hP.host _ ha.1
  | stop o => rw [hr] at ho ha; exact absurd ho (ha t)

/-! ### The streaming layers -/

theorem streamHeader {s : State} (h : idle P s) : idle P (streamHeader s) := by
  unfold Machine.streamHeader; split
  · exact hP.setHost_idle _ (hP.setHost_idle _ h)
  · exact h

theorem flushBlock {s : State} (h : idle P s) : (flushBlock s).All (idle P) :=
  (HostRes.all_of (hP.hostStore_idle _ _ h)).bind fun _ t ht => (hP.chunkRecord _ _ _ _ ht).bind fun _ u hu =>
    hP.setHost_idle _ (hP.setHost_idle _ hu)

theorem accumulate (fuel : Nat) (bs : List Byte) {s : State} (h : idle P s) : (accumulate fuel bs s).All (idle P) := by
  induction fuel generalizing bs s with
  | zero => exact h
  | succ fuel ih =>
    unfold Machine.accumulate
    simp only
    split
    · exact hP.setHost_idle _ h
    · exact (hP.flushBlock (hP.setHost_idle _ h)).bind fun _ t ht => ih _ ht

theorem streamWrite (bs : List Byte) {s : State} (h : idle P s) : (streamWriteR bs s).All (idle P) := by
  unfold streamWriteR; split
  · exact h
  · exact (hP.accumulate _ _ (hP.streamHeader h)).bind fun _ t ht => ht

theorem streamFlush {s : State} (h : idle P s) : (streamFlushR s).All (idle P) := by
  unfold streamFlushR; split
  · exact h
  · split
    · exact h
    · exact (hP.flushBlock (hP.streamHeader h)).bind fun _ t ht => ht

theorem flushRemainder {s : State} (h : idle P s) : (flushRemainder s).All (idle P) := by
  unfold Machine.flushRemainder; split
  · exact h
  · exact hP.flushBlock h

theorem streamFinish {s : State} (h : idle P s) : (streamFinishR s).All (idle P) := by
  unfold streamFinishR; split
  · exact h
  · have h' : idle P (if s.cfg.streamFinishHeader then Machine.streamHeader s else s) := by
      split
      · exact hP.streamHeader h
      · exact h
    exact (hP.flushRemainder h').bind fun _ t ht => hP.setHost_idle _ (hP.setHost_idle _ ht)

theorem streamTake (k : Nat) {s : State} (h : idle P s) : (streamTake k s).All (idle P) := by
  unfold Machine.streamTake
  simp only
  split
  · exact h
  · exact (HostRes.all_of (hP.hostLoad_idle _ _ h)).bind fun _ _ ht =>
      (HostRes.all_of (hP.hostStore_idle _ _ ht)).bind fun _ _ hu => hP.setHost_idle _ hu

omit hP in
theorem hostCheck (b : Bool) (e : HostError) {s : State} (h : idle P s) : (hostCheck b e s).All (idle P) := by
  unfold Machine.hostCheck; split
  · exact h
  · exact h

theorem streamSize (flg : Byte) {s : State} (h : idle P s) : (streamSize flg s).All (idle P) := by
  unfold Machine.streamSize; split
  · exact hP.streamTake _ h
  · exact h

theorem streamReadHeader {s : State} (h : idle P s) : (streamReadHeader s).All (idle P) :=
  (hP.streamTake _ h).bind fun _ _ h => (StepClosed.hostCheck _ _ h).bind fun _ _ h => (hP.streamTake _ h).bind fun _ _ h =>
    (StepClosed.hostCheck _ _ h).bind fun _ _ h => (hP.streamTake _ h).bind fun _ _ h => (StepClosed.hostCheck _ _ h).bind fun _ _ h =>
      (hP.streamSize _ h).bind fun _ _ h => (hP.streamTake _ h).bind fun _ _ h => (StepClosed.hostCheck _ _ h).bind fun _ _ h =>
        hP.setHost_idle _ h

theorem streamFill (bs : List Byte) {s : State} (h : idle P s) : (streamFill bs s).All (idle P) := by
  unfold Machine.streamFill
  simp only
  split
  · exact h
  · exact hP.setHost_idle _ h

theorem streamTrailer {s : State} (h : idle P s) : (streamTrailer s).All (idle P) := by
  unfold Machine.streamTrailer; split
  · exact (hP.streamTake _ h).bind fun _ t ht => StepClosed.hostCheck _ _ ht
  · exact h

theorem streamNextBlock {s : State} (h : idle P s) : (streamNextBlock s).All (idle P) := by
  refine (hP.streamTake _ h).bind fun ws t ht => ?_
  simp only
  split
  · exact (hP.streamTrailer (hP.setHost_idle _ ht)).bind fun _ u hu => hu
  · refine (hP.streamTake _ ht).bind fun bs u hu => ?_
    split
    · exact (HostRes.all_of (hP.hostStore_idle _ _ hu)).bind fun _ _ hv => hP.streamFill _ hv
    · exact (hP.hostRun _ _ _ _ _ hu).bind fun k v hv => (HostRes.all_of (hP.hostLoad_idle _ _ hv)).bind fun _ w hw =>
        hP.streamFill _ hw

theorem streamDrain (k : Nat) {s : State} (h : idle P s) : (streamDrain k s).All (idle P) :=
  hP.setHost_idle _ (hP.setHost_idle _ h)

theorem streamOpen {s : State} (h : idle P s) : (streamOpen s).All (idle P) := by
  unfold Machine.streamOpen; split
  · exact hP.streamReadHeader h
  · exact h

theorem streamRead (k : Nat) {s : State} (h : idle P s) : (streamReadR k s).All (idle P) := by
  refine (hP.streamOpen h).bind fun _ t ht => ?_
  split
  · split
    · exact ht
    · exact (hP.streamNextBlock ht).bind fun _ u hu => hP.streamDrain _ hu
  · exact hP.streamDrain _ ht

theorem scompOutcome {r : HostRes Nat} (h : r.All (idle P)) {t : State} (ho : scompOutcome r = .next t) : P t := by
  cases r with
  | ok f u => cases ho; exact hP.host _ h.1
  | fail e u => cases ho; exact hP.host _ h.1
  | stop o => exact absurd ho (h t)

theorem sdecOutcome {r : HostRes Nat} (h : r.All (idle P)) {t : State} (ho : sdecOutcome r = .next t) : P t := by
  cases r with
  | ok f u => cases ho; exact hP.host _ h.1
  | fail e u => cases ho; exact hP.host _ h.1
  | stop o => exact absurd ho (h t)

/-! ### A step -/

theorem whenIdle {s w t : State} {o : Host.Outcome State Fault Refusal} (h : P s) (hw : P w)
    (hk : idle P s → o = .next t → P t) (ho : whenIdle s w o = .next t) : P t := by
  unfold Machine.whenIdle at ho
  split at ho
  · cases ho; exact hw
  · next hb => exact hk ⟨h, idle_of_not_busy (Bool.eq_false_iff.mpr hb)⟩ ho

theorem offered (i : Instr) {s : State} (h : P s) : P (s.offered i) := by
  unfold State.offered; split
  · exact h
  · split
    · exact hP.unseen _ h
    · exact h

theorem fetchAct (a : HostAct) {s w t : State} (h : P s) (hw : P w) (ho : (fetchAct a s w).outcome = .next t) : P t := by
  cases a with
  | wr addr size v =>
    simp only [Machine.fetchAct] at ho
    split at ho
    · simp only [Fetched.outcome, onNext_id] at ho
      exact hP.command v (hP.offered _ h) ho
    · exact (hP.hostWrite _ _ _ h).outcome ho
  | rd addr size => exact (hP.hostRead _ _ h).outcome ho
  | mem addr bytes => exact (hP.hostStore _ _ h).outcome ho
  | ld addr len =>
    refine Res.Calm.outcome (Res.Calm.bind (Q := P) (hP.hostLoad addr len h) fun bs t ht => ?_) ho
    exact hP.host _ ht
  | poll =>
    cases ho
    split
    · exact hw
    · exact hP.unseen _ h
  | waitIrq =>
    cases ho
    split
    · exact hP.unseen _ h
    · exact hw
  | reset => cases ho; exact hP.unseen _ (hP.reset h)
  | frameCompress _ _ _ _ _ _ => cases ho; exact hP.host _ h
  | frameCompressAlloc _ _ _ _ _ => cases ho; exact hP.host _ h
  | frameDecompress _ _ _ _ => cases ho; exact hP.host _ h
  | openCompressor _ _ _ => cases ho; exact hP.host _ h
  | dropCompressor => cases ho; exact hP.host _ h
  | streamWrite bytes => exact hP.whenIdle h hw (fun hi ho => hP.scompOutcome (hP.streamWrite _ hi) ho) ho
  | streamFlush => exact hP.whenIdle h hw (fun hi ho => hP.scompOutcome (hP.streamFlush hi) ho) ho
  | streamFinish => exact hP.whenIdle h hw (fun hi ho => hP.scompOutcome (hP.streamFinish hi) ho) ho
  | openDecompressor _ _ _ _ => cases ho; exact hP.host _ h
  | streamRead k => exact hP.whenIdle h hw (fun hi ho => hP.sdecOutcome (hP.streamRead _ hi) ho) ho

theorem fetchHost {s t : State} (h : P s) (ho : (fetchHost s).outcome = .next t) : P t := by
  unfold Machine.fetchHost at ho
  split at ho
  · next hx => exact hP.fetchFrame ⟨_, hx⟩ h ho
  · split at ho
    · exact hP.whenIdle h h (fun hi ho => hP.frameCompStep hi ho) ho
    · split at ho
      · cases ho; exact h
      · exact hP.fetchAct _ (hP.host _ h) h ho

/-- A property that the elementary moves keep is kept by every step. -/
theorem step {s t : State} (h : P s) (ho : step s = .next t) : P t := by
  cases hm : mover s with
  | none =>
    rw [step_eq, fetch, hm] at ho
    cases ho
    exact hP.turns _ h
  | some a =>
    cases a with
    | engine =>
      have hb : (tick s).busy = true := busy_of_mover (s := s) hm
      exact hP.closes hb (hP.turns _ h) (step_engine hm ho)
    | host =>
      rw [step_eq, fetch, hm] at ho
      exact hP.fetchHost (hP.turns _ h) ho

end StepClosed

end Machine
end Sys2Proof
end

