-- ==== Sys2Proof/Laws/HostCalls.lean ====
section
/-! SUPPORT. The host's step at an action of its queue, the bytes it may not write (R332), and its accesses and commands when its
engine is IDLE: what a load, a store and a waited-for command give. -/
namespace Sys2Proof
namespace Machine
open Safety

/-! ### The next action of the queue -/

/-- The host's step is its next action, in the state in which that action is taken off the queue. -/
theorem step_hostDoes {s : State} {a : HostAct} {q : List HostAct} (h : HostDoes s a q) :
    step s = (fetchAct a (dequeued s q) (tick s)).outcome := by
  have h1 : frameContext (tick s).host.fdec.point = none := h.noFrame
  have h2 : compRunning (tick s).host.fcomp = false := h.noRecord
  have h3 : (tick s).host.queue = a :: q := h.queue
  rw [step_eq, fetch, h.moves]
  show (fetchHost (tick s)).outcome = _
  rw [fetchHost, h1]
  simp only [h2, h3]
  rfl

/-! ### The bytes of a command's regions (R332) -/

theorem meetsRegion_iff {b r a l : Nat} : meetsRegion b r a l = true ↔ ∃ x, (a ≤ x ∧ x < a + l) ∧ b ≤ x ∧ x < b + r := by
  simp only [meetsRegion, Bool.and_eq_true, decide_eq_true_eq]
  constructor
  · intro h; exact ⟨max a b, by omega, by omega⟩
  · rintro ⟨x, h, h'⟩; omega

theorem Window.meets_iff {w : Window} {a l : Nat} : w.meets a l = true ↔ ∃ x, (a ≤ x ∧ x < a + l) ∧ InWindow w x := by
  simp only [Window.meets, Bool.or_eq_true, meetsRegion_iff, InWindow]
  constructor
  · rintro (⟨x, h, h'⟩ | ⟨x, h, h'⟩)
    · exact ⟨x, h, .inl h'⟩
    · exact ⟨x, h, .inr h'⟩
  · rintro ⟨x, h, h' | h'⟩
    · exact .inl ⟨x, h, h'⟩
    · exact .inr ⟨x, h, h'⟩

theorem locked_iff {s : State} {x : Nat} : Locked s x ↔ ∃ w ∈ s.engaged, InWindow w x := by
  unfold Locked State.engaged running
  cases s.phase with
  | idle => simp
  | busy c p => cases c <;> simp <;> exact Or.comm

/-- A store is refused exactly when it writes a locked byte. -/
theorem engaged_meets_iff {s : State} {a l : Nat} :
    s.engaged.any (fun w => w.meets a l) = true ↔ ∃ x, (a ≤ x ∧ x < a + l) ∧ Locked s x := by
  simp only [List.any_eq_true, Window.meets_iff, locked_iff]
  constructor
  · rintro ⟨w, hw, x, h, h'⟩; exact ⟨x, h, w, hw, h'⟩
  · rintro ⟨x, h, w, hw, h'⟩; exact ⟨w, hw, x, h, h'⟩

/-! ### An IDLE engine -/

theorem hostRange_may {s : State} {addr len : Nat} (h : HostMay s addr len) : hostRange addr len s = .ok () s := by
  have hr : coversRegs s.cfg addr len = false := (Bool.or_eq_false_iff.mp h.2.1).1
  rw [hostRange, if_pos (by exact h.1), hr, h.2.1]; rfl

theorem engaged_may {s : State} {addr len : Nat} (hi : s.phase = .idle) (h : HostMay s addr len) : s.engaged = [] := by
  rw [State.engaged, hi]; exact h.2.2

/-- With the engine IDLE a load returns memory's bytes and changes nothing. -/
theorem hostLoad_may {s : State} {addr len : Nat} (hi : s.phase = .idle) (h : HostMay s addr len) :
    hostLoad addr len s = .ok (s.mem.readList addr len) s := by
  have hb := engaged_may hi h
  have hbyte : hostByte s = s.mem.read := by funext a; rw [hostByte, hb]; rfl
  rw [hostLoad, hostRange_may h, Res.bind_ok, hb, hbyte]; rfl

/-- With the engine IDLE a store writes its bytes and changes nothing else. -/
theorem hostStore_may {s : State} {addr : Nat} {bs : List Byte} (hi : s.phase = .idle) (h : HostMay s addr bs.length) :
    hostStore addr bs s = .ok () (s.setMem (s.mem.writeList addr bs)) := by
  rw [hostStore, hostRange_may h, Res.bind_ok, engaged_may hi h]; rfl

/-- An operand that fits its register is written whole. -/
theorem truncTo_ofNat {w x : Nat} (hw : w ≤ 64) (hx : x < 2 ^ w) : (truncTo w (BitVec.ofNat 64 x)).toNat = x := by
  have h64 : x < 2 ^ 64 := Nat.lt_of_lt_of_le hx (Nat.pow_le_pow_right (by omega) hw)
  rw [truncTo, BitVec.toNat_ofNat, BitVec.toNat_ofNat, Nat.mod_eq_of_lt h64, Nat.mod_eq_of_lt hx, Nat.mod_eq_of_lt h64]

/-- A waited-for command leaves the host side as it is. -/
theorem runCommand_host {c : Command} {s t : State} (h : runCommand c s = .next t) : t.host = s.host := by
  have ha := commandBody_all c (s.accept c)
  unfold runCommand endWith at h
  split at h
  · next hr => cases h; rw [hr] at ha; exact ha.host
  · next hr => cases h; rw [hr] at ha; exact ha.host
  · cases h
  · cases h

theorem hostRun_host (c : Command) (sa n da cap : Nat) (s : State) : (hostRun c sa n da cap s).All (·.host = s.host) := by
  unfold hostRun
  split
  · next hr =>
    have := runCommand_host hr
    split
    · exact this
    · exact this
  · exact fun t h => nomatch h
  · exact fun t h => nomatch h

theorem hostLoad_host (addr len : Nat) (s : State) : (hostLoad addr len s).Calm (·.host = s.host) := by
  refine (hostRange_calm (P := fun t => t = s) addr len rfl).bind fun _ t h => ?_
  subst h
  show State.host _ = _
  split
  · rfl
  · rfl

theorem hostStore_host (addr : Nat) (bs : List Byte) (s : State) : (hostStore addr bs s).Calm (·.host = s.host) := by
  refine (hostRange_calm (P := fun t => t = s) addr bs.length rfl).bind fun _ t h => ?_
  subst h
  split
  · trivial
  · rfl

/-- How a frame ends whose trailer is read (R258; log entries 22, 35). -/
theorem FrameDec.close_eq (c : Params) (f : FrameDec) :
    f.close c = { f with
      point := .ended
      error :=
        if c.contentSizeCheck = true ∧ f.size ≠ none ∧ f.size ≠ some f.outLen then (some .invalidData)
        else if c.trailingBytes = .reject ∧ f.cur ≠ f.len then (some .invalidData)
        else none } := by
  unfold FrameDec.close
  cases hs : f.size with
  | none => cases c.contentSizeCheck <;> cases c.trailingBytes <;> by_cases hl : f.cur = f.len <;> simp [hl, FrameDec.fail, hs]
  | some k =>
    cases c.contentSizeCheck <;> cases c.trailingBytes <;> by_cases hl : f.cur = f.len <;> by_cases hk : k = f.outLen <;>
      simp [hl, hk, FrameDec.fail, hs]

/-- The scratch region is as large as R250 asks and no larger than DST_CAP can say. -/
theorem scratchSize_bounds (c : Params) (scratchCap m : Nat) :
    maxCompressedSize c m ≤ scratchSize c scratchCap m ∧ scratchSize c scratchCap m ≤ c.maxSize := by
  unfold scratchSize maxCompressedSize
  omega

/-- A chunk's record is made without a change of the host side. -/
theorem chunkRecord_host (src m scratch scratchCap : Nat) (s : State) :
    (chunkRecord src m scratch scratchCap s).All (·.host = s.host) := by
  refine (HostRes.all_of (hostLoad_host src m s)).bind fun _ t h => ?_
  rw [← h]
  refine (hostRun_host _ _ _ _ _ t).bind fun _ u h => ?_
  rw [← h]
  exact (HostRes.all_of (hostLoad_host _ _ u)).bind fun _ v h => h

/-- A flush that succeeds empties the accumulation buffer and keeps what the stream has seen and where it stands. -/
theorem flushBlock_ok {s t : State} {a : Unit} (h : flushBlock s = .ok a t) :
    t.host.scomp.acc = [] ∧ t.host.scomp.seen = s.host.scomp.seen ∧ t.host.scomp.point = s.host.scomp.point := by
  have hs := HostRes.all_of (hostStore_host s.host.scomp.accAddr s.host.scomp.acc s)
  unfold flushBlock at h
  simp only at h
  cases hr : HostRes.of (hostStore s.host.scomp.accAddr s.host.scomp.acc s) with
  | ok b u =>
    rw [hr] at h hs
    have hc := chunkRecord_host s.host.scomp.accAddr s.host.scomp.acc.length s.host.scomp.scratch s.host.scomp.scratchCap u
    simp only [HostRes.bind] at h
    cases hk : chunkRecord s.host.scomp.accAddr s.host.scomp.acc.length s.host.scomp.scratch s.host.scomp.scratchCap u with
    | ok r v =>
      rw [hk] at h hc
      cases h
      have hv : v.host = s.host := Eq.trans hc hs
      exact ⟨rfl, congrArg (fun g => g.scomp.seen) hv, congrArg (fun g => g.scomp.point) hv⟩
    | fail e v => rw [hk] at h; cases h
    | stop o => rw [hk] at h; cases h
  | fail e u => rw [hr] at h; cases h
  | stop o => rw [hr] at h; cases h

end Machine
end Sys2Proof
end

