-- ==== Sys2Proof/Laws/PerInstr.lean ====
section
/-! SUPPORT. Laws of every instruction as a term: whether it has bytes in a stream, and how many (R90 to R103, R241 to R249). -/
namespace Sys2Proof.Laws.EncodedBytes

/-- An instruction with a position has bytes, as many as a fetch at that position reads (a whole element at least that many); an
internal operation has neither. -/
def Statement (i : Instr) : Prop :=
  match contextOf i, encode i with
  | some x, some bs => contextBytes x ≤ bs.length ∧ (x = .element ∨ bs.length = contextBytes x)
  | none, none => True
  | _, _ => False

theorem compress : Statement .compress := ⟨by simp [contextBytes], .inr (by simp [contextBytes])⟩

theorem decompress : Statement .decompress := ⟨by simp [contextBytes], .inr (by simp [contextBytes])⟩

theorem decompressExact : Statement .decompressExact := ⟨by simp [contextBytes], .inr (by simp [contextBytes])⟩

theorem bound : Statement .bound := ⟨by simp [contextBytes], .inr (by simp [contextBytes])⟩

theorem reserved (op : BitVec 4) : Statement (.reserved op) := ⟨by simp [contextBytes], .inr (by simp [contextBytes])⟩

theorem token (l m : BitVec 4) : Statement (.token l m) := ⟨by simp [contextBytes], .inr (by simp [contextBytes])⟩

theorem extCont : Statement .extCont := ⟨by simp [contextBytes], .inr (by simp [contextBytes])⟩

theorem extTerm (t : Byte) : Statement (.extTerm t) := ⟨by simp [contextBytes], .inr (by simp [contextBytes])⟩

theorem literal (b : Byte) : Statement (.literal b) := ⟨by simp [contextBytes], .inr (by simp [contextBytes])⟩

theorem offset16 (o : BitVec 16) : Statement (.offset16 o) := ⟨by simp [contextBytes], .inr (by simp [contextBytes])⟩

theorem seq (lits : List Byte) (o : BitVec 16) (len : Nat) : Statement (.seq lits o len) :=
  ⟨by rw [length_encodeSeq]; simp only [contextBytes]; omega, .inl rfl⟩

theorem last (lits : List Byte) : Statement (.last lits) :=
  ⟨by rw [length_encodeLast]; simp only [contextBytes]; omega, .inl rfl⟩

theorem find (p : Nat) : Statement (.find p) := trivial

theorem extend (a b max : Nat) : Statement (.extend a b max) := trivial

theorem compressBlock : Statement .compressBlock := trivial

theorem emitSeq (s ll : Nat) (o : BitVec 16) (lm : Nat) : Statement (.emitSeq s ll o lm) := trivial

theorem writeExt (v : Nat) : Statement (.writeExt v) := trivial

theorem emitLast (s ll : Nat) : Statement (.emitLast s ll) := trivial

theorem decompressBlock : Statement .decompressBlock := trivial

theorem readLen (nib : BitVec 4) : Statement (.readLen nib) := trivial

theorem copyLiterals (s l : Nat) : Statement (.copyLiterals s l) := trivial

theorem copyLiteralsDec (l : Nat) : Statement (.copyLiteralsDec l) := trivial

theorem copyMatch (o : BitVec 16) (l : Nat) : Statement (.copyMatch o l) := trivial

theorem frameMagic : Statement .frameMagic := ⟨by simp [contextBytes], .inr (by simp [contextBytes])⟩

theorem frameFlg (b : Byte) : Statement (.frameFlg b) := ⟨by simp [contextBytes], .inr (by simp [contextBytes])⟩

theorem frameBd (b : Byte) : Statement (.frameBd b) := ⟨by simp [contextBytes], .inr (by simp [contextBytes])⟩

theorem frameContentSize (v : BitVec 64) : Statement (.frameContentSize v) := ⟨by simp [contextBytes], .inr (by simp [contextBytes])⟩

theorem frameHc (b : Byte) : Statement (.frameHc b) := ⟨by simp [contextBytes], .inr (by simp [contextBytes])⟩

theorem blockCompressed (len : BitVec 31) : Statement (.blockCompressed len) := ⟨by simp [contextBytes], .inr (by simp [contextBytes])⟩

theorem blockStored (len : BitVec 31) : Statement (.blockStored len) := ⟨by simp [contextBytes], .inr (by simp [contextBytes])⟩

theorem endMark : Statement .endMark := ⟨by simp [contextBytes], .inr (by simp [contextBytes])⟩

theorem contentChecksum (v : BitVec 32) : Statement (.contentChecksum v) := ⟨by simp [contextBytes], .inr (by simp [contextBytes])⟩

end Sys2Proof.Laws.EncodedBytes
end

