-- ==== Sys2Proof/Laws/Stream.lean ====
section
/-! SUPPORT. COMPRESS run by waiting host software, and what the streaming compressor makes of it: a record, a flush, the fuel of a
write (R250, R259 to R261). -/
namespace Sys2Proof
namespace Machine
open Safety

@[simp] theorem HostRes.bind_ok {α β : Type} (a : α) (s : State) (k : α → State → HostRes β) : (HostRes.ok a s).bind k = k a s := rfl

@[simp] theorem HostRes.of_ok {α : Type} (a : α) (s : State) : HostRes.of (Res.ok a s) = .ok a s := rfl

/-- A command run by waiting host software changes these fields only, and memory in the region `dst[0 .. cap)`. -/
structure HostRan (s t : State) (dst cap : Nat) : Prop where
  frame : t = { s with mem := t.mem, regs := t.regs, work := t.work, ht := t.ht, draws := t.draws }
  wf : t.mem.wf
  other : ∀ a, a < dst ∨ dst + cap ≤ a → t.mem.read a = s.mem.read a

/-- COMPRESS run by waiting host software leaves the reference block of the source bytes at the destination (R123, R129). -/
theorem hostRun_compress {s : State} {src m dst cap : Nat} (h : HostCanCompress s src m dst cap) :
    ∃ t, hostRun .compress src m dst cap s = .ok (encodeElements (refElements (s.mem.readList src m))).length t ∧
      HostRan s t dst cap ∧ (encodeElements (refElements (s.mem.readList src m))).length ≤ cap ∧
      t.mem.readList dst (encodeElements (refElements (s.mem.readList src m))).length
        = encodeElements (refElements (s.mem.readList src m)) := by
  have hcfg := h.params
  simp only [Params.wf, Bool.and_eq_true, decide_eq_true_eq, beq_iff_eq] at hcfg
  have henough := h.enough
  have hsrc := h.source.1
  have hdst := h.dest.1
  generalize hu : s.setOperands src m dst cap = u
  have e1 : u.regs.srcAddr.toNat = src := by rw [← hu]; exact truncTo_ofNat (by omega) h.addressed
  have e2 : u.regs.srcLen.toNat = m := by rw [← hu]; exact truncTo_ofNat (by omega) (by have := h.sized; omega)
  have e3 : u.regs.dstAddr.toNat = dst := by rw [← hu]; exact truncTo_ofNat (by omega) (by omega)
  have e4 : u.regs.dstCap.toNat = cap := by rw [← hu]; exact truncTo_ofNat (by omega) h.sized
  have hucfg : u.cfg = s.cfg := by rw [← hu]; rfl
  have hlegal : OperandsLegal u := by
    unfold OperandsLegal; rw [e1, e2, e3, e4, hucfg]
    exact ⟨hsrc, hdst, by have := h.apart; omega⟩
  have hord : OrdinaryMemory u := by
    unfold OrdinaryMemory; rw [e1, e2, e3, e4, hucfg]; exact ⟨h.source.2.1, h.dest.2.1⟩
  have hq : Quiet u := by rw [← hu]; exact h.quiet
  have hw : u.mem.wf := by rw [← hu]; exact h.wf
  have hready : Ready (u.accept .compress) := accept_ready .compress hq hw hlegal
  have hn : (u.accept .compress).work.n = m := e2
  have hsa : (u.accept .compress).work.sa = src := e1
  have hda : (u.accept .compress).work.da = dst := e3
  have hc : (u.accept .compress).work.cap = cap := e4
  have hcap : boundExact (u.accept .compress).work.n ≤ (u.accept .compress).work.cap := by
    rw [hn, hc]; exact henough
  obtain ⟨v, hrun, hC⟩ := compressRefR_quiet hready hcap
  have hbytes : srcBytes (u.accept .compress) 0 (u.accept .compress).work.n = s.mem.readList src m := by
    rw [srcBytes, hn, hsa]
    show u.mem.readList _ _ = _
    rw [← hu]; rfl
  rw [hbytes] at hC
  generalize hels : refElements (s.mem.readList src m) = els at hC ⊢
  have hlen : (encodeElements els).length = v.work.op := by
    rw [← hC.block, dstBytes]; simp [Memory.readList]
  have hbody : commandBody .compress (u.accept .compress) = .ok v.work.op v := by
    have hch : firstChecks .compress (u.accept .compress) = .ok () (u.accept .compress) := by
      simp only [firstChecks, checkRegions_accept_ok .compress hlegal, Res.bind_ok]
      rw [if_neg (by omega), checkDevices_accept .compress hord]
    have href : (u.accept .compress).cfg.compressor = .reference := by
      show u.cfg.compressor = _; rw [hucfg]; exact h.reference
    rw [commandBody, hch, Res.bind_ok]
    simp only [commandBlock, compressBlockR, href, hrun, Res.bind_ok, resultOf]
  have hvda : v.work.da = dst := hC.da.trans hda
  have hvcap : v.work.cap = cap := hC.cap.trans hc
  have hroom := hC.room
  rw [hn] at hroom
  have hres : (BitVec.ofNat 64 v.work.op).toNat = v.work.op := by
    have := Nat.pow_le_pow_right (n := 2) (by omega) (show s.cfg.sizeW ≤ 64 by omega)
    have := h.sized
    rw [BitVec.toNat_ofNat, Nat.mod_eq_of_lt (by omega)]
  have hrunC : runCommand .compress u = .next (v.finish v.work.op) := by rw [runCommand, hbody]; rfl
  refine ⟨(v.finish v.work.op).observed, ?_, ⟨?_, ?_, ?_⟩, by omega, ?_⟩
  · rw [hostRun, hu, hrunC]
    show HostRes.ok (BitVec.ofNat 64 v.work.op).toNat _ = _
    rw [hres, hlen]
  · have hun : s.unseen = [] := h.source.2.2
    have hf := hC.frame
    rw [hf]
    subst hu
    show State.mk _ _ _ _ _ _ _ _ _ _ _ _ = State.mk _ _ _ _ _ _ _ _ _ _ _ _
    simp only [State.mk.injEq]
    exact ⟨rfl, rfl, h.idle.symm, rfl, rfl, rfl, rfl, rfl, rfl, rfl, hun.symm, rfl⟩
  · exact endMem_wf hC.wf _
  · intro a ha
    have h1 : (v.endMem v.work.op).read a = v.mem.read a := endMem_notInDest v _ (by unfold InDest; rw [hvda, hvcap]; omega)
    have h2 := hC.other a (by rw [hda]; omega)
    have h3 : (u.accept .compress).mem.read a = s.mem.read a := by rw [← hu]; rfl
    exact h1.trans (h2.trans h3)
  · rw [hlen]
    have := endMem_result v v.work.op
    rw [hvda] at this
    have hb := hC.block
    rw [dstBytes, hvda, Nat.add_zero] at hb
    exact this.trans hb

/-- Fewer bytes at the same place meet no device that more of them do not meet. -/
theorem coversDevice_shorter {c : Params} {a k l : Nat} (hk : k ≤ l) (h : coversDevice c a l = false) : coversDevice c a k = false := by
  rw [Bool.eq_false_iff] at h ⊢
  intro hc
  refine h ?_
  simp only [coversDevice, coversRegs, meetsRegion, Bool.or_eq_true, Bool.and_eq_true, decide_eq_true_eq, List.any_eq_true] at hc ⊢
  rcases hc with hc | ⟨d, hd, hc⟩
  · exact .inl (by omega)
  · exact .inr ⟨d, hd, by omega⟩

/-- A chunk's record holds the reference block of the chunk, or the chunk (R250). -/
theorem chunkRecord_reference {s : State} {src m scratch scratchCap : Nat}
    (h : HostCanCompress s src m scratch (scratchSize s.cfg scratchCap m)) :
    ∃ t, chunkRecord src m scratch scratchCap s =
        .ok (recordBytes (s.mem.readList src m) (encodeElements (refElements (s.mem.readList src m)))) t ∧
      HostRan s t scratch (scratchSize s.cfg scratchCap m) := by
  obtain ⟨t, hrun, hran, hlen, hblock⟩ := hostRun_compress h
  refine ⟨t, ?_, hran⟩
  have hcfg : t.cfg = s.cfg := by rw [hran.frame]
  have hdst := h.dest.1
  have hmay : HostMay t scratch (encodeElements (refElements (s.mem.readList src m))).length := by
    refine ⟨by rw [hcfg]; omega, ?_, by rw [hran.frame]; exact h.dest.2.2⟩
    rw [hcfg]; exact coversDevice_shorter hlen h.dest.2.1
  have hload := hostLoad_may (s := t) (by rw [hran.frame]; exact h.idle) hmay
  rw [chunkRecord, hostLoad_may h.idle h.source]
  simp only [HostRes.of_ok, HostRes.bind_ok, hrun, hload, hblock]

/-! ### The streaming compressor (R259 to R261) -/

theorem chunkSize_pos (c : Params) : 0 < chunkSize c := by
  unfold chunkSize classSize
  repeat' split
  all_goals decide

/-- A flush emits the record of the accumulated bytes and empties the buffer (R250, R260, R261). -/
theorem flushBlock_reference {s : State}
    (h : HostCanCompress s s.host.scomp.accAddr s.host.scomp.acc.length s.host.scomp.scratch
      (scratchSize s.cfg s.host.scomp.scratchCap s.host.scomp.acc.length)) :
    ∃ t, flushBlock s = .ok () t ∧
      t = { s with
        mem := t.mem, regs := t.regs, work := t.work, ht := t.ht, draws := t.draws
        host := { s.host with scomp := { s.host.scomp with
          acc := []
          sink := s.host.scomp.sink ++ recordBytes s.host.scomp.acc (encodeElements (refElements s.host.scomp.acc)) } } } ∧
      t.mem.wf ∧
      ∀ a, (a < s.host.scomp.accAddr ∨ s.host.scomp.accAddr + s.host.scomp.acc.length ≤ a) →
        (a < s.host.scomp.scratch ∨
          s.host.scomp.scratch + scratchSize s.cfg s.host.scomp.scratchCap s.host.scomp.acc.length ≤ a) →
        t.mem.read a = s.mem.read a := by
  have hstore := hostStore_may h.idle h.source
  have h' : HostCanCompress (s.setMem (s.mem.writeList s.host.scomp.accAddr s.host.scomp.acc)) s.host.scomp.accAddr
      s.host.scomp.acc.length s.host.scomp.scratch (scratchSize s.cfg s.host.scomp.scratchCap s.host.scomp.acc.length) :=
    { h with wf := Memory.wf_writeList h.wf _ _ }
  obtain ⟨t, hrec, hran⟩ := chunkRecord_reference h'
  have hread : (s.setMem (s.mem.writeList s.host.scomp.accAddr s.host.scomp.acc)).mem.readList s.host.scomp.accAddr
      s.host.scomp.acc.length = s.host.scomp.acc := Memory.readList_writeList h.wf _ _
  rw [hread] at hrec
  refine ⟨(streamPut (recordBytes s.host.scomp.acc (encodeElements (refElements s.host.scomp.acc))) t).setScomp
    { (streamPut (recordBytes s.host.scomp.acc (encodeElements (refElements s.host.scomp.acc))) t).host.scomp with acc := [] },
    ?_, ?_, hran.wf, fun a h1 h2 => ?_⟩
  · rw [flushBlock, hstore]
    simp only [HostRes.of_ok, HostRes.bind_ok, hrec]
  · rw [hran.frame]; rfl
  · exact (hran.other a h2).trans (Memory.read_writeList_other _ _ h1)

/-- The header of a stream: version 01, the option bits, the class, no content size (R241 to R246, R250; log entry 25). -/
theorem headerBytes_stream (c : Params) : headerBytes c none =
    (let flg := BitVec.ofNat 8 (0x40 + 0x20 * c.optIndependent.toNat + 0x04 * c.optChecksum.toNat)
     let bd := BitVec.ofNat 8 (16 * c.optBlockClass.toNat)
     [0x04#8, 0x22#8, 0x4D#8, 0x18#8, flg, bd, flg ^^^ bd]) := by
  unfold headerBytes
  cases c.optIndependent <;> cases c.optChecksum <;> (generalize c.optBlockClass = k; revert k; decide)

/-- The end marker and the checksum, if selected (R248, R249). -/
theorem trailerBytes_eq (c : Params) (x : List Byte) : trailerBytes c x =
    [0#8, 0#8, 0#8, 0#8] ++ if c.optChecksum = true then leBytes 4 (Config.checksum32 x).toNat else [] := by
  unfold trailerBytes; split <;> rfl

/-- The header is emitted once (R260). -/
theorem streamHeader_eq {s : State} (h : s.host.scomp.point ≠ .finished) : streamHeader s = { s with host := { s.host with scomp :=
    { s.host.scomp with
      point := .accumulating
      sink := if s.host.scomp.point = .headerNotWritten then s.host.scomp.sink ++ headerBytes s.cfg none else s.host.scomp.sink } } } := by
  unfold streamHeader
  split
  · next hp => rw [if_pos hp]; rfl
  · next hp =>
    have : s.host.scomp.point = .accumulating := by
      cases hk : s.host.scomp.point <;> simp_all
    rw [if_neg hp]
    obtain ⟨_, _, _, _, _, _, _, _, _, _, _, ⟨_, _, _, _, _, ⟨_, _, _, _, _, _, _, _⟩, _, _⟩⟩ := s
    simp only at this; subst this; rfl

theorem streamWriteR_eq {s : State} (h : s.host.scomp.point ≠ .finished) (bytes : List Byte) :
    streamWriteR bytes s = (accumulate (bytes.length + 1) bytes (streamHeader s)).bind fun _ s => .ok bytes.length s := by
  unfold streamWriteR
  split
  · next hp => exact absurd hp h
  · rfl

theorem canCompress_streamHeader {s : State} (h : s.host.scomp.point ≠ .finished) {a m d c : Nat} (hc : HostCanCompress s a m d c) :
    HostCanCompress (streamHeader s) a m d c := by
  rw [streamHeader_eq h]; exact { hc with }

/-- Enough fuel is enough: every flush but the last one consumes bytes. -/
theorem accumulate_fuel {fuel : Nat} {bytes : List Byte} {s : State} (hf : bytes.length < fuel)
    (hr : s.host.scomp.acc.length < chunkSize s.cfg) :
    accumulate fuel bytes s = accumulate (bytes.length + 1) bytes s := by
  suffices H : ∀ (n : Nat) (bytes : List Byte) (s : State), bytes.length < n → s.host.scomp.acc.length < chunkSize s.cfg →
      ∀ fuel, bytes.length < fuel → accumulate fuel bytes s = accumulate (bytes.length + 1) bytes s from
    H _ bytes s (Nat.lt_succ_self _) hr fuel hf
  intro n
  induction n with
  | zero => intro bytes s h; omega
  | succ n ih =>
    intro bytes s hn hr fuel hf
    obtain ⟨fuel, rfl⟩ : ∃ k, fuel = k + 1 := ⟨fuel - 1, by omega⟩
    simp only [accumulate]
    split
    · rfl
    · next hlong =>
      generalize hu : s.setScomp _ = u
      cases hfl : flushBlock u with
      | ok a t =>
        simp only [HostRes.bind_ok]
        obtain ⟨hacc, -, -⟩ := flushBlock_ok hfl
        have hroom : t.host.scomp.acc.length < chunkSize t.cfg := by rw [hacc]; exact chunkSize_pos _
        have hl : (bytes.drop (chunkSize s.cfg - s.host.scomp.acc.length)).length < n := by rw [List.length_drop]; omega
        have hl' : (bytes.drop (chunkSize s.cfg - s.host.scomp.acc.length)).length < bytes.length := by rw [List.length_drop]; omega
        rw [ih _ t hl hroom fuel (by omega), ih _ t hl hroom bytes.length hl']
      | fail e t => rfl
      | stop o => rfl

end Machine
end Sys2Proof
end

