-- ==== Sys2Proof/Laws/Wide.lean ====
section
/-! SUPPORT. The wide datapaths, which no result depends on (R162, R233): the lane mask bit by bit, and the copies' pieces. -/
namespace Sys2Proof
namespace Machine
open Safety

/-- A sum of distinct powers of two, bit by bit. -/
theorem testBit_powers (p : Nat → Prop) [DecidablePred p] (n : Nat) :
    (((List.range n).map fun i => if p i then 2 ^ i else 0).sum < 2 ^ n) ∧
      ∀ j, (((List.range n).map fun i => if p i then 2 ^ i else 0).sum).testBit j = (decide (j < n) && decide (p j)) := by
  induction n with
  | zero => exact ⟨by simp, fun j => by simp⟩
  | succ n ih =>
    obtain ⟨h1, h2⟩ := ih
    rw [List.range_succ, List.map_append, List.sum_append]
    simp only [List.map_cons, List.map_nil, List.sum_cons, List.sum_nil, Nat.add_zero]
    generalize ((List.range n).map fun i => if p i then 2 ^ i else 0).sum = x at *
    have hp : 2 ^ (n + 1) = 2 ^ n + 2 ^ n := by rw [pow_succ]; omega
    refine ⟨by split <;> omega, fun j => ?_⟩
    by_cases hpn : p n
    · rw [if_pos hpn, Nat.add_comm]
      rcases Nat.lt_trichotomy j n with hj | rfl | hj
      · rw [Nat.testBit_two_pow_add_gt hj, h2]; simp [hj, Nat.lt_succ_of_lt hj]
      · rw [Nat.testBit_two_pow_add_eq, h2]; simp [hpn]
      · rw [Nat.testBit_lt_two_pow
          (Nat.lt_of_lt_of_le (by omega : 2 ^ n + x < 2 ^ (n + 1)) (Nat.pow_le_pow_right (by omega) hj))]
        simp; omega
    · rw [if_neg hpn, Nat.add_zero, h2]
      by_cases hj : j = n
      · subst hj; simp [hpn]
      · have : j < n + 1 ↔ j < n := by omega
        simp [this]

/-- Bit i of the equality mask is lane i (R159). -/
theorem laneMask_bit (f : Nat → Byte) (x y i : Nat) :
    (laneMask f x y).getLsbD i = (decide (i < 16) && decide (f (x + i) = f (y + i))) := by
  unfold laneMask
  rw [BitVec.getLsbD_ofNat, (testBit_powers (fun i => f (x + i) = f (y + i)) 16).2]
  by_cases h : i < 16 <;> simp [h]

/-- The mask is full exactly when all 16 lanes agree. -/
theorem laneMask_full (f : Nat → Byte) (x y : Nat) : laneMask f x y = 0xFFFF#16 ↔ ∀ i < 16, f (x + i) = f (y + i) := by
  have ones : ∀ i < 16, (0xFFFF#16).getLsbD i = true := by decide
  constructor
  · intro h i hi
    have := laneMask_bit f x y i
    rw [h, ones i hi] at this
    simpa [hi] using this.symm
  · intro h
    refine BitVec.eq_of_getLsbD_eq fun i hi => ?_
    rw [laneMask_bit, ones i hi]; simp [hi, h i hi]

/-- The first unequal lane, by the trailing zeros of the complement (R155, R159). -/
theorem ctz16_laneMask {f : Nat → Byte} {x y : Nat} (h : laneMask f x y ≠ 0xFFFF#16) :
    ctz16 (~~~ laneMask f x y) < 16 ∧ (∀ i < ctz16 (~~~ laneMask f x y), f (x + i) = f (y + i)) ∧
      f (x + ctz16 (~~~ laneMask f x y)) ≠ f (y + ctz16 (~~~ laneMask f x y)) := by
  have bit : ∀ i < 16, (~~~ laneMask f x y).getLsbD i = !decide (f (x + i) = f (y + i)) := fun i hi => by
    rw [BitVec.getLsbD_not, laneMask_bit]; simp [hi]
  rw [Ne, laneMask_full, not_forall] at h
  obtain ⟨j, hj⟩ := h
  rw [Classical.not_imp] at hj
  unfold ctz16
  cases hf : (List.range 16).find? (~~~ laneMask f x y).getLsbD with
  | none =>
    rw [List.find?_eq_none] at hf
    have := hf j (List.mem_range.mpr hj.1)
    rw [bit j hj.1] at this
    simp [hj.2] at this
  | some c =>
    rw [List.find?_range_eq_some] at hf
    obtain ⟨h1, h2, h3⟩ := hf
    have hc : c < 16 := List.mem_range.mp h2
    rw [bit c hc] at h1
    refine ⟨hc, fun i hi => ?_, by simpa using h1⟩
    have := h3 i hi
    rw [bit i (Nat.lt_trans hi hc)] at this
    simpa using this

/-! ### The copies (R228, R230) -/

theorem Memory.copyBytes_add (m : Memory) (frm dst a b : Nat) :
    m.copyBytes frm dst (a + b) = (m.copyBytes frm dst a).copyBytes (frm + a) (dst + a) b := by
  induction a generalizing m frm dst with
  | zero => rw [Nat.zero_add]; rfl
  | succ a ih =>
    rw [show a + 1 + b = (a + b) + 1 by omega, Memory.copyBytes, Memory.copyBytes, ih]
    rw [show frm + 1 + a = frm + (a + 1) by omega, show dst + 1 + a = dst + (a + 1) by omega]

/-- A word read before it is written is the byte copy, when it ends at or before its destination (R230, R232). -/
theorem Memory.copyWord_eq {m : Memory} {frm dst k : Nat} (h : frm + k ≤ dst) :
    m.writeList dst (m.readList frm k) = m.copyBytes frm dst k := by
  induction k generalizing m frm dst with
  | zero => rfl
  | succ k ih =>
    rw [Memory.readList_succ, Memory.writeList, Memory.copyBytes, ← ih (by omega)]
    congr 1
    refine Memory.readList_congr fun i hi => ?_
    rw [Memory.read_write_other _ _ (by omega)]

end Machine
end Sys2Proof
end

