-- ==== Sys2Proof/Tests/Slice0.lean ====
section
/-! SUPPORT. Tests: ill-formed terms are refused, words written out from the spec's encodings decode to what they stand for, single steps
against the vectors of spec/95 (its ids stand in the comments), and for each obligation with hypotheses a witness that meets them. -/
namespace Sys2Proof.Tests
open Machine Safety

/-! ### Ill-formed terms -/

theorem test_wf_reserved_refuses_defined : ∀ op ∈ [1#4, 2#4, 3#4, 4#4], (Instr.reserved op).wf = false := by decide
theorem test_wf_reserved_takes_edges : ∀ op ∈ [0#4, 5#4, 15#4], (Instr.reserved op).wf = true := by decide
theorem test_wf_extTerm_refuses_255 : (Instr.extTerm 255#8).wf = false := by decide
theorem test_wf_seq_refuses_length_3 : (Instr.seq [] 1#16 3).wf = false := by decide
theorem test_wf_emitSeq_refuses_offset_0 : (Instr.emitSeq 0 0 0#16 4).wf = false := by decide
theorem test_wf_emitSeq_refuses_length_3 : (Instr.emitSeq 0 0 1#16 3).wf = false := by decide
theorem test_wf_copyMatch_refuses_offset_0 : (Instr.copyMatch 0#16 4).wf = false := by decide
theorem test_wf_copyMatch_refuses_length_3 : (Instr.copyMatch 1#16 3).wf = false := by decide
theorem test_wf_blockCompressed_refuses_0 : (Instr.blockCompressed 0#31).wf = false := by decide

/-! ### Decoding: words from the encodings of R90 to R103 and R241 to R249, bytes in address order -/

-- R90: opcode in w[3:0], the rest ignored (IV-4)
theorem test_decode_compress : decode .command [0x01, 0, 0, 0, 0, 0, 0, 0] = .instr .compress [] := by decide
theorem test_decode_decompress : decode .command [0x02, 0, 0, 0, 0, 0, 0, 0] = .instr .decompress [] := by decide
theorem test_decode_decompressExact : decode .command [0x03, 0, 0, 0, 0, 0, 0, 0] = .instr .decompressExact [] := by decide
theorem test_decode_bound : decode .command [0xF4, 0xFF, 0xFF, 0xFF, 0xFF, 0xFF, 0xFF, 0xFF] = .instr .bound [] := by decide
theorem test_decode_reserved_0 : decode .command [0x00, 0, 0, 0, 0, 0, 0, 0] = .instr (.reserved 0) [] := by decide
theorem test_decode_reserved_5 : decode .command [0x05, 0, 0, 0, 0, 0, 0, 0] = .instr (.reserved 5) [] := by decide
-- R93: L in bits 7:4, M in bits 3:0
theorem test_decode_token : decode .token [0b10010110] = .instr (.token 0b1001 0b0110) [] := by decide
-- R94
theorem test_decode_extCont : decode .ext [0b11111111] = .instr .extCont [] := by decide
theorem test_decode_extTerm : decode .ext [0b11111110] = .instr (.extTerm 254) [] := by decide
-- R95
theorem test_decode_literal : decode .literal [0xFF] = .instr (.literal 0xFF) [] := by decide
-- R97: low byte first
theorem test_decode_offset16 : decode .offset [0x01, 0x80] = .instr (.offset16 0x8001) [] := by decide
-- R92, R103: CB-9's first element, the literal and match nibbles and a match extension 00
theorem test_decode_seq :
    decode .element [0x2F, 0x41, 0x41, 0x01, 0x00, 0x00, 0x50] = .instr (.seq [0x41, 0x41] 1 19) [0x50] := by decide
-- R92, R103: DV-22, the M nibble of a final_seq ignored
theorem test_decode_last : decode .element [0x1F, 0x61] = .instr (.last [0x61]) [] := by decide
-- R242 to R249
theorem test_decode_frameMagic : decode .frameMagic [0x04, 0x22, 0x4D, 0x18] = .instr .frameMagic [] := by decide
theorem test_decode_frameFlg : decode .frameFlg [0x68] = .instr (.frameFlg 0x68) [] := by decide
theorem test_decode_frameBd : decode .frameBd [0x40] = .instr (.frameBd 0x40) [] := by decide
theorem test_decode_frameContentSize :
    decode .frameSize [0xE8, 0x03, 0, 0, 0, 0, 0, 0x80] = .instr (.frameContentSize 0x80000000000003E8) [] := by decide
theorem test_decode_frameHc : decode .frameHc [0x20] = .instr (.frameHc 0x20) [] := by decide
theorem test_decode_blockCompressed : decode .blockWord [0x0F, 0, 0, 0] = .instr (.blockCompressed 15) [] := by decide
theorem test_decode_blockStored : decode .blockWord [0x03, 0, 0, 0x80] = .instr (.blockStored 3) [] := by decide
theorem test_decode_blockStored_empty : decode .blockWord [0, 0, 0, 0x80] = .instr (.blockStored 0) [] := by decide
theorem test_decode_endMark : decode .blockWord [0, 0, 0, 0] = .instr .endMark [] := by decide
theorem test_decode_contentChecksum :
    decode .checksum [0x78, 0x56, 0x34, 0x12] = .instr (.contentChecksum 0x12345678) [] := by decide
-- FR-6, and streams that end early (DV-7, DV-13, R257)
theorem test_decode_notMagic : decode .frameMagic [0x05, 0x22, 0x4D, 0x18] = .rejected .notMagic := by decide
theorem test_decode_truncated : ∀ bs ∈ [[], [0x20, 0x61], [0x10, 0x61, 0x01], [0x1F, 0x61, 0x01, 0x00], [0xF0, 0xFF]],
    decode .element bs = .rejected .truncated := by decide
-- R98, CB-11's extension: 993 = 4 + 15 + 3 * 255 + 209
theorem test_encode_seq_993 :
    encode (.seq [0x41, 0x41] 1 993) = some [0x2F, 0x41, 0x41, 0x01, 0x00, 0xFF, 0xFF, 0xFF, 0xD1] := by decide

-- 30_encoding R104: the table's words in their positions
theorem test_table_words : decodeTableWord 8 1 = some .compress ∧ decodeTableWord 16 0x8001 = some (.offset16 0x8001) ∧
    decodeTableWord 32 0x184D2204 = some .frameMagic ∧ decodeTableWord 32 0x80000003 = some (.blockStored 3) := by decide

/-! ### Machines to test on -/

/-- Default parameters, no bus errors. -/
def quietCfg : Params := { Params.default with busErrorPossible := false }

/-- A machine with `src` at 16 and `dst` at 128, both also in the operand registers, at the given phase and cursors. -/
def machine (p : Phase) (src dst : List Byte) (ip op cap : Nat) : State :=
  { State.reset with
    cfg := quietCfg
    phase := p
    regs := { Regs.reset with srcAddr := 16, srcLen := BitVec.ofNat 64 src.length, dstAddr := 128, dstCap := BitVec.ofNat 64 cap }
    work := { Work.reset with sa := 16, n := src.length, da := 128, cap := cap, ip := ip, op := op }
    mem := (Memory.writeList { cells := [], spans := [] } 16 src).writeList 128 dst }

/-- A host that decodes a frame of `bytes` at 16, output at 128. -/
def framing (point : FramePoint) (bytes : List Byte) : State :=
  let s := machine .idle bytes [] 0 0 0
  { s with host := { s.host with fdec := { FrameDec.off with point := point, src := 16, len := bytes.length, out := 128 } } }

/-- An idle machine whose host has not seen the end of a command on `src[16 .. 17)` and `dst[128 .. 145)` and does `a` next. -/
def doing (a : HostAct) : State :=
  let s := machine .idle [0x61] [] 0 0 17
  { s with unseen := [{ sa := 16, n := 1, da := 128, cap := 17 }], host := { s.host with queue := [a] } }

/-- The outcome is a next state of which `p` holds. -/
def nextWith (o : Host.Outcome State Fault Refusal) (p : State → Bool) : Bool :=
  match o with
  | .next t => p t
  | .fault _ => false
  | .refused _ => false

/-- The command ended with this STATUS, ERROR, RESULT_LEN, ERR_IN_POS and ERR_OUT_POS, and these result bytes. -/
def ended (o : Host.Outcome State Fault Refusal) (status code len ip op : Nat) (out : List Byte) : Bool :=
  nextWith o fun t => regRead t 0x08 == BitVec.ofNat 64 status && regRead t 0x10 == BitVec.ofNat 64 code
    && regRead t 0x38 == BitVec.ofNat 64 len && regRead t 0x40 == BitVec.ofNat 64 ip && regRead t 0x48 == BitVec.ofNat 64 op
    && t.mem.readList 128 out.length == out

/-- One step of an accepted command. -/
def runs (c : Command) (src : List Byte) (cap : Nat) : Host.Outcome State Fault Refusal :=
  step (machine (.busy c .start) src [] 0 0 cap)

def ascii (s : String) : List Byte := s.toList.map fun c => BitVec.ofNat 8 c.toNat

/-! ### Commands -/

-- CB-2, CB-6, CE-1
theorem test_compress_short : ended (runs .compress [0x61] 17) 2 0 2 0 0 [0x10, 0x61] = true := by decide
theorem test_compress_run : ended (runs .compress (List.replicate 14 0x41) 30) 2 0 11 0 0
    [0x23, 0x41, 0x41, 0x01, 0x00, 0x50, 0x41, 0x41, 0x41, 0x41, 0x41] = true := by decide
theorem test_compress_capacity : ended (runs .compress (List.replicate 14 0x41) 29) 4 3 0 0 0 [] = true := by decide
-- DV-15, DV-9
theorem test_decompress : ended (runs .decompress [0x21, 0x61, 0x62, 0x02, 0x00, 0x00] 20) 2 0 7 0 0 (ascii "abababa") = true := by
  decide
theorem test_decompress_offset : ended (runs .decompress [0x10, 0x61, 0x02, 0x00] 10) 4 1 0 4 1 [] = true := by decide
-- XV-3, XV-8
theorem test_exact_short : ended (runs .decompressExact [0x10, 0x61] 2) 4 1 0 2 1 [] = true := by decide
theorem test_exact : ended (runs .decompressExact [0x10, 0x61, 0x01, 0x00] 5) 2 0 5 0 0 (ascii "aaaaa") = true := by decide
-- BV-4, BV-10
theorem test_bound : ended (step { machine (.busy .bound .start) [] [] 0 0 0 with work := { Work.reset with n := 255 } })
    2 0 272 0 0 [] = true := by decide
theorem test_bound_saturates :
    ended (step { machine (.busy .bound .start) [] [] 0 0 0 with work := { Work.reset with n := 4278190065 } })
      2 0 4294967295 0 0 [] = true := by decide
-- IV-2, IV-5
theorem test_reserved : ended (exec (.reserved 7) (machine .idle [] [] 0 0 0)) 4 5 0 0 0 [] = true := by decide
theorem test_command_ignored_while_busy :
    exec .bound (machine (.busy .compress .scan) [0x61] [] 0 0 17) = .next (machine (.busy .compress .scan) [0x61] [] 0 0 17) := rfl
-- R120: acceptance latches the operands and enters BUSY
theorem test_acceptance : ∀ i ∈ [Instr.compress, .decompress, .decompressExact, .bound],
    nextWith (exec i { machine .idle [0x61] [] 7 7 40 with work := Work.reset })
      (fun t => t.busy && t.work.sa == 16 && t.work.n == 1 && t.work.da == 128 && t.work.cap == 40) = true := by decide
-- CE-5, CE-6: the region checks
theorem test_overlap : ended (step { machine (.busy .compress .start) [] [] 0 0 0 with
    work := { Work.reset with sa := 0x1000, n := 16, da := 0x100F, cap := 32 } }) 4 4 0 0 0 [] = true := by decide
theorem test_wrap : ended (step { machine (.busy .decompress .start) [] [] 0 0 0 with
    work := { Work.reset with sa := 2 ^ 64 - 4, n := 8 } }) 4 4 0 0 0 [] = true := by decide

-- R231, R292: after that overlap every destination byte is any value, the source byte among them too
theorem test_overlap_frees : nextWith (step { machine (.busy .compress .start) [] [] 0 0 0 with
    work := { Work.reset with sa := 0x1000, n := 16, da := 0x100F, cap := 32 } })
    (fun t => t.mem.spans == [{ lo := 0x100F, hi := 0x102F, draw := 0 }]) = true := by decide
-- R80: a region over a device of the platform
theorem test_device_refused : step { machine (.busy .decompress .start) [0x00] [] 0 0 9 with
    cfg := { quietCfg with devices := [(136, 4)] } } = .refused .deviceRegion := rfl

/-! ### Match finder and extender -/

-- HV-2, HV-3, HV-8
theorem test_hash : hash4 1 = 0x9E37 ∧ hash4 0x41414141 = 0x18EC ∧ hash4 0x79787A79 = 0xEC2E := by decide
-- FV-6, FV-7
theorem test_find_accepts :
    nextWith (exec (.find 4) { machine (.busy .compress .scan) (ascii "xyzxyzxyz") [] 4 0 0 with ht := [(0xEC2E, 1)] })
      (fun t => t.work.accept && t.work.ref == 1 && t.ht == [(0xEC2E, 4)]) = true := by decide
theorem test_find_rejects_empty :
    nextWith (exec (.find 3) (machine (.busy .compress .scan) (ascii "xyzxyzxyz") [] 3 0 0))
      (fun t => !t.work.accept && t.ht == [(0x58DF, 3)]) = true := by decide
-- EV-3 shortened to one window, EV-6
theorem test_extend : nextWith (exec (.extend 8 0 8) (machine (.busy .compress .encode) [0, 1, 2, 3, 4, 5, 6, 7, 0, 1, 2, 3, 4, 0xFF, 6, 7] [] 0 0 0))
    (fun t => t.work.ret == 5) = true := by decide
theorem test_extend_ceiling : nextWith (exec (.extend 20 0 100) (machine (.busy .compress .encode) (List.replicate 40 0x41) [] 0 0 0))
    (fun t => t.work.ret == 20) = true := by decide
-- EV-3, EV-7 on the wide datapath
theorem test_extend_datapath :
    extendDatapath (fun k => if k = 25 then 0xFF else BitVec.ofNat 8 (k % 16)) 16 0 16 = 9 := by decide
theorem test_ctz16 : ctz16 0x0200 = 9 ∧ ctz16 0 = 16 := by decide

/-! ### Token encoder and block compressor -/

/-- The operation went on, with these bytes at the destination and `op` past them. -/
def wrote (o : Host.Outcome State Fault Refusal) (at0 : Nat) (out : List Byte) : Bool :=
  nextWith o fun t => t.busy && t.mem.readList (128 + at0) out.length == out && t.work.op == at0 + out.length

-- R178: 255 is FF 00
theorem test_writeExt : wrote (exec (.writeExt 255) (machine (.busy .compress .emit) [] [] 0 3 40)) 3 [0xFF, 0x00] = true := by decide
theorem test_writeExt_254 : wrote (exec (.writeExt 254) (machine (.busy .compress .emit) [] [] 0 0 40)) 0 [0xFE] = true := by decide
-- CB-9's first element; CB-8's literal length 16 with a short match
theorem test_emitSeq : wrote (exec (.emitSeq 0 2 1 19) (machine (.busy .compress .emit) (List.replicate 26 0x41) [] 0 0 60)) 0
    [0x2F, 0x41, 0x41, 0x01, 0x00, 0x00] = true := by decide
theorem test_emitSeq_order : wrote (exec (.emitSeq 1 15 0x1234 4) (machine (.busy .compress .emit) (0 :: List.replicate 15 0x41) [] 0 0 60)) 0
    (0xF0 :: 0x00 :: List.replicate 15 0x41 ++ [0x34, 0x12]) = true := by decide
-- CB-14, CB-1
theorem test_emitLast : wrote (exec (.emitLast 0 15) (machine (.busy .compress .last) (List.replicate 15 0x0E) [] 0 0 60)) 0
    (0xF0 :: 0x00 :: List.replicate 15 0x0E) = true := by decide
theorem test_emitLast_empty : wrote (exec (.emitLast 0 0) (machine (.busy .compress .last) [] [] 0 0 60)) 0 [0x00] = true := by decide
-- CB-6, CB-15
theorem test_compressBlock : wrote (exec .compressBlock (machine (.busy .compress .start) (List.replicate 14 0x41) [] 0 0 30)) 0
    [0x23, 0x41, 0x41, 0x01, 0x00, 0x50, 0x41, 0x41, 0x41, 0x41, 0x41] = true := by decide
theorem test_compressBlock_overlap :
    wrote (exec .compressBlock (machine (.busy .compress .start) (ascii "xyzxyzxyzxyzxyzxyzxyz0123456789") [] 0 0 60)) 0
      ([0x4D, 0x78, 0x79, 0x7A, 0x78, 0x03, 0x00, 0xA0] ++ ascii "0123456789") = true := by decide

/-! ### Token decoder -/

-- DV-24, DV-26 on CB-12 (XV-6)
theorem test_decompressBlock :
    wrote (exec .decompressBlock (machine (.busy .decompress .start) (0x88 :: ascii "ABCDEFGH" ++ [0x08, 0x00]) [] 0 0 20)) 0
      (ascii "ABCDEFGHABCDEFGHABCD") = true := by decide
theorem test_decompressBlock_capacity :
    ended (exec .decompressBlock (machine (.busy .decompress .start)
      (0x8A :: ascii "Hello, H" ++ [0x07, 0x00, 0x50] ++ ascii "ello!") [] 0 0 26)) 4 3 0 12 22 [] = true := by decide
-- R199, DV-18
theorem test_readLen : nextWith (exec (.readLen 15) (machine (.busy .decompress .token) [0xFF, 0x02, 0x61] [] 0 0 9))
    (fun t => t.work.ret == 272 && t.work.ip == 2) = true := by decide
theorem test_readLen_truncated :
    ended (exec (.readLen 15) (machine (.busy .decompress .token) [0xF0, 0xFF] [] 1 0 9)) 4 2 0 2 0 [] = true := by decide
-- DV-5, and a token that goes on to its literals
theorem test_token_capacity :
    ended (exec (.token 1 0) (machine (.busy .decompress .token) [0x10, 0x61] [] 0 0 0)) 4 3 0 1 0 [] = true := by decide
theorem test_token_fetched : nextWith (step (machine (.busy .decompress .token) [0x12, 0x61, 0x01, 0x00] [] 0 0 9))
    (fun t => t.phase == .busy .decompress .literal && t.work.litLen == 1 && t.work.ip == 1) = true := by decide
-- R94: FF adds 255 and goes on, the terminal byte ends the length
theorem test_extCont : nextWith (step { machine (.busy .decompress (.ext .mat)) [0xFF, 0x02] [] 0 5 9 with
    work := { (machine .idle [0xFF, 0x02] [] 0 5 9).work with ret := 15 } })
    (fun t => t.phase == .busy .decompress (.ext .mat) && t.work.ret == 270 && t.work.ip == 1) = true := by decide
theorem test_extTerm : nextWith (exec (.extTerm 2) { machine (.busy .decompress (.ext .mat)) [0xFF, 0x02] [] 1 5 9 with
    work := { (machine .idle [0xFF, 0x02] [] 1 5 9).work with ret := 270 } })
    (fun t => t.phase == .busy .decompress .copy && t.work.matchLen == 276 && t.work.ip == 2) = true := by decide
-- R95, R204: the last literal of the run, and of the block
theorem test_literal : nextWith (exec (.literal 0x61) { machine (.busy .decompress .literal) [0x20, 0x61, 0x62] [] 1 0 9 with
    work := { (machine .idle [0x20, 0x61, 0x62] [] 1 0 9).work with litLen := 2 } })
    (fun t => t.phase == .busy .decompress .literal && t.work.idx == 1 && t.mem.read 128 == 0x61) = true := by decide
theorem test_literal_final : nextWith (exec (.literal 0x62) { machine (.busy .decompress .literal) [0x20, 0x61, 0x62] [0x61] 1 0 9 with
    work := { (machine .idle [0x20, 0x61, 0x62] [] 1 0 9).work with litLen := 2, idx := 1 } })
    (fun t => t.phase == .busy .decompress .finish && t.work.ip == 3 && t.work.op == 2 && t.mem.read 129 == 0x62) = true := by decide
-- DV-8, DV-20: offset 0 is found before the missing extension
theorem test_offset16_zero : ended (exec (.offset16 0) { machine (.busy .decompress .offset) [0x1F, 0x61, 0, 0] [0x61] 2 1 100 with
    work := { (machine .idle [0x1F, 0x61, 0, 0] [] 2 1 100).work with token := 0x1F } }) 4 1 0 4 1 [] = true := by decide
theorem test_offset16 : nextWith (step { machine (.busy .decompress .offset) [0x12, 0x61, 0x01, 0x00] [0x61] 2 1 9 with
    work := { (machine .idle [0x12, 0x61, 0x01, 0x00] [] 2 1 9).work with token := 0x12 } })
    (fun t => t.phase == .busy .decompress .copy && t.work.offset == 1 && t.work.matchLen == 6 && t.work.ip == 4) = true := by decide
-- DV-16 element by element
theorem test_seq : wrote (exec (.seq [0x61, 0x62] 2 5) (machine (.busy .decompress .token) [0x21, 0x61, 0x62, 2, 0, 0x10, 0x7A] [] 0 0 20)) 0
    (ascii "abababa") = true := by decide
theorem test_last : wrote (exec (.last [0x7A]) (machine (.busy .decompress .token) [0x21, 0x61, 0x62, 2, 0, 0x10, 0x7A] (ascii "abababa") 5 7 20)) 7
    [0x7A] = true := by decide

/-! ### Copy engine: MV-2, MV-6 -/

theorem test_copyMatch : wrote (exec (.copyMatch 2 5) (machine (.busy .decompress .copy) [] (ascii "ab") 0 2 20)) 2
    (ascii "ababa") = true := by decide
theorem test_copy_datapath :
    ((machine .idle [] (ascii "abcdefgh") 0 0 0).mem.copyDatapath 136 8 12).readList 128 20 = ascii "abcdefghabcdefghabcd" := by decide
theorem test_copyLiterals : wrote (exec (.copyLiterals 1 2) (machine (.busy .compress .emit) (ascii "abc") [] 0 4 20)) 4
    (ascii "bc") = true := by decide
theorem test_copyLiteralsDec :
    nextWith (exec (.copyLiteralsDec 2) (machine (.busy .decompress .token) (ascii "abc") [] 1 4 20))
      (fun t => t.work.ip == 3 && t.work.op == 6 && t.mem.readList 132 2 == ascii "bc") = true := by decide

/-! ### Host frame elements -/

-- FR-1: magic, FLG 60, BD 40, HC 20
theorem test_frameMagic : nextWith (step (framing .magic [0x04, 0x22, 0x4D, 0x18])) (fun t => t.host.fdec.point == .flg) = true := by
  decide
theorem test_frameFlg : nextWith (exec (.frameFlg 0x60) (framing .flg [0x60])) (fun t => t.host.fdec.point == .bd) = true := by decide
theorem test_frameBd : nextWith (exec (.frameBd 0x40) (framing .bd [0x40])) (fun t => t.host.fdec.point == .hc) = true := by decide
-- FR-4, FR-5
theorem test_frameContentSize :
    nextWith (exec (.frameContentSize 0) (framing .size [])) (fun t => t.host.fdec.size == some 0) = true := by decide
theorem test_frameContentSize_too_large :
    nextWith (exec (.frameContentSize 1000) { framing .size [] with
        host := { HostSide.reset with fdec := { FrameDec.off with maxOut := some 999 } } })
      (fun t => t.host.fdec.error == some .outputTooLarge) = true := by decide
theorem test_frameHc :
    nextWith (exec (.frameHc 0x20) { framing .hc [0x20] with host := { HostSide.reset with fdec := { FrameDec.off with hcAcc := 0x60 ^^^ 0x40 } } })
      (fun t => t.host.fdec.point == .word) = true := by decide
theorem test_frameHc_differs :
    nextWith (exec (.frameHc 0x21) { framing .hc [0x20] with host := { HostSide.reset with fdec := { FrameDec.off with hcAcc := 0x60 ^^^ 0x40 } } })
      (fun t => t.host.fdec.error == some .invalidData) = true := by decide
-- FR-3: a stored record of "abc"; DV-11's block as a compressed record
theorem test_blockStored : nextWith (exec (.blockStored 3) (framing .word ([3, 0, 0, 0x80] ++ ascii "abc")))
    (fun t => t.host.fdec.outLen == 3 && t.host.fdec.cur == 7 && t.mem.readList 128 3 == ascii "abc") = true := by decide
theorem test_blockCompressed : nextWith (exec (.blockCompressed 4) (framing .word [4, 0, 0, 0, 0x10, 0x61, 0x01, 0x00]))
    (fun t => t.host.fdec.outLen == 5 && t.host.fdec.cur == 8 && t.mem.readList 128 5 == ascii "aaaaa") = true := by decide
-- FR-7
theorem test_blockCompressed_cut : nextWith (exec (.blockCompressed 15) (framing .word [15, 0, 0, 0, 0x2F]))
    (fun t => t.host.fdec.error == some .unexpectedEof) = true := by decide
theorem test_endMark : nextWith (step (framing .word [0, 0, 0, 0]))
    (fun t => t.host.fdec.point == .ended && t.host.fdec.error == none) = true := by decide
-- R258: an announced size that differs, and a byte behind the frame, with the check and without it
theorem test_endMark_checks :
    let s := framing .word [0, 0, 0, 0]
    let sized := { s with host := { s.host with fdec := { s.host.fdec with size := some 1 } } }
    let trailed := framing .word [0, 0, 0, 0, 0]
    let error (s : State) (e : Option HostError) : Bool := nextWith (exec .endMark s) fun t => t.host.fdec.error == e
    error sized (some .invalidData) ∧ error { sized with cfg := { quietCfg with contentSizeCheck := false } } none ∧
      error trailed (some .invalidData) ∧ error { trailed with cfg := { quietCfg with trailingBytes := .ignore } } none := by decide
-- R249, whatever CHECKSUM32 is: its value on the output is accepted, any other refused
theorem test_contentChecksum (v : BitVec 32) :
    exec (.contentChecksum v) (framing .checksum [0, 0, 0, 0]) =
      .next ((framing .checksum [0, 0, 0, 0]).setFdec (
        if v = Config.checksum32 [] then { FrameDec.off with point := .ended, src := 16, len := 4, cur := 4, out := 128 }
        else { FrameDec.off with
          point := .ended, src := 16, len := 4, cur := 4, out := 128, error := some .checksumMismatch })) := rfl
-- FR-3 and FR-1 written
theorem test_record_stored : recordBytes (ascii "abc") (0x30 :: ascii "abc") = [0x03, 0, 0, 0x80] ++ ascii "abc" := by decide
theorem test_header : headerBytes quietCfg none = [0x04, 0x22, 0x4D, 0x18, 0x60, 0x40, 0x20] := by decide
theorem test_header_size :
    headerBytes quietCfg (some 0) = [0x04, 0x22, 0x4D, 0x18, 0x68, 0x40, 0, 0, 0, 0, 0, 0, 0, 0, 0x28] := by decide

-- R250: the scratch region of a 1-byte chunk; R253: the wrapper's size for no chunk, one full chunk and one byte more
theorem test_scratch : scratchSize quietCfg 0 1 = 17 ∧ scratchSize quietCfg 40 1 = 40 ∧ scratchSize quietCfg (2 ^ 32) 1 = 2 ^ 32 - 1 := by
  decide
theorem test_presize : [0, 65536, 65537].map (framePresize quietCfg) = [23, 65832, 131641] := by decide

-- R260, R261: a write, the record of its flush (R250: two block bytes are not smaller than the one, so it is stored) and the trailer
theorem test_stream :
    let s := (machine .idle [] [] 0 0 0).setScomp (.fresh 300 400 0)
    let sink (r : HostRes Nat) (n : Nat) (bs : List Byte) : Bool := match r with
      | .ok k t => k == n && t.host.scomp.sink == [0x04, 0x22, 0x4D, 0x18, 0x60, 0x40, 0x20] ++ bs
      | _ => false
    sink (streamWriteR [0x61] s) 1 [] = true ∧
      sink ((streamWriteR [0x61] s).bind fun _ => streamFlushR) 0 [0x01, 0, 0, 0x80, 0x61] = true ∧
      sink ((streamWriteR [0x61] s).bind fun _ => streamFinishR) 0 [0x01, 0, 0, 0x80, 0x61, 0, 0, 0, 0] = true := by decide
-- R265: a compressor dropped after a write leaves the frame it had begun, here its header (FR-1), also when another is opened
theorem test_drop :
    let s := (doing .dropCompressor).setScomp { StreamComp.fresh 0 0 0 with
      point := .accumulating, acc := [0x61], sink := headerBytes quietCfg none }
    nextWith (step s) (fun t => t.host.scomp.sink == [0x04, 0x22, 0x4D, 0x18, 0x60, 0x40, 0x20] && t.host.scomp.acc == [] &&
      (openScomp 0 64 17 t).host.frames == [[0x04, 0x22, 0x4D, 0x18, 0x60, 0x40, 0x20]]) = true := by decide

/-! ### Registers -/

-- IV-1, IV-4, IV-8, IV-9
theorem test_reset_id : regRead State.reset 0x58 = 0x40201001 := by decide
theorem test_srcLen_truncates : regRead (regWrite State.reset 0x20 0x100000005) 0x20 = 5 := by decide
theorem test_reset_while_busy : regRead (machine (.busy .compress .scan) [0x61] [] 0 0 17).resetEngine 0x08 = 0 := by decide
-- R322: a reset leaves the bytes of the source of the command it abandons, and its destination takes free values
theorem test_reset_memory : let t := (machine (.busy .compress .scan) [0x61] [] 0 0 17).resetEngine
    t.mem.read 16 = 0x61 ∧ t.mem.spans = [{ lo := 128, hi := 145, draw := 0 }] := by decide
-- IV-6, IV-7
theorem test_irq_clears :
    let s := machine .idle [] [] 0 0 0
    let t := { s with regs := { s.regs with err := true, errCode := 1, irqEn := true } }
    t.irq = true ∧ (regWrite t 0x08 4).irq = false ∧ regRead (regWrite t 0x08 4) 0x10 = 1 := by decide
-- R332: between the CMD write and the observation of BUSY = 0 a write to the source region is refused, and one elsewhere is not
theorem test_window : let s := ((machine .idle [0x61] [] 0 0 17).offered .compress).accept .compress
    hostStore 16 [0x62] s = .refuse .hostRace ∧ hostStore 16 [0x62] (s.finish 2) = .refuse .hostRace ∧
      nextWith (hostStore 16 [0x62] (s.finish 2).observed).outcome (fun t => t.mem.read 16 == 0x62) = true ∧
      nextWith (hostStore 400 [0x62] s).outcome (fun t => t.mem.read 400 == 0x62) = true :=
  ⟨rfl, rfl, by decide, by decide⟩
-- R300, R301: a host that waits for the interrupt goes on when the line rises, and has then seen the command's end
theorem test_waitIrq :
    let w : Window := { sa := 16, n := 1, da := 128, cap := 17 }
    let s := machine .idle [0x61] [] 0 0 17
    let s := { s with unseen := [w], host := { s.host with queue := [.waitIrq] }, regs := { s.regs with irqEn := true } }
    nextWith (step s) (fun t => t.host.queue == [.waitIrq] && t.unseen == [w]) = true ∧
      nextWith (step { s with regs := { s.regs with done := true } }) (fun t => t.host.queue == [] && t.unseen == []) = true := by
  decide
-- a table word placed and stepped (log entry 12)
theorem test_withFetchWord : nextWith (step (State.reset.withFetchWord 8 4)) (fun t => t.phase == .busy .bound .start) = true := by
  decide

/-! ### Witnesses: for every obligation with hypotheses, data that meet all of them together, at the edges of its clauses -/

/-- What `Ready` asks of a machine made by `machine` is a computation. -/
theorem ready_of {s : State} (hq : s.cfg.busErrorPossible = false) (hf : regionsFit s.cfg s.work = true)
    (hd : regionsDisjoint s.work = true) (hw : s.mem.wf) : Ready s := ⟨.inl hq, ⟨hf, hd⟩, hw⟩

theorem witness_DecodeInvertsEncode :
    ((Instr.seq [0x41] 1 19).wf = true ∧ contextOf (.seq [0x41] 1 19) = some .element ∧
      encode (.seq [0x41] 1 19) = some [0x1F, 0x41, 0x01, 0x00, 0x00] ∧ ∀ lits, Instr.seq [0x41] 1 19 = .last lits → [0x50#8] = []) ∧
    ((Instr.last [0x41]).wf = true ∧ contextOf (.last [0x41]) = some .element ∧ encode (.last [0x41]) = some [0x10, 0x41] ∧
      ∀ lits, Instr.last [0x41] = .last lits → ([] : List Byte) = []) :=
  ⟨⟨by decide, by decide, by decide, fun _ h => nomatch h⟩, by decide, by decide, by decide, fun _ _ => rfl⟩

theorem witness_EncodeInvertsDecode :
    decode .element [0x1F, 0x41, 0x01, 0x00, 0x00, 0x50] = .instr (.seq [0x41] 1 19) [0x50] ∧
      decode .element [0x1F, 0x61] = .instr (.last [0x61]) [] ∧ decode .command [0x14, 0, 0, 0, 0, 0, 0, 0] = .instr .bound [] := by
  decide

/-- An idle machine whose host is about to write `v` to CMD. -/
def writing (v : Word) : State :=
  let s := machine .idle [0x61] [] 0 0 17
  { s with host := { s.host with queue := [.wr 0xF0000000 8 v, .poll] } }

theorem witness_StepRunsCommandWrite :
    HostDoes (writing 0x12) (.wr 0xF0000000 8 0x12) [.poll] ∧ target (writing 0x12).cfg 0xF0000000 8 = .reg 0 ∧
      decode .command (leBytes 8 (0x12 : Word).toNat) = .instr .decompress [] :=
  ⟨⟨by decide, by decide, by decide, by decide⟩, by decide, by decide⟩

/-- A store that ends on the first source byte, a store of the last destination byte, and one just behind each region. -/
theorem witness_StepRunsCommandWrite_locked :
    ∀ p ∈ [(15, [0#8, 0#8], 16), (144, [0#8], 144)],
      HostDoes (doing (.mem p.1 p.2.1)) (.mem p.1 p.2.1) [] ∧
        p.1 + p.2.1.length ≤ 2 ^ (doing (.mem p.1 p.2.1)).cfg.addrW ∧
        coversDevice (doing (.mem p.1 p.2.1)).cfg p.1 p.2.1.length = false ∧ p.1 ≤ p.2.2 ∧ p.2.2 < p.1 + p.2.1.length ∧
        Locked (doing (.mem p.1 p.2.1)) p.2.2 := by
  intro p h
  simp only [List.mem_cons, List.not_mem_nil, or_false] at h
  rcases h with rfl | rfl <;>
    exact ⟨⟨by decide, by decide, by decide, by decide⟩, by decide, by decide, by decide, by decide,
      .inl ⟨_, List.mem_singleton.mpr rfl, by unfold InWindow; decide⟩⟩
theorem witness_StepRunsCommandWrite_free :
    ∀ a ∈ [17, 145],
      HostDoes (doing (.wr a 1 9)) (.wr a 1 9) [] ∧ a + (leBytes 1 9).length ≤ 2 ^ (doing (.wr a 1 9)).cfg.addrW ∧
        coversDevice (doing (.wr a 1 9)).cfg a (leBytes 1 9).length = false ∧ (doing (.wr a 1 9)).mem.wf ∧
        ∀ x, a ≤ x → x < a + (leBytes 1 9).length → ¬ Locked (doing (.wr a 1 9)) x := by
  intro a h
  refine ⟨?_, ?_, ?_, ?_, ?_⟩
  · simp only [List.mem_cons, List.not_mem_nil, or_false] at h
    rcases h with rfl | rfl <;> exact ⟨by decide, by decide, by decide, by decide⟩
  · revert a; decide
  · revert a; decide
  · exact (by decide : (machine .idle [0x61] [] 0 0 17).mem.wf)
  · simp only [List.mem_cons, List.not_mem_nil, or_false] at h
    rintro x h1 h2 (⟨w, hw, hin⟩ | ⟨⟨c, hc, -⟩, -⟩)
    · cases List.mem_singleton.mp hw
      simp only [InWindow] at hin
      simp only [leBytes, List.length_cons, List.length_nil] at h2
      omega
    · cases hc

theorem witness_StepRunsStreamElement :
    (let s := machine (.busy .decompress .token) [0x00] [] 0 0 9;
      mover s = some .engine ∧ streamAt s = some (.token, 0) ∧ Quiet s ∧ s.work.sa + s.work.n ≤ s.cfg.addrSpace ∧
        0 + contextBytes .token ≤ s.work.n ∧ decode .token (srcBytes s 0 1) = .instr (.token 0 0) []) ∧
    (let s := machine (.busy .decompress .offset) [0x10, 0x61, 0x01] [0x61] 2 1 9;
      mover s = some .engine ∧ streamAt s = some (.offset, 2) ∧ Quiet s ∧ s.work.sa + s.work.n ≤ s.cfg.addrSpace ∧
        s.work.n < 2 + contextBytes .offset) :=
  ⟨⟨by decide, by decide, .inl rfl, by decide, by decide, by decide⟩, by decide, by decide, .inl rfl, by decide, by decide⟩

theorem witness_StepRunsFrameElement :
    (let s := framing .magic [0x04, 0x22, 0x4D, 0x18];
      mover s = some .host ∧ frameContext s.host.fdec.point = some .frameMagic ∧ s.phase = .idle ∧
        s.host.fdec.cur + contextBytes .frameMagic ≤ s.host.fdec.len ∧ HostMay s (s.host.fdec.src + s.host.fdec.cur) 4 ∧
        decode .frameMagic (s.mem.readList (s.host.fdec.src + s.host.fdec.cur) 4) = .instr .frameMagic []) ∧
    (let s := framing .magic [0x05, 0x22, 0x4D, 0x18];
      mover s = some .host ∧ frameContext s.host.fdec.point = some .frameMagic ∧ s.phase = .idle ∧
        s.host.fdec.cur + contextBytes .frameMagic ≤ s.host.fdec.len ∧ HostMay s (s.host.fdec.src + s.host.fdec.cur) 4 ∧
        leVal (s.mem.readList (s.host.fdec.src + s.host.fdec.cur) 4) ≠ 0x184D2204) :=
  ⟨⟨by decide, by decide, by decide, by decide, ⟨by decide, by decide, rfl⟩, by decide⟩,
    by decide, by decide, by decide, by decide, ⟨by decide, by decide, rfl⟩, by decide⟩

theorem witness_StepRunsInternalOperation_checks :
    ∀ p ∈ [(Command.compress, 17), (.decompress, 0), (.decompressExact, 0), (.bound, 0)], ∀ pace ∈ [Pace.whole, .piecewise],
      let s := { machine (.busy p.1 .start) [0x61] [] 0 0 p.2 with pace := pace }
      mover s = some .engine ∧ s.phase = .busy p.1 .start ∧ firstChecks p.1 (tick s) = .ok () (tick s) := by
  decide
/-- The last position of the shortest input that is scanned, the position behind it, and an input too short. -/
theorem witness_StepRunsInternalOperation_scan :
    ∀ p ∈ [(13, 1, true), (13, 2, false), (12, 0, false)],
      let s := machine (.busy .compress .scan) (List.replicate p.1 0x41) [] p.2.1 0 30
      mover s = some .engine ∧ s.phase = .busy .compress .scan ∧ (13 ≤ s.work.n ∧ s.work.ip + 12 ≤ s.work.n ↔ p.2.2 = true) := by
  decide
theorem witness_StepRunsInternalOperation_units :
    ∀ p ∈ [Point.encode, .emit, .last, .finish],
      let s := machine (.busy .compress p) (List.replicate 14 0x41) [] 2 0 30
      mover s = some .engine ∧ s.phase = .busy .compress p := by
  decide
/-- A token boundary at the block's end, and a match that fits the capacity or passes it by one. -/
theorem witness_StepRunsInternalOperation_decoder :
    (let s := machine (.busy .decompress .token) [0x00] [] 1 0 9;
      mover s = some .engine ∧ s.phase = .busy .decompress .token ∧ s.work.n ≤ s.work.ip) ∧
    ∀ p ∈ [(5, false), (4, true)],
      let s := machine (.busy .decompress .copy) [0x10, 0x61, 0x01, 0x00] [0x61] 4 1 p.1
      let s := { s with work := { s.work with offset := 1, matchLen := 4 } }
      mover s = some .engine ∧ s.phase = .busy .decompress .copy ∧ decide (s.work.cap - s.work.op < s.work.matchLen) = p.2 := by
  decide

theorem witness_IdleWaits : State.reset.phase = .idle ∧ hostReady State.reset.host = false := by decide

theorem witness_ResetRegisters :
    ∃ s t : State, s.busy = true ∧ s.regs.resultLen ≠ 0 ∧ t = s.resetEngine :=
  ⟨{ machine (.busy .compress .scan) [0x61] [] 0 0 17 with regs := { Regs.reset with resultLen := 9 } }, _, by decide, by decide, rfl⟩
/-- A byte just behind the destination, and a source byte inside it. -/
theorem witness_ResetRegisters_memory :
    ¬ InDest (machine (.busy .compress .scan) [0x61] [] 0 0 17) 145 ∧
      (let s := machine (.busy .compress .start) [0x61] [] 0 0 17;
        let s := { s with work := { s.work with sa := 128 } };
        InDest s 128 ∧ s.work.sa ≤ 128 ∧ 128 < s.work.sa + s.work.n) := by
  unfold InDest; decide
theorem witness_ResetRegisters_step : HostDoes (doing .reset) .reset [] := ⟨by decide, by decide, by decide, by decide⟩

theorem witness_OperandRegisters :
    (machine .idle [] [] 0 0 0).phase = .idle ∧ (0x50 : Nat) ≠ 0x00 ∧ (0x50 : Nat) ≠ 0x08 ∧ (0x58 : Nat) ≠ 0x50 ∧
      0x38 ∉ [0x08, 0x18, 0x20, 0x28, 0x30, 0x50] := by
  decide
theorem witness_OperandRegisters_access :
    (machine .idle [] [] 0 0 0).cfg.wf = true ∧
      (∀ off ∈ [0x08, 0x18, 0xF8], HostDoes (doing (.wr (0xF0000000 + off) 8 5)) (.wr (0xF0000000 + off) 8 5) []) ∧
      ∀ off ∈ [0x00, 0x08, 0xF8], HostDoes (doing (.rd (0xF0000000 + off) 8)) (.rd (0xF0000000 + off) 8) [] := by
  refine ⟨by decide, ?_, ?_⟩
  · intro off h
    simp only [List.mem_cons, List.not_mem_nil, or_false] at h
    rcases h with rfl | rfl | rfl <;> exact ⟨by decide, by decide, by decide, by decide⟩
  · intro off h
    simp only [List.mem_cons, List.not_mem_nil, or_false] at h
    rcases h with rfl | rfl | rfl <;> exact ⟨by decide, by decide, by decide, by decide⟩
/-- A four-byte access, one that is not aligned, and one that only reaches the block's first byte. -/
theorem witness_OperandRegisters_refused :
    ∀ p ∈ [(0xF0000018, 4, 0xF0000018), (0xF00000FC, 8, 0xF00000FF), (0xEFFFFFFF, 2, 0xF0000000)],
      (p.1 ≤ p.2.2 ∧ p.2.2 < p.1 + p.2.1 ∧ 0xF0000000 ≤ p.2.2 ∧ p.2.2 < 0xF0000000 + 256) ∧ ¬ (p.2.1 = 8 ∧ p.1 % 8 = 0) ∧
        HostDoes (doing (.rd p.1 p.2.1)) (.rd p.1 p.2.1) [] := by
  intro p h
  simp only [List.mem_cons, List.not_mem_nil, or_false] at h
  rcases h with rfl | rfl | rfl <;> exact ⟨by decide, by decide, by decide, by decide, by decide, by decide⟩
/-- A store of one byte into the block's last register and a load that only reaches its first byte. -/
theorem witness_OperandRegisters_bytes :
    (0xF00000FF + 1 ≤ 2 ^ (doing (.mem 0xF00000FF [7])).cfg.addrW ∧ HostDoes (doing (.mem 0xF00000FF [7])) (.mem 0xF00000FF [7]) []) ∧
      (0xEFFFFFFF + 2 ≤ 2 ^ (doing (.ld 0xEFFFFFFF 2)).cfg.addrW ∧ HostDoes (doing (.ld 0xEFFFFFFF 2)) (.ld 0xEFFFFFFF 2) []) :=
  ⟨⟨by decide, by decide, by decide, by decide, by decide⟩, by decide, by decide, by decide, by decide, by decide⟩

theorem witness_StatusAndId :
    (machine .idle [] [] 0 0 0).phase = .idle ∧ (machine .idle [] [] 0 0 0).cfg.wf = true := by decide

theorem witness_WritesWhileBusy : (machine (.busy .compress .scan) [0x61] [] 0 0 17).busy = true := by decide

theorem witness_InterruptLine :
    let s := machine .idle [] [] 0 0 0
    let s := { s with regs := { s.regs with err := true, irqEn := true } }
    s.phase = .idle ∧ (4 : Word).getLsbD 0 = false ∧ (s.regs.done = true → (4 : Word).getLsbD 1 = true) ∧
      (s.regs.err = true → (4 : Word).getLsbD 2 = true) ∧ s.irq = true := by
  decide

/-- Both clauses: IDLE and BUSY. -/
theorem witness_Acceptance : (machine .idle [0x61] [] 0 0 17).busy = false ∧ (machine (.busy .bound .start) [] [] 0 0 0).busy = true ∧
    (Instr.bound, Command.bound) ∈ [(Instr.compress, Command.compress), (.decompress, .decompress),
      (.decompressExact, .decompressExact), (.bound, .bound)] := by
  decide

theorem witness_ReservedOpcode :
    (machine .idle [] [] 0 0 0).phase = .idle ∧ ∀ op ∈ [0#4, 5#4, 15#4], reservedOp op = true := by decide

theorem witness_BoundCommand :
    (machine .idle [0x61] [] 0 0 17).phase = .idle ∧ (machine .idle [0x61] [] 0 0 17).turns.head? ≠ some .host := by decide

/-- Operand registers for the region checks. -/
def operands (sa n da cap : Nat) : State := (machine .idle [] [] 0 0 0).setOperands sa n da cap

theorem witness_RegionChecks_illegal :
    ∀ s ∈ [operands (2 ^ 64 - 4) 5 0 0, operands 0x1000 16 0x100F 32],
      s.phase = .idle ∧ s.turns.head? ≠ some .host ∧ ¬ OperandsLegal s := by
  simp only [OperandsLegal]; decide
theorem witness_RegionChecks_legal :
    ∀ s ∈ [operands (2 ^ 64 - 4) 4 0 9, operands 0x1000 16 0x1010 32, operands 0x1000 0 0x1000 16],
      s.phase = .idle ∧ s.turns.head? ≠ some .host ∧ OperandsLegal s := by
  simp only [OperandsLegal]; decide

theorem witness_CompressTooSmall :
    let s := machine .idle (List.replicate 14 0x41) [] 0 0 29
    s.phase = .idle ∧ s.turns.head? ≠ some .host ∧ OperandsLegal s ∧
      s.regs.dstCap.toNat < s.regs.srcLen.toNat + s.regs.srcLen.toNat / 255 + 16 := by
  simp only [OperandsLegal]; decide

/-- What the end-to-end statements ask of an idle machine, at an operand pair of `machine`. -/
theorem witness_CompressCommand :
    let s := machine .idle (List.replicate 14 0x41) [] 0 0 30
    Waiting s ∧ Quiet s ∧ s.mem.wf ∧ OperandsLegal s ∧ OrdinaryMemory s ∧ s.cfg.compressor = .reference ∧
      s.regs.srcLen.toNat + s.regs.srcLen.toNat / 255 + 16 ≤ s.regs.dstCap.toNat :=
  ⟨⟨rfl, by decide, rfl⟩, .inl rfl, by decide, ⟨by decide, by decide, by decide⟩, ⟨by decide, by decide⟩, rfl, by decide⟩

theorem witness_DecompressCommand (i : Instr) (c : Command)
    (_ : (i = .decompress ∧ c = .decompress) ∨ (i = .decompressExact ∧ c = .decompressExact)) :
    let s := machine .idle [0x10, 0x61, 0x01, 0x00] [] 0 0 5
    Waiting s ∧ Quiet s ∧ s.mem.wf ∧ OperandsLegal s ∧ OrdinaryMemory s :=
  ⟨⟨rfl, by decide, rfl⟩, .inl rfl, by decide, ⟨by decide, by decide, by decide⟩, ⟨by decide, by decide⟩⟩
/-- Each clause is met: decoded to the capacity, short of it, and past it (XV-8, DV-12). -/
theorem witness_DecompressCommand_ends :
    decodeBlock (operandBytes (machine .idle [0x10, 0x61, 0x01, 0x00] [] 0 0 5)) 5 = .done (ascii "aaaaa") ∧
      decodeBlock (operandBytes (machine .idle [0x10, 0x61, 0x01, 0x00] [] 0 0 6)) 6 = .done (ascii "aaaaa") ∧
      decodeBlock (operandBytes (machine .idle [0x10, 0x61, 0x01, 0x00] [] 0 0 4)) 4 = .error .outputTooSmall 0 1 := by
  decide

/-- No command, and one that is not COMPRESS. -/
theorem witness_ErrorEnd :
    (∀ p, (machine .idle [] [] 0 0 0).phase ≠ .busy .compress p) ∧
      (∀ p, (machine (.busy .decompress .token) [] [] 0 0 0).phase ≠ .busy .compress p) ∧
      ¬ InDest (machine (.busy .compress .scan) [0x61] [] 0 0 17) 145 :=
  ⟨fun _ h => (nomatch h), fun _ h => (nomatch h), by unfold InDest; decide⟩

theorem witness_BusErrors :
    (2 ^ 64 - 1 < (machine .idle [] [] 0 0 0).cfg.addrSpace ∧ (machine .idle [] [] 0 0 0).cfg.busErrorPossible = false) ∧
      ∀ b, 0 < State.reset.cfg.addrSpace ∧ ({ State.reset with bus := [b] } : State).cfg.busErrorPossible = true ∧
        ({ State.reset with bus := [b] } : State).bus = b :: [] := by
  decide

theorem witness_CommandsEnd :
    let s := machine .idle [0x10, 0x61, 0x01, 0x00] [] 0 0 5
    let s := { s with cfg := Params.default, bus := [false, true] }
    Waiting s ∧ s.mem.wf ∧ OrdinaryMemory s :=
  ⟨⟨rfl, by decide, rfl⟩, by decide, ⟨by decide, by decide⟩⟩

theorem witness_Determinism :
    let s := machine .idle [0x10, 0x61, 0x01, 0x00] [] 0 0 5
    let s' := { s with mem := s.mem.write 500 7, draws := 3 }
    Waiting s ∧ Waiting s' ∧ Quiet s ∧ Quiet s' ∧ s.mem.wf ∧ s'.mem.wf ∧ s.cfg = s'.cfg ∧ s.cfg.compressor = .reference ∧
      s.regs = s'.regs ∧ operandBytes s = operandBytes s' ∧
      ∃ u, step (s.accept .decompress) = .next u ∧ u.regs.done = true ∧ Command.decompress ≠ .bound :=
  ⟨⟨rfl, by decide, rfl⟩, ⟨rfl, by decide, rfl⟩, .inl rfl, .inl rfl, by decide, by decide, rfl, rfl, rfl, by decide, _, rfl, rfl,
    by decide⟩

theorem witness_EngineWritesDestinationOnly :
    let s := machine (.busy .decompress .start) [0x10, 0x61, 0x01, 0x00] [] 0 0 5
    mover s = some .engine ∧ ∃ t, step s = .next t :=
  ⟨by decide, _, rfl⟩

theorem witness_CopyLiterals :
    let s := machine (.busy .compress .emit) (ascii "abc") [] 0 4 6
    Ready s ∧ 1 + 2 ≤ s.work.n ∧ s.work.op + 2 ≤ s.work.cap :=
  ⟨ready_of rfl (by decide) (by decide) (by decide), by decide, by decide⟩

theorem witness_CopyLiteralsDec :
    let s := machine (.busy .decompress .token) (ascii "abc") [] 1 4 6
    Ready s ∧ s.work.ip + 2 ≤ s.work.n ∧ s.work.op + 2 ≤ s.work.cap :=
  ⟨ready_of rfl (by decide) (by decide) (by decide), by decide, by decide⟩

theorem witness_CopyMatch :
    let s := machine (.busy .decompress .copy) [] (ascii "ab") 0 2 7
    Ready s ∧ (Instr.copyMatch 2 5).wf = true ∧ (2#16).toNat ≤ s.work.op ∧ s.work.op + 5 ≤ s.work.cap :=
  ⟨ready_of rfl (by decide) (by decide) (by decide), by decide, by decide, by decide⟩

/-- Both paths: offset 7 below the copy word, offset 8 at it (MV-4, MV-5). -/
theorem witness_CopyDatapath :
    (machine .idle [] (ascii "abcdefgh") 0 0 0).mem.wf ∧ ∀ o ∈ [7, 8], 1 ≤ o ∧ o ≤ 136 := by decide

theorem witness_FindMatch :
    let s := { machine (.busy .compress .scan) (ascii "xyzxyzxy") [] 4 0 0 with ht := [(0xEC2E, 1)] }
    Quiet s ∧ s.work.sa + s.work.n ≤ s.cfg.addrSpace ∧ Assoc.wf 0 s.ht ∧ 4 + 4 ≤ s.work.n ∧
      ∀ h, s.ht.get h < 4 ∨ s.ht.get h = 0 := by
  refine ⟨.inl rfl, by decide, by decide, by decide, fun h => .inl ?_⟩
  simp only [Table.get, Assoc.find]
  split <;> decide

theorem witness_ExtendMatch :
    let s := machine (.busy .compress .encode) (List.replicate 40 0x41) [] 0 0 0
    Quiet s ∧ s.work.sa + s.work.n ≤ s.cfg.addrSpace :=
  ⟨.inl rfl, by decide⟩

/-- EV-3: the prefix ends below the limit; EV-5: at it. -/
theorem witness_ExtendDatapath :
    let f : Nat → Byte := fun k => if k = 25 then 0xFF else BitVec.ofNat 8 (k % 16)
    (9 ≤ 16 ∧ (∀ i < 9, f (16 + i) = f (0 + i)) ∧ f (16 + 9) ≠ f (0 + 9)) ∧ 9 ≤ 9 ∧ (9 = 9 ∨ f (16 + 9) ≠ f (0 + 9)) := by
  decide

theorem witness_WriteExt :
    let s := machine (.busy .compress .emit) [] [] 0 3 5
    Ready s ∧ s.work.op + (255 / 255 + 1) ≤ s.work.cap :=
  ⟨ready_of rfl (by decide) (by decide) (by decide), by decide⟩

/-- A literal length of 15 and a match length of 19, the smallest with an extension: token, 1, 15, 2 and 1 bytes. -/
theorem witness_EmitSeq :
    let s := machine (.busy .compress .emit) (List.replicate 15 0x41) [] 0 0 20
    Ready s ∧ (Instr.emitSeq 0 15 1 19).wf = true ∧ 0 + 15 ≤ s.work.n ∧
      s.work.op + (BitVec.ofNat 8 (16 * min 15 15 + min (19 - 4) 15) :: [0x00] ++ srcBytes s 0 15 ++ [0x01, 0x00] ++ [0x00]).length
        ≤ s.work.cap :=
  ⟨ready_of rfl (by decide) (by decide) (by decide), by decide, by decide, by decide⟩

theorem witness_EmitLast :
    let s := machine (.busy .compress .last) (List.replicate 15 0x41) [] 0 0 17
    Ready s ∧ 0 + 15 ≤ s.work.n ∧ s.work.op + (BitVec.ofNat 8 (16 * min 15 15) :: [0x00] ++ srcBytes s 0 15).length ≤ s.work.cap :=
  ⟨ready_of rfl (by decide) (by decide) (by decide), by decide, by decide⟩

/-- The input of CB-6 at the least capacity; also meets the premises of `CompressBlockTiles` and, with the decoder's machine, of
`RoundTrip`. -/
def compressing : State := machine (.busy .compress .start) (List.replicate 14 0x41) [] 0 0 30

theorem witness_CompressBlockFits :
    Ready compressing ∧ compressing.cfg.compressor = .reference ∧
      compressing.work.n + compressing.work.n / 255 + 16 ≤ compressing.work.cap :=
  ⟨ready_of rfl (by decide) (by decide) (by decide), rfl, by decide⟩

theorem witness_CompressBlockTiles : ∃ t, exec .compressBlock compressing = .next t := ⟨_, rfl⟩

theorem witness_CompressShortInput :
    ∀ src ∈ [[], List.replicate 12 0x41],
      let s := machine (.busy .compress .start) src [] 0 0 (src.length + 16)
      Ready s ∧ s.cfg.compressor = .reference ∧ s.work.n + 16 ≤ s.work.cap ∧ s.work.n < 13 ∧
        ∃ t, exec .compressBlock s = .next t := by
  intro src h
  simp only [List.mem_cons, List.not_mem_nil, or_false] at h
  rcases h with rfl | rfl <;>
    exact ⟨ready_of rfl (by decide) (by decide) (by decide), rfl, by decide, by decide, _, rfl⟩

theorem witness_RoundTrip :
    ∃ t, exec .compressBlock compressing = .next t ∧
      let d := machine (.busy .decompress .start) [0x23, 0x41, 0x41, 0x01, 0x00, 0x50, 0x41, 0x41, 0x41, 0x41, 0x41] [] 0 0 14
      Ready d ∧ srcBytes d 0 d.work.n = dstBytes t 0 t.work.op ∧ compressing.work.n ≤ d.work.cap :=
  ⟨_, rfl, ready_of rfl (by decide) (by decide) (by decide), by decide, by decide⟩

theorem witness_AnyValidBlock :
    let s := { compressing with cfg := { quietCfg with compressor := .anyValid } }
    Ready s ∧ s.cfg.compressor = .anyValid ∧ s.work.n + s.work.n / 255 + 16 ≤ s.work.cap ∧
      s.work.n + s.work.n / 255 + 16 ≤ s.cfg.maxSize :=
  ⟨ready_of rfl (by decide) (by decide) (by decide), rfl, by decide, by decide⟩

/-- Both clauses: the terminal byte is the block's last, or missing. -/
theorem witness_ReadLen :
    ∀ p ∈ [([0xFF, 0x02], some (272, [])), ([0xFF], none)],
      let s := machine (.busy .decompress .token) p.1 [] 0 0 9
      (s.cfg.busErrorPossible = false ∨ s.bus = []) ∧ s.work.sa + s.work.n ≤ s.cfg.addrSpace ∧ s.work.ip ≤ s.work.n ∧
        parseLen 15 (srcBytes s s.work.ip (s.work.n - s.work.ip)) = p.2 := by
  decide

theorem witness_TokenElement : (machine (.busy .decompress .token) [0xF0] [] 0 0 9).phase = .busy .decompress .token := rfl

theorem witness_ExtensionBytes :
    (machine (.busy .decompress (.ext .lit)) [0xF0, 0] [] 1 0 9).phase = .busy .decompress (.ext .lit) ∧
      (machine (.busy .decompress (.ext .mat)) [0x1F, 0x61, 1, 0, 0] [] 4 1 9).phase = .busy .decompress (.ext .mat) := by decide

theorem witness_LiteralByte :
    let s := machine (.busy .decompress .literal) [0x20, 0x61, 0x62] [] 1 0 2
    let s := { s with work := { s.work with litLen := 2, idx := 1 } }
    Ready s ∧ s.phase = .busy .decompress .literal ∧ s.work.idx < s.work.litLen ∧ s.work.op + s.work.litLen ≤ s.work.cap :=
  ⟨ready_of rfl (by decide) (by decide) (by decide), rfl, by decide, by decide⟩

theorem witness_OffsetElement :
    (machine (.busy .decompress .offset) [0x10, 0x61, 1, 0] [0x61] 2 1 9).phase = .busy .decompress .offset := rfl

/-- The capacity is met exactly. -/
theorem witness_SeqElement :
    let s := machine (.busy .decompress .token) [0x21, 0x61, 0x62, 2, 0] [] 0 0 7
    Ready s ∧ s.phase = .busy .decompress .token ∧ (Instr.seq [0x61, 0x62] 2 5).wf = true ∧
      encode (.seq [0x61, 0x62] 2 5) = some [0x21, 0x61, 0x62, 2, 0] ∧ s.work.ip + [0x21#8, 0x61, 0x62, 2, 0].length ≤ s.work.n ∧
      1 ≤ (2#16).toNat ∧ (2#16).toNat ≤ s.work.op + [0x61#8, 0x62].length ∧ s.work.op + [0x61#8, 0x62].length + 5 ≤ s.work.cap :=
  ⟨ready_of rfl (by decide) (by decide) (by decide), rfl, by decide, by decide, by decide, by decide, by decide, by decide⟩

theorem witness_LastElement :
    let s := machine (.busy .decompress .token) [0x10, 0x7A] [] 0 0 1
    Ready s ∧ s.phase = .busy .decompress .token ∧ encode (.last [0x7A]) = some [0x10, 0x7A] ∧
      s.work.ip + [0x10#8, 0x7A].length = s.work.n ∧ s.work.op + [0x7A#8].length ≤ s.work.cap :=
  ⟨ready_of rfl (by decide) (by decide) (by decide), rfl, by decide, by decide, by decide⟩

/-- Both ends: DV-10, and DV-26's order of checks on DV-12. -/
theorem witness_DecompressBlockRefines :
    (let s := machine (.busy .decompress .start) [0x20, 0x61, 0x62, 2, 0] [] 0 0 6;
      Ready s ∧ decodeBlock (srcBytes s 0 s.work.n) s.work.cap = .done (ascii "ababab")) ∧
    (let s := machine (.busy .decompress .start) [0x20, 0x61, 0x62, 2, 0] [] 0 0 5;
      Ready s ∧ decodeBlock (srcBytes s 0 s.work.n) s.work.cap = .error .outputTooSmall 0 2) :=
  ⟨⟨ready_of rfl (by decide) (by decide) (by decide), by decide⟩, ready_of rfl (by decide) (by decide) (by decide), by decide⟩

/-- FLG 60 and BD 40 under the reject policy, a content size at and above the cap, and the right HC. -/
theorem witness_FrameHeaderElements :
    ((0x60#8).extractLsb' 6 2 = 1#2 ∧ 0x60#8 &&& 0x13#8 = 0) ∧ (4 ≤ ((0x40#8).extractLsb' 4 3).toNat ∧ 0x40#8 &&& 0x8F#8 = 0) ∧
      (some 1000).any (fun m => decide ((1000#64).toNat ≤ m)) = true ∧ (some 999).any (fun m => decide (m < (1000#64).toNat)) = true ∧
      0x20#8 = { FrameDec.off with hcAcc := 0x60 ^^^ 0x40 }.hcAcc := by
  decide
/-- FLG with another version and with bit 0 set, BD of class 3 and with bit 7 set, and an HC that differs. -/
theorem witness_FrameHeaderElements_refused :
    quietCfg.frameReserved = .reject ∧ quietCfg.hcVerify = true ∧
      (∀ b ∈ [0xA0#8, 0x61#8], ¬ (b.extractLsb' 6 2 = 1#2 ∧ b &&& 0x13#8 = 0)) ∧
      (∀ b ∈ [0x30#8, 0xC0#8], ¬ (4 ≤ (b.extractLsb' 4 3).toNat ∧ b &&& 0x8F#8 = 0)) ∧
      0x21#8 ≠ { FrameDec.off with hcAcc := 0x60 ^^^ 0x40 }.hcAcc := by
  decide

/-- A frame without a checksum and one with it, and both answers of the comparison, whatever CHECKSUM32 is. -/
theorem witness_FrameEndElements :
    ({ FrameDec.off with flg := 0x44 }.flg.getLsbD 2 = true) ∧
    (let s := framing .word [0, 0, 0, 0];
      s.host.fdec.flg.getLsbD 2 = false ∧ s.phase = .idle ∧ HostMay s s.host.fdec.out s.host.fdec.outLen) ∧
    ∃ v w : BitVec 32, v ≠ Config.checksum32 [] ∧ w = Config.checksum32 [] :=
  ⟨by decide, ⟨by decide, by decide, ⟨by decide, by decide, rfl⟩⟩, ~~~ Config.checksum32 [], _,
    fun h => by simpa using congrArg (BitVec.getLsbD · 0) h, rfl⟩

/-- A stored record of three bytes at the cap. -/
theorem witness_StoredBlock :
    let s := framing .word ([3, 0, 0, 0x80] ++ ascii "abc")
    let s := { s with host := { s.host with fdec := { s.host.fdec with bd := 0x40, maxOut := some 3 } } }
    let f := s.host.fdec
    s.phase = .idle ∧ s.mem.wf ∧ f.cur + 4 + (3#31).toNat ≤ f.len ∧ oversize s.cfg f.bd (3#31).toNat = false ∧
      (∀ m, f.maxOut = some m → f.outLen + (3#31).toNat ≤ m) ∧ HostMay s (f.src + (f.cur + 4)) (3#31).toNat ∧
      HostMay s (f.out + f.outLen) (3#31).toNat :=
  ⟨rfl, by decide, by decide, by decide, fun m h => by cases h; decide, ⟨by decide, by decide, rfl⟩, ⟨by decide, by decide, rfl⟩⟩

/-- A compressed record whose output meets the cap. -/
theorem witness_CompressedBlock :
    let s := framing .word [4, 0, 0, 0, 0x10, 0x61, 0x01, 0x00]
    let s := { s with host := { s.host with fdec := { s.host.fdec with bd := 0x40, maxOut := some 5 } } }
    let f := s.host.fdec
    let payload := f.src + (f.cur + 4)
    let dst := f.out + f.outLen
    s.phase = .idle ∧ s.mem.wf ∧ Quiet s ∧ s.cfg.wf = true ∧ (4#31) ≠ 0#31 ∧ f.cur + 4 + (4#31).toNat ≤ f.len ∧
      (4#31).toNat < 2 ^ s.cfg.sizeW ∧ s.cfg.hostBlockCap < 2 ^ s.cfg.sizeW ∧ dst < 2 ^ s.cfg.addrW ∧
      HostMay s payload (4#31).toNat ∧ HostMay s dst s.cfg.hostBlockCap ∧
      (payload + (4#31).toNat ≤ dst ∨ dst + s.cfg.hostBlockCap ≤ payload) ∧
      decodeBlock (s.mem.readList payload (4#31).toNat) s.cfg.hostBlockCap = .done (ascii "aaaaa") ∧
      oversize s.cfg f.bd (ascii "aaaaa").length = false ∧ ∀ m, f.maxOut = some m → f.outLen + (ascii "aaaaa").length ≤ m :=
  ⟨rfl, by decide, .inl rfl, by decide, by decide, by decide, by decide, by decide, by decide, ⟨by decide, by decide, rfl⟩,
    ⟨by decide, by decide, rfl⟩, by decide, by decide, by decide, fun m h => by cases h; decide⟩

/-- A length word cut after three bytes, and a payload cut before its last. -/
theorem witness_FrameTruncated :
    (let s := framing .word [0, 0, 0];
      s.phase = .idle ∧ mover s = some .host ∧ frameContext s.host.fdec.point = some .blockWord ∧
        s.host.fdec.len < s.host.fdec.cur + contextBytes .blockWord) ∧
    (let s := framing .word [3, 0, 0, 0x80, 0x61, 0x62];
      s.phase = .idle ∧ s.host.fdec.len < s.host.fdec.cur + 4 + (3#31).toNat ∧ s.host.fdec.cur + 4 ≤ s.host.fdec.len) := by
  decide

/-- Both sides of the choice: a block one byte shorter than its chunk, and one as long (FR-3). -/
theorem witness_RecordChoice :
    (0 < [0x10#8, 0x61].length ∧ (ascii "aaa").length < 2 ^ 31 ∧ 0 < (ascii "aaa").length ∧
      [0x10#8, 0x61].length < (ascii "aaa").length) ∧
    (0 < [0x10#8, 0x61].length ∧ (ascii "aa").length < 2 ^ 31 ∧ 0 < (ascii "aa").length ∧
      (ascii "aa").length ≤ [0x10#8, 0x61].length) := by
  decide

theorem witness_StreamCalls :
    (∃ k t, streamWriteR [0x61] State.reset = .ok k t ∧ State.reset.host.scomp.point ≠ .finished) ∧
    (let s := State.reset.setScomp { StreamComp.fresh 0 0 0 with point := .finished };
      ∃ k t, streamWriteR [0x61] s = .ok k t ∧ s.host.scomp.point = .finished) ∧
    (let f := { StreamDec.fresh 0 0 0 0 with point := .finished };
      f.point = .finished ∧ f.pending = []) ∧
    (let f := { StreamDec.fresh 0 0 0 0 with point := .finished, pending := [0x61] };
      f.point ≠ .headerNotRead ∧ f.pending ≠ []) :=
  ⟨⟨_, _, rfl, by decide⟩, ⟨_, _, rfl, rfl⟩, by decide, by decide⟩
theorem witness_StreamCalls_drop :
    HostDoes (doing .dropCompressor) .dropCompressor [] ∧
      HostDoes (doing (.openCompressor 0 64 17)) (.openCompressor 0 64 17) [] :=
  ⟨⟨by decide, by decide, by decide, by decide⟩, by decide, by decide, by decide, by decide⟩
theorem witness_StreamCalls_step :
    ∀ a ∈ [HostAct.streamWrite [0x61], .streamFlush, .streamFinish, .streamRead 4],
      (doing a).phase = .idle ∧ HostDoes (doing a) a [] := by
  intro a h
  simp only [List.mem_cons, List.not_mem_nil, or_false] at h
  rcases h with rfl | rfl | rfl | rfl <;> exact ⟨rfl, by decide, by decide, by decide, by decide⟩

/-- A compressor with its accumulation buffer at 2^20 and its scratch region at 2^21, `acc` accumulated. -/
def streaming (acc : List Byte) : State :=
  (machine .idle [] [] 0 0 0).setScomp { StreamComp.fresh (2 ^ 20) (2 ^ 21) 0 with acc := acc, seen := acc }

/-- A buffer one byte short of full, and full, and room for the record of a byte, of no byte and of a whole buffer. -/
theorem witness_StreamCalls_write :
    (streaming [0x61]).host.scomp.point ≠ .finished ∧
      [0x61#8].length + (List.replicate 65534 0x62#8).length < chunkSize (streaming [0x61]).cfg ∧
      [0x61#8].length + (List.replicate 65535 0x62#8).length = chunkSize (streaming [0x61]).cfg := by
  refine ⟨by decide, ?_, ?_⟩
  · rw [List.length_replicate]; decide
  · rw [List.length_replicate]; decide
theorem witness_StreamCalls_can :
    ∀ m ∈ [0, 1, 65536], HostCanCompress (streaming [0x61]) (2 ^ 20) m (2 ^ 21) (scratchSize (streaming [0x61]).cfg 0 m) := by
  intro m h
  simp only [List.mem_cons, List.not_mem_nil, or_false] at h
  rcases h with rfl | rfl | rfl <;>
    exact { idle := rfl, quiet := .inl rfl, wf := (by decide : (machine .idle [] [] 0 0 0).mem.wf), params := by decide,
            reference := rfl, source := ⟨by decide, by decide, rfl⟩, dest := ⟨by decide, by decide, rfl⟩, apart := by decide,
            addressed := by decide, enough := by decide, sized := by decide }
theorem witness_StreamCalls_empty :
    (streaming []).host.scomp.acc = [] ∧ (streaming []).cfg.streamEmptyFlush = false ∧ (streaming [0x61]).host.scomp.acc ≠ [] := by
  decide

/-- A running command that writes memory. -/
theorem witness_StepKeepsCanonical :
    Canonical compressing ∧ ∃ t, step compressing = .next t := ⟨⟨by decide, by decide⟩, _, rfl⟩

theorem witness_StepKeepsRegsLegal :
    RegsLegal compressing ∧ ∃ t, step compressing = .next t :=
  ⟨⟨by decide, fun h => (nomatch h), fun h => (nomatch h), ⟨by decide, by decide, by decide, by decide⟩, fun _ => by decide,
    fun _ => by decide⟩, _, rfl⟩

end Sys2Proof.Tests
end

section
/-! PROOFS. The register block (10_state.md): every step keeps it legal (O59), the host's accesses to it (O12), STATUS and ID (O13), and the
host's step at a CMD write and at a store (O6). -/
namespace Sys2Proof
namespace Machine
open Safety

/-! ### The phase, and what a host write does to the register block (R32, R33, R40, R331) -/

/-- The engine is BUSY exactly when it runs a command. -/
theorem busy_eq_isSome_running (s : State) : s.busy = (running s).isSome := by
  unfold State.busy running
  cases s.phase <;> rfl

theorem busy_of_idle {s : State} (h : s.phase = .idle) : s.busy = false := by rw [State.busy, h]; rfl

theorem Reach.busy {s t : State} (h : Reach s t) : t.busy = s.busy := by
  rw [busy_eq_isSome_running, busy_eq_isSome_running, h.command]

theorem truncTo_toNat (w : Nat) (v : Word) : (truncTo w v).toNat = v.toNat % 2 ^ w % 2 ^ 64 := BitVec.toNat_ofNat _ _

theorem truncTo_lt (w : Nat) (v : Word) : (truncTo w v).toNat < 2 ^ w := by
  rw [truncTo_toNat]
  exact Nat.lt_of_le_of_lt (Nat.mod_le _ _) (Nat.mod_lt _ (Nat.two_pow_pos w))

/-- A host write while IDLE changes the register block as `regWriteIdle` says and nothing else (R33). -/
theorem regWrite_idle {s : State} (h : s.phase = .idle) (off : Nat) (v : Word) :
    regWrite s off v = s.setRegs (regWriteIdle s.cfg s.regs off v) := by
  rw [regWrite, busy_of_idle h]; rfl

/-- A host write while BUSY reaches IRQ_EN only (R40, R331). -/
theorem regWrite_busy {s : State} (h : s.busy = true) (off : Nat) (v : Word) :
    regWrite s off v = if off = 0x50 then s.setRegs { s.regs with irqEn := v.getLsbD 0 } else s := by
  rw [regWrite, h]; rfl

/-! ### A register block that is legal stays legal (R33, R35 to R39, R333) -/

/-- The clauses of `RegsLegal` that speak of the register block alone: all of them, of an IDLE engine. -/
structure RegsSound (c : Params) (r : Regs) : Prop where
  exclusive : ¬ (r.done = true ∧ r.err = true)
  success : r.done = true → r.errCode = 0 ∧ r.errInPos = 0 ∧ r.errOutPos = 0
  failure : r.err = true → r.resultLen = 0
  widths : r.srcAddr.toNat < 2 ^ c.addrW ∧ r.srcLen.toNat < 2 ^ c.sizeW
    ∧ r.dstAddr.toNat < 2 ^ c.addrW ∧ r.dstCap.toNat < 2 ^ c.sizeW

theorem regsSound_of_legal {s : State} (h : RegsLegal s) : RegsSound s.cfg s.regs :=
  ⟨h.exclusive, h.success, h.failure, h.widths⟩

theorem regsLegal_of_sound {s : State} (hp : s.phase = .idle) (h : RegsSound s.cfg s.regs) : RegsLegal s := by
  have hb : ¬ s.busy = true := by simp [busy_of_idle hp]
  exact ⟨h.exclusive, h.success, h.failure, h.widths, (absurd · hb), (absurd · hb)⟩

/-- With the engine IDLE any sound register block may be written. -/
theorem regsLegal_setRegs {s : State} {r : Regs} (hp : s.phase = .idle) (h : RegsSound s.cfg r) : RegsLegal (s.setRegs r) :=
  regsLegal_of_sound (s := s.setRegs r) hp h

/-- A legal register block depends on the build parameters, the registers, the phase and the latched operands only. -/
theorem regsLegal_of_eq {s t : State} (h : RegsLegal s) (hcfg : t.cfg = s.cfg) (hregs : t.regs = s.regs) (hbusy : t.busy = s.busy)
    (hsa : t.work.sa = s.work.sa) (hn : t.work.n = s.work.n) (hda : t.work.da = s.work.da) (hcap : t.work.cap = s.work.cap) :
    RegsLegal t where
  exclusive := hregs ▸ h.exclusive
  success := hregs ▸ h.success
  failure := hregs ▸ h.failure
  widths := hregs ▸ hcfg ▸ h.widths
  cleared := hregs ▸ hbusy ▸ h.cleared
  latched := by rw [hbusy, hregs, hsa, hn, hda, hcap]; exact h.latched

/-- A successful end of a legal command (R121): while it ran, everything a success may not show read 0. -/
theorem regsLegal_finish {s : State} (len : Nat) (hb : s.busy = true) (h : RegsLegal s) : RegsLegal (s.finish len) := by
  obtain ⟨-, herr, hcode, -, hin, hout⟩ := h.cleared hb
  have herr' : ¬ s.regs.err = true := by simp [herr]
  exact regsLegal_of_sound rfl
    { exclusive := fun hd => herr' hd.2
      success := fun _ => ⟨hcode, hin, hout⟩
      failure := fun he => absurd he herr'
      widths := h.widths }

/-- An error end of a legal command (R296): while it ran, DONE was 0. -/
theorem regsLegal_raiseEnd {s : State} (e : ErrCode) (hb : s.busy = true) (h : RegsLegal s) : RegsLegal (s.raiseEnd e) := by
  obtain ⟨hdone, -⟩ := h.cleared hb
  have hdone' : ¬ s.regs.done = true := by simp [hdone]
  exact regsLegal_of_sound rfl
    { exclusive := fun hd => hdone' hd.1
      success := fun hd => absurd hd hdone'
      failure := fun _ => rfl
      widths := h.widths }

/-- Acceptance clears the flags and results and latches the operand registers (R120). -/
theorem regsLegal_accept {s : State} (c : Command) (h : RegsLegal s) : RegsLegal (s.accept c) where
  exclusive := fun hd => nomatch hd.1
  success := fun hd => nomatch hd
  failure := fun he => nomatch he
  widths := h.widths
  cleared := fun _ => ⟨rfl, rfl, rfl, rfl, rfl, rfl⟩
  latched := fun _ => ⟨rfl, rfl, rfl, rfl⟩

/-- A reserved opcode is recorded as an error without a result (R128). -/
theorem regsSound_invalidCommand {c : Params} {r : Regs} (h : RegsSound c r) : RegsSound c r.invalidCommand where
  exclusive := fun hd => nomatch hd.1
  success := fun hd => nomatch hd
  failure := fun _ => rfl
  widths := h.widths

/-- Clearing flags by writing 1 takes claims back and makes none (R35). -/
theorem regsSound_clearStatus {c : Params} {r : Regs} (v : Word) (h : RegsSound c r) : RegsSound c (r.clearStatus v) := by
  have hd : (r.clearStatus v).done = true → r.done = true := fun e => (Bool.and_eq_true_iff.mp e).1
  have he : (r.clearStatus v).err = true → r.err = true := fun e => (Bool.and_eq_true_iff.mp e).1
  exact
    { exclusive := fun e => h.exclusive ⟨hd e.1, he e.2⟩
      success := fun e => h.success (hd e)
      failure := fun e => h.failure (he e)
      widths := h.widths }

/-- A write to a register while IDLE: the operand registers truncate (R33). -/
theorem regsSound_regWriteIdle {c : Params} {r : Regs} (off : Nat) (v : Word) (h : RegsSound c r) :
    RegsSound c (regWriteIdle c r off v) := by
  obtain ⟨hsa, hn, hda, hcap⟩ := h.widths
  unfold regWriteIdle
  split
  case isTrue => exact regsSound_clearStatus v h
  split
  case isTrue => exact { h with widths := ⟨truncTo_lt _ v, hn, hda, hcap⟩ }
  split
  case isTrue => exact { h with widths := ⟨hsa, truncTo_lt _ v, hda, hcap⟩ }
  split
  case isTrue => exact { h with widths := ⟨hsa, hn, truncTo_lt _ v, hcap⟩ }
  split
  case isTrue => exact { h with widths := ⟨hsa, hn, hda, truncTo_lt _ v⟩ }
  split
  case isTrue => exact { h with }
  exact h

theorem regsLegal_regWrite {s : State} (off : Nat) (v : Word) (h : RegsLegal s) : RegsLegal (regWrite s off v) := by
  cases hb : s.busy with
  | false =>
    have hp := idle_of_not_busy hb
    rw [regWrite_idle hp]
    exact regsLegal_setRegs hp (regsSound_regWriteIdle off v (regsSound_of_legal h))
  | true =>
    rw [regWrite_busy hb]
    split
    · exact { h with }
    · exact h

/-- Host software writes the operands of a command while IDLE (R324). -/
theorem regsLegal_setOperands {s : State} (sa n da cap : Nat) (hp : s.phase = .idle) (h : RegsLegal s) :
    RegsLegal (s.setOperands sa n da cap) :=
  regsLegal_setRegs hp
    { regsSound_of_legal h with widths := ⟨truncTo_lt _ _, truncTo_lt _ _, truncTo_lt _ _, truncTo_lt _ _⟩ }

theorem regsSound_reset (c : Params) : RegsSound c .reset where
  exclusive := fun hd => nomatch hd.1
  success := fun hd => nomatch hd
  failure := fun he => nomatch he
  widths := ⟨Nat.two_pow_pos _, Nat.two_pow_pos _, Nat.two_pow_pos _, Nat.two_pow_pos _⟩

/-- Every elementary move of engine, host and platform keeps the register block legal. -/
theorem regsLegal_stepClosed : StepClosed RegsLegal where
  reach hr h := regsLegal_of_eq h hr.cfg hr.regs hr.busy hr.sa hr.n hr.da hr.cap
  finish := regsLegal_finish
  raised := regsLegal_raiseEnd
  accept c _ h := regsLegal_accept c h
  invalid hp h := regsLegal_setRegs hp (regsSound_invalidCommand (regsSound_of_legal h))
  write := regsLegal_regWrite
  operands := regsLegal_setOperands
  reset _ := regsLegal_of_sound rfl (regsSound_reset _)
  host _ h := regsLegal_of_eq h rfl rfl rfl rfl rfl rfl rfl
  draws _ h := regsLegal_of_eq h rfl rfl rfl rfl rfl rfl rfl
  turns _ h := regsLegal_of_eq h rfl rfl rfl rfl rfl rfl rfl
  unseen _ h := regsLegal_of_eq h rfl rfl rfl rfl rfl rfl rfl
  store _ _ h := regsLegal_of_eq h rfl rfl rfl rfl rfl rfl rfl

/-- Settles O59: `RegsLegal` is kept by every elementary move, so by every step. -/
theorem stepKeepsRegsLegal : Obligations.StepKeepsRegsLegal := by
  unfold Obligations.StepKeepsRegsLegal
  exact fun s t h ho => regsLegal_stepClosed.step h ho

/-! ### Registers as the host reads and writes them (R33 to R42) -/

/-- A register other than STATUS keeps to itself: a write to it shows at no other offset (R33, R40). -/
theorem regRead_regWriteIdle_other (s : State) {off off' : Nat} (v : Word) (hstatus : off ≠ 0x08) (hne : off' ≠ off) :
    regRead (s.setRegs (regWriteIdle s.cfg s.regs off v)) off' = regRead s off' := by
  unfold regWriteIdle
  rw [if_neg hstatus]
  split_ifs
  case neg => rfl
  all_goals
    subst off
    simp only [regRead, if_neg hne]
    rfl

/-- Read-only and reserved offsets take no write (R33, R42). -/
theorem regWriteIdle_readOnly (c : Params) (r : Regs) {off : Nat} (v : Word) (h : off ∉ [0x08, 0x18, 0x20, 0x28, 0x30, 0x50]) :
    regWriteIdle c r off v = r := by
  simp only [List.mem_cons, List.not_mem_nil, or_false, not_or] at h
  obtain ⟨h08, h18, h20, h28, h30, h50⟩ := h
  simp only [regWriteIdle, if_neg h08, if_neg h18, if_neg h20, if_neg h28, if_neg h30, if_neg h50]

/-- IRQ_EN keeps bit 0 of what is written (R40). -/
theorem toNat_regRead_irqEn (s : State) (v : Word) :
    (regRead (s.setRegs { s.regs with irqEn := v.getLsbD 0 }) 0x50).toNat = v.toNat % 2 := by
  show (BitVec.ofNat 64 (v.getLsbD 0).toNat).toNat = _
  rw [BitVec.toNat_ofNat, BitVec.getLsbD, Nat.toNat_testBit]
  omega

/-! ### Which accesses reach the register block (R33, R42) -/

theorem coversRegs_iff {c : Params} {addr len : Nat} :
    coversRegs c addr len = true ↔ ∃ x, addr ≤ x ∧ x < addr + len ∧ c.regBase ≤ x ∧ x < c.regBase + 256 := by
  simp only [coversRegs, Bool.and_eq_true, decide_eq_true_eq]
  constructor
  · intro h; exact ⟨max addr c.regBase, by omega, by omega, by omega, by omega⟩
  · rintro ⟨x, h⟩; omega

theorem coversRegs_of_coversDevice {c : Params} {addr len : Nat} (h : coversDevice c addr len = false) :
    coversRegs c addr len = false := (Bool.or_eq_false_iff.mp h).1

theorem regBase_aligned {c : Params} (h : c.wf = true) : c.regBase % 8 = 0 := by
  simp only [Params.wf, Bool.and_eq_true, beq_iff_eq] at h
  omega

/-- Eight bytes at a register's offset reach that register. -/
theorem target_register {c : Params} (hc : c.wf = true) {off : Nat} (hoff : off % 8 = 0) (hlt : off < 256) :
    target c (c.regBase + off) 8 = .reg off := by
  have hbase := regBase_aligned hc
  have hcov : coversRegs c (c.regBase + off) 8 = true := coversRegs_iff.mpr ⟨c.regBase + off, by omega⟩
  rw [target, hcov, if_neg (by decide), if_pos (by omega), Nat.add_sub_cancel_left]

/-- An access that covers a byte of the register block and is not eight aligned bytes is refused (R42). -/
theorem target_refused {c : Params} {addr size : Nat} (hcov : coversRegs c addr size = true) (h : ¬ (size = 8 ∧ addr % 8 = 0)) :
    target c addr size = .refused := by
  rw [target, hcov, if_neg (by decide), if_neg (fun hr => h ⟨hr.1, hr.2.1⟩)]

theorem target_memory {c : Params} {addr size : Nat} (h : coversRegs c addr size = false) : target c addr size = .memory := by
  rw [target, if_pos h]

/-- The bytes of a store or load may not be the register block's (R42). -/
theorem hostRange_registers {s : State} {addr len : Nat} (hfit : addr + len ≤ 2 ^ s.cfg.addrW)
    (hcov : coversRegs s.cfg addr len = true) : hostRange addr len s = .refuse .registerAccess := by
  rw [hostRange, if_pos (by exact hfit), hcov]; rfl

/-! ### The host's step at a register access (R33, R42, R104, R327) -/

section
variable {s : State} {q : List HostAct}

theorem step_wr_register {off : Nat} {v : Word} (hc : s.cfg.wf = true) (hoff : off % 8 = 0) (hlt : off < 256) (hcmd : off ≠ 0x00)
    (h : HostDoes s (.wr (s.cfg.regBase + off) 8 v) q) : step s = .next (regWrite (dequeued s q) off v) := by
  have ht : target (dequeued s q).cfg (s.cfg.regBase + off) 8 = .reg off := target_register hc hoff hlt
  have hne : ¬ Target.reg off = .reg 0 := by simpa using hcmd
  rw [step_hostDoes h, fetchAct, ht, if_neg hne]
  simp only [Fetched.outcome, hostWrite, ht, Res.outcome_ok]

theorem step_rd_register {off : Nat} (hc : s.cfg.wf = true) (hoff : off % 8 = 0) (hlt : off < 256)
    (h : HostDoes s (.rd (s.cfg.regBase + off) 8) q) :
    step s = .next { dequeued s q with
      unseen := if off = 0x08 ∧ s.busy = false then [] else s.unseen
      host := { s.host with queue := q, reads := regRead s off :: s.host.reads } } := by
  have ht : target (dequeued s q).cfg (s.cfg.regBase + off) 8 = .reg off := target_register hc hoff hlt
  have hb : (dequeued s q).busy = s.busy := rfl
  rw [step_hostDoes h]
  simp only [fetchAct, Fetched.outcome, hostRead, ht, Res.outcome_ok, hb]
  split
  · rfl
  · rfl

theorem step_access_refused {addr size : Nat} {v : Word} (hcov : coversRegs s.cfg addr size = true)
    (hsize : ¬ (size = 8 ∧ addr % 8 = 0)) (h : HostDoes s (.wr addr size v) q ∨ HostDoes s (.rd addr size) q) :
    step s = .refused .registerAccess := by
  have ht : target (dequeued s q).cfg addr size = .refused := target_refused hcov hsize
  rcases h with h | h
  · rw [step_hostDoes h, fetchAct, ht, if_neg (by decide)]
    simp only [Fetched.outcome, hostWrite, ht, Res.outcome_refuse]
  · rw [step_hostDoes h]
    simp only [fetchAct, Fetched.outcome, hostRead, ht, Res.outcome_refuse]

theorem step_bytes_refused {addr len : Nat} {bytes : List Byte} (hcov : coversRegs s.cfg addr len = true)
    (hfit : addr + len ≤ 2 ^ s.cfg.addrW)
    (h : (HostDoes s (.mem addr bytes) q ∧ bytes.length = len) ∨ HostDoes s (.ld addr len) q) :
    step s = .refused .registerAccess := by
  have hr : hostRange addr len (dequeued s q) = .refuse .registerAccess := hostRange_registers hfit hcov
  rcases h with ⟨h, rfl⟩ | h
  · rw [step_hostDoes h]
    simp only [fetchAct, Fetched.outcome, hostStore, hr, Res.bind_refuse, Res.outcome_refuse]
  · rw [step_hostDoes h]
    simp only [fetchAct, Fetched.outcome, hostLoad, hr, Res.bind_refuse, Res.outcome_refuse]

end

/-- Settles O12: the register write field by field, then the host's step at each kind of access. -/
theorem operandRegisters : Obligations.OperandRegisters := by
  unfold Obligations.OperandRegisters
  refine ⟨fun s off v hidle _ => ?_, fun s q hc => ⟨?_, ?_, ?_, ?_⟩⟩
  · rw [regWrite_idle hidle]
    refine ⟨?_, ?_, ?_, fun hst off' hne => regRead_regWriteIdle_other s v hst hne, fun hro => ?_, rfl⟩
    · rintro (rfl | rfl)
      · exact truncTo_toNat _ v
      · exact truncTo_toNat _ v
    · rintro (rfl | rfl)
      · exact truncTo_toNat _ v
      · exact truncTo_toNat _ v
    · rintro rfl
      exact toNat_regRead_irqEn s v
    · rw [regWriteIdle_readOnly _ _ _ hro, State.setRegs_self]
  · exact fun off v hoff hlt hcmd h => step_wr_register hc hoff hlt hcmd h
  · exact fun off hoff hlt h => step_rd_register hc hoff hlt h
  · exact fun addr size v hx hsize h => step_access_refused (coversRegs_iff.mpr hx) hsize h
  · exact fun addr len bytes hx hfit h => step_bytes_refused (coversRegs_iff.mpr hx) hfit h

/-! ### The fields of STATUS and ID (R35, R41) -/

theorem statusWord_bit (p : Phase) (r : Regs) (k : Nat) :
    (statusWord p r).getLsbD k = if k = 0 then p.isBusy else if k = 1 then r.done else if k = 2 then r.err else false := by
  unfold statusWord
  generalize p.isBusy = b, r.done = d, r.err = e
  match k with
  | 0 => revert b d e; decide
  | 1 => revert b d e; decide
  | 2 => revert b d e; decide
  | k + 3 =>
    have hlt : b.toNat + 2 * d.toNat + 4 * e.toNat < 2 ^ (k + 3) := by
      have hk : 2 ^ 3 ≤ 2 ^ (k + 3) := Nat.pow_le_pow_right (by decide) (by omega)
      have hb := b.toNat_le
      have hd := d.toNat_le
      have he := e.toNat_le
      omega
    simp [BitVec.getLsbD_ofNat, Nat.testBit_lt_two_pow hlt]

theorem widths_of_wf {c : Params} (h : c.wf = true) : c.sizeW ≤ 64 ∧ c.addrW ≤ 64 := by
  simp only [Params.wf, Bool.and_eq_true, decide_eq_true_eq] at h
  omega

/-- A field of ID, as a number (R41). -/
theorem idWord_field {c : Params} (h : c.wf = true) (lo w : Nat) :
    ((idWord c).extractLsb' lo w).toNat = (1 + 2 ^ 8 * 16 + 2 ^ 16 * c.sizeW + 2 ^ 24 * c.addrW) / 2 ^ lo % 2 ^ w := by
  obtain ⟨hs, ha⟩ := widths_of_wf h
  have hfits : 1 + 2 ^ 8 * 16 + 2 ^ 16 * c.sizeW + 2 ^ 24 * c.addrW < 2 ^ 64 := by omega
  rw [idWord, BitVec.extractLsb'_toNat, BitVec.toNat_ofNat, Nat.mod_eq_of_lt hfits, Nat.shiftRight_eq_div_pow]

/-- Settles O13: STATUS bit by bit, its clearing write, and the fields of ID. -/
theorem statusAndId : Obligations.StatusAndId := by
  unfold Obligations.StatusAndId
  refine fun s v => ⟨statusWord_bit s.phase s.regs, fun hidle => regWrite_idle hidle 0x08 v, fun hc => ?_⟩
  have field := idWord_field hc
  obtain ⟨hs, ha⟩ := widths_of_wf hc
  show (idWord s.cfg).extractLsb' 0 8 = _ ∧ (idWord s.cfg).extractLsb' 8 8 = _ ∧
    ((idWord s.cfg).extractLsb' 16 8).toNat = _ ∧ ((idWord s.cfg).extractLsb' 24 8).toNat = _ ∧
      (idWord s.cfg).extractLsb' 32 32 = _
  refine ⟨BitVec.eq_of_toNat_eq ?_, BitVec.eq_of_toNat_eq ?_, ?_, ?_, BitVec.eq_of_toNat_eq ?_⟩
  · rw [field, BitVec.toNat_ofNat]; omega
  · rw [field, BitVec.toNat_ofNat]; omega
  · rw [field]; omega
  · rw [field]; omega
  · rw [field, BitVec.toNat_ofNat]; omega

/-! ### The host's step at a CMD write and at a store (R34, R85, R104, R332) -/

/-- Eight bytes decoded as a command word are the word they spell (R34, R77). -/
theorem decode_command_leBytes (v : Word) : decode .command (leBytes 8 v.toNat) = .instr (decodeCommand v) [] := by
  have hv : leVal (leBytes 8 v.toNat) = v.toNat := by rw [leVal_leBytes, Nat.mod_eq_of_lt v.isLt]
  have hf : takeField 8 (leBytes 8 v.toNat) = some (v.toNat, []) := by
    simpa [hv] using takeField_append (length_leBytes 8 v.toNat) []
  simp only [decode, decodeField, hf, BitVec.ofNat_toNat, BitVec.setWidth_eq]

/-- The windows after the host's write of `i` to CMD: a command with regions, offered while IDLE, opens one (R332). -/
theorem offered_eq (i : Instr) (s : State) :
    s.offered i = { s with
      unseen :=
        if s.busy = false ∧ i ∈ [.compress, .decompress, .decompressExact] then
          { sa := s.regs.srcAddr.toNat, n := s.regs.srcLen.toNat, da := s.regs.dstAddr.toNat, cap := s.regs.dstCap.toNat }
            :: s.unseen
        else s.unseen } := by
  simp only [State.offered, List.mem_cons, List.not_mem_nil, or_false]
  cases s.busy with
  | true => rfl
  | false =>
    by_cases hi : i = .compress ∨ i = .decompress ∨ i = .decompressExact
    · simp only [hi, and_self, if_true]; rfl
    · simp only [hi, and_false, if_false]; rfl

theorem step_wr_command {s : State} {addr : Nat} {v : Word} {q : List HostAct} (h : HostDoes s (.wr addr 8 v) q)
    (ht : target s.cfg addr 8 = .reg 0) :
    step s = exec (decodeCommand v) ((dequeued s q).offered (decodeCommand v)) := by
  have ht' : target (dequeued s q).cfg addr 8 = .reg 0 := ht
  rw [step_hostDoes h, fetchAct, if_pos ht', Fetched.outcome, onNext_id]

/-- A store to ordinary memory, by the byte or as a word, is `hostStore` of its bytes. -/
theorem step_store {s : State} {a : HostAct} {addr : Nat} {bytes : List Byte} {q : List HostAct}
    (ha : a = .mem addr bytes ∨ ∃ size v, a = .wr addr size v ∧ bytes = leBytes size v.toNat) (h : HostDoes s a q)
    (hcov : coversRegs s.cfg addr bytes.length = false) : step s = (hostStore addr bytes (dequeued s q)).outcome := by
  rw [step_hostDoes h]
  rcases ha with rfl | ⟨size, v, rfl, rfl⟩
  · rfl
  · rw [length_leBytes] at hcov
    have ht : target (dequeued s q).cfg addr size = .memory := target_memory hcov
    rw [fetchAct, ht, if_neg (by decide)]
    simp only [Fetched.outcome, hostWrite, ht]

/-- A store where the host may reach: refused when a region it may not touch is met, made otherwise (R85, R332). -/
theorem hostStore_ordinary {s : State} {addr : Nat} {bytes : List Byte} (hfit : addr + bytes.length ≤ 2 ^ s.cfg.addrW)
    (hdev : coversDevice s.cfg addr bytes.length = false) :
    hostStore addr bytes s =
      if s.engaged.any (fun w => w.meets addr bytes.length) then .refuse .hostRace
      else .ok () (s.setMem (s.mem.writeList addr bytes)) := by
  rw [hostStore, hostRange, if_pos (by exact hfit), coversRegs_of_coversDevice hdev, hdev]; rfl

/-- Settles O6: the CMD write runs the word's instruction; a store is refused exactly at a locked byte. -/
theorem stepRunsCommandWrite : Obligations.StepRunsCommandWrite := by
  unfold Obligations.StepRunsCommandWrite
  constructor
  · intro s addr v q i h ht hd
    rw [decode_command_leBytes] at hd
    cases hd
    rw [step_wr_command h ht, offered_eq]
    rfl
  · intro s a addr bytes q ha h hfit hdev
    have hstep := step_store ha h (coversRegs_of_coversDevice hdev)
    rw [hostStore_ordinary (s := dequeued s q) hfit hdev] at hstep
    have hlock : (dequeued s q).engaged.any (fun w => w.meets addr bytes.length) = true ↔
        ∃ x, (addr ≤ x ∧ x < addr + bytes.length) ∧ Locked s x := engaged_meets_iff (s := dequeued s q)
    refine ⟨fun ⟨x, hlo, hhi, hx⟩ => ?_, fun hwf hfree => ?_⟩
    · rw [hstep, if_pos (hlock.mpr ⟨x, ⟨hlo, hhi⟩, hx⟩)]; rfl
    · rw [if_neg fun hm => let ⟨x, hb, hx⟩ := hlock.mp hm; hfree x hb.1 hb.2 hx] at hstep
      exact ⟨_, hstep, rfl, stored_of_writeList hwf rfl⟩

end Machine
end Sys2Proof
end

section
/-! PROOFS. Memory (20_memory.md): every step keeps memory and the hash table canonical (O58), the region checks of a command (O19), the
engine's step writes in its destination only (O27), and the platform's answers to an access (O24). -/
namespace Sys2Proof
namespace Machine
open Safety

/-! ### The canonical form is kept by every step (R48, R49, R70) -/

/-- A host write to a register is a write of the register block. -/
theorem regWrite_eq_setRegs (s : State) (off : Nat) (v : Word) : ∃ r, regWrite s off v = s.setRegs r := by
  cases hb : s.busy with
  | false => exact ⟨_, regWrite_idle (idle_of_not_busy hb) off v⟩
  | true =>
    rw [regWrite_busy hb]
    split
    · exact ⟨_, rfl⟩
    · exact ⟨_, (State.setRegs_self s).symm⟩

/-- Both ends of a command keep the canonical form: freed destination bytes become a span, a freed hash table is built entry by entry. -/
theorem canonical_settle {s : State} (j : Nat) (r : Regs) (h : Canonical s) : Canonical (s.settle j r) :=
  ⟨endMem_wf h.1 j, endTable_wf h.2⟩

/-- Every elementary move of engine, host and platform keeps the canonical form. Those that touch neither memory nor the hash table keep it
as it stands. -/
theorem canonical_stepClosed : StepClosed Canonical where
  reach hr h := ⟨hr.wf h.1, hr.table h.2⟩
  finish len _ h := canonical_settle len _ h
  raised _ _ h := canonical_settle 0 _ h
  accept _ _ h := h
  invalid _ h := h
  write off v h := by
    obtain ⟨r, hr⟩ := regWrite_eq_setRegs _ off v
    rw [hr]
    exact h
  operands _ _ _ _ _ h := h
  reset h := ⟨resetMem_wf h.1, Table.wf_free _ _⟩
  host _ h := h
  draws _ h := h
  turns _ h := h
  unseen _ h := h
  store a bs h := ⟨Memory.wf_writeList h.1 a bs, h.2⟩

/-- Settles O58: `Canonical` is kept by every elementary move, so by every step. -/
theorem stepKeepsCanonical : Obligations.StepKeepsCanonical := by
  unfold Obligations.StepKeepsCanonical
  exact fun s t h ho => canonical_stepClosed.step h ho

/-! ### The error an end reports (R126, R290) -/

/-- Only an overrun is ever reported under another code (R126). -/
theorem reportCode_eq_code (s : State) {e : ErrCode} (h : e ≠ .outputTooSmall) : s.reportCode e = e.code := by
  unfold State.reportCode
  split
  · exact absurd rfl h
  · rfl

/-! ### The region checks (R74) -/

/-- Every command with regions makes the region checks first, and ends where they fail (R74, R293). -/
theorem firstChecks_of_checkRegions_raise {c : Command} (hc : c ≠ .bound) {e : ErrCode} {s t : State}
    (h : checkRegions s = .raise e t) : firstChecks c s = .raise e t := by
  cases c with
  | bound => exact absurd rfl hc
  | compress => rw [firstChecks, h]; rfl
  | decompress => rw [firstChecks, h]; rfl
  | decompressExact => rw [firstChecks, h]; rfl

/-- The step after the acceptance of a command with illegal regions is its error end; nothing ran before it (R74). -/
theorem step_accept_illegal {s : State} {c : Command} (ht : s.turns.head? ≠ some .host) (hc : c ≠ .bound) (h : ¬ OperandsLegal s) :
    step (s.accept c) = .next (((tick s).accept c).raiseEnd .invalidArgument) := by
  have hbad : checkRegions ((tick s).accept c) = .raise .invalidArgument ((tick s).accept c) :=
    checkRegions_accept_bad (s := tick s) c h
  have hstep : step (s.accept c) = (fetchEngine c .start ((tick s).accept c)).outcome := step_busy rfl ht
  rw [hstep, fetchEngine, firstChecks_of_checkRegions_raise hc hbad]
  rfl

/-- Settles O19: the checks of R74 read the latched operands alone, and failing them is the whole step. -/
theorem regionChecks : Obligations.RegionChecks := by
  unfold Obligations.RegionChecks
  intro s c _ hturn hc
  refine ⟨fun hbad => ⟨_, step_accept_illegal hturn hc hbad, rfl, rfl, ?_, fun a ha => ?_⟩, checkRegions_accept_ok c⟩
  · rw [State.raiseEnd_regs, reportCode_eq_code _ (by decide)]
    rfl
  · exact endMem_notInDest ((tick s).accept c) 0 ha

/-! ### What the engine's step writes (R72, R231) -/

/-- Inside one command the destination region stays the same. -/
theorem Reach.inDest_iff {s t : State} (h : Reach s t) (a : Nat) : InDest t a ↔ InDest s a := by
  rw [InDest, InDest, h.da, h.cap]

/-- A move of the engine, the end of its command included, leaves every byte outside the destination. -/
theorem Closes.read_outside {s t : State} (h : Closes s t) {a : Nat} (ha : ¬ InDest s a) : t.mem.read a = s.mem.read a := by
  obtain ⟨u, hu, hend⟩ := h
  have hout : ¬ InDest u a := mt (hu.inDest_iff a).mp ha
  rw [← hu.mem a ha]
  rcases hend with rfl | ⟨len, rfl⟩ | ⟨e, rfl⟩
  · rfl
  · exact endMem_notInDest u len hout
  · exact endMem_notInDest u 0 hout

/-- Settles O27: the engine's step is a move of the engine inside its command, or the end of the command. -/
theorem engineWritesDestinationOnly : Obligations.EngineWritesDestinationOnly := by
  unfold Obligations.EngineWritesDestinationOnly
  exact fun s t hm ho a ha => (step_engine hm ho).read_outside (s := tick s) ha

/-! ### The platform's answers (R81) -/

theorem busAnswer_error {s : State} (hp : s.cfg.busErrorPossible = true) {l : List Bool} (hb : s.bus = true :: l) :
    busAnswer s = .raise .busError (s.setBus l) := by
  rw [busAnswer, if_pos hp, hb]

theorem busAnswer_granted {s : State} (hp : s.cfg.busErrorPossible = true) {l : List Bool} (hb : s.bus = false :: l) :
    busAnswer s = .ok () (s.setBus l) := by
  rw [busAnswer, if_pos hp, hb]

section
variable {s t : State} {a : Nat} (ha : a < s.cfg.addrSpace)
include ha

/-- An access the platform fails has no effect but its error; both kinds of access to an address that exists ask it once. -/
theorem access_of_raise {e : ErrCode} (b : Byte) (h : busAnswer s = .raise e t) :
    memRead a s = .raise e t ∧ memWrite a b s = .raise e t := by
  rw [memRead, memWrite, if_pos ha, if_pos ha, h]
  exact ⟨rfl, rfl⟩

theorem access_of_ok (b : Byte) (h : busAnswer s = .ok () t) :
    memRead a s = .ok (t.mem.read a) t ∧ memWrite a b s = .ok () (t.setMem (t.mem.write a b)) := by
  rw [memRead, memWrite, if_pos ha, if_pos ha, h]
  exact ⟨rfl, rfl⟩

end

/-- Settles O24: what the platform answers decides an access, and a bus error is reported under its own code in every command. -/
theorem busErrors : Obligations.BusErrors := by
  unfold Obligations.BusErrors
  intro s a b l ha
  refine ⟨fun hp hb => ?_, fun hp hb => access_of_ok ha b (busAnswer_granted hp hb),
    fun hp => access_of_ok ha b (busAnswer_quiet (.inl hp))⟩
  obtain ⟨hread, hwrite⟩ := access_of_raise ha b (busAnswer_error hp hb)
  exact ⟨hread, hwrite, reportCode_eq_code (s.setBus l) (by decide), rfl, rfl⟩

end Machine
end Sys2Proof
end

section
/-! PROOFS. The encodings (30_encoding.md, 47_host_frame_and_streaming.md section 1): decoding and encoding invert each other (O1, O2), a
length has one encoding (O3), the opcode of a command word (O4), and words of the spec read by the decoder (O5). -/
namespace Sys2Proof

/-! ### Fields of fixed size (R75, R77) -/

/-- A field that spells `v` is read as `v`. -/
theorem decodeField_leBytes {k v : Nat} (hv : v < 2 ^ (8 * k)) (f : Nat → Instr) (rest : List Byte) :
    decodeField k (leBytes k v ++ rest) f = .instr (f v) rest := by
  rw [decodeField, takeField_append (length_leBytes k v), leVal_leBytes, Nat.mod_eq_of_lt hv]

/-- A field has one spelling. -/
theorem decodeField_eq_instr {k : Nat} {bs rest : List Byte} {f : Nat → Instr} {i : Instr} (h : decodeField k bs f = .instr i rest) :
    ∃ v, v < 2 ^ (8 * k) ∧ i = f v ∧ bs = leBytes k v ++ rest := by
  unfold decodeField at h
  split at h
  · cases h
  · next v r hf =>
    obtain ⟨hbs, hv⟩ := takeField_eq_some hf
    cases h
    exact ⟨v, hv, rfl, hbs⟩

theorem leBytes_one (b : Byte) : leBytes 1 b.toNat = [b] := by
  rw [leBytes, leBytes, BitVec.ofNat_toNat, BitVec.setWidth_eq]

/-- A field as wide as the word `b` holds is read as that word. -/
theorem decodeField_word {k : Nat} (b : BitVec (8 * k)) (f : BitVec (8 * k) → Instr) (rest : List Byte) :
    decodeField k (leBytes k b.toNat ++ rest) (fun v => f (BitVec.ofNat (8 * k) v)) = .instr (f b) rest := by
  rw [decodeField_leBytes b.isLt, BitVec.ofNat_toNat, BitVec.setWidth_eq]

theorem decodeField_byte (b : Byte) (f : Byte → Instr) (rest : List Byte) :
    decodeField 1 ([b] ++ rest) (fun v => f (BitVec.ofNat 8 v)) = .instr (f b) rest := by
  rw [← leBytes_one b]
  exact decodeField_word (k := 1) b f rest

/-- A field read as a word has the bytes of that word. -/
theorem decodeField_word_eq_instr {k : Nat} {bs rest : List Byte} {f : BitVec (8 * k) → Instr} {i : Instr}
    (h : decodeField k bs (fun v => f (BitVec.ofNat (8 * k) v)) = .instr i rest) : ∃ b, i = f b ∧ bs = leBytes k b.toNat ++ rest := by
  obtain ⟨v, hv, rfl, rfl⟩ := decodeField_eq_instr h
  exact ⟨BitVec.ofNat (8 * k) v, rfl, by rw [BitVec.toNat_ofNat, Nat.mod_eq_of_lt hv]⟩

theorem decodeField_byte_eq_instr {bs rest : List Byte} {f : Byte → Instr} {i : Instr}
    (h : decodeField 1 bs (fun v => f (BitVec.ofNat 8 v)) = .instr i rest) : ∃ b, i = f b ∧ bs = [b] ++ rest := by
  obtain ⟨b, hi, hbs⟩ := decodeField_word_eq_instr (k := 1) h
  exact ⟨b, hi, by rw [hbs]; exact congrArg (· ++ rest) (leBytes_one b)⟩

/-! ### Command words (R90) -/

theorem commandOp_append (hi : BitVec 60) (op : BitVec 4) : commandOp (hi ++ op) = op := by
  unfold commandOp
  ext i h
  have hbit : (hi ++ op).getLsbD i = if i < 4 then op.getLsbD i else hi.getLsbD (i - 4) := BitVec.getLsbD_append
  rw [BitVec.getElem_extractLsb', Nat.zero_add, hbit, if_pos h, BitVec.getLsbD_eq_getElem]

/-- What a command word decodes to, by its opcode. -/
theorem decodeCommand_of_op {w : Word} {op : BitVec 4} (h : commandOp w = op) :
    decodeCommand w = if op = 1#4 then .compress else if op = 2#4 then .decompress else if op = 3#4 then .decompressExact
      else if op = 4#4 then .bound else .reserved op := by
  subst h; rfl

/-- The first eight bytes at the command position are one word. -/
theorem decode_command_append (w : Word) (rest : List Byte) :
    decode .command (leBytes 8 w.toNat ++ rest) = .instr (decodeCommand w) rest :=
  decodeField_word (k := 8) w decodeCommand rest

/-- Every command word decodes to a well-formed instruction of the command position. -/
theorem decodeCommand_wf (w : Word) : (decodeCommand w).wf = true ∧ contextOf (decodeCommand w) = some .command := by
  rw [decodeCommand_of_op rfl]
  generalize commandOp w = op
  revert op; decide

theorem decodeCommand_reserved {op : BitVec 4} (h : reservedOp op = true) :
    decodeCommand (BitVec.ofNat 64 op.toNat) = .reserved op := by
  revert op; decide

/-! ### Block records (R247, R248) -/

/-- A length word by its value: zero ends the frame, bit 31 tells a stored record from a compressed one. -/
theorem decodeBlockWord_ofNat {v : Nat} (hv : v < 2 ^ 32) :
    decodeBlockWord (BitVec.ofNat 32 v) =
      if v = 0 then .endMark
      else if 2 ^ 31 ≤ v then .blockStored (BitVec.ofNat 31 v)
      else .blockCompressed (BitVec.ofNat 31 v) := by
  have hzero : BitVec.ofNat 32 v = 0#32 ↔ v = 0 := by
    rw [← BitVec.toNat_inj, BitVec.toNat_ofNat, BitVec.toNat_ofNat]; omega
  have hbit : (BitVec.ofNat 32 v).getLsbD 31 = true ↔ 2 ^ 31 ≤ v := by
    rw [BitVec.getLsbD_ofNat, Nat.testBit_eq_decide_div_mod_eq]
    simp only [Bool.and_eq_true, decide_eq_true_eq]
    omega
  have hlow : (BitVec.ofNat 32 v).extractLsb' 0 31 = BitVec.ofNat 31 v :=
    BitVec.eq_of_toNat_eq (by simp)
  simp only [decodeBlockWord, hzero, hbit, hlow]

/-- A length below 2^31 is spelled by the low 31 bits of its word. -/
theorem ofNat_add_top (len : BitVec 31) : BitVec.ofNat 31 (2 ^ 31 + len.toNat) = len :=
  BitVec.eq_of_toNat_eq (by rw [BitVec.toNat_ofNat]; omega)

theorem decodeBlockWord_stored (len : BitVec 31) : decodeBlockWord (BitVec.ofNat 32 (2 ^ 31 + len.toNat)) = .blockStored len := by
  rw [decodeBlockWord_ofNat (by omega), if_neg (by omega), if_pos (by omega), ofNat_add_top]

theorem decodeBlockWord_compressed {len : BitVec 31} (h : len ≠ 0#31) :
    decodeBlockWord (BitVec.ofNat 32 len.toNat) = .blockCompressed len := by
  have hne : len.toNat ≠ 0 := fun e => h (BitVec.eq_of_toNat_eq e)
  rw [decodeBlockWord_ofNat (by omega), if_neg hne, if_neg (by omega), BitVec.ofNat_toNat, BitVec.setWidth_eq]

/-- A length word decodes to a well-formed record or end marker whose bytes are that word: the end marker is the only spelling of 0, and
bit 31 is the only difference between the two records. -/
theorem decodeBlockWord_encode {v : Nat} (hv : v < 2 ^ 32) :
    (decodeBlockWord (BitVec.ofNat 32 v)).wf = true ∧ contextOf (decodeBlockWord (BitVec.ofNat 32 v)) = some .blockWord ∧
      encode (decodeBlockWord (BitVec.ofNat 32 v)) = some (leBytes 4 v) := by
  rw [decodeBlockWord_ofNat hv]
  by_cases h0 : v = 0
  · rw [if_pos h0, h0]
    exact ⟨rfl, rfl, rfl⟩
  · rw [if_neg h0]
    by_cases hbit : 2 ^ 31 ≤ v
    · rw [if_pos hbit]
      exact ⟨rfl, rfl, by rw [encode, BitVec.toNat_ofNat, show 2 ^ 31 + v % 2 ^ 31 = v by omega]⟩
    · rw [if_neg hbit]
      have hlow : (BitVec.ofNat 31 v).toNat = v := by rw [BitVec.toNat_ofNat]; omega
      refine ⟨bne_iff_ne.mpr fun e => h0 ?_, rfl, by rw [encode, hlow]⟩
      rw [← hlow, e]; rfl

/-! ### Decoding inverts encoding, and encoding decoding -/

/-- Settles O1: a field by its width, an element by the length laws of R98. -/
theorem decodeInvertsEncode : Obligations.DecodeInvertsEncode := by
  unfold Obligations.DecodeInvertsEncode
  intro i x bs rest hwf hx he hlast
  cases i with
  -- command words
  | compress => cases hx; cases he; exact decode_command_append 1#64 rest
  | decompress => cases hx; cases he; exact decode_command_append 2#64 rest
  | decompressExact => cases hx; cases he; exact decode_command_append 3#64 rest
  | bound => cases hx; cases he; exact decode_command_append 4#64 rest
  | reserved op =>
    cases hx; cases he
    rw [decode, decodeField_leBytes (by omega), decodeCommand_reserved hwf]
  -- block elements, and the fields of one byte
  | token l m =>
    cases hx; cases he
    refine (decodeField_byte (tokenByte l m) (fun t => .token (tokenLit t) (tokenMatch t)) rest).trans ?_
    rw [tokenLit_tokenByte, tokenMatch_tokenByte]
  | extCont => cases hx; cases he; rfl
  | extTerm t =>
    cases hx; cases he
    have ht : t.toNat ≠ 255 := fun e => bne_iff_ne.mp hwf (BitVec.eq_of_toNat_eq e)
    rw [decode, ← leBytes_one t, decodeField_leBytes t.isLt, if_neg ht, BitVec.ofNat_toNat, BitVec.setWidth_eq]
  | literal b | frameFlg b | frameBd b | frameHc b => cases hx; cases he; exact decodeField_byte b _ rest
  | offset16 o => cases hx; cases he; exact decodeField_word (k := 2) o .offset16 rest
  | seq lits o len => cases hx; cases he; exact decodeElement_encodeSeq lits o (of_decide_eq_true hwf) rest
  | last lits =>
    cases hx; cases he
    rw [hlast lits rfl, List.append_nil]
    exact decodeElement_encodeLast lits
  -- frame elements
  | frameMagic =>
    cases hx; cases he
    rw [decode, takeField_append (length_leBytes 4 _)]
    rfl
  | frameContentSize v => cases hx; cases he; exact decodeField_word (k := 8) v .frameContentSize rest
  | blockCompressed len =>
    cases hx; cases he
    rw [decode, decodeField_leBytes (by omega), decodeBlockWord_compressed (bne_iff_ne.mp hwf)]
  | blockStored len =>
    cases hx; cases he
    rw [decode, decodeField_leBytes (by omega), decodeBlockWord_stored]
  | endMark =>
    cases hx; cases he
    rw [decode, decodeField_leBytes (by decide)]
    rfl
  | contentChecksum v => cases hx; cases he; exact decodeField_word (k := 4) v .contentChecksum rest
  -- internal operations have no position
  | find _ | extend _ _ _ | compressBlock | emitSeq _ _ _ _ | writeExt _ | emitLast _ _ | decompressBlock | readLen _
  | copyLiterals _ _ | copyLiteralsDec _ | copyMatch _ _ => cases hx

/-- What O2 says of an instruction that is read at a position other than CMD and is no `final_seq`: its bytes, and no others. -/
theorem spelledOnce_of_encode {x : Context} {bs rest e : List Byte} {i : Instr} (hwf : i.wf = true) (hx : contextOf i = some x)
    (he : encode i = some e) (hbs : bs = e ++ rest) (hlast : ∀ lits, i ≠ .last lits) :
    i.wf = true ∧ contextOf i = some x ∧ (x ≠ .command → (∀ lits, i ≠ .last lits) → ∃ e, encode i = some e ∧ bs = e ++ rest) ∧
      (∀ lits, i = .last lits → rest = [] ∧ ∃ m, bs = tokenByte (lenNibble lits.length) m :: (lenExt lits.length ++ lits)) :=
  ⟨hwf, hx, fun _ _ => ⟨e, he, hbs⟩, fun lits h => absurd h (hlast lits)⟩

/-- Settles O2: each position's bytes are taken apart by its own law. -/
theorem encodeInvertsDecode : Obligations.EncodeInvertsDecode := by
  unfold Obligations.EncodeInvertsDecode
  intro x bs rest i h
  cases x with
  | command =>
    obtain ⟨w, rfl, -⟩ := decodeField_word_eq_instr (k := 8) h
    obtain ⟨hwf, hx⟩ := decodeCommand_wf w
    exact ⟨hwf, hx, fun hne => absurd rfl hne, fun lits e => by rw [e] at hx; cases hx⟩
  | token =>
    obtain ⟨t, rfl, hbs⟩ := decodeField_byte_eq_instr (f := fun t => .token (tokenLit t) (tokenMatch t)) h
    exact spelledOnce_of_encode rfl rfl (by rw [encode, tokenByte_nibbles]) hbs (by simp)
  | ext =>
    obtain ⟨v, hv, rfl, hbs⟩ := decodeField_eq_instr h
    by_cases h255 : v = 255
    · rw [if_pos h255]
      exact spelledOnce_of_encode rfl rfl rfl (by rw [hbs, h255]; rfl) (by simp)
    · rw [if_neg h255]
      have hterm : BitVec.ofNat 8 v ≠ 0xFF#8 := fun e => h255 (by
        have he := congrArg BitVec.toNat e
        rwa [BitVec.toNat_ofNat, Nat.mod_eq_of_lt hv] at he)
      exact spelledOnce_of_encode (bne_iff_ne.mpr hterm) rfl rfl hbs (by simp)
  | literal | frameFlg | frameBd | frameHc =>
    obtain ⟨b, rfl, hbs⟩ := decodeField_byte_eq_instr h
    exact spelledOnce_of_encode rfl rfl rfl hbs (by simp)
  | offset =>
    obtain ⟨o, rfl, hbs⟩ := decodeField_word_eq_instr (k := 2) h
    exact spelledOnce_of_encode rfl rfl rfl hbs (by simp)
  | element =>
    rcases decodeElement_eq_instr h with ⟨lits, o, len, rfl, hlen, hbs⟩ | ⟨lits, m, rfl, rfl, hbs⟩
    · exact spelledOnce_of_encode (decide_eq_true hlen) rfl rfl hbs (by simp)
    · refine ⟨rfl, rfl, fun _ hne => absurd rfl (hne lits), fun lits' e => ?_⟩
      cases e
      exact ⟨rfl, m, hbs⟩
  | frameMagic =>
    rw [decode] at h
    split at h
    · cases h
    · next v r hf =>
      obtain ⟨hbs, -⟩ := takeField_eq_some hf
      split at h
      · next hv =>
        cases h
        exact spelledOnce_of_encode rfl rfl rfl (hv ▸ hbs) (by simp)
      · cases h
  | frameSize =>
    obtain ⟨v, rfl, hbs⟩ := decodeField_word_eq_instr (k := 8) h
    exact spelledOnce_of_encode rfl rfl rfl hbs (by simp)
  | blockWord =>
    obtain ⟨v, hv, rfl, hbs⟩ := decodeField_eq_instr h
    obtain ⟨hwf, hx, he⟩ := decodeBlockWord_encode hv
    exact spelledOnce_of_encode hwf hx he hbs fun lits e => by rw [e] at hx; cases hx
  | checksum =>
    obtain ⟨v, rfl, hbs⟩ := decodeField_word_eq_instr (k := 4) h
    exact spelledOnce_of_encode rfl rfl rfl hbs (by simp)

/-! ### Lengths, opcodes and the spec's own words -/

/-- What parses as a length is its nibble and its extension, and that parses (R98). -/
theorem parseLen_eq_some_iff {nib : BitVec 4} {bs rest : List Byte} {v : Nat} :
    parseLen nib bs = some (v, rest) ↔ nib = lenNibble v ∧ bs = lenExt v ++ rest :=
  ⟨parseLen_eq_some, fun ⟨hn, hb⟩ => by rw [hn, hb, parseLen_lenExt]⟩

theorem eq_lenNibble_iff {nib : BitVec 4} {v : Nat} (h : v < 15) : nib = lenNibble v ↔ nib.toNat = v := by
  rw [← BitVec.toNat_inj, lenNibble_of_lt h]

/-- Settles O3: the two clauses are the two values of `lenNibble` and `lenExt`. -/
theorem lengthHasOneEncoding : Obligations.LengthHasOneEncoding := by
  unfold Obligations.LengthHasOneEncoding
  intro nib bs rest v
  rw [parseLen_eq_some_iff]
  by_cases h : 15 ≤ v
  · rw [lenNibble_of_le h, lenExt, if_pos h, extBytes, List.append_assoc, List.singleton_append]
    simp [h]
  · rw [eq_lenNibble_iff (by omega), lenExt, if_neg h, List.nil_append]
    simp only [h, false_and, or_false]
    exact ⟨fun ⟨hn, hb⟩ => ⟨by omega, hn, hb⟩, And.right⟩

/-- Settles O4: the low four bits of a word written as `hi ++ op` are `op`. -/
theorem commandOpcodes : Obligations.CommandOpcodes := by
  unfold Obligations.CommandOpcodes
  exact fun hi op => decodeCommand_of_op (commandOp_append hi op)

/-- Settles O5: the decoder run on each word. -/
theorem sampleWords : Obligations.SampleWords := by
  unfold Obligations.SampleWords
  decide

end Sys2Proof
end

section
/-! PROOFS. The stream's elements in the engine (30_encoding.md section 2): an extension byte (O45), and whole sequences at a token boundary
(O48, O49). -/
namespace Sys2Proof
namespace Machine
open Safety

/-- A running command goes on at the line named, with the working registers given. -/
theorem setWork_setPoint {s : State} {c : Command} {p : Point} (hp : s.phase = .busy c p) (w : Work) (q : Point) :
    (s.setWork w).setPoint q = { s with phase := .busy c q, work := w } := by
  rw [setPoint_eq, State.setWork_phase, hp]
  rfl

/-! ### Extension bytes (R94, R199) -/

/-- A literal length that is known: its two checks in their order, then the run, or for 0 the end of the literals (R200 to R202, R204). -/
theorem beginLiterals_outcome {s : State} {c : Command} {p : Point} (hp : s.phase = .busy c p) (ll : Nat) :
    let w := { s.work with litLen := ll, idx := 0 }
    (beginLiterals ll s).outcome =
      if s.work.n - s.work.ip < ll then .next ((s.setWork w).raiseEnd .unexpectedEof)
      else if s.work.cap - s.work.op < ll then .next ((s.setWork w).raiseEnd .outputTooSmall)
      else if ll = 0 then .next { s with phase := .busy c (if s.work.ip = s.work.n then .finish else .offset), work := w }
      else .next { s with phase := .busy c .literal, work := w } := by
  rw [beginLiterals]
  simp only [State.setWork_work, afterLiterals, setWork_setPoint hp]
  by_cases hin : s.work.n - s.work.ip < ll
  · rw [if_pos hin, if_pos hin, Res.outcome_raise]
  · rw [if_neg hin, if_neg hin]
    by_cases hout : s.work.cap - s.work.op < ll
    · rw [if_pos hout, if_pos hout, Res.outcome_raise]
    · rw [if_neg hout, if_neg hout, Res.outcome_ok]
      by_cases h0 : ll = 0
      · rw [if_pos h0, if_pos h0]; rfl
      · rw [if_neg h0, if_neg h0]

/-- A terminal byte of a literal length (R94, R199). -/
theorem extTermR_lit {s : State} {c : Command} (hp : s.phase = .busy c (.ext .lit)) (t : Byte) :
    extTermR t s = beginLiterals (s.work.ret + t.toNat)
      (s.setWork { s.work with ret := s.work.ret + t.toNat, ip := s.work.ip + 1 }) := by
  rw [extTermR]
  simp only [State.setWork_phase, hp, State.setWork_work]

/-- A terminal byte of a match length (R94, R208). -/
theorem extTermR_mat {s : State} {c : Command} (hp : s.phase = .busy c (.ext .mat)) (t : Byte) :
    extTermR t s = beginMatch (s.work.ret + t.toNat)
      (s.setWork { s.work with ret := s.work.ret + t.toNat, ip := s.work.ip + 1 }) := by
  rw [extTermR]
  simp only [State.setWork_phase, hp, State.setWork_work]

/-- Settles O45: the two lengths a terminal byte can end. -/
theorem extensionBytes : Obligations.ExtensionBytes := by
  unfold Obligations.ExtensionBytes
  intro s c t
  refine ⟨rfl, fun hp => ?_, fun hp => ?_⟩
  · rw [exec, execExtTerm, extTermR_lit hp]
    exact beginLiterals_outcome (s := s.setWork { s.work with ret := s.work.ret + t.toNat, ip := s.work.ip + 1 }) hp _
  · rw [exec, execExtTerm, extTermR_mat hp, beginMatch, State.setWork_setWork, setWork_setPoint hp]
    rfl

/-! ### Whole sequences (R92, R195, R204) -/

/-- The copy of a match that fits: the capacity check passes and the next token comes (R209, R228). -/
theorem copyStepR_quiet {s : State} {c : Command} {p : Point} (h : Ready s) (hp : s.phase = .busy c p) (h0 : s.work.offset ≠ 0#16)
    (hop : s.work.offset.toNat ≤ s.work.op) (hout : s.work.op + s.work.matchLen ≤ s.work.cap) :
    copyStepR s = .ok () { s with
      mem := s.mem.copyBytes (s.work.da + (s.work.op - s.work.offset.toNat)) (s.work.da + s.work.op) s.work.matchLen
      phase := .busy c .token
      work := { s.work with op := s.work.op + s.work.matchLen } } := by
  rw [copyStepR, if_neg (by omega), copyMatchR_quiet h.quiet h.fits h0 hop hout, Res.bind_ok, setPoint_eq]
  simp only [State.setOp_phase, State.setMem_phase, hp]
  rfl

/-- Offset, match extension and copy of a sequence whose match is legal and fits (R205 to R209, R228). -/
theorem seqMatch_quiet {s : State} {c : Command} {o : BitVec 16} {m : Nat} (h : Ready s) (hp : s.phase = .busy c .offset)
    (hm : tokenMatch s.work.token = lenNibble m) (h0 : o ≠ 0#16) (hop : o.toNat ≤ s.work.op)
    (hout : s.work.op + (Config.minMatch + m) ≤ s.work.cap) :
    (((offset16R o s).bind fun _ s => lenExtR m s).bind fun _ s => copyStepR s) = .ok () { s with
      mem := s.mem.copyBytes (s.work.da + (s.work.op - o.toNat)) (s.work.da + s.work.op) (Config.minMatch + m)
      phase := .busy c .token
      work := { s.work with
        offset := o, ip := s.work.ip + 2 + (lenExt m).length, ret := m, matchLen := Config.minMatch + m
        op := s.work.op + (Config.minMatch + m) } } := by
  rw [seqOffset hp hm h0 hop, Res.bind_ok]
  exact copyStepR_quiet (c := c) (p := .copy) (h.of_eq rfl rfl rfl rfl rfl rfl h.wf) rfl h0 hop hout

/-- A whole sequence in two parts: the literals with what precedes them, the match. -/
theorem seqR_eq (lits : List Byte) (o : BitVec 16) (len : Nat) (s : State) :
    seqR lits o len s =
      (((tokenR (lenNibble lits.length) (lenNibble (len - Config.minMatch)) s).bind fun _ s => lenExtR lits.length s).bind
        fun _ s => literalsR lits s).bind fun _ s =>
          ((offset16R o s).bind fun _ s => lenExtR (len - Config.minMatch) s).bind fun _ s => copyStepR s := by
  simp only [seqR, Res.bind_assoc]

/-- A whole `match_seq` that is there and fits (R92, R195): the literals are stored, the match is copied, and the next token comes. -/
theorem seqR_quiet {s : State} {c : Command} {lits : List Byte} {o : BitVec 16} {len : Nat} (h : Ready s)
    (hp : s.phase = .busy c .token) (hlen : Config.minMatch ≤ len)
    (hin : s.work.ip + (encodeSeq lits o len).length ≤ s.work.n) (h0 : o ≠ 0#16) (hop : o.toNat ≤ s.work.op + lits.length)
    (hout : s.work.op + lits.length + len ≤ s.work.cap) :
    seqR lits o len s = .ok () { s with
      mem := (s.mem.writeList (s.work.da + s.work.op) lits).copyBytes (s.work.da + (s.work.op + lits.length - o.toNat))
        (s.work.da + (s.work.op + lits.length)) len
      work := { s.work with
        ip := s.work.ip + (encodeSeq lits o len).length, op := s.work.op + lits.length + len
        token := tokenByte (lenNibble lits.length) (lenNibble (len - Config.minMatch)), litLen := lits.length
        matchLen := len, offset := o, ret := len - Config.minMatch, idx := 0 } } := by
  have hip : s.work.ip + (encodeSeq lits o len).length =
      s.work.ip + 1 + (lenExt lits.length).length + lits.length + 2 + (lenExt (len - Config.minMatch)).length := by
    rw [length_encodeSeq, length_lenExt, length_lenExt]; omega
  have hm : Config.minMatch + (len - Config.minMatch) = len := Nat.add_sub_cancel' hlen
  rw [hip] at hin ⊢
  rw [seqR_eq, seqLiterals h hp lits _ (by omega) (by omega), if_neg (by omega), Res.bind_ok, seqMatch_quiet (c := c)]
  · rw [hm, hp]
  · exact h.of_eq rfl rfl rfl rfl rfl rfl (Memory.wf_writeList h.wf (s.work.da + s.work.op) lits)
  · rfl
  · exact tokenMatch_tokenByte _ _
  · exact h0
  · exact hop
  · rw [hm]; exact hout

/-- Settles O48: literals and match of the sequence on the output. -/
theorem seqElement : Obligations.SeqElement := by
  unfold Obligations.SeqElement
  intro s c lits bytes o len h hp hwf he hin ho hop hout
  cases he
  have h0 : o ≠ 0#16 := fun e => by rw [e] at ho; exact absurd ho (by decide)
  have hrun := seqR_quiet h hp (of_decide_eq_true hwf) hin h0 hop hout
  refine ⟨_, by rw [exec, execSeq, hrun]; rfl, rfl, ?_, fun a ha => ?_⟩
  · have hmade : (s.mem.writeList (s.work.da + s.work.op) lits).readList s.work.da (s.work.op + lits.length)
        = dstBytes s 0 s.work.op ++ lits := by
      rw [Memory.readList_append, Memory.readList_writeList h.wf, Memory.readList_writeList_other _ _ (.inl (by omega))]
      rfl
    exact readList_copyBytes (Memory.wf_writeList h.wf _ _) hmade ho hop
  · show (Memory.copyBytes _ _ _ _).read a = _
    rw [Memory.read_copyBytes_other _ (by omega), Memory.read_writeList_other _ _ (by omega)]

/-- Settles O49: the head of a sequence whose literals end with the block. -/
theorem lastElement : Obligations.LastElement := by
  unfold Obligations.LastElement
  intro s c lits bytes h hp he hin hout
  cases he
  have hip : s.work.ip + 1 + (lenExt lits.length).length + lits.length = s.work.n := by
    rw [length_encodeLast, ← length_lenExt] at hin; omega
  have hrun := seqLiterals h hp lits 0#4 hip.le hout
  rw [if_pos hip, hip, Res.bind_assoc] at hrun
  exact ⟨_, by rw [exec, execLast, lastR, hrun]; rfl, rfl, stored_of_writeList h.wf rfl⟩

end Machine
end Sys2Proof
end

section
/-! PROOFS. The commands (40_commands.md): acceptance (O16), reserved opcodes (O17), BOUND (O18), a capacity COMPRESS refuses (O20), whole
commands end to end (O21, O22), every command ends (O25), and determinism (O26). -/
namespace Sys2Proof
namespace Machine
open Safety

/-! ### The write to CMD (R120, R128) -/

theorem offerCommand_idle {s : State} (h : s.phase = .idle) (c : Command) : offerCommand c s = s.accept c := by
  rw [offerCommand, busy_of_idle h]; rfl

/-- Settles O16: each of the four arms offers its command. -/
theorem acceptance : Obligations.Acceptance := by
  unfold Obligations.Acceptance
  intro s p hp
  have hoffer : exec p.1 s = .next (offerCommand p.2 s) := by
    simp only [List.mem_cons, List.not_mem_nil, or_false] at hp
    rcases hp with rfl | rfl | rfl | rfl
    · rfl
    · rfl
    · rfl
    · rfl
  exact hoffer

/-- Settles O17: the word decodes to the reserved opcode, and an IDLE engine records it. -/
theorem reservedOpcode : Obligations.ReservedOpcode := by
  unfold Obligations.ReservedOpcode
  intro s op hidle hop
  refine ⟨?_, ?_⟩
  · rw [← BitVec.ofNat_toNat]
    exact decodeCommand_reserved hop
  · rw [exec, execReserved, busy_of_idle hidle]
    rfl

/-! ### The checks after acceptance (R74, R80, R123, R293) -/

theorem checkDevices_accept_covered {s : State} (c : Command) (h : ¬ OrdinaryMemory s) :
    checkDevices (s.accept c) = .refuse .deviceRegion := by
  refine if_pos ?_
  by_contra hno
  rw [Bool.not_eq_true, Bool.or_eq_false_iff] at hno
  exact h hno

/-- The operand registers hold the capacity COMPRESS asks for (R123). -/
def HasRoom (s : State) (c : Command) : Prop := c = .compress → boundExact s.regs.srcLen.toNat ≤ s.regs.dstCap.toNat

/-- Behind the checks of R74 and R123 stands the one for devices (R80). -/
theorem firstChecks_accept_legal {s : State} {c : Command} (hc : c ≠ .bound) (h : OperandsLegal s) (hroom : HasRoom s c) :
    firstChecks c (s.accept c) = checkDevices (s.accept c) := by
  have hregions := checkRegions_accept_ok c h
  cases c with
  | bound => exact absurd rfl hc
  | compress => rw [firstChecks, hregions, Res.bind_ok]; exact if_neg (Nat.not_lt.mpr (hroom rfl))
  | decompress => rw [firstChecks, hregions, Res.bind_ok]
  | decompressExact => rw [firstChecks, hregions, Res.bind_ok]

theorem firstChecks_accept_passed {s : State} {c : Command} (hc : c ≠ .bound) (h : OperandsLegal s) (hroom : HasRoom s c)
    (hord : OrdinaryMemory s) : firstChecks c (s.accept c) = .ok () (s.accept c) :=
  (firstChecks_accept_legal hc h hroom).trans (checkDevices_accept c hord)

theorem firstChecks_accept_small {s : State} (h : OperandsLegal s)
    (hsmall : s.regs.dstCap.toNat < boundExact s.regs.srcLen.toNat) :
    firstChecks .compress (s.accept .compress) = .raise .outputTooSmall (s.accept .compress) := by
  rw [firstChecks, checkRegions_accept_ok _ h, Res.bind_ok]
  exact if_pos hsmall

/-- The step after acceptance begins with the checks. -/
theorem step_accept_start {s : State} (c : Command) (ht : s.turns.head? ≠ some .host) :
    step (s.accept c) = (fetchEngine c .start ((tick s).accept c)).outcome :=
  step_busy rfl ht

/-- A check that fails is the whole step. -/
theorem step_accept_raise {s : State} {c : Command} {e : ErrCode} (ht : s.turns.head? ≠ some .host)
    (h : firstChecks c ((tick s).accept c) = .raise e ((tick s).accept c)) :
    step (s.accept c) = .next (((tick s).accept c).raiseEnd e) := by
  rw [step_accept_start c ht, fetchEngine, h]
  rfl

/-- BOUND has nothing to check and no block (R127). -/
theorem step_accept_bound {s : State} (ht : s.turns.head? ≠ some .host) :
    step (s.accept .bound) = .next (((tick s).accept .bound).finish (maxCompressedSize s.cfg s.regs.srcLen.toNat)) :=
  step_accept_start .bound ht

/-- Settles O18: the step after acceptance is BOUND's end, which frees neither memory nor the hash table. -/
theorem boundCommand : Obligations.BoundCommand := by
  unfold Obligations.BoundCommand
  intro s hidle hturn
  refine ⟨s.accept .bound, _, congrArg _ (offerCommand_idle hidle .bound), step_accept_bound hturn, ?_⟩
  rw [State.finish, State.settle, ← hidle]
  rfl

/-- Settles O20: the check of R123 comes before every access. -/
theorem compressTooSmall : Obligations.CompressTooSmall := by
  unfold Obligations.CompressTooSmall
  intro s _ hturn hlegal hsmall
  refine ⟨_, step_accept_raise hturn (firstChecks_accept_small (s := tick s) hlegal hsmall), rfl, rfl, rfl⟩

/-! ### How a command ends (R121 to R125, R290, R291) -/

/-- The register block in which an accepted command that ends so leaves (R121, R296). -/
def endRegs (s : State) (c : Command) (d : DecodeEnd) : Regs :=
  match d with
  | .done out => s.regs.accepted.finished out.length
  | .error e left made => s.regs.accepted.raised ((s.accept c).reportCode e) (s.regs.srcLen.toNat - left) made

/-- The step after acceptance ends the command with an output, which is then at the destination, or with an error. -/
structure EndsAs (s : State) (c : Command) (d : DecodeEnd) (u : State) : Prop where
  step : step (s.accept c) = .next u
  idle : u.phase = .idle
  regs : u.regs = endRegs s c d
  bytes : ∀ out, d = .done out → out.length ≤ s.regs.dstCap.toNat ∧ u.mem.readList s.regs.dstAddr.toNat out.length = out

/-- What the command's body, run from `a`, gives: the output it made, or the error and the cursors there. -/
def BodyEnds (a : State) (r : Res Nat) (d : DecodeEnd) : Prop :=
  match d with
  | .done out => out.length ≤ a.work.cap ∧ ∃ t, r = .ok out.length t ∧ dstBytes t 0 out.length = out
  | .error e left made => ∃ t, r = .raise e t ∧ t.work.ip = a.work.n - left ∧ t.work.op = made

/-- Only an overrun in DECOMPRESS_EXACT can be reported under another code (R126). -/
theorem reportCode_eq (s : State) (e : ErrCode) :
    s.reportCode e =
      if running s = some .decompressExact ∧ e = .outputTooSmall ∧ s.cfg.exactOverrun = .invalidData then 1 else e.code := by
  by_cases he : e = .outputTooSmall
  · subst he
    unfold State.reportCode running
    cases s.phase with
    | idle => rfl
    | busy c p =>
      cases c with
      | decompressExact => cases s.cfg.exactOverrun <;> rfl
      | compress => rfl
      | decompress => rfl
      | bound => rfl
  · rw [reportCode_eq_code s he, if_neg fun h => he h.2.1]

theorem Reach.reportCode {s t : State} (h : Reach s t) (e : ErrCode) : t.reportCode e = s.reportCode e := by
  rw [reportCode_eq, reportCode_eq, h.command, h.cfg]

/-- At the whole pace the step after acceptance ends as the body does. -/
theorem endsAs_of_body {s : State} {c : Command} {d : DecodeEnd} (hw : Waiting s)
    (h : BodyEnds ((tick s).accept c) (commandBody c ((tick s).accept c)) d) : ∃ u, EndsAs s c d u := by
  have hreach := commandBody_all c ((tick s).accept c)
  have hstep := step_accept c hw
  rw [runCommand] at hstep
  cases d with
  | done out =>
    obtain ⟨hcap, t, hrun, hbytes⟩ := h
    rw [hrun] at hstep hreach
    refine ⟨_, hstep, rfl, congrArg (Regs.finished · out.length) hreach.regs, fun out' heq => ?_⟩
    cases heq
    have hda : t.work.da = s.regs.dstAddr.toNat := hreach.da
    exact ⟨hcap, by rw [← hda]; exact (endMem_result t out.length).trans hbytes⟩
  | error e left made =>
    obtain ⟨t, hrun, hip, hop⟩ := h
    rw [hrun] at hstep hreach
    refine ⟨_, hstep, rfl, ?_, fun out heq => nomatch heq⟩
    rw [State.raiseEnd_regs, hreach.regs, Reach.reportCode hreach, hip, hop]
    rfl

/-- A check that fails ends the command at positions 0 and 0 (R293). -/
theorem endsAs_of_check {s : State} {c : Command} {e : ErrCode} (ht : s.turns.head? ≠ some .host)
    (h : firstChecks c ((tick s).accept c) = .raise e ((tick s).accept c)) :
    ∃ u, EndsAs s c (.error e s.regs.srcLen.toNat 0) u := by
  refine ⟨_, step_accept_raise ht h, rfl, ?_, fun out heq => nomatch heq⟩
  rw [endRegs, Nat.sub_self]
  rfl

theorem endsAs_illegal {s : State} {c : Command} (ht : s.turns.head? ≠ some .host) (hc : c ≠ .bound) (h : ¬ OperandsLegal s) :
    ∃ u, EndsAs s c (.error .invalidArgument s.regs.srcLen.toNat 0) u :=
  endsAs_of_check ht (firstChecks_of_checkRegions_raise hc (checkRegions_accept_bad (s := tick s) c h))

theorem endsAs_small {s : State} (ht : s.turns.head? ≠ some .host) (h : OperandsLegal s)
    (hsmall : s.regs.dstCap.toNat < boundExact s.regs.srcLen.toNat) :
    ∃ u, EndsAs s .compress (.error .outputTooSmall s.regs.srcLen.toNat 0) u :=
  endsAs_of_check ht (firstChecks_accept_small (s := tick s) h hsmall)

theorem EndsAs.outside {s u : State} {c : Command} {d : DecodeEnd} (h : EndsAs s c d u) (hw : Waiting s) {x : Nat}
    (hx : ¬ InDest (s.accept c) x) : u.mem.read x = s.mem.read x :=
  engineWritesDestinationOnly (s.accept c) u (mover_engine rfl hw.first) h.step x hx

/-! ### The bodies of the commands (R123 to R125) -/

theorem commandBody_of_checks {c : Command} {a : State} (h : firstChecks c a = .ok () a) :
    commandBody c a = (commandBlock c a).bind fun _ t => resultOf c t := by
  rw [commandBody, h, Res.bind_ok]

/-- COMPRESS writes the reference block of its source (R123, R129, R170). -/
theorem commandBody_compress {a : State} (h : Ready a) (href : a.cfg.compressor = .reference)
    (hcap : boundExact a.work.n ≤ a.work.cap) (hchecks : firstChecks .compress a = .ok () a) :
    BodyEnds a (commandBody .compress a) (.done (encodeElements (refElements (srcBytes a 0 a.work.n)))) := by
  obtain ⟨t, hrun, hblock⟩ := compressRefR_quiet h hcap
  have hlen : t.work.op = (encodeElements (refElements (srcBytes a 0 a.work.n))).length := by
    rw [← hblock.block, dstBytes, Memory.length_readList]
  refine ⟨?_, t, ?_, ?_⟩
  · have hroom := hblock.room
    unfold boundExact Config.boundSlack at hcap
    omega
  · rw [commandBody_of_checks hchecks, commandBlock, compressBlockR, href, ← hlen]
    simp only [hrun, Res.bind_ok, resultOf]
  · rw [← hlen]
    exact hblock.block

/-- How a decoding command ends: DECOMPRESS_EXACT asks for exactly the capacity (R124, R125). -/
def decodingEnd (c : Command) (cap : Nat) (d : DecodeEnd) : DecodeEnd :=
  match c, d with
  | .decompressExact, .done out => if out.length = cap then .done out else .error .invalidData 0 out.length
  | _, d => d

/-- DECOMPRESS and DECOMPRESS_EXACT end as the decode loop of R195 does (R124, R125, R211). -/
theorem commandBody_decompress {a : State} {c : Command} (h : Ready a) (hc : c = .decompress ∨ c = .decompressExact)
    (hchecks : firstChecks c a = .ok () a) :
    BodyEnds a (commandBody c a) (decodingEnd c a.work.cap (decodeBlock (srcBytes a 0 a.work.n) a.work.cap)) := by
  have hblock := decompressBlockR_quiet h
  have hbody : commandBody c a = (decompressBlockR a).bind fun _ t => resultOf c t := by
    rw [commandBody_of_checks hchecks]
    rcases hc with rfl | rfl
    · rfl
    · rfl
  rw [hbody]
  cases hd : decodeBlock (srcBytes a 0 a.work.n) a.work.cap with
  | error e left made =>
    rw [hd] at hblock
    obtain ⟨t, hrun, -, hip, hop⟩ := hblock
    rw [hrun]
    rcases hc with rfl | rfl
    · exact ⟨t, rfl, hip, hop⟩
    · exact ⟨t, rfl, hip, hop⟩
  | done out =>
    rw [hd] at hblock
    obtain ⟨hcap, t, hrun, hmade⟩ := hblock
    have hip : t.work.ip = a.work.n := by rw [hmade.frame]
    have hop : t.work.op = out.length := by rw [hmade.frame]
    have htcap : t.work.cap = a.work.cap := by rw [hmade.frame]
    rw [hrun, Res.bind_ok]
    rcases hc with rfl | rfl
    · exact ⟨hcap, t, by rw [resultOf, hop], hmade.bytes⟩
    · rw [resultOf, decodingEnd, hop, htcap]
      split
      · exact ⟨hcap, t, rfl, hmade.bytes⟩
      · exact ⟨t, rfl, hip, hop⟩

/-! ### Whole commands (R123 to R125) -/

section
variable {s : State} (hw : Waiting s) (hq : Quiet s) (hm : s.mem.wf) (hlegal : OperandsLegal s) (hord : OrdinaryMemory s)
include hw hq hm hlegal hord

theorem endsAs_compress (href : s.cfg.compressor = .reference) (hroom : boundExact s.regs.srcLen.toNat ≤ s.regs.dstCap.toNat) :
    ∃ u, EndsAs s .compress (.done (encodeElements (refElements (operandBytes s)))) u :=
  endsAs_of_body hw (commandBody_compress (accept_ready (s := tick s) .compress hq hm hlegal) href hroom
    (firstChecks_accept_passed (s := tick s) (by decide) hlegal (fun _ => hroom) hord))

theorem endsAs_decompress {c : Command} (hc : c = .decompress ∨ c = .decompressExact) :
    ∃ u, EndsAs s c (decodingEnd c s.regs.dstCap.toNat (decodeBlock (operandBytes s) s.regs.dstCap.toNat)) u := by
  have hkind : c ≠ .bound ∧ c ≠ .compress := by rcases hc with rfl | rfl <;> decide
  exact endsAs_of_body hw (commandBody_decompress (accept_ready (s := tick s) c hq hm hlegal) hc
    (firstChecks_accept_passed (s := tick s) hkind.1 hlegal (fun h => absurd h hkind.2) hord))

end

/-- Settles O21: the block is the reference block, whose elements tile the source and so decode to it. -/
theorem compressCommand : Obligations.CompressCommand := by
  unfold Obligations.CompressCommand
  intro s hw hq hm hlegal hord href hroom
  obtain ⟨u, hu⟩ := endsAs_compress hw hq hm hlegal hord href hroom
  obtain ⟨hblock, htiles, hlen⟩ := refBlock_spec (operandBytes s)
  have hn : (operandBytes s).length = s.regs.srcLen.toNat := Memory.length_readList _ _ _
  rw [hblock, hn] at hlen
  exact ⟨s.accept .compress, u, _, congrArg _ (offerCommand_idle hw.idle .compress), hu.step, hu.idle, hu.regs, hlen,
    (hu.bytes _ rfl).2, decodeBlock_of_tiles htiles hn.le, fun a ha => hu.outside hw ha⟩

/-- Settles O22: the command ends as the decode loop does on the source bytes. -/
theorem decompressCommand : Obligations.DecompressCommand := by
  unfold Obligations.DecompressCommand
  intro s i c hic hw hq hm hlegal hord
  have hc : c = .decompress ∨ c = .decompressExact := hic.imp And.right And.right
  have haccept : exec i s = .next (s.accept c) := by
    rw [← offerCommand_idle hw.idle c]
    rcases hic with ⟨rfl, rfl⟩ | ⟨rfl, rfl⟩
    · rfl
    · rfl
  obtain ⟨u, hu⟩ := endsAs_decompress hw hq hm hlegal hord hc
  refine ⟨s.accept c, u, haccept, hu.step, hu.idle, fun a ha => hu.outside hw ha, ?_⟩
  cases hd : decodeBlock (operandBytes s) s.regs.dstCap.toNat with
  | error e left made =>
    rw [hd] at hu
    have hregs : u.regs = endRegs s c (.error e left made) := by
      rw [hu.regs]
      rcases hc with rfl | rfl
      · rfl
      · rfl
    rw [hregs, endRegs, reportCode_eq]
    simp only [running, State.accept_phase, State.accept_cfg, Option.some.injEq]
    rfl
  | done out =>
    rw [hd] at hu
    dsimp only
    split
    · next hbad =>
      obtain ⟨rfl, hne⟩ := hbad
      rw [hu.regs, decodingEnd, if_neg hne]
      rfl
    · next hgood =>
      have hend : decodingEnd c s.regs.dstCap.toNat (.done out) = .done out := by
        rcases hc with rfl | rfl
        · rfl
        · exact if_pos (not_not.mp fun hne => hgood ⟨rfl, hne⟩)
      exact ⟨by rw [hu.regs, hend]; rfl, (hu.bytes out hend).2⟩

/-! ### Every command ends (R122) -/

/-- The checks of an accepted command with ordinary memory pass or raise; what passed is legal and has room. -/
theorem firstChecks_accept_cases {s : State} {c : Command} (hc : c ≠ .bound) (hord : OrdinaryMemory s) :
    (∃ e, firstChecks c (s.accept c) = .raise e (s.accept c)) ∨
      firstChecks c (s.accept c) = .ok () (s.accept c) ∧ OperandsLegal s ∧ HasRoom s c := by
  by_cases hlegal : OperandsLegal s
  · by_cases hroom : HasRoom s c
    · exact .inr ⟨firstChecks_accept_passed hc hlegal hroom hord, hlegal, hroom⟩
    · obtain ⟨rfl, hsmall⟩ := Classical.not_imp.mp hroom
      exact .inl ⟨_, firstChecks_accept_small hlegal (Nat.lt_of_not_le hsmall)⟩
  · exact .inl ⟨_, firstChecks_of_checkRegions_raise hc (checkRegions_accept_bad c hlegal)⟩

/-- The last check of a command passes or raises, and stops at nothing else (R125). -/
theorem resultOf_sat (c : Command) (s : State) : (resultOf c s).Sat (fun _ _ => True) (fun _ _ => True) := by
  cases c with
  | decompressExact => rw [resultOf]; split <;> trivial
  | compress => trivial
  | decompress => trivial
  | bound => trivial

/-- The body of an accepted command completes or raises, whatever the platform answers (R122). -/
theorem commandBody_sat {s : State} (c : Command) (hm : s.mem.wf) (hord : OrdinaryMemory s) :
    (commandBody c (s.accept c)).Sat (fun _ _ => True) (fun _ _ => True) := by
  by_cases hc : c = .bound
  · subst hc; trivial
  · rcases firstChecks_accept_cases hc hord with ⟨e, hraise⟩ | ⟨hpass, hlegal, hroom⟩
    · rw [commandBody, hraise]; trivial
    · have hregions : Regions (s.accept c) := ⟨(regionsFit_iff _ _).mpr ⟨hlegal.1, hlegal.2.1⟩, (regionsDisjoint_iff _).mpr hlegal.2.2⟩
      rw [commandBody_of_checks hpass]
      exact Res.Sat.bind ((commandBlock_ends c hregions hm hroom).mono (fun _ t _ => resultOf_sat c t) fun _ _ h => h)

/-- Settles O25: the body of the command completes, which sets DONE, or raises, which sets ERR; acceptance had cleared both. -/
theorem commandsEnd : Obligations.CommandsEnd := by
  unfold Obligations.CommandsEnd
  intro s c hw hm hord
  have hends := commandBody_sat (s := tick s) c hm hord
  have hreach := commandBody_all c ((tick s).accept c)
  rw [step_accept c hw, runCommand]
  revert hends hreach
  cases commandBody c ((tick s).accept c) with
  | ok len t =>
    intro _ (hreach : Reach _ t)
    exact ⟨_, rfl, rfl, by rw [State.finish_regs, hreach.regs]; rfl⟩
  | raise e t =>
    intro _ (hreach : Reach _ t)
    exact ⟨_, rfl, rfl, by rw [State.raiseEnd_regs, hreach.regs]; rfl⟩
  | fault f => exact fun h => h.elim
  | refuse q => exact fun h => h.elim

/-! ### Determinism (R130) -/

theorem endRegs_congr {s s' : State} (hcfg : s.cfg = s'.cfg) (hregs : s.regs = s'.regs) (c : Command) (d : DecodeEnd) :
    endRegs s' c d = endRegs s c d := by
  cases d with
  | done out => rw [endRegs, endRegs, hregs]
  | error e left made =>
    have hcode : (s'.accept c).reportCode e = (s.accept c).reportCode e := by
      rw [reportCode_eq, reportCode_eq, State.accept_cfg, State.accept_cfg, hcfg]; rfl
    rw [endRegs, endRegs, hregs, hcode]

/-- A command over a device does not end (R80). -/
theorem ordinary_of_step {s u : State} {c : Command} (hw : Waiting s) (hc : c ≠ .bound) (hlegal : OperandsLegal s)
    (hroom : HasRoom s c) (h : step (s.accept c) = .next u) : OrdinaryMemory s := by
  by_contra hno
  have hrefused : firstChecks c ((tick s).accept c) = .refuse .deviceRegion :=
    (firstChecks_accept_legal (s := tick s) hc hlegal hroom).trans (checkDevices_accept_covered (s := tick s) c hno)
  rw [step_accept_start c hw.first, fetchEngine, hrefused] at h
  cases h

/-- Machines that agree on build parameters, operand registers and source bytes end a command in the same way. -/
theorem endsAs_alike {s s' u : State} {c : Command} (hc : c ≠ .bound) (hw : Waiting s) (hw' : Waiting s') (hq : Quiet s)
    (hq' : Quiet s') (hm : s.mem.wf) (hm' : s'.mem.wf) (hcfg : s.cfg = s'.cfg) (href : s.cfg.compressor = .reference)
    (hregs : s.regs = s'.regs) (hbytes : operandBytes s = operandBytes s') (h : step (s.accept c) = .next u) :
    ∃ d, EndsAs s c d u ∧ ∃ u', EndsAs s' c d u' := by
  suffices hboth : ∃ d, (∃ v, EndsAs s c d v) ∧ ∃ u', EndsAs s' c d u' by
    obtain ⟨d, ⟨v, hv⟩, hu'⟩ := hboth
    cases hv.step.symm.trans h
    exact ⟨d, hv, hu'⟩
  by_cases hlegal : OperandsLegal s
  · have hlegal' : OperandsLegal s' := by unfold OperandsLegal at hlegal ⊢; rwa [← hcfg, ← hregs]
    by_cases hroom : HasRoom s c
    · have hroom' : HasRoom s' c := by unfold HasRoom at hroom ⊢; rwa [← hregs]
      have hord := ordinary_of_step hw hc hlegal hroom h
      have hord' : OrdinaryMemory s' := by unfold OrdinaryMemory at hord ⊢; rwa [← hcfg, ← hregs]
      by_cases hcomp : c = .compress
      · subst hcomp
        refine ⟨_, endsAs_compress hw hq hm hlegal hord href (hroom rfl), ?_⟩
        rw [hbytes]
        exact endsAs_compress hw' hq' hm' hlegal' hord' (hcfg ▸ href) (hroom' rfl)
      · have hdec : c = .decompress ∨ c = .decompressExact := by
          revert hc hcomp
          cases c <;> decide
        refine ⟨_, endsAs_decompress hw hq hm hlegal hord hdec, ?_⟩
        rw [hbytes, hregs]
        exact endsAs_decompress hw' hq' hm' hlegal' hord' hdec
    · obtain ⟨rfl, hsmall⟩ := Classical.not_imp.mp hroom
      have hsmall := Nat.lt_of_not_le hsmall
      refine ⟨_, endsAs_small hw.first hlegal hsmall, ?_⟩
      rw [hregs] at hsmall ⊢
      exact endsAs_small hw'.first hlegal' hsmall
  · have hbad' : ¬ OperandsLegal s' := by unfold OperandsLegal at hlegal ⊢; rwa [← hcfg, ← hregs]
    refine ⟨_, endsAs_illegal hw.first hc hlegal, ?_⟩
    rw [hregs]
    exact endsAs_illegal hw'.first hc hbad'

/-- Settles O26: the end of a command is read off its operands and source bytes; BOUND reads its length alone. -/
theorem determinism : Obligations.Determinism := by
  unfold Obligations.Determinism
  intro s s' c u hw hw' hq hq' hm hm' hcfg href hregs hbytes h
  by_cases hc : c = .bound
  · subst hc
    cases (step_accept_bound hw.first).symm.trans h
    refine ⟨_, step_accept_bound hw'.first, ?_, fun _ hne => absurd rfl hne⟩
    rw [State.finish_regs, State.finish_regs, hcfg, hregs]
    exact congrArg (Regs.finished · _) (congrArg Regs.accepted hregs).symm
  · obtain ⟨d, hu, u', hu'⟩ := endsAs_alike hc hw hw' hq hq' hm hm' hcfg href hregs hbytes h
    refine ⟨u', hu'.step, by rw [hu'.regs, hu.regs, endRegs_congr hcfg hregs], fun hdone _ => ?_⟩
    rw [hu.regs] at hdone ⊢
    cases d with
    | error e left made => cases hdone
    | done out =>
      obtain ⟨hcap, hmade⟩ := hu.bytes out rfl
      have hlen : (endRegs s c (.done out)).resultLen.toNat = out.length :=
        (BitVec.toNat_ofNat _ _).trans (Nat.mod_eq_of_lt (Nat.lt_of_le_of_lt hcap s.regs.dstCap.isLt))
      have hmade' := (hu'.bytes out rfl).2
      rw [← hregs] at hmade'
      rw [hlen, hmade, hmade']

end Machine
end Sys2Proof
end

section
/-! PROOFS. What a command runs (40_commands.md section 2): the engine's step at each line of the pseudocode (O9), and the block of an
`AnyValid` compressor (O42). -/
namespace Sys2Proof
namespace Machine
open Safety

/-! ### The lines of the pseudocode (R123 to R125, R170 to R175, R195, R209) -/

/-- The end of the running command once its block is done (R121, R125). -/
theorem closeBlock_eq (c : Command) (t : State) :
    closeBlock c t =
      match c with
      | .bound => t.finish (maxCompressedSize t.cfg t.work.n)
      | .compress => t.finish t.work.op
      | .decompress => t.finish t.work.op
      | .decompressExact => if t.work.op = t.work.cap then t.finish t.work.op else t.raiseEnd .invalidData := by
  cases c with
  | decompressExact =>
    rw [closeBlock, resultOf]
    by_cases h : t.work.op = t.work.cap
    · simp only [if_pos h]
    · simp only [if_neg h]
  | compress => rfl
  | decompress => rfl
  | bound => rfl

/-- A BUSY engine goes on at the line named. -/
theorem setPoint_of_busy {s : State} {c : Command} {q : Point} (h : s.phase = .busy c q) (p : Point) :
    s.setPoint p = { s with phase := .busy c p } := by
  rw [setPoint_eq, h]

section
variable {s : State} {c : Command} (hm : mover s = some .engine)
include hm

/-- Checks that pass are followed by the command's block, at the machine's pace. -/
theorem step_of_checks (hp : s.phase = .busy c .start) (h : firstChecks c (tick s) = .ok () (tick s)) :
    step s = (fetchBlock c (tick s)).outcome := by
  rw [step_engineAt hm hp, fetchEngine, h]

/-- COMPRESS begins the scan at the piecewise pace when it makes the reference block, else it runs the whole block (R123, R129). -/
theorem step_compress_block (hp : s.phase = .busy .compress .start)
    (h : firstChecks .compress (tick s) = .ok () (tick s)) :
    step s =
      if s.pace = .piecewise ∧ s.cfg.compressor = .reference then .next ((blockStart (tick s)).setPoint .scan)
      else onNext (State.ifBusy (closeBlock .compress)) (exec .compressBlock (tick s)) := by
  rw [step_of_checks hm hp h]
  unfold fetchBlock
  simp only [tick, State.setTurns_pace, State.setTurns_cfg]
  cases s.pace <;> cases s.cfg.compressor <;> rfl

/-- A decoding command begins the loop at the piecewise pace, else it runs the whole block (R124, R125). -/
theorem step_decompress_block (hc : c = .decompress ∨ c = .decompressExact) (hp : s.phase = .busy c .start)
    (h : firstChecks c (tick s) = .ok () (tick s)) :
    step s =
      if s.pace = .piecewise then .next (((tick s).setWork { s.work with ip := 0, op := 0 }).setPoint .token)
      else onNext (State.ifBusy (closeBlock c)) (exec .decompressBlock (tick s)) := by
  rw [step_of_checks hm hp h]
  unfold fetchBlock
  simp only [tick, State.setTurns_pace]
  rcases hc with rfl | rfl
  · cases s.pace <;> rfl
  · cases s.pace <;> rfl

/-- The head of the scan loop: FIND, or the scan is over (R170, R171). -/
theorem step_scan (hp : s.phase = .busy c .scan) :
    step s =
      if 13 ≤ s.work.n ∧ s.work.ip + 12 ≤ s.work.n then
        onNext (State.ifBusy afterFind) (exec (.find s.work.ip) (tick s))
      else .next ((tick s).setPoint .last) := by
  have hgo : scanGoesOn (tick s) = decide (13 ≤ s.work.n ∧ s.work.ip + 12 ≤ s.work.n) := (Bool.decide_and _ _).symm
  rw [step_engineAt hm hp, fetchEngine, hgo]
  by_cases h : 13 ≤ s.work.n ∧ s.work.ip + 12 ≤ s.work.n
  · rw [if_pos h, if_pos (decide_eq_true h)]; rfl
  · rw [if_neg h, if_neg (by simpa using h)]; rfl

/-- The match is checked against the capacity before its copy (R209). -/
theorem step_copy (hp : s.phase = .busy c .copy) :
    step s =
      if s.work.cap - s.work.op < s.work.matchLen then .next ((tick s).raiseEnd .outputTooSmall)
      else onNext (State.ifBusy (State.setPoint · .token)) (exec (.copyMatch s.work.offset s.work.matchLen) (tick s)) := by
  rw [step_engineAt hm hp, fetchEngine]
  by_cases h : s.work.cap - s.work.op < s.work.matchLen
  · rw [if_pos h, if_pos (by exact h)]; rfl
  · rw [if_neg h, if_neg (by exact h)]; rfl

/-- The head of the decode loop when no input is left (R195). -/
theorem step_token_end (hp : s.phase = .busy c .token) (h : s.work.n ≤ s.work.ip) :
    step s = .next ((tick s).setPoint .finish) := by
  rw [step_engineAt hm hp, fetchEngine, if_neg (by exact Nat.not_lt.mpr h)]
  rfl

end

/-- Settles O9: one equation for each line, with `closeBlock` and `setPoint` as the statement writes them out. -/
theorem stepRunsInternalOperation : Obligations.StepRunsInternalOperation := by
  unfold Obligations.StepRunsInternalOperation
  intro s c hm goOn goOnWith ends u w
  have hgoOn : ∀ p, goOn p = (State.setPoint · p) := fun p => funext fun t => (setPoint_eq p t).symm
  have hgoOnWith : goOnWith = fun p w t => (t.setWork w).setPoint p :=
    funext fun p => funext fun w => funext fun t => congrFun (hgoOn p) (t.setWork w)
  have hends : ends = closeBlock c := funext fun t => (closeBlock_eq c t).symm
  rw [hends]
  refine ⟨fun hp hchecks => ⟨?_, ?_, ?_⟩, fun hp => ?_, fun hp => ?_, fun hp => ?_, fun hp => ?_, fun hp hin => ?_, fun hp => ?_,
    fun hp => step_engineAt hm hp⟩
  · rintro rfl
    exact step_of_checks hm hp hchecks
  · rintro rfl
    rw [step_compress_block hm hp hchecks, setPoint_of_busy (s := blockStart (tick s)) hp]
    rfl
  · intro hc
    rw [step_decompress_block hm hc hp hchecks, setPoint_of_busy (s := (tick s).setWork _) hp]
    rfl
  · rw [step_scan hm hp, setPoint_of_busy (s := tick s) hp, hgoOn]
    rfl
  · rw [step_engineAt hm hp, hgoOnWith]
    rfl
  · rw [step_engineAt hm hp, hgoOnWith]
    rfl
  · rw [step_engineAt hm hp, hgoOn]
    rfl
  · rw [step_token_end hm hp hin, setPoint_of_busy (s := tick s) hp]
  · rw [step_copy hm hp, hgoOn]

/-! ### The block of an `AnyValid` compressor (R129) -/

/-- What R129 (a) to (d) ask of a block. -/
theorem validBlock_iff {c : Params} {src b : List Byte} :
    validBlock c src b = true ↔ (b.length ≤ maxCompressedSize c src.length ∧ decodeBlock b src.length = .done src) ∧
      ∃ els, parseBlock b = some els ∧ elementsShape els = true := by
  have hmeaning : (blockMeaning b src.length == some src) = true ↔ decodeBlock b src.length = .done src := by
    rw [blockMeaning_eq, beq_iff_eq]
    cases decodeBlock b src.length <;> simp
  have hshape : ((parseBlock b).map elementsShape).getD false = true ↔ ∃ els, parseBlock b = some els ∧ elementsShape els = true := by
    cases parseBlock b <;> simp
  rw [validBlock, Bool.and_eq_true, Bool.and_eq_true, decide_eq_true_eq, hmeaning, hshape]

/-- Settles O42: whatever is drawn, the block stored is the chosen one, which meets R129 (a) to (d). -/
theorem anyValidBlock : Obligations.AnyValidBlock := by
  unfold Obligations.AnyValidBlock
  intro s h hany hcap hmax
  have hn : (srcBytes s 0 s.work.n).length = s.work.n := length_srcBytes _ _ _
  have hvalid := chosenBlock_valid s.cfg s.draws (srcBytes s 0 s.work.n) (by rw [hn]; exact hmax)
  have hrun := compressAnyR_quiet h hcap
  generalize chosenBlock s.cfg s.draws (srcBytes s 0 s.work.n) = block at hvalid hrun
  obtain ⟨⟨hlen, hmeaning⟩, els, hparse, hshape⟩ := validBlock_iff.mp hvalid
  rw [hn] at hlen hmeaning
  have hexec : exec .compressBlock s = .next (((blockStart s).setDraws (s.draws + 1)).stored block) := by
    rw [exec, execCompressBlock, compressBlockR, hany]
    simp only [hrun, Res.outcome_ok]
  have hop : (((blockStart s).setDraws (s.draws + 1)).stored block).work.op = block.length := Nat.zero_add _
  have hblock : dstBytes (((blockStart s).setDraws (s.draws + 1)).stored block) 0 block.length = block :=
    Memory.readList_writeList h.wf _ _
  refine ⟨_, els, hexec, ?_⟩
  rw [hop, hblock]
  exact ⟨hlen, hmeaning, hparse, hshape, fun a ha => Memory.read_writeList_other _ _ ha⟩

end Machine
end Sys2Proof
end

section
/-! PROOFS. The match finder (41_match_finder.md): FIND hashes the window, reads and overwrites its slot, and tests the candidate
(O32). -/
namespace Sys2Proof
namespace Machine
open Safety

/-- The hash as the slot number R141 computes. -/
theorem hash4_eq_ofNat (v : BitVec 32) : hash4 v = BitVec.ofNat 16 (v.toNat * 2654435761 % 2 ^ 32 / 2 ^ 16) := by
  rw [← toNat_hash4, BitVec.ofNat_toNat, BitVec.setWidth_eq]

/-- Settles O32: FIND's next state is the one `findR_quiet` gives, whose candidate window lies inside the input because the table holds
earlier positions only (R146). -/
theorem findMatch : Obligations.FindMatch := by
  unfold Obligations.FindMatch
  intro s p hq hfits htable hp hslots
  have hcand : s.ht.get (hash4 (srcWindowAt s p)) + 4 ≤ s.work.n ∨ s.ht.get (hash4 (srcWindowAt s p)) = 0 :=
    (hslots _).imp_left fun h => by omega
  refine ⟨_, congrArg Res.outcome (findR_quiet hq hfits hp hcand), ?_⟩
  dsimp only
  rw [← toNat_srcWindowAt, ← hash4_eq_ofNat, BitVec.ofNat_toNat, BitVec.setWidth_eq]
  refine ⟨?_, Table.get_set_same htable _ p, fun k hk => Table.get_set_other s.ht p hk⟩
  rw [acceptsAt_eq]
  rfl

end Machine
end Sys2Proof
end

section
/-! PROOFS. The match extender (42_match_extender.md): EXTEND returns the length of the byte-wise comparison (O33), and so does its wide
datapath (O34). -/
namespace Sys2Proof
namespace Machine

/-! ### The byte-wise comparison (R160, R162) -/

/-- `tailPrefix` is the only length, up to the ceiling, below which all bytes agree and at which they differ or the ceiling is
reached. -/
theorem tailPrefix_eq_of_agree {f : Nat → Byte} {a b r k j : Nat} (hkj : k ≤ j) (hjr : j ≤ k + r)
    (hagree : ∀ i, k ≤ i → i < j → f (a + i) = f (b + i)) (hend : j = k + r ∨ f (a + j) ≠ f (b + j)) :
    tailPrefix f a b r k = j := by
  obtain ⟨hk, hr, hbelow, hstop⟩ := tailPrefix_spec f a b r k
  rcases Nat.lt_trichotomy (tailPrefix f a b r k) j with hlt | heq | hgt
  · exact absurd (hagree _ hk hlt) (hstop.resolve_left (by omega))
  · exact heq
  · exact absurd (hbelow j hkj hgt) (hend.resolve_left (by omega))

/-- Agreement counted from `k` as agreement at positions. -/
theorem agree_of_offset {f : Nat → Byte} {a b k m : Nat} (hagree : ∀ i < m, f (a + k + i) = f (b + k + i)) :
    ∀ i, k ≤ i → i < k + m → f (a + i) = f (b + i) := fun i hki hi => by
  have := hagree (i - k) (by omega)
  rwa [Nat.add_assoc, Nat.add_assoc, Nat.add_sub_cancel' hki] at this

/-- The comparison of `m` agreeing bytes moves the position past them. -/
theorem tailPrefix_skip {f : Nat → Byte} {a b m k : Nat} (hagree : ∀ i < m, f (a + k + i) = f (b + k + i)) (r : Nat) :
    tailPrefix f a b (m + r) k = tailPrefix f a b r (k + m) := by
  obtain ⟨hk, hr, hbelow, hstop⟩ := tailPrefix_spec f a b r (k + m)
  refine tailPrefix_eq_of_agree (by omega) (by omega) (fun i hki hi => ?_) (hstop.imp_left fun h => by omega)
  rcases Nat.lt_or_ge i (k + m) with hlt | hge
  · exact agree_of_offset hagree i hki hlt
  · exact hbelow i hge hi

/-! ### The wide datapath (R155, R157 to R159) -/

/-- The wide loop is the byte-wise comparison: a full window is 16 agreeing bytes, and in another one the first unequal lane is where
the byte-wise comparison stops. -/
theorem wideExtend_eq_tailPrefix (f : Nat → Byte) (a b w t k : Nat) :
    wideExtend f a b w t k = tailPrefix f a b (Config.extWindow * w + t) k := by
  induction w generalizing k with
  | zero => rw [wideExtend, Nat.mul_zero, Nat.zero_add]
  | succ w ih =>
    rw [wideExtend, Nat.mul_succ, Nat.add_comm (_ * w), Nat.add_assoc]
    split
    · next hfull => rw [ih, tailPrefix_skip ((laneMask_full ..).mp hfull)]
    · next hne =>
      obtain ⟨hlane, hagree, hdiff⟩ := ctz16_laneMask hne
      rw [Nat.add_assoc, Nat.add_assoc] at hdiff
      have hin : ctz16 (~~~ laneMask f (a + k) (b + k)) ≤ Config.extWindow + (Config.extWindow * w + t) :=
        Nat.le_add_right_of_le hlane.le
      exact (tailPrefix_eq_of_agree (Nat.le_add_right ..) (Nat.add_le_add_left hin k) (agree_of_offset hagree)
        (.inr hdiff)).symm

/-- The windows and the tail make up the ceiling. -/
theorem extendDatapath_eq_tailPrefix (f : Nat → Byte) (a b limit : Nat) :
    extendDatapath f a b limit = tailPrefix f a b limit 0 := by
  rw [extendDatapath, wideExtend_eq_tailPrefix, Nat.div_add_mod]

/-! ### The obligations -/

/-- Settles O33: when no bus error is coming EXTEND latches `extendLen`, the length of the byte-wise comparison below the ceiling. -/
theorem extendMatch : Obligations.ExtendMatch := by
  unfold Obligations.ExtendMatch
  intro s a b max hq hfits
  exact ⟨extendLen s a b max, congrArg Res.outcome (extendR_quiet hq hfits a b max), extendLen_spec s a b max⟩

/-- Settles O34: the datapath is the byte-wise comparison, which returns the only length that agrees below and stops at `k`. -/
theorem extendDatapath_eq_of_agree : Obligations.ExtendDatapath := by
  unfold Obligations.ExtendDatapath
  intro f a b limit k hk hagree hend
  rw [extendDatapath_eq_tailPrefix]
  exact tailPrefix_eq_of_agree (Nat.zero_le k) (by omega) (fun i _ hi => hagree i hi) (by rwa [Nat.zero_add])

end Machine
end Sys2Proof
end

section
/-! PROOFS. The block compressor (43_block_compressor.md): the token encoder's operations (O35, O36, O37), and the reference compressor's
block, which tiles the input (O39), fits (O38), is one `final_seq` for a short input (O40) and decodes to the input (O41). -/
namespace Sys2Proof
namespace Machine
open Safety

/-! ### The token encoder (R176 to R184) -/

/-- The token of a length pair without a match, its M nibble 0 (R100). -/
theorem tokenByte_lenNibble_zero (l : Nat) : tokenByte (lenNibble l) 0#4 = BitVec.ofNat 8 (16 * min l 15) :=
  tokenByte_lenNibble l 0

/-- The two bytes of an offset, the low one first (R180). -/
theorem leBytes_offset (o : BitVec 16) : leBytes 2 o.toNat = [BitVec.ofNat 8 (o.toNat % 256), BitVec.ofNat 8 (o.toNat / 256)] := by
  have hlow : BitVec.ofNat 8 (o.toNat % 256) = BitVec.ofNat 8 o.toNat :=
    BitVec.eq_of_toNat_eq (by rw [BitVec.toNat_ofNat, BitVec.toNat_ofNat, Nat.mod_mod])
  rw [leBytes_two, hlow]

/-- A `match_seq` byte by byte, in the order of R176. -/
theorem encodeSeq_eq_bytes (lits : List Byte) (o : BitVec 16) (lm : Nat) :
    encodeSeq lits o lm =
      BitVec.ofNat 8 (16 * min lits.length 15 + min (lm - 4) 15) :: lenExt lits.length ++ lits
        ++ [BitVec.ofNat 8 (o.toNat % 256), BitVec.ofNat 8 (o.toNat / 256)] ++ lenExt (lm - 4) := by
  rw [encodeSeq, tokenByte_lenNibble, leBytes_offset]

/-- A `final_seq` byte by byte, in the order of R184. -/
theorem encodeLast_eq_bytes (lits : List Byte) :
    encodeLast lits = BitVec.ofNat 8 (16 * min lits.length 15) :: lenExt lits.length ++ lits := by
  rw [encodeLast, tokenByte_lenNibble_zero]

theorem writeExtR_stored {s : State} (h : Ready s) {v : Nat} (hcap : s.work.op + (v / 255 + 1) ≤ s.work.cap) :
    writeExtR v s = .ok () (s.stored (extBytes v)) :=
  putList_stored h (by rwa [length_extBytes])

/-- An operation that sets working registers and appends bytes at `op` ends in a next state of which `Stored` holds; the cursor moves
past the bytes and nothing else changes. -/
theorem next_of_stored {s : State} (hwf : s.mem.wf) {r : Res Unit} {w : Work} {bs : List Byte}
    (hrun : r = .ok () ((s.setWork w).stored bs)) (hda : w.da = s.work.da) (hop : w.op = s.work.op) :
    ∃ t, r.outcome = .next t ∧ t = { s with mem := t.mem, work := { w with op := s.work.op + bs.length } } ∧
      Stored s t (s.work.da + s.work.op) bs := by
  refine ⟨(s.setWork w).stored bs, by rw [hrun, Res.outcome_ok], ?_, stored_of_writeList hwf ?_⟩
  · rw [← hop]; rfl
  · rw [← hda, ← hop]; rfl

/-- Settles O35: WRITE_EXT is one store of `extBytes v`, of length `v / 255 + 1`. -/
theorem writeExt : Obligations.WriteExt := by
  unfold Obligations.WriteExt
  intro s v h hcap
  have hstored := next_of_stored (w := s.work) h.wf (writeExtR_stored h hcap) rfl rfl
  rwa [length_extBytes] at hstored

/-- Settles O36: EMIT_SEQ is one store of the encoded `match_seq`. -/
theorem emitSeq : Obligations.EmitSeq := by
  unfold Obligations.EmitSeq
  intro s pos ll lm o h _ hsrc ext bytes hcap
  have hbytes : encodeSeq (srcBytes s pos ll) o lm = bytes := by
    rw [encodeSeq_eq_bytes, length_srcBytes]; rfl
  rw [← hbytes] at hcap ⊢
  rw [← tokenByte_lenNibble]
  exact next_of_stored h.wf (emitSeqR_quiet h hsrc hcap) rfl rfl

/-- Settles O37: EMIT_LAST is one store of the encoded `final_seq`. -/
theorem emitLast : Obligations.EmitLast := by
  unfold Obligations.EmitLast
  intro s pos ll h hsrc ext bytes hcap
  have hbytes : encodeLast (srcBytes s pos ll) = bytes := by
    rw [encodeLast_eq_bytes, length_srcBytes]; rfl
  rw [← hbytes] at hcap ⊢
  rw [← tokenByte_lenNibble_zero]
  exact next_of_stored h.wf (emitLastR_quiet h hsrc hcap) rfl rfl

/-! ### The reference compressor (R170, R182 to R190) -/

section
variable {s : State} (h : Ready s) (href : s.cfg.compressor = .reference) (hcap : boundExact s.work.n ≤ s.work.cap)
include h href hcap

/-- COMPRESS_BLOCK completes with the block of the greedy scan. -/
theorem exec_compressBlock_reference :
    ∃ t, exec .compressBlock s = .next t ∧ Compressed s t (refElements (srcBytes s 0 s.work.n)) := by
  obtain ⟨t, hrun, hblock⟩ := compressRefR_quiet h hcap
  refine ⟨t, ?_, hblock⟩
  rw [exec, execCompressBlock, compressBlockR, href]
  simp only [hrun, Res.outcome_ok]

/-- Whatever COMPRESS_BLOCK ends in holds that block. -/
theorem compressed_of_exec {t : State} (ht : exec .compressBlock s = .next t) :
    Compressed s t (refElements (srcBytes s 0 s.work.n)) := by
  obtain ⟨u, hu, hblock⟩ := exec_compressBlock_reference h href hcap
  rw [hu] at ht
  cases ht
  exact hblock

end

/-- Settles O39: the block is the encoding of the scan's elements, which tile the input and so are a block of R92. -/
theorem compressBlockTiles : Obligations.CompressBlockTiles := by
  unfold Obligations.CompressBlockTiles
  intro s t h href hcap ht
  have hblock := compressed_of_exec h href hcap ht
  refine ⟨hblock.block, ?_, hblock.tiles⟩
  rw [hblock.block]
  exact parseBlock_encode (tiles_block hblock.tiles).1

/-- Settles O38: the scan keeps `op ≤ anchor + anchor / 255`, and the `final_seq` costs its literals, a 255th of them and at most two
bytes. -/
theorem compressBlockFits : Obligations.CompressBlockFits := by
  unfold Obligations.CompressBlockFits
  intro s h href hcap
  obtain ⟨t, hexec, hblock⟩ := exec_compressBlock_reference h href hcap
  have hroom := hblock.room
  exact ⟨t, hexec, hblock.frame, hroom, by omega, hblock.sa, hblock.n, hblock.da, hblock.cap, hblock.other⟩

/-! ### Short inputs (R149, R185) -/

/-- Below `MIN_MATCH_INPUT` the scan does not move (R149). -/
theorem ScanPoint.run_short {src : List Byte} (hn : src.length < 13) (fuel : Nat) (x : ScanPoint) : ScanPoint.run src fuel x = x := by
  cases fuel with
  | zero => rfl
  | succ fuel => exact if_neg fun hgo => Nat.not_le.mpr hn hgo.1

/-- Below `MIN_MATCH_INPUT` there is one element (R185). -/
theorem refElements_short {src : List Byte} (hn : src.length < 13) : refElements src = [.last src] := by
  rw [refElements, ScanPoint.run_short hn]
  rfl

/-- A run of fewer than 15 literals has no extension (R98, R184). -/
theorem encodeLast_short {lits : List Byte} (hn : lits.length < 15) : encodeLast lits = BitVec.ofNat 8 (16 * lits.length) :: lits := by
  rw [encodeLast_eq_bytes, Nat.min_eq_left hn.le, lenExt, if_neg (Nat.not_le.mpr hn), List.singleton_append]

/-- Settles O40: one `final_seq`, short enough to have no extension. -/
theorem compressShortInput : Obligations.CompressShortInput := by
  unfold Obligations.CompressShortInput
  intro s t h href hcap hn ht
  have hlen : (srcBytes s 0 s.work.n).length = s.work.n := length_srcBytes _ _ _
  have hroom : boundExact s.work.n ≤ s.work.cap := by unfold boundExact Config.boundSlack; omega
  rw [(compressed_of_exec h href hroom ht).block, refElements_short (by omega), encodeElements_last, encodeLast_short (by omega), hlen]

/-! ### Decompressing the block (R186) -/

/-- A source block that decodes within the capacity is decompressed to its output. -/
theorem exec_decompressBlock_done {d : State} (h : Ready d) {out : List Byte}
    (hdone : decodeBlock (srcBytes d 0 d.work.n) d.work.cap = .done out) :
    ∃ e, exec .decompressBlock d = .next e ∧ Decoded d e out := by
  have hends := decompressBlockR_quiet h
  rw [hdone] at hends
  obtain ⟨-, e, hrun, hdec⟩ := hends
  exact ⟨e, by rw [exec, execDecompressBlock, hrun, Res.outcome_ok], hdec⟩

/-- Settles O41: the block is the encoding of elements that tile the input, and such a block decodes to it. -/
theorem roundTrip : Obligations.RoundTrip := by
  unfold Obligations.RoundTrip
  intro s t d h href hcap ht hd hsrc hroom
  have hblock := compressed_of_exec h href hcap ht
  have hlen : (srcBytes s 0 s.work.n).length = s.work.n := length_srcBytes _ _ _
  have hdone : decodeBlock (srcBytes d 0 d.work.n) d.work.cap = .done (srcBytes s 0 s.work.n) := by
    rw [hsrc, hblock.block]
    exact decodeBlock_of_tiles hblock.tiles (hlen.trans_le hroom)
  obtain ⟨e, hexec, hdec⟩ := exec_decompressBlock_done hd hdone
  have hbytes := hdec.bytes
  rw [hlen] at hbytes
  exact ⟨e, hexec, by rw [hdec.frame, hlen], by rw [hdec.frame], hbytes⟩

end Machine
end Sys2Proof
end

section
/-! PROOFS. The block decompressor (44_block_decompressor.md): READ_LEN (O43), the whole decode loop (O50), and the loop one stream element
at a time: the step at an element (O7), a token (O44) and an offset (O47). -/
namespace Sys2Proof
namespace Machine
open Safety

/-! ### Lengths (R198, R199) -/

/-- Only an extension can be cut short. -/
theorem nibble_of_parseLen_eq_none {nib : BitVec 4} {bs : List Byte} (h : parseLen nib bs = none) : nib = 15#4 := by
  by_contra hne
  rw [parseLen, if_neg hne] at h
  cases h

/-- Settles O43: `readLen_quiet`, and a length below 15 is never cut short. -/
theorem readLen_eq_parseLen : Obligations.ReadLen := by
  unfold Obligations.ReadLen
  intro s nib hq hfits hin
  have hrun := readLen_quiet hq hfits nib hin
  cases hparse : parseLen nib (srcBytes s s.work.ip (s.work.n - s.work.ip)) with
  | some p =>
    rw [hparse] at hrun
    dsimp only
    rw [exec, execReadLen, hrun]
    rfl
  | none =>
    rw [hparse] at hrun
    refine ⟨nibble_of_parseLen_eq_none hparse, ?_⟩
    rw [exec, execReadLen, hrun]
    rfl

/-! ### The whole loop (R195, R211, R212) -/

/-- A decoded block has stored its output at the start of the destination, and nothing else. -/
theorem Decoded.stored {s t : State} {out : List Byte} (h : Decoded s t out) : Stored s t s.work.da out := by
  have hda : t.work.da = s.work.da := by rw [h.frame]
  exact ⟨hda ▸ h.bytes, h.other⟩

/-- A source block whose decoding fails ends the command where the decoding stopped (R291, R296). -/
theorem exec_decompressBlock_error {s : State} (h : Ready s) {e : ErrCode} {left made : Nat}
    (herror : decodeBlock (srcBytes s 0 s.work.n) s.work.cap = .error e left made) :
    ∃ t : State, exec .decompressBlock s = .next (t.raiseEnd e) ∧ Stopped s t ∧ t.work.ip = s.work.n - left ∧ t.work.op = made := by
  have hends := decompressBlockR_quiet h
  rw [herror] at hends
  obtain ⟨t, hrun, hstop⟩ := hends
  exact ⟨t, by rw [exec, execDecompressBlock, hrun, Res.outcome_raise], hstop⟩

/-- Settles O50: the two ends of the decode loop on byte strings. -/
theorem decompressBlockRefines : Obligations.DecompressBlockRefines := by
  unfold Obligations.DecompressBlockRefines
  intro s h
  cases hend : decodeBlock (srcBytes s 0 s.work.n) s.work.cap with
  | done out =>
    obtain ⟨t, hexec, hdec⟩ := exec_decompressBlock_done h hend
    exact ⟨t, hexec, hdec.frame, hdec.stored⟩
  | error e left made =>
    obtain ⟨t, hexec, hstop, hip, hop⟩ := exec_decompressBlock_error h hend
    exact ⟨t, hexec, hip, hop, by rw [hstop.frame], by rw [hstop.frame], hstop.other⟩

/-! ### The step at an element of the stream (R195, R199, R205) -/

/-- Where the decoder stands at an element, the engine's step fetches it. -/
theorem step_streamAt {s : State} {x : Context} {pos : Nat} (hm : mover s = some .engine) (h : streamAt s = some (x, pos)) :
    step s = (fetchStream x pos (tick s)).outcome := by
  unfold streamAt at h
  split at h
  · next c hp =>
    split at h
    · next hin =>
      cases h
      rw [step_engineAt hm hp, fetchEngine, if_pos (by exact hin)]
      rfl
    · cases h
  · next hp => cases h; exact step_engineAt hm hp
  · next hp => cases h; exact step_engineAt hm hp
  · next hp => cases h; exact step_engineAt hm hp
  · cases h

/-- An element that is all there is read and runs. -/
theorem fetchStream_instr {s : State} {x : Context} {pos : Nat} (hq : Quiet s) (hfits : s.work.sa + s.work.n ≤ s.cfg.addrSpace)
    (hin : pos + contextBytes x ≤ s.work.n) {i : Instr} {rest : List Byte}
    (hdec : decode x (srcBytes s pos (contextBytes x)) = .instr i rest) : fetchStream x pos s = .run i s id := by
  have hthere : ¬ s.work.n - pos < contextBytes x := by omega
  rw [srcBytes] at hdec
  rw [fetchStream, if_neg hthere, srcList_quiet hq hfits hin]
  simp only [hdec]

theorem contextBytes_pos (x : Context) : 0 < contextBytes x := by cases x <;> decide

/-- An element that the block ends inside raises `UnexpectedEof`. -/
theorem fetchStream_truncated {s : State} {x : Context} {pos : Nat} (h : s.work.n < pos + contextBytes x) :
    fetchStream x pos s = .other (.next (s.raiseEnd .unexpectedEof)) := by
  have hcut : s.work.n - pos < contextBytes x := by have := contextBytes_pos x; omega
  rw [fetchStream, if_pos hcut]

/-- Settles O7: the step fetches the element, which is there or cut short. -/
theorem stepRunsStreamElement : Obligations.StepRunsStreamElement := by
  unfold Obligations.StepRunsStreamElement
  intro s x pos hm hat hq hfits
  rw [step_streamAt hm hat]
  refine ⟨fun hin i rest hdec => ?_, fun hcut => ?_⟩
  · rw [fetchStream_instr (s := tick s) hq hfits hin hdec]
    exact onNext_id _
  · rw [fetchStream_truncated (s := tick s) hcut]
    rfl

/-! ### Token and offset (R197, R198, R205 to R208) -/

/-- Settles O44: the nibble 15 goes on to the extension, any other is the literal length. -/
theorem tokenElement : Obligations.TokenElement := by
  unfold Obligations.TokenElement
  intro s c l m hp w w'
  have hzero : l.toNat = 0 ↔ l = 0#4 := (BitVec.toNat_eq (y := 0#4)).symm
  rw [exec, execToken, tokenR]
  dsimp only
  by_cases hext : l = 15#4
  · rw [if_pos hext, if_pos hext, setWork_setPoint hp]
    rfl
  · rw [if_neg hext, if_neg hext, beginLiterals_outcome (s := s.setWork w) hp]
    simp only [hzero]
    rfl

/-- An offset of 0, or past the output, is kept and passed, and no match extension is read (R206, R207). -/
theorem offset16R_illegal {s : State} {o : BitVec 16} (h : o.toNat = 0 ∨ s.work.op < o.toNat) :
    offset16R o s = .raise .invalidData (s.setWork { s.work with
      offset := o, ip := s.work.ip + 2, ret := (tokenMatch s.work.token).toNat }) := by
  unfold offset16R
  by_cases h0 : o = 0#16
  · exact if_pos h0
  · have hfar : s.work.op < o.toNat := h.resolve_left fun hz => h0 (BitVec.eq_of_toNat_eq hz)
    exact (if_neg h0).trans (if_pos hfar)

/-- A legal offset is kept and passed, and the M nibble says how the match length goes on (R208). -/
theorem offset16R_legal {s : State} {o : BitVec 16} (h : ¬ (o.toNat = 0 ∨ s.work.op < o.toNat)) :
    offset16R o s =
      let t := s.setWork { s.work with offset := o, ip := s.work.ip + 2, ret := (tokenMatch s.work.token).toNat }
      if tokenMatch s.work.token = 15#4 then .ok () (t.setPoint (.ext .mat))
      else beginMatch (tokenMatch s.work.token).toNat t := by
  obtain ⟨hzero, hnear⟩ := not_or.mp h
  unfold offset16R
  exact (if_neg fun h0 => hzero (congrArg BitVec.toNat h0)).trans (if_neg hnear)

/-- Settles O47: an illegal offset ends the command there; a legal one goes on as the M nibble says. -/
theorem offsetElement : Obligations.OffsetElement := by
  unfold Obligations.OffsetElement
  intro s c o hp m w
  rw [exec, execOffset16]
  by_cases hbad : o.toNat = 0 ∨ s.work.op < o.toNat
  · rw [offset16R_illegal hbad, if_pos hbad]
    rfl
  · rw [offset16R_legal hbad, if_neg hbad]
    by_cases hext : tokenMatch s.work.token = 15#4
    · rw [if_pos (show m = 15#4 from hext), if_pos hext, setWork_setPoint hp]
      rfl
    · rw [if_neg (show ¬ m = 15#4 from hext), if_neg hext, beginMatch, State.setWork_setWork, setWork_setPoint hp]
      rfl

end Machine
end Sys2Proof
end

section
/-! PROOFS. The copy engine (45_copy_engine.md): the literal copies (O28, O29), the match copy (O30) and its wide datapath (O31), and one
literal of a run in the decoded stream (O46). -/
namespace Sys2Proof
namespace Machine
open Safety

/-! ### Literal copies (R225, R226) -/

/-- COPY_LITERALS_DEC is COPY_LITERALS from the input cursor, which it moves too. -/
theorem copyLiteralsDecR_stored {s : State} (h : Ready s) {l : Nat} (hsrc : s.work.ip + l ≤ s.work.n)
    (hcap : s.work.op + l ≤ s.work.cap) :
    copyLiteralsDecR l s =
      .ok () ((s.setWork { s.work with ip := s.work.ip + l }).stored (srcBytes s s.work.ip l)) := by
  rw [copyLiteralsDecR_quiet h hsrc hcap, State.stored, length_srcBytes]
  rfl

/-- Settles O28: COPY_LITERALS is one store of the source bytes at `op`. -/
theorem copyLiterals : Obligations.CopyLiterals := by
  unfold Obligations.CopyLiterals
  intro s pos l h hsrc hcap
  have hstored := next_of_stored (w := s.work) h.wf (copyLiteralsR_stored h hsrc hcap) rfl rfl
  rwa [length_srcBytes] at hstored

/-- Settles O29: COPY_LITERALS_DEC is one store of the source bytes at `op`, with `ip` moved past them. -/
theorem copyLiteralsDec : Obligations.CopyLiteralsDec := by
  unfold Obligations.CopyLiteralsDec
  intro s l h hsrc hcap
  have hstored := next_of_stored h.wf (copyLiteralsDecR_stored h hsrc hcap) rfl rfl
  rwa [length_srcBytes] at hstored

/-! ### The match copy (R228, R229) -/

/-- A legal COPY_MATCH has an offset of at least 1 (R228). -/
theorem offset_ne_zero_of_copyMatch_wf {o : BitVec 16} {l : Nat} (h : (Instr.copyMatch o l).wf = true) : o ≠ 0#16 :=
  bne_iff_ne.mp (Bool.and_eq_true_iff.mp h).1

/-- Settles O30: COPY_MATCH is the forward byte copy from `offset` bytes back, which repeats those bytes. -/
theorem copyMatch : Obligations.CopyMatch := by
  unfold Obligations.CopyMatch
  intro s o l h hwf hback hcap
  have h0 : o ≠ 0#16 := offset_ne_zero_of_copyMatch_wf hwf
  have hpos : 0 < o.toNat := Nat.pos_of_ne_zero fun hz => h0 (BitVec.eq_of_toNat_eq hz)
  have hdst : s.work.da + s.work.op = s.work.da + (s.work.op - o.toNat) + o.toNat := by omega
  refine ⟨_, by rw [exec, execCopyMatch, copyMatchR_quiet h.quiet h.fits h0 hback hcap, Res.outcome_ok], rfl,
    fun i hi => ?_, fun i hi => ?_, fun a ha => ?_⟩
  · rw [← Nat.add_assoc, ← Nat.add_assoc]
    exact Memory.read_copyBytes h.wf (by omega) hi
  · rw [← Nat.add_assoc, ← Nat.add_assoc, hdst]
    exact Memory.read_copyBytes_periodic h.wf hpos hi
  · exact Memory.read_copyBytes_other _ ha

/-! ### The wide datapath (R230, R233) -/

/-- Whole words and then the remainder are one byte copy, when a word ends at or before its destination (R230, R232). -/
theorem Memory.copyWords_eq_copyBytes (m : Memory) {frm dst : Nat} (h : frm + Config.copyWord ≤ dst) (w r : Nat) :
    m.copyWords frm dst w r = m.copyBytes frm dst (Config.copyWord * w + r) := by
  induction w generalizing m frm dst with
  | zero => rw [Memory.copyWords, Nat.mul_zero, Nat.zero_add]
  | succ w ih =>
    have hlen : Config.copyWord * (w + 1) + r = Config.copyWord + (Config.copyWord * w + r) := by
      rw [Nat.mul_succ]; omega
    rw [Memory.copyWords, Memory.copyWord_eq h, ih _ (by omega), hlen, ← Memory.copyBytes_add]

/-- Both paths of the datapath are the byte copy: the wide one is taken only where no word reaches its destination (R230, R233). -/
theorem Memory.copyDatapath_eq_copyBytes (m : Memory) {dst o : Nat} (h : o ≤ dst) (l : Nat) :
    m.copyDatapath dst o l = m.copyBytes (dst - o) dst l := by
  rw [Memory.copyDatapath]
  by_cases hwide : Config.copyWord ≤ o
  · rw [if_pos hwide, Memory.copyWords_eq_copyBytes m (by omega), Nat.div_add_mod]
  · rw [if_neg hwide]

/-- Settles O31: the two copies leave one and the same memory. -/
theorem copyDatapath : Obligations.CopyDatapath := by
  unfold Obligations.CopyDatapath
  intro m dst o l _ _ hback a
  rw [Memory.copyDatapath_eq_copyBytes m hback]

/-! ### One literal of a run (R95, R204, R226) -/

/-- Settles O46: the byte is one store, and whether the run goes on decides where the cursors stand. -/
theorem literalByte : Obligations.LiteralByte := by
  unfold Obligations.LiteralByte
  intro s c b h hp hidx hcap
  refine ⟨_, by rw [exec, execLiteral, literalR_quiet h.quiet h.fits b (by omega), Res.outcome_ok], ?_⟩
  by_cases hmore : s.work.idx + 1 < s.work.litLen
  · rw [if_pos hmore, if_pos hmore]
    exact ⟨stored_of_writeList h.wf rfl, rfl⟩
  · have hlast : s.work.idx + 1 = s.work.litLen := by omega
    have hphase : (s.setMem (s.mem.write (s.work.da + (s.work.op + s.work.idx)) b)).phase = .busy c .literal := hp
    rw [if_neg hmore, if_neg hmore, hlast, afterLiterals, setWork_setPoint hphase]
    exact ⟨stored_of_writeList h.wf rfl, rfl⟩

end Machine
end Sys2Proof
end

section
/-! PROOFS. Frames as the host decodes them (47_host_frame_and_streaming.md sections 1 to 3): the step at a frame element (O8, O55), the
header elements (O51), the end of a frame (O52), stored and compressed records (O53, O54) and the choice a record makes (O56). -/
namespace Sys2Proof
namespace Machine
open Safety

/-! ### The step at a frame element (R242, R254, R257) -/

/-- A host that decodes a frame fetches its next element. -/
theorem step_frame {s : State} {x : Context} (hm : mover s = some .host) (hx : frameContext s.host.fdec.point = some x) :
    step s = (fetchFrame x (tick s)).outcome := by
  have hx' : frameContext (tick s).host.fdec.point = some x := hx
  rw [step_eq, fetch, hm]
  show (fetchHost (tick s)).outcome = _
  rw [fetchHost, hx']

section
variable {s : State} {x : Context} (hidle : s.phase = .idle)
include hidle

/-- A frame that ends inside the element fails with `UnexpectedEof` (R257). -/
theorem fetchFrame_truncated (hcut : s.host.fdec.len < s.host.fdec.cur + contextBytes x) :
    fetchFrame x s = .other (.next (s.setFdec (s.host.fdec.fail .unexpectedEof))) := by
  have hshort : s.host.fdec.len - s.host.fdec.cur < contextBytes x := by have := contextBytes_pos x; omega
  rw [fetchFrame, busy_of_idle hidle, if_neg (by decide), if_pos hshort]

section
variable (hthere : s.host.fdec.cur + contextBytes x ≤ s.host.fdec.len)
  (hmay : HostMay s (s.host.fdec.src + s.host.fdec.cur) (contextBytes x))
include hthere hmay

/-- An element that is all there is read and runs. -/
theorem fetchFrame_instr {i : Instr} {rest : List Byte}
    (hdec : decode x (s.mem.readList (s.host.fdec.src + s.host.fdec.cur) (contextBytes x)) = .instr i rest) :
    fetchFrame x s = .run i s id := by
  rw [fetchFrame, busy_of_idle hidle, if_neg (by decide), if_neg (by omega), hostLoad_may hidle hmay]
  simp only [hdec]

/-- Bytes that are no element fail with `InvalidData` (R242). -/
theorem fetchFrame_rejected {r : Reject}
    (hdec : decode x (s.mem.readList (s.host.fdec.src + s.host.fdec.cur) (contextBytes x)) = .rejected r) :
    fetchFrame x s = .other (.next (s.setFdec (s.host.fdec.fail .invalidData))) := by
  rw [fetchFrame, busy_of_idle hidle, if_neg (by decide), if_neg (by omega), hostLoad_may hidle hmay]
  simp only [hdec]

end
end

/-- Four bytes that do not spell the magic number are rejected (R242). -/
theorem decode_frameMagic_rejected {bs : List Byte} (hlen : bs.length = 4) (hne : leVal bs ≠ frameMagicValue) :
    decode .frameMagic bs = .rejected .notMagic := by
  have htake : takeField 4 bs = some (leVal bs, []) := by rw [← takeField_append hlen [], List.append_nil]
  simp only [decode, htake, if_neg hne]

/-- Settles O8: the step fetches the element, which runs, or four bytes that are not the magic number. -/
theorem stepRunsFrameElement : Obligations.StepRunsFrameElement := by
  unfold Obligations.StepRunsFrameElement
  intro s x hm hx hidle hthere hmay bytes
  rw [step_frame hm hx]
  refine ⟨fun i rest hdec => ?_, fun hmagic hne => ?_⟩
  · rw [fetchFrame_instr (s := tick s) hidle hthere hmay hdec]
    exact onNext_id _
  · subst hmagic
    have hrej := decode_frameMagic_rejected (Memory.length_readList s.mem (s.host.fdec.src + s.host.fdec.cur) 4) hne
    rw [fetchFrame_rejected (s := tick s) hidle hthere hmay hrej]
    rfl

/-! ### The header (R242 to R246) -/

/-- FLG holds only what R243 describes: version 01, and bits 4, 1 and 0 clear. -/
theorem flgDescribed_iff (b : Byte) : flgDescribed b = true ↔ b.extractLsb' 6 2 = 1#2 ∧ b &&& 0x13#8 = 0 := by
  revert b; decide

/-- BD holds only what R244 describes: a class 4 to 7, and bits 7 and 3 to 0 clear. -/
theorem bdDescribed_iff (b : Byte) : bdDescribed b = true ↔ 4 ≤ (b.extractLsb' 4 3).toNat ∧ b &&& 0x8F#8 = 0 := by
  revert b; decide

/-- A byte is refused under the reject policy when it is not described. -/
theorem policy_refuses_iff {p : Policy} {described : Bool} {P : Prop} (h : described = true ↔ P) :
    (p == .reject && !described) = true ↔ p = .reject ∧ ¬ P := by
  rw [Bool.and_eq_true, beq_iff_eq, Bool.not_eq_true', ← Bool.not_eq_true, h]

theorem policy_passes {p : Policy} {described : Bool} {P : Prop} (h : described = true ↔ P) (hp : p = .ignore ∨ P) :
    ¬ (p == .reject && !described) = true := by
  rw [policy_refuses_iff h]
  rintro ⟨hrej, hno⟩
  rcases hp with rfl | hP
  · cases hrej
  · exact hno hP

/-- Settles O51: each element is passed when its check does not refuse it, and fails when it does. -/
theorem frameHeaderElements : Obligations.FrameHeaderElements := by
  unfold Obligations.FrameHeaderElements
  intro s b v f next fails
  refine ⟨rfl, fun h => ?_, fun hp hb => ?_, fun hp hb => ?_, fun h => ?_, fun h => ?_, fun h => ?_, fun h => ?_, fun hv hb => ?_⟩
  · rw [exec, execFrameFlg, if_neg (policy_passes (flgDescribed_iff b) h)]
    rfl
  · rw [exec, execFrameFlg, if_pos ((policy_refuses_iff (flgDescribed_iff b)).mpr ⟨hp, hb⟩)]
    exact ⟨_, rfl, rfl, rfl, rfl⟩
  · rw [exec, execFrameBd, if_pos ((policy_refuses_iff (bdDescribed_iff b)).mpr ⟨hp, hb⟩)]
    exact ⟨_, rfl, rfl, rfl, rfl⟩
  · rw [exec, execFrameBd, if_neg (policy_passes (bdDescribed_iff b) h)]
    rfl
  · rw [exec, execFrameContentSize]
    cases hmax : s.host.fdec.maxOut with
    | none => simp only [FrameDec.advance, hmax]; rfl
    | some m =>
      have hle : v.toNat ≤ m := by simpa [f, hmax] using h
      simp only [FrameDec.advance, hmax, if_neg (Nat.not_lt.mpr hle)]
      rfl
  · rw [exec, execFrameContentSize]
    cases hmax : s.host.fdec.maxOut with
    | none => simp [f, hmax] at h
    | some m =>
      have hlt : m < v.toNat := by simpa [f, hmax] using h
      simp only [FrameDec.advance, hmax, if_pos hlt]
      exact ⟨_, rfl, rfl, rfl, rfl⟩
  · have hpass : ¬ (s.cfg.hcVerify && b != f.hcAcc) = true := by
      rw [Bool.and_eq_true, bne_iff_ne]
      rintro ⟨hv, hne⟩
      rcases h with h | h
      · rw [hv] at h; cases h
      · exact hne h
    exact congrArg (fun g => Host.Outcome.next (s.setFdec g)) (if_neg hpass)
  · have hfail : (s.cfg.hcVerify && b != f.hcAcc) = true := by rw [Bool.and_eq_true, bne_iff_ne]; exact ⟨hv, hb⟩
    exact ⟨_, congrArg (fun g => Host.Outcome.next (s.setFdec g)) (if_pos hfail), rfl, rfl, rfl⟩

/-! ### The end of a frame (R248, R249, R258) -/

/-- Settles O52: both last elements close the frame, the checksum only when it is that of the output. -/
theorem frameEndElements : Obligations.FrameEndElements := by
  unfold Obligations.FrameEndElements
  intro s v f next closed
  have hclosed : ∀ p, Host.Outcome.next (s.setFdec ((f.advance 4 p).close s.cfg)) = closed := fun p => by
    rw [FrameDec.close_eq]; rfl
  refine ⟨fun h => ?_, fun h => ?_, fun hidle hmay => ?_⟩
  · exact congrArg (fun g => Host.Outcome.next (s.setFdec g)) (if_pos h)
  · rw [← hclosed .checksum]
    exact congrArg (fun g => Host.Outcome.next (s.setFdec g)) (if_neg (by rw [flgHasChecksum, FrameDec.advance, h]; decide))
  · have hload : hostLoad (f.advance 4 .ended).out (f.advance 4 .ended).outLen s = .ok (s.mem.readList f.out f.outLen) s :=
      hostLoad_may hidle hmay
    rw [exec, execContentChecksum, hload, ← hclosed .ended]
    simp only [HostRes.of_ok, HostRes.bind_ok, frameOutcome]
    split
    · rfl
    · rfl

/-! ### Records (R247, R254 to R258) -/

theorem payloadThere_ok {f : FrameDec} {len : Nat} (h : f.cur + len ≤ f.len) (s : State) : payloadThere f len s = .ok () s :=
  if_neg (by omega)

theorem payloadThere_cut {f : FrameDec} {len : Nat} (hcur : f.cur ≤ f.len) (h : f.len < f.cur + len) (s : State) :
    payloadThere f len s = .fail .unexpectedEof s :=
  if_pos (by omega)

/-- Output within `max_output_size` finds a buffer, whatever size it has grown to (R256). -/
theorem FrameDec.grow_eq {f : FrameDec} {need : Nat} (hcap : ∀ m, f.maxOut = some m → need ≤ m) :
    ∃ buf, f.grow need = some { f with bufCap := buf } := by
  unfold FrameDec.grow
  split
  · exact ⟨_, rfl⟩
  · next m hm => rw [if_neg (Nat.not_lt.mpr (hcap m hm))]; exact ⟨_, rfl⟩

/-- Output within the class and `max_output_size` is counted, and nothing else changes (R256, R258). -/
theorem appendOutput_ok {f : FrameDec} {k : Nat} {s : State} (hclass : oversize s.cfg f.bd k = false)
    (hcap : ∀ m, f.maxOut = some m → f.outLen + k ≤ m) :
    ∃ buf, appendOutput f k s = .ok { f with outLen := f.outLen + k, bufCap := buf } s := by
  obtain ⟨buf, hgrow⟩ := FrameDec.grow_eq hcap
  exact ⟨buf, by rw [appendOutput, hclass, if_neg (by decide), hgrow]⟩

/-- Settles O53: the payload is one load and one store of the host. -/
theorem storedBlock : Obligations.StoredBlock := by
  unfold Obligations.StoredBlock
  intro s len hidle hwf f hthere hclass hcap hsrc hdst
  have hpay := payloadThere_ok (f := f.advance 4 .word) hthere s
  obtain ⟨buf, happ⟩ := appendOutput_ok (f := f.advance 4 .word) hclass hcap
  have hload := hostLoad_may hidle hsrc
  have hstore := hostStore_may (bs := s.mem.readList (f.src + (f.cur + 4)) len.toNat) hidle
    (by rw [Memory.length_readList]; exact hdst)
  refine ⟨(s.setMem (s.mem.writeList (f.out + f.outLen) (s.mem.readList (f.src + (f.cur + 4)) len.toNat))).setFdec
    { f with cur := f.cur + 4 + len.toNat, point := .word, outLen := f.outLen + len.toNat, bufCap := buf }, ?_, rfl,
    stored_of_writeList hwf rfl⟩
  rw [exec, execBlockStored, hpay, HostRes.bind_ok, happ, HostRes.bind_ok]
  show frameOutcome ((HostRes.of (hostLoad (f.src + (f.cur + 4)) len.toNat s)).bind _) = _
  rw [hload, HostRes.of_ok, HostRes.bind_ok]
  show frameOutcome ((HostRes.of (hostStore (f.out + f.outLen) _ s)).bind _) = _
  rw [hstore]
  rfl

/-- Waiting host software can run DECOMPRESS on `n` bytes at `src` into `cap` bytes at `dst`: the engine is IDLE, no bus error is coming,
the operands fit their registers, and the host may reach both regions, which are apart. -/
structure HostCanDecompress (s : State) (src n dst cap : Nat) : Prop where
  idle : s.phase = .idle
  quiet : Quiet s
  wf : s.mem.wf
  params : s.cfg.wf = true
  source : HostMay s src n
  dest : HostMay s dst cap
  apart : src + n ≤ dst ∨ dst + cap ≤ src
  sourceAddr : src < 2 ^ s.cfg.addrW
  sourceLen : n < 2 ^ s.cfg.sizeW
  destAddr : dst < 2 ^ s.cfg.addrW
  destCap : cap < 2 ^ s.cfg.sizeW

/-- DECOMPRESS run by waiting host software has left `out` at `dst`, in a region of `cap` bytes: only these fields changed, and memory in
that region. -/
structure HostDecompressed (s t : State) (dst cap : Nat) (out : List Byte) : Prop where
  frame : t = { s with mem := t.mem, regs := t.regs, work := t.work, draws := t.draws }
  done : t.regs.done = true
  result : t.regs.resultLen.toNat = out.length
  bytes : t.mem.readList dst out.length = out
  other : ∀ a, a < dst ∨ dst + cap ≤ a → t.mem.read a = s.mem.read a

/-- The operand registers hold these numbers. -/
structure OperandsAre (u : State) (src n dst cap : Nat) : Prop where
  srcAddr : u.regs.srcAddr.toNat = src
  srcLen : u.regs.srcLen.toNat = n
  dstAddr : u.regs.dstAddr.toNat = dst
  dstCap : u.regs.dstCap.toNat = cap

namespace HostCanDecompress
variable {s : State} {src n dst cap : Nat} (h : HostCanDecompress s src n dst cap)
include h

/-- Operands that fit their registers are written whole (R33). -/
theorem operands : OperandsAre (s.setOperands src n dst cap) src n dst cap :=
  have ⟨hsize, haddr⟩ := widths_of_wf h.params
  ⟨truncTo_ofNat haddr h.sourceAddr, truncTo_ofNat hsize h.sourceLen, truncTo_ofNat haddr h.destAddr, truncTo_ofNat hsize h.destCap⟩

theorem operandsLegal : OperandsLegal (s.setOperands src n dst cap) := by
  obtain ⟨hsa, hn, hda, hcap⟩ := h.operands
  have hapart := h.apart
  rw [OperandsLegal, hsa, hn, hda, hcap]
  exact ⟨h.source.1, h.dest.1, by omega⟩

theorem ordinaryMemory : OrdinaryMemory (s.setOperands src n dst cap) := by
  obtain ⟨hsa, hn, hda, hcap⟩ := h.operands
  rw [OrdinaryMemory, hsa, hn, hda, hcap]
  exact ⟨h.source.2.1, h.dest.2.1⟩

/-- The accepted command finds its regions ready, and they pass every check before the block (R74, R80). -/
theorem ready : Ready ((s.setOperands src n dst cap).accept .decompress) :=
  accept_ready .decompress h.quiet h.wf h.operandsLegal

/-- The whole command leaves a state inside it in which the source bytes are decoded, and ends there (R124, R195). -/
theorem runCommand_done {out : List Byte} (hdone : decodeBlock (s.mem.readList src n) cap = .done out) :
    out.length ≤ cap ∧ ∃ v, runCommand .decompress (s.setOperands src n dst cap) = .next (v.finish out.length) ∧
      Decoded ((s.setOperands src n dst cap).accept .decompress) v out := by
  obtain ⟨hsa, hn, -, hdcap⟩ := h.operands
  have hblock := decompressBlockR_quiet h.ready
  have hchecks := firstChecks_accept_passed (c := .decompress) (by decide) h.operandsLegal (fun hc => nomatch hc) h.ordinaryMemory
  have hend : decodeBlock (srcBytes ((s.setOperands src n dst cap).accept .decompress) 0
      ((s.setOperands src n dst cap).accept .decompress).work.n)
      ((s.setOperands src n dst cap).accept .decompress).work.cap = .done out := by
    show decodeBlock (operandBytes (s.setOperands src n dst cap)) (s.setOperands src n dst cap).regs.dstCap.toNat = _
    rw [operandBytes, hsa, hn, hdcap]
    exact hdone
  rw [hend] at hblock
  obtain ⟨hcap, v, hrun, hdec⟩ := hblock
  have hop : v.work.op = out.length := by rw [hdec.frame]
  refine ⟨hdcap ▸ hcap, v, ?_, hdec⟩
  rw [runCommand, commandBody_of_checks hchecks, commandBlock, hrun, Res.bind_ok, resultOf, hop]
  rfl

end HostCanDecompress

/-- DECOMPRESS run by waiting host software leaves the decoded bytes at the destination (R124, R240). -/
theorem hostRun_decompress {s : State} {src n dst cap : Nat} (h : HostCanDecompress s src n dst cap) {out : List Byte}
    (hdone : decodeBlock (s.mem.readList src n) cap = .done out) :
    ∃ t, hostRun .decompress src n dst cap s = .ok out.length t ∧ HostDecompressed s t dst cap out := by
  obtain ⟨hcap, v, hrun, hdec⟩ := h.runCommand_done hdone
  have hda : v.work.da = dst := by rw [hdec.frame]; exact h.operands.dstAddr
  have hvcap : v.work.cap = cap := by rw [hdec.frame]; exact h.operands.dstCap
  have hres : (BitVec.ofNat 64 out.length).toNat = out.length := by
    have hpow : 2 ^ s.cfg.sizeW ≤ 2 ^ 64 := Nat.pow_le_pow_right (by decide) (widths_of_wf h.params).1
    have hsize := h.destCap
    rw [BitVec.toNat_ofNat, Nat.mod_eq_of_lt (by omega)]
  refine ⟨(v.finish out.length).observed, ?_, ⟨?_, rfl, hres, ?_, fun a ha => ?_⟩⟩
  · rw [hostRun, hrun]
    exact congrArg (HostRes.ok · _) hres
  · rw [hdec.frame]
    show State.mk _ _ _ _ _ _ _ _ _ _ _ _ = State.mk _ _ _ _ _ _ _ _ _ _ _ _
    rw [State.mk.injEq]
    exact ⟨rfl, rfl, h.idle.symm, rfl, rfl, rfl, rfl, rfl, rfl, rfl, h.source.2.2.symm, rfl⟩
  · rw [← hda]
    exact (endMem_result v out.length).trans hdec.bytes
  · have hend : (v.endMem out.length).read a = v.mem.read a := endMem_notInDest v _ (by unfold InDest; omega)
    have hout : a < dst ∨ dst + out.length ≤ a := by omega
    rw [← h.operands.dstAddr] at hout
    exact hend.trans (hdec.other a hout)

/-- Settles O54: one DECOMPRESS of the payload, whose output is counted where it lies. -/
theorem compressedBlock : Obligations.CompressedBlock := by
  unfold Obligations.CompressedBlock
  intro s len out hidle hwf hquiet hparams hne f payload dst hthere hlen hblockCap hdst hsrcMay hdstMay hapart hdone hclass hcap
  have hpos : 0 < len.toNat := Nat.pos_of_ne_zero fun h0 => hne (BitVec.eq_of_toNat_eq h0)
  have hsrc : payload < 2 ^ s.cfg.addrW := by have := hsrcMay.1; omega
  obtain ⟨t, hrun, hmade⟩ := hostRun_decompress
    ⟨hidle, hquiet, hwf, hparams, hsrcMay, hdstMay, hapart, hsrc, hlen, hdst, hblockCap⟩ hdone
  have hcfg : t.cfg = s.cfg := by rw [hmade.frame]
  have hpay := payloadThere_ok (f := f.advance 4 .word) hthere s
  obtain ⟨buf, happ⟩ := appendOutput_ok (f := f.advance 4 .word) (s := t) (by rw [hcfg]; exact hclass) hcap
  refine ⟨t.setFdec { f with cur := f.cur + 4 + len.toNat, point := .word, outLen := f.outLen + out.length, bufCap := buf },
    ?_, ?_, hmade.done, hmade.result, hmade.bytes, hmade.other⟩
  · rw [exec, execBlockCompressed, busy_of_idle hidle, if_neg (by decide), hpay, HostRes.bind_ok]
    show frameOutcome ((hostRun .decompress payload len.toNat dst s.cfg.hostBlockCap s).bind _) = _
    rw [hrun, HostRes.bind_ok, happ]
    rfl
  · rw [hmade.frame]
    rfl

/-- Settles O55: the element's bytes, or the payload's, are not all there. -/
theorem frameTruncated : Obligations.FrameTruncated := by
  unfold Obligations.FrameTruncated
  intro s x len hidle f
  refine ⟨fun hm hx hcut => ?_, fun hcut hcur => ?_⟩
  · rw [step_frame hm hx, fetchFrame_truncated (s := tick s) hidle hcut]
    rfl
  · have hpay := payloadThere_cut (f := f.advance 4 .word) hcur hcut s
    constructor
    · rw [exec, execBlockStored, hpay]
      rfl
    · rw [exec, execBlockCompressed, busy_of_idle hidle, if_neg (by decide), hpay]
      rfl

/-- Settles O56: the record is the encoded length word before its payload, and decoding inverts encoding. -/
theorem recordChoice : Obligations.RecordChoice := by
  unfold Obligations.RecordChoice
  intro chunk block rest hblock hchunk hne
  refine ⟨fun hlt => ?_, fun hle => ?_⟩
  · have hlen : (BitVec.ofNat 31 block.length).toNat = block.length := by rw [BitVec.toNat_ofNat]; omega
    have hrec : recordBytes chunk block = leBytes 4 block.length ++ block := by
      rw [recordBytes, if_pos hlt]
      simp only [encodeElements, encode, hlen, Option.getD_some, List.append_nil]
    refine ⟨hrec, ?_⟩
    rw [hrec, List.append_assoc]
    refine decodeInvertsEncode _ _ _ _ (bne_iff_ne.mpr fun h0 => ?_) rfl (by rw [encode, hlen]) (fun _ h => nomatch h)
    rw [h0] at hlen
    exact absurd hlen hblock.ne
  · have hlen : (BitVec.ofNat 31 chunk.length).toNat = chunk.length := by rw [BitVec.toNat_ofNat]; omega
    have hrec : recordBytes chunk block = leBytes 4 (chunk.length + 2 ^ 31) ++ chunk := by
      rw [recordBytes, if_neg (Nat.not_lt.mpr hle)]
      simp only [encodeElements, encode, hlen, Option.getD_some, List.append_nil, Nat.add_comm]
    refine ⟨hrec, ?_⟩
    rw [hrec, List.append_assoc]
    exact decodeInvertsEncode _ _ _ _ rfl rfl (by rw [encode, hlen, Nat.add_comm]) (fun _ h => nomatch h)

end Machine
end Sys2Proof
end

section
/-! PROOFS. The streaming calls (47_host_frame_and_streaming.md sections 4 to 6): what each consumes, hands out and leaves in the sink
(O57). -/
namespace Sys2Proof
namespace Machine
open Safety

theorem HostRes.bind_assoc {α β γ : Type} (r : HostRes α) (k : α → State → HostRes β) (l : β → State → HostRes γ) :
    (r.bind k).bind l = r.bind fun a s => (k a s).bind l := by
  cases r <;> rfl

/-! ### What a write consumes (R260) -/

/-- Bytes accumulated without an error are all part of what the stream has seen: every turn but a first one with a full buffer consumes
a byte, so the fuel is enough. -/
theorem accumulate_seen {fuel : Nat} {bytes : List Byte} {s t : State} {a : Unit} (hfuel : bytes.length ≤ fuel)
    (hroom : s.host.scomp.acc = [] ∨ bytes.length < fuel) (h : accumulate fuel bytes s = .ok a t) :
    t.host.scomp.seen = s.host.scomp.seen ++ bytes := by
  induction fuel generalizing bytes s with
  | zero =>
    cases h
    rw [List.eq_nil_of_length_eq_zero (Nat.le_zero.mp hfuel), List.append_nil]
  | succ fuel ih =>
    rw [accumulate] at h
    split at h
    · next hshort =>
      cases h
      show s.host.scomp.seen ++ bytes.take _ = _
      rw [List.take_of_length_le hshort.le]
    · next hlong =>
      generalize hu : s.setScomp _ = u at h
      cases hflush : flushBlock u with
      | ok b v =>
        rw [hflush, HostRes.bind_ok] at h
        obtain ⟨hacc, hseen, -⟩ := flushBlock_ok hflush
        have hless : (bytes.drop (chunkSize s.cfg - s.host.scomp.acc.length)).length ≤ fuel := by
          rw [List.length_drop]
          have hpos := chunkSize_pos s.cfg
          rcases hroom with hnil | hlt
          · rw [hnil, List.length_nil]; omega
          · omega
        rw [ih hless (.inl hacc) h, hseen, ← hu]
        show (s.host.scomp.seen ++ bytes.take _) ++ bytes.drop _ = _
        rw [List.append_assoc, List.take_append_drop]
      | fail e v => rw [hflush] at h; cases h
      | stop o => rw [hflush] at h; cases h

/-- The header changes neither the buffer nor what the stream has seen. -/
theorem streamHeader_seen {s : State} (h : s.host.scomp.point ≠ .finished) :
    (streamHeader s).host.scomp.seen = s.host.scomp.seen := by
  rw [streamHeader_eq h]

/-- A finished compressor does nothing (R260). -/
theorem streamWriteR_finished {s : State} (h : s.host.scomp.point = .finished) (bytes : List Byte) :
    streamWriteR bytes s = .ok 0 s := by
  unfold streamWriteR
  rw [h]

/-- A write that succeeds returns the number of its bytes, and the stream's content ends with them. -/
theorem streamWriteR_ok {s t : State} {bytes : List Byte} {k : Nat} (hp : s.host.scomp.point ≠ .finished)
    (h : streamWriteR bytes s = .ok k t) : k = bytes.length ∧ t.host.scomp.seen = s.host.scomp.seen ++ bytes := by
  rw [streamWriteR_eq hp] at h
  cases hacc : accumulate (bytes.length + 1) bytes (streamHeader s) with
  | ok a u =>
    rw [hacc] at h
    cases h
    refine ⟨rfl, ?_⟩
    rw [accumulate_seen (Nat.le_succ _) (.inr (Nat.lt_succ_self _)) hacc, streamHeader_seen hp]
  | fail e u => rw [hacc] at h; cases h
  | stop o => rw [hacc] at h; cases h

/-! ### Reads (R264) -/

/-- Once finished, with nothing left, a read returns 0. -/
theorem streamReadR_finished {s : State} (hp : s.host.sdec.point = .finished) (hnil : s.host.sdec.pending = []) (k : Nat) :
    streamReadR k s = .ok 0 s := by
  have hopen : streamOpen s = .ok () s := by unfold streamOpen; rw [hp]
  rw [streamReadR, hopen, HostRes.bind_ok, if_pos hnil, hp]

/-- What is left of the decoded block is handed out first. -/
theorem streamReadR_pending {s : State} (hp : s.host.sdec.point ≠ .headerNotRead) (hne : s.host.sdec.pending ≠ []) (k : Nat) :
    streamReadR k s = streamDrain k s := by
  have hopen : streamOpen s = .ok () s := by
    unfold streamOpen
    split
    · next h => exact absurd h hp
    · rfl
  rw [streamReadR, hopen, HostRes.bind_ok, if_neg hne]

/-! ### Calls as steps of the host (R240, R265) -/

theorem whenIdle_idle {s : State} (h : s.phase = .idle) (waiting : State) (o : Host.Outcome State Fault Refusal) :
    whenIdle s waiting o = o := by
  rw [whenIdle, busy_of_idle h, if_neg (by decide)]

section
variable {s t : State} {q : List HostAct} {k : Nat} (hidle : s.phase = .idle)
include hidle

/-- A call of the streaming compressor is one step of an IDLE engine's host, which keeps the value. -/
theorem step_scompCall {a : HostAct} {call : State → HostRes Nat}
    (hfetch : ∀ u w, fetchAct a u w = .other (whenIdle u w (scompOutcome (call u)))) (hdoes : HostDoes s a q)
    (hok : call (dequeued s q) = .ok k t) : step s = .next (t.pushRead (BitVec.ofNat 64 k)) := by
  rw [step_hostDoes hdoes, hfetch, hok, whenIdle_idle (s := dequeued s q) hidle]
  rfl

/-- A read is one step of an IDLE engine's host, which keeps the value. -/
theorem step_streamRead {n : Nat} (hdoes : HostDoes s (.streamRead n) q) (hok : streamReadR n (dequeued s q) = .ok k t) :
    step s = .next (t.pushRead (BitVec.ofNat 64 k)) := by
  rw [step_hostDoes hdoes, fetchAct, hok, whenIdle_idle (s := dequeued s q) hidle]
  rfl

end

/-! ### The header (R260) -/

/-- The sink once the header is written. -/
def StreamComp.begun (c : Params) (f : StreamComp) : List Byte :=
  if f.point = .headerNotWritten then f.sink ++ headerBytes c none else f.sink

theorem streamHeader_eq_setScomp {s : State} (h : s.host.scomp.point ≠ .finished) :
    streamHeader s = s.setScomp { s.host.scomp with point := .accumulating, sink := s.host.scomp.begun s.cfg } :=
  streamHeader_eq h

/-- A header is written once. -/
theorem streamHeader_accumulating {s : State} (h : s.host.scomp.point = .accumulating) : streamHeader s = s := by
  unfold streamHeader
  rw [h]

/-! ### A flush (R250, R260, R261) -/

/-- From `s` the streaming compressor went on to `g`, running COMPRESS on its `m` accumulated bytes: besides its own state these fields
changed only, and memory in its two buffers. -/
structure StreamRan (s t : State) (m : Nat) (g : StreamComp) : Prop where
  frame : t = { s with
    mem := t.mem, regs := t.regs, work := t.work, ht := t.ht, draws := t.draws, host := { s.host with scomp := g } }
  other : ∀ a, (a < s.host.scomp.accAddr ∨ s.host.scomp.accAddr + m ≤ a) →
    (a < s.host.scomp.scratch ∨ s.host.scomp.scratch + scratchSize s.cfg s.host.scomp.scratchCap m ≤ a) →
      t.mem.read a = s.mem.read a

theorem StreamRan.scomp {s t : State} {m : Nat} {g : StreamComp} (h : StreamRan s t m g) : t.host.scomp = g := by rw [h.frame]

theorem StreamRan.cfg {s t : State} {m : Nat} {g : StreamComp} (h : StreamRan s t m g) : t.cfg = s.cfg := by rw [h.frame]

theorem StreamRan.setScomp {s t : State} {m : Nat} {g : StreamComp} (h : StreamRan s t m g) (g' : StreamComp) :
    StreamRan s (t.setScomp g') m g' :=
  ⟨by rw [h.frame]; rfl, h.other⟩

/-- The host can run COMPRESS on `m` accumulated bytes of its streaming compressor. -/
def CanFlush (s : State) (m : Nat) : Prop :=
  HostCanCompress s s.host.scomp.accAddr m s.host.scomp.scratch (scratchSize s.cfg s.host.scomp.scratchCap m)

/-- R250's record of some bytes, by the reference compressor. -/
def referenceRecord (bytes : List Byte) : List Byte := recordBytes bytes (encodeElements (refElements bytes))

/-- A flush emits the record of what is accumulated, wherever the stream stands. -/
theorem flushBlock_record {s : State} {p : StreamOutPoint} {acc seen sink : List Byte} (h : CanFlush s acc.length) :
    ∃ t, flushBlock (s.setScomp { s.host.scomp with point := p, acc := acc, seen := seen, sink := sink }) = .ok () t ∧
      StreamRan s t acc.length
        { s.host.scomp with point := p, acc := [], seen := seen, sink := sink ++ referenceRecord acc } := by
  have h' : HostCanCompress (s.setScomp { s.host.scomp with point := p, acc := acc, seen := seen, sink := sink })
      s.host.scomp.accAddr acc.length s.host.scomp.scratch (scratchSize s.cfg s.host.scomp.scratchCap acc.length) := { h with }
  obtain ⟨t, hflush, hframe, -, hother⟩ := flushBlock_reference h'
  exact ⟨t, hflush, hframe, hother⟩

/-! ### Writes (R260) -/

/-- The buffer with `bytes` taken in. -/
def streamFilled (s : State) (bytes : List Byte) : State :=
  s.setScomp { s.host.scomp with acc := s.host.scomp.acc ++ bytes, seen := s.host.scomp.seen ++ bytes }

/-- Bytes that do not fill the buffer are kept. -/
theorem accumulate_short {s : State} {bytes : List Byte} (h : s.host.scomp.acc.length + bytes.length < chunkSize s.cfg) (fuel : Nat) :
    accumulate (fuel + 1) bytes s = .ok () (streamFilled s bytes) := by
  have hshort : bytes.length < chunkSize s.cfg - s.host.scomp.acc.length := by omega
  rw [accumulate, if_pos hshort, List.take_of_length_le hshort.le]
  rfl

/-- Bytes that fill the buffer leave as one record, and the rest follows. -/
theorem accumulate_full {s : State} {xs : List Byte} (h : s.host.scomp.acc.length + xs.length = chunkSize s.cfg) (ys : List Byte)
    (fuel : Nat) :
    accumulate (fuel + 1) (xs ++ ys) s = (flushBlock (streamFilled s xs)).bind fun _ t => accumulate fuel ys t := by
  have hroom : chunkSize s.cfg - s.host.scomp.acc.length = xs.length := by omega
  have hlong : ¬ (xs ++ ys).length < xs.length := by rw [List.length_append]; omega
  rw [accumulate, hroom, if_neg hlong, List.take_left, List.drop_left]
  rfl

theorem streamFilled_nil (s : State) : streamFilled s [] = s := by
  unfold streamFilled
  rw [List.append_nil, List.append_nil]
  rfl

/-- An empty write into an empty buffer changes nothing. -/
theorem accumulate_nil {s : State} (h : s.host.scomp.acc = []) (fuel : Nat) : accumulate (fuel + 1) [] s = .ok () s := by
  rw [accumulate_short (by rw [h]; exact chunkSize_pos _), streamFilled_nil]

section
variable {s : State} (hp : s.host.scomp.point ≠ .finished)
include hp

theorem streamHeader_cfg : (streamHeader s).cfg = s.cfg := by rw [streamHeader_eq_setScomp hp]; rfl
theorem streamHeader_acc : (streamHeader s).host.scomp.acc = s.host.scomp.acc := by rw [streamHeader_eq_setScomp hp]; rfl

theorem streamWriteR_short {bytes : List Byte} (h : s.host.scomp.acc.length + bytes.length < chunkSize s.cfg) :
    streamWriteR bytes s = .ok bytes.length (s.setScomp { s.host.scomp with
      point := .accumulating, acc := s.host.scomp.acc ++ bytes, seen := s.host.scomp.seen ++ bytes
      sink := s.host.scomp.begun s.cfg }) := by
  rw [streamWriteR_eq hp, accumulate_short (by rw [streamHeader_acc hp, streamHeader_cfg hp]; exact h),
    streamHeader_eq_setScomp hp]
  rfl

section
variable {xs : List Byte} (hlen : s.host.scomp.acc.length + xs.length = chunkSize s.cfg)
include hlen

/-- A write that fills the buffer flushes it, and the rest is accumulated. -/
theorem streamWriteR_full (ys : List Byte) :
    streamWriteR (xs ++ ys) s = (flushBlock (streamFilled (streamHeader s) xs)).bind fun _ t =>
      (accumulate (xs ++ ys).length ys t).bind fun _ u => .ok (xs ++ ys).length u := by
  rw [streamWriteR_eq hp, accumulate_full (by rw [streamHeader_acc hp, streamHeader_cfg hp]; exact hlen),
    HostRes.bind_assoc]

variable (hne : xs ≠ [])
include hne

/-- A write that just fills the buffer is its flush. -/
theorem streamWriteR_fills :
    streamWriteR xs s = (flushBlock (streamFilled (streamHeader s) xs)).bind fun _ t => .ok xs.length t := by
  have hwrite := streamWriteR_full hp hlen []
  rw [List.append_nil] at hwrite
  rw [hwrite]
  cases hflush : flushBlock (streamFilled (streamHeader s) xs) with
  | ok a t =>
    obtain ⟨n, hn⟩ := Nat.exists_eq_succ_of_ne_zero (mt List.eq_nil_of_length_eq_zero hne)
    simp only [HostRes.bind_ok, hn, accumulate_nil (flushBlock_ok hflush).1]
  | fail e t => rfl
  | stop o => rfl

theorem streamWriteR_record (hcan : CanFlush s (chunkSize s.cfg)) :
    ∃ t, streamWriteR xs s = .ok xs.length t ∧ StreamRan s t (chunkSize s.cfg) { s.host.scomp with
      point := .accumulating, acc := [], seen := s.host.scomp.seen ++ xs
      sink := s.host.scomp.begun s.cfg ++ referenceRecord (s.host.scomp.acc ++ xs) } := by
  have hfull : (s.host.scomp.acc ++ xs).length = chunkSize s.cfg := by rw [List.length_append]; exact hlen
  rw [← hfull] at hcan ⊢
  obtain ⟨t, hflush, hran⟩ := flushBlock_record (p := .accumulating) (seen := s.host.scomp.seen ++ xs)
    (sink := s.host.scomp.begun s.cfg) hcan
  refine ⟨t, ?_, hran⟩
  rw [streamWriteR_fills hp hlen hne, streamHeader_eq_setScomp hp]
  exact congrArg (HostRes.bind · _) hflush

/-- A longer write is the one that fills the buffer and then the rest. -/
theorem streamWriteR_append {k : Nat} {t : State} (hok : streamWriteR xs s = .ok k t) (ys : List Byte) :
    streamWriteR (xs ++ ys) s = (streamWriteR ys t).bind fun j u => .ok (xs.length + j) u := by
  rw [streamWriteR_fills hp hlen hne] at hok
  rw [streamWriteR_full hp hlen]
  cases hflush : flushBlock (streamFilled (streamHeader s) xs) with
  | ok a v =>
    rw [hflush] at hok
    cases hok
    obtain ⟨hacc, -, hpoint⟩ := flushBlock_ok hflush
    have hacm : t.host.scomp.point = .accumulating := by rw [hpoint, streamHeader_eq_setScomp hp]; rfl
    have hroom : t.host.scomp.acc.length < chunkSize t.cfg := by rw [hacc]; exact chunkSize_pos _
    have hfuel : ys.length < (xs ++ ys).length := by
      rw [List.length_append]
      have := List.length_pos_iff.mpr hne
      omega
    rw [streamWriteR_eq (by rw [hacm]; decide), streamHeader_accumulating hacm, HostRes.bind_ok, accumulate_fuel hfuel hroom,
      List.length_append, HostRes.bind_assoc]
    rfl
  | fail e v => rw [hflush] at hok; cases hok
  | stop o => rw [hflush] at hok; cases hok

end

/-! ### `flush` and `finish` (R261) -/

theorem streamFlushR_eq :
    streamFlushR s = if s.host.scomp.acc = [] && !s.cfg.streamEmptyFlush then .ok 0 s
      else (flushBlock (streamHeader s)).bind fun _ t => .ok 0 t := by
  unfold streamFlushR
  split
  · next h => exact absurd h hp
  · rfl

theorem streamFlushR_nothing (hacc : s.host.scomp.acc = []) (hempty : s.cfg.streamEmptyFlush = false) :
    streamFlushR s = .ok 0 s := by
  rw [streamFlushR_eq hp, hacc, hempty]
  rfl

theorem streamFlushR_record (hflushes : s.host.scomp.acc ≠ [] ∨ s.cfg.streamEmptyFlush = true)
    (hcan : CanFlush s s.host.scomp.acc.length) :
    ∃ t, streamFlushR s = .ok 0 t ∧ StreamRan s t s.host.scomp.acc.length { s.host.scomp with
      point := .accumulating, acc := [], sink := s.host.scomp.begun s.cfg ++ referenceRecord s.host.scomp.acc } := by
  obtain ⟨t, hflush, hran⟩ := flushBlock_record (p := .accumulating) (seen := s.host.scomp.seen)
    (sink := s.host.scomp.begun s.cfg) hcan
  have hgo : ¬ (s.host.scomp.acc = [] && !s.cfg.streamEmptyFlush) = true := by
    rw [Bool.and_eq_true, decide_eq_true_eq, Bool.not_eq_true']
    rintro ⟨hacc, hempty⟩
    rcases hflushes with h | h
    · exact h hacc
    · rw [hempty] at h; cases h
  refine ⟨t, ?_, hran⟩
  rw [streamFlushR_eq hp, if_neg hgo, streamHeader_eq_setScomp hp]
  exact congrArg (HostRes.bind · _) hflush

/-- The sink when the remainder leaves: with the header as STREAM_FINISH_HEADER says. -/
def begunAtEnd (s : State) : List Byte := if s.cfg.streamFinishHeader then s.host.scomp.begun s.cfg else s.host.scomp.sink

/-- The stream with the trailer of its content emitted, closed. -/
def streamClosed (s : State) : State :=
  s.setScomp { s.host.scomp with
    point := .finished, sink := s.host.scomp.sink ++ trailerBytes s.cfg s.host.scomp.seen }

theorem streamFinishR_eq : ∃ p, streamFinishR s =
    (flushRemainder (s.setScomp { s.host.scomp with point := p, sink := begunAtEnd s })).bind fun _ t => .ok 0 (streamClosed t) := by
  have hbegin : ∃ p, (if s.cfg.streamFinishHeader then streamHeader s else s)
      = s.setScomp { s.host.scomp with point := p, sink := begunAtEnd s } := by
    unfold begunAtEnd
    split
    · exact ⟨_, streamHeader_eq_setScomp hp⟩
    · exact ⟨s.host.scomp.point, rfl⟩
  obtain ⟨p, hbegin⟩ := hbegin
  refine ⟨p, ?_⟩
  rw [← hbegin]
  unfold streamFinishR
  split
  · next h => exact absurd h hp
  · rfl

theorem streamFinishR_empty (hacc : s.host.scomp.acc = []) :
    streamFinishR s = .ok 0 (s.setScomp { s.host.scomp with
      point := .finished, sink := begunAtEnd s ++ trailerBytes s.cfg s.host.scomp.seen }) := by
  obtain ⟨p, hfinish⟩ := streamFinishR_eq hp
  rw [hfinish, flushRemainder, if_pos (by exact hacc)]
  rfl

theorem streamFinishR_record (hacc : s.host.scomp.acc ≠ []) (hcan : CanFlush s s.host.scomp.acc.length) :
    ∃ t, streamFinishR s = .ok 0 t ∧ StreamRan s t s.host.scomp.acc.length { s.host.scomp with
      point := .finished, acc := []
      sink := begunAtEnd s ++ referenceRecord s.host.scomp.acc ++ trailerBytes s.cfg s.host.scomp.seen } := by
  obtain ⟨p, hfinish⟩ := streamFinishR_eq hp
  obtain ⟨t, hflush, hran⟩ := flushBlock_record (p := p) (seen := s.host.scomp.seen) (sink := begunAtEnd s) hcan
  refine ⟨streamClosed t, ?_, ?_⟩
  · rw [hfinish, flushRemainder, if_neg (by exact hacc)]
    exact congrArg (HostRes.bind · _) hflush
  · rw [streamClosed, hran.scomp, hran.cfg]
    exact hran.setScomp _

end

/-! ### The streaming calls together -/

/-- Settles O57: what the calls consume and hand out, the calls as steps, and what each leaves in the sink. -/
theorem streamCalls : Obligations.StreamCalls := by
  unfold Obligations.StreamCalls
  refine ⟨fun s t bytes k hok => ⟨fun hfin => ?_, fun hp => streamWriteR_ok hp hok⟩,
    fun s k => ⟨fun hfin hnil => streamReadR_finished hfin hnil k, fun hp hne => ?_⟩,
    fun s q => ⟨fun hdoes => step_hostDoes hdoes, fun acc scratch scratchCap hdoes => step_hostDoes hdoes,
      fun bytes n p hmem hidle hdoes k t hok => ?_⟩, ?_⟩
  · rw [streamWriteR_finished hfin] at hok
    cases hok
    exact ⟨rfl, rfl⟩
  · rw [streamReadR_pending hp hne, streamDrain, List.length_take]
    rfl
  · simp only [List.mem_cons, List.not_mem_nil, or_false] at hmem
    rcases hmem with rfl | rfl | rfl | rfl
    · exact step_scompCall hidle (fun _ _ => rfl) hdoes hok
    · exact step_scompCall hidle (fun _ _ => rfl) hdoes hok
    · exact step_scompCall hidle (fun _ _ => rfl) hdoes hok
    · exact step_streamRead hidle hdoes hok
  · intro s hp f flg bd begun begunEnd record trailer can without compressing
    have hbegun : begun = f.begun s.cfg := by rw [StreamComp.begun, headerBytes_stream]
    have hbegunEnd : begunEnd = begunAtEnd s := by rw [begunAtEnd, ← hbegun]
    have htrailer : trailer = trailerBytes s.cfg f.seen := (trailerBytes_eq _ _).symm
    have hran : ∀ {m k r g}, (∃ t, r = .ok k t ∧ StreamRan s t m g) → compressing m r k g :=
      fun ⟨t, hr, h⟩ => ⟨t, hr, h.frame, h.other⟩
    rw [hbegun, hbegunEnd, htrailer]
    exact ⟨fun bytes h => streamWriteR_short hp h, fun bytes hne hlen hcan => hran (streamWriteR_record hp hlen hne hcan),
      fun xs ys k t hne hlen hok => streamWriteR_append hp hlen hne hok ys, fun h he => streamFlushR_nothing hp h he,
      fun h hcan => hran (streamFlushR_record hp h hcan), fun h => streamFinishR_empty hp h,
      fun h hcan => hran (streamFinishR_record hp h hcan)⟩

end Machine
end Sys2Proof
end

section
/-! PROOFS. Exceptions (60_exceptions.md): the error end (O23) and the interrupt line (O15). -/
namespace Sys2Proof
namespace Machine
open Safety

/-! ### The error end (R51, R126, R296) -/

/-- No command but COMPRESS touches the hash table (R51). -/
theorem endTable_of_not_compress {s : State} (h : ∀ p, s.phase ≠ .busy .compress p) : s.endTable = s.ht := by
  unfold State.endTable
  split
  · next p hp => exact absurd hp (h p)
  · rfl

/-- An overrun in DECOMPRESS_EXACT is reported as `EXACT_OVERRUN_ERROR` (R126). -/
theorem reportCode_overrun_of_exact {s : State} {p : Point} (h : s.phase = .busy .decompressExact p) :
    s.reportCode .outputTooSmall = if s.cfg.exactOverrun = .outputTooSmall then 3 else 1 := by
  rw [State.reportCode.eq_def, h]
  cases s.cfg.exactOverrun with
  | outputTooSmall => rfl
  | invalidData => rfl

/-- Anywhere else an overrun keeps its own code (R290). -/
theorem reportCode_overrun_of_not_exact {s : State} (h : ∀ p, s.phase ≠ .busy .decompressExact p) :
    s.reportCode .outputTooSmall = 3 := by
  unfold State.reportCode
  split
  · next hp _ => exact absurd hp (h _)
  · rfl

/-- Settles O23: the error end is `settle` with the reported code; of memory it frees the destination only. -/
theorem errorEnd : Obligations.ErrorEnd := by
  unfold Obligations.ErrorEnd
  refine fun s e => ⟨?_, rfl, endTable_of_not_compress, fun a ha => endMem_notInDest s 0 ha⟩
  rw [State.raiseEnd_regs]
  refine congrArg (s.regs.raised · s.work.ip s.work.op) ?_
  split
  · next p hp => exact reportCode_overrun_of_exact hp
  · exact reportCode_eq_code s (by decide)
  · exact reportCode_eq_code s (by decide)
  · next hnot => exact reportCode_overrun_of_not_exact hnot
  · exact reportCode_eq_code s (by decide)
  · exact reportCode_eq_code s (by decide)
  · exact reportCode_eq_code s (by decide)

/-! ### The interrupt line (R300) -/

theorem Regs.irq_iff (r : Regs) : r.irq = true ↔ r.irqEn = true ∧ (r.done = true ∨ r.err = true) := by
  rw [Regs.irq, Bool.and_eq_true, Bool.or_eq_true]

/-- With a flag set the line follows EN: it rises at what sets a flag if EN = 1. -/
theorem Regs.irq_eq_irqEn {r : Regs} (h : r.done = true ∨ r.err = true) : r.irq = r.irqEn := by
  rw [Regs.irq, Bool.or_eq_true _ _ |>.mpr h, Bool.and_true]

/-- With both flags clear the line is low, whatever EN is. -/
theorem Regs.irq_of_flags_clear {r : Regs} (hdone : r.done = false) (herr : r.err = false) : r.irq = false := by
  rw [Regs.irq, hdone, herr, Bool.or_false, Bool.and_false]

/-- With EN = 0 the line is low, whatever the flags are. -/
theorem Regs.irq_of_disabled {r : Regs} (h : r.irqEn = false) : r.irq = false := by
  rw [Regs.irq, h, Bool.false_and]

/-- A write to IRQ_EN sets EN, BUSY or not (R40, R331). -/
theorem regWrite_irqEn (s : State) (v : Word) : regWrite s 0x50 v = s.setRegs { s.regs with irqEn := v.getLsbD 0 } := by
  cases hb : s.busy with
  | false => exact regWrite_idle (idle_of_not_busy hb) 0x50 v
  | true => exact regWrite_busy hb 0x50 v

/-- A flag that is written with 1 where it is set ends up clear (R35). -/
theorem flag_cleared {flag written : Bool} (h : flag = true → written = true) : (flag && !written) = false := by
  cases flag with
  | false => rfl
  | true => rw [h rfl]; rfl

/-- Settles O15: both ends and `InvalidCommand` set a flag; acceptance and the clearing write leave none, and EN = 0 masks them. -/
theorem interruptLine : Obligations.InterruptLine := by
  unfold Obligations.InterruptLine
  intro s len e op c v
  refine ⟨Regs.irq_iff s.regs, Regs.irq_eq_irqEn (.inl rfl), Regs.irq_eq_irqEn (.inr rfl), fun hidle => ?_,
    Regs.irq_of_flags_clear rfl rfl, fun hv => ?_, fun hidle hdone herr => ?_⟩
  · refine ⟨s.setRegs s.regs.invalidCommand, ?_, Regs.irq_eq_irqEn (.inr rfl)⟩
    rw [exec, execReserved, busy_of_idle hidle]
    rfl
  · rw [regWrite_irqEn]
    exact Regs.irq_of_disabled hv
  · rw [regWrite_idle hidle]
    exact Regs.irq_of_flags_clear (flag_cleared hdone) (flag_cleared herr)

end Machine
end Sys2Proof
end

section
/-! PROOFS. Reset and hazards (70_reset_and_hazards.md): what a reset leaves (O11, O60), a machine with nothing to do (O10), and writes
while BUSY (O14). -/
namespace Sys2Proof
namespace Machine
open Safety

/-! ### Nothing to do (R321) -/

/-- Nobody moves when the engine is IDLE and the host has nothing to do, whoever is named next. -/
theorem mover_eq_none {s : State} (hidle : s.phase = .idle) (hhost : hostReady s.host = false) : mover s = none := by
  rw [mover, hhost, busy_of_idle hidle]
  split
  · rfl
  · rfl

/-- Where nobody moves, the step takes the turn off the list and does nothing else. -/
theorem step_of_mover_none {s : State} (h : mover s = none) : step s = .next (tick s) := by
  rw [step_eq, fetch, h]
  rfl

/-- Settles O10: nobody moves, and the reset state has no turn to take off. -/
theorem idleWaits : Obligations.IdleWaits := by
  unfold Obligations.IdleWaits
  have hwaits : ∀ s : State, s.phase = .idle → hostReady s.host = false → step s = .next (tick s) :=
    fun _ hidle hhost => step_of_mover_none (mover_eq_none hidle hhost)
  exact ⟨hwaits, hwaits .reset rfl rfl⟩

/-! ### The register block and memory after a reset (R33, R320, R322) -/

/-- An IDLE engine whose register block is at reset shows 0 at every offset but ID's (R33, R41). -/
theorem regRead_of_reset {t : State} (hidle : t.phase = .idle) (hregs : t.regs = .reset) (off : Nat) :
    regRead t off = if off = 0x58 then idWord t.cfg else 0 := by
  by_cases hid : off = 0x58
  · subst hid
    rfl
  · rw [regRead, hidle, hregs, if_neg hid]
    split_ifs <;> rfl

/-- A reset that finds the engine IDLE abandons no command and leaves memory as it is (R322). -/
theorem resetMem_of_idle {s : State} (h : s.phase = .idle) : s.resetMem = s.mem := by rw [State.resetMem, h]

/-- Settles O11: the register block is read at its reset values, memory is `resetMem`, and the step is the reset and what it closes. -/
theorem resetRegisters : Obligations.ResetRegisters := by
  unfold Obligations.ResetRegisters
  refine ⟨fun s t ht => ?_, fun s a ha => ?_, fun s q h => step_hostDoes h⟩
  · have hreset : t.phase = .idle ∧ t.regs = .reset := by
      rcases ht with rfl | rfl
      · exact ⟨rfl, rfl⟩
      · exact ⟨rfl, rfl⟩
    obtain ⟨hidle, hregs⟩ := hreset
    have hirq : t.irq = false := by
      rw [State.irq, hregs]
      exact Regs.irq_of_disabled rfl
    exact ⟨hidle, hirq, regRead_of_reset hidle hregs⟩
  · rcases ha with hidle | ha
    · exact congrArg (Memory.read · a) (resetMem_of_idle hidle)
    · exact resetMem_keeps s ha

/-- Settles O60: memory and the hash table are empty, and the register block at reset is sound in an IDLE engine. -/
theorem resetIsLegal : Obligations.ResetIsLegal := by
  unfold Obligations.ResetIsLegal
  have hcanonical : Canonical State.reset := ⟨by decide, by decide⟩
  exact ⟨hcanonical, regsLegal_of_sound rfl (regsSound_reset _)⟩

/-! ### Writes while BUSY (R40, R331) -/

theorem offerCommand_busy {s : State} (hb : s.busy = true) (c : Command) : offerCommand c s = s := by
  rw [offerCommand, hb]
  rfl

theorem execReserved_busy {s : State} (hb : s.busy = true) (op : BitVec 4) : execReserved op s = .next s := by
  rw [execReserved, hb]
  rfl

/-- A write to CMD while BUSY is ignored, whatever its opcode (R331). -/
theorem exec_decodeCommand_busy {s : State} (hb : s.busy = true) (v : Word) : exec (decodeCommand v) s = .next s := by
  have hoffer : ∀ c, (.next (offerCommand c s) : Host.Outcome State Fault Refusal) = .next s :=
    fun c => congrArg _ (offerCommand_busy hb c)
  rw [decodeCommand_of_op rfl]
  split_ifs
  · exact hoffer .compress
  · exact hoffer .decompress
  · exact hoffer .decompressExact
  · exact hoffer .bound
  · exact execReserved_busy hb (commandOp v)

/-- Settles O14: CMD by its opcode, and of the other registers only IRQ_EN takes the write. -/
theorem writesWhileBusy : Obligations.WritesWhileBusy := by
  unfold Obligations.WritesWhileBusy
  intro s v off hb
  have hignored : off ≠ 0x50 → regWrite s off v = s := fun hoff => by rw [regWrite_busy hb, if_neg hoff]
  exact ⟨exec_decodeCommand_busy hb v, hignored, regWrite_irqEn s v⟩

end Machine
end Sys2Proof
end
